-- ==== Sys2Proof/Word.lean ====
section
/-! DEFINITION. The word types of the machine and its plainest arithmetic. -/
namespace Sys2Proof

/-- A scalar register, an address, a system register (01 R8, R27). -/
abbrev Word := BitVec 64

/-- The smallest addressable unit. -/
abbrev Byte := BitVec 8

/-- One instruction word (04 R75). -/
abbrev IWord := BitVec 32

/-- A register number of an instruction word (04 R76). -/
abbrev Reg := BitVec 5

end Sys2Proof
end

