-- ==== Sys2Proof/Config.lean ====
section
/-! DEFINITION. The free values: what the spec leaves unspecified. None has a body, so nothing proved of the
machine can rest on a number. What may differ from one time to the next is applied to `tick`, the model's count of
steps, so that two instructions need not agree. -/
namespace Sys2Proof.Config

/-- An undefined 64-bit value: of step `tick`, of the place `slot` in the instruction, of element `e`
(00 R3, 01 R11, R12, R14, R20; log 5). -/
opaque freeBits (tick slot e : Nat) : BitVec 64

/-- An undefined truth value: mask and VSAT bits (01 R12, R14; log 5). -/
opaque freeBool (tick slot e : Nat) : Bool

/-- How a register position of `maxsew` bits arranges what was written with the layout `tag`
(01 R11, 09 R181; log 10): some arrangement, which loses nothing. -/
opaque arrange (maxsew tag : Nat) : Equiv.Perm (BitVec maxsew)

/-- Whether a translation cache still holds an entry it may hold (13 R293; log 8). -/
opaque tlbKeeps (tick : Nat) : Bool

/-- Whether a translation cache takes a run or block as one entry (13 R291, R293; log 8). -/
opaque tlbSpans (tick : Nat) : Bool

/-- How many runs below and above its own an entry of a die takes at most (13 R293; log 8). -/
opaque tlbReach (tick : Nat) : Nat × Nat

/-- Whether an access of a HOST or PEER address ends with an error response: no completion in time, or refused by the peer
(24 R405, R410; log 20). -/
opaque remoteError (tick addr : Nat) : Bool

/-- Cycles that passed since the count was last looked at (00 R2, 01 R32; log 9). -/
opaque elapsed (tick : Nat) : Nat

/-- Which entry leaves a full store buffer (13 R296; log 11). -/
opaque drainChoice (tick : Nat) : Nat

/-- An attestation answer as it is encoded, with its signatures and nonces (24 R412; log 12). -/
opaque spdmBytes (tick kind : Nat) : List Byte

/-- The digest that SHA-384 gives some numbers, as the device serialises them (24 R412; log 76). -/
opaque sha384 (content : List Nat) : BitVec 384

/-- The digest of the boot ROM; the key of the Umadin root; the secret in the device's fuses (24 R412; log 76). -/
opaque bootRomDigest : BitVec 384
opaque rootKey : BitVec 384
opaque fusedSecret : BitVec 384

/-- The key derived from a secret and some digests (24 R412; log 76). -/
opaque deriveKey (secret : BitVec 384) (digests : List (BitVec 384)) : BitVec 384

/-- Power and temperatures as telemetry reports them (24 R418; log 12). -/
opaque telemetry (tick : Nat) : List Word

/-- Which of the ports that lead to a device carries the traffic of one of its 4 KiB pages (24 R409; log 39). -/
opaque portChoice (device page : Nat) : Nat

end Sys2Proof.Config
end

