-- ==== Sys2Proof/Machine/Maps.lean ====
section
/-! DEFINITION. Sparse data by key: a list of key and value pairs with rising keys. -/
namespace Sys2Proof

/-- A finite map from numbers. -/
abbrev Map (α : Type) := List (Nat × α)

namespace Machine

/-- The value at a key, if one is listed. -/
def mapGet? {α : Type} : Map α → Nat → Option α
  | [], _ => none
  | (j, x) :: m, k => if j = k then some x else mapGet? m k

/-- The value at a key, or what an unlisted key stands for. -/
def mapGet {α : Type} (m : Map α) (k : Nat) (dflt : α) : α := (mapGet? m k).getD dflt

/-- The map with one value written; rising keys stay rising. -/
def mapSet {α : Type} : Map α → Nat → α → Map α
  | [], k, y => [(k, y)]
  | (j, x) :: m, k, y =>
    if j = k then (k, y) :: m else if k < j then (k, y) :: (j, x) :: m else (j, x) :: mapSet m k y

/-- The map without one key. -/
def mapErase {α : Type} : Map α → Nat → Map α
  | [], _ => []
  | (j, x) :: m, k => if j = k then mapErase m k else (j, x) :: mapErase m k

/-- The map with the entry of one key changed; an unlisted key starts from `dflt`. -/
def mapModify {α : Type} (m : Map α) (k : Nat) (dflt : α) (f : α → α) : Map α := mapSet m k (f (mapGet m k dflt))

/-- Keys rise strictly. -/
def mapRising {α : Type} : Map α → Bool
  | [] => true
  | [_] => true
  | (j, _) :: (k, x) :: m => decide (j < k) && mapRising ((k, x) :: m)

/-- One byte of a memory in canonical form: the value 0, which an unlisted address reads as, is not listed. -/
def memSet (m : Map (BitVec 8)) (a : Nat) (b : BitVec 8) : Map (BitVec 8) :=
  if b = 0 then mapErase m a else mapSet m a b

/-- The first n places of two lists, combined place by place; a place past the end of a list reads its default. -/
def overlay {α β γ : Type} (f : α → β → γ) (da : α) (db : β) : Nat → List α → List β → List γ
  | 0, _, _ => []
  | n + 1, xs, ys => f (xs.headD da) (ys.headD db) :: overlay f da db n xs.tail ys.tail

/-- Put a number where it belongs in a rising list. -/
def insertNat (a : Nat) : List Nat → List Nat
  | [] => [a]
  | b :: l => if a ≤ b then a :: b :: l else b :: insertNat a l

/-- Numbers in rising order. -/
def sortNat (l : List Nat) : List Nat := l.foldr insertNat []

end Machine
end Sys2Proof
end

