-- ==== Sys2Proof/Syntax.lean ====
section
/-! DEFINITION. The steps of the machine: one constructor of `Instr` for each row of spec/opcode_table.json.
The first part are the encoded instructions (04 R75 to R88), the second part the events of the device, which
have no word and stand in the machine's agenda. -/
namespace Sys2Proof

/-- Operands of an opcode 0x14 or 0x15 instruction (04 R76, R84): convoy bit, destination, bits 19:15 (a vector
register, a scalar register or a five-bit immediate), second source, mask bit, density bit, form. -/
structure VOp where
  c : Bool
  vd : Reg
  s1 : Reg
  vs2 : Reg
  m : Bool
  d : Bool
  form : BitVec 2
  deriving DecidableEq, Repr

/-- Operands of a single-source vector instruction (04 R85). -/
structure VUn where
  c : Bool
  vd : Reg
  vs2 : Reg
  m : Bool
  d : Bool
  deriving DecidableEq, Repr

/-- Operands of a reduction (04 R85): seed in vs1, tile in vs2, TILE bit. -/
structure VRed where
  c : Bool
  vd : Reg
  vs1 : Reg
  vs2 : Reg
  m : Bool
  tile : Bool
  deriving DecidableEq, Repr

/-- Operands of a vector memory instruction (04 R86): data register, base, bits 14:10 (stride, stride pair or
index vector). -/
structure VMem where
  c : Bool
  v : Reg
  base : Reg
  x : Reg
  m : Bool
  d : Bool
  deriving DecidableEq, Repr

/-- Operands of an atomic (04 R82): destination, base, source, scope, order, width code. -/
structure Amo where
  gd : Reg
  base : Reg
  gs : Reg
  scope : BitVec 2
  order : BitVec 2
  width : BitVec 2
  deriving DecidableEq, Repr

/-- What a Greenhouse core asks of memory (22 R380, R382); an atomic names its operation by the codes of 09 R173, 11 for
an exclusive or. -/
inductive AccessKind
  | fetch | load | store | amo (op : Nat) | lr | sc
  deriving DecidableEq, Repr

/-- One access of a Greenhouse core (22 R379, R380): `user` is the mode it is made in, `rd` the register that takes what it
returns (0 to 31 the x, 32 to 63 the f registers), `len` the length of the instruction's encoding. -/
structure CoreAccess where
  core : Nat
  addr : Nat
  size : Nat
  kind : AccessKind
  data : Word
  user : Bool
  rd : Nat
  len : Nat
  deriving DecidableEq, Repr

/-- An ordinary request at a bank (14 R320): a fill of a sector, a write of a dirty sector, or one sector of a
running sweep. -/
inductive BankRequest
  | fill (sector : Nat)
  | write (sector : Nat)
  | sweep (id sector : Nat)
  deriving DecidableEq, Repr

/-- A unit that fails hard (24 R416). -/
inductive FailedUnit
  | column (col : Nat)
  | bank (channel bank : Nat)
  | package (n : Nat)
  | link (n : Nat) (down : Bool)
  | lane (port : Nat) (lanes : Nat)
  | gcore (core : Nat)
  deriving DecidableEq, Repr

/-- Power modes (24 R414). -/
inductive PowerMode
  | balanced | matrix | memory
  /-- The columns that take only gangs of PRIO 0 and 1. -/
  | latency (columns : List Nat)
  deriving DecidableEq, Repr

/-- A signature (24 R411; log 75): the digest of the key that verifies it, and the image digest that it signs. -/
structure ImageSignature where
  key : BitVec 384
  signs : BitVec 384
  deriving DecidableEq, Repr

/-- A boot image (24 R411): its SHA-384 digest, its ECDSA P-384 and its LMS signature, its security version. -/
structure BootImage where
  digest : BitVec 384
  ecdsa : ImageSignature
  lms : ImageSignature
  version : Nat
  deriving DecidableEq, Repr

/-- The four images a boot checks, in their stages (24 R411). -/
structure BootImages where
  management : BootImage
  supervisor : BootImage
  monitor : BootImage
  deriving DecidableEq, Repr

/-- What management assigns a tenant (24 R413). -/
structure TenantSpec where
  asid : Nat
  columns : List Nat
  granules : List Nat
  blocks : List Nat
  queues : List Nat
  slots : List Nat
  mailboxes : List Nat
  quota : Nat
  vector : Word
  scratch : Word
  ptbase : Word
  functions : List Nat
  deriving DecidableEq, Repr

/-- A peer window (24 R410). -/
structure PeerWindow where
  source : Nat
  base : Nat
  size : Nat
  canRead : Bool
  canWrite : Bool
  asid : Nat
  deriving DecidableEq, Repr

/-- A store covered by error correction (24 R415): the granule of a position of a vector register of a hart; that of an
accumulator word of a column, by physical row × 384 + column; a stream in the weight buffer of a hart; a sector of a
core's L1; a sector of the arrays or a vault; a sector at its home; a granule of the SRAM or of the instruction cache of a
Greenhouse core, by byte address over 8; a structure that gangs on some columns could have used. -/
inductive EccStore
  | register (hart reg pos : Nat) | accumulator (col word : Nat) | weights (hart stream : Nat)
  | l1 (col sector : Nat) | sector (n : Nat) | home (n : Nat) | gsram (core granule : Nat) | gcache (core granule : Nat)
  | structural (columns : List Nat)
  deriving DecidableEq, Repr

/-- Every row of spec/opcode_table.json. -/
inductive Instr where
  -- opcode 0x00 (04 R79)
  | srr (gd : Reg) (sr : BitVec 12)
  | srw (gd gs : Reg) (sr : BitVec 12)
  | srset (gd gs : Reg) (sr : BitVec 12)
  | srclr (gd gs : Reg) (sr : BitVec 12)
  | trap (imm : BitVec 12)
  | fence (scope : BitVec 2) (before after : BitVec 4)
  | rett
  | park
  | brk
  | exit
  | trigger
  | launch (gd gs : Reg)
  | rngsnap (gs : Reg)
  | rngload (gs : Reg)
  -- opcode 0x01 (04 R80)
  | add (gd gs1 gs2 : Reg)
  | sub (gd gs1 gs2 : Reg)
  | and (gd gs1 gs2 : Reg)
  | or (gd gs1 gs2 : Reg)
  | xor (gd gs1 gs2 : Reg)
  | andn (gd gs1 gs2 : Reg)
  | sll (gd gs1 gs2 : Reg)
  | srl (gd gs1 gs2 : Reg)
  | sra (gd gs1 gs2 : Reg)
  | slt (gd gs1 gs2 : Reg)
  | sltu (gd gs1 gs2 : Reg)
  | min (gd gs1 gs2 : Reg)
  | max (gd gs1 gs2 : Reg)
  | minu (gd gs1 gs2 : Reg)
  | maxu (gd gs1 gs2 : Reg)
  | mul (gd gs1 gs2 : Reg)
  | mulh (gd gs1 gs2 : Reg)
  | mulhu (gd gs1 gs2 : Reg)
  | div (gd gs1 gs2 : Reg)
  | divu (gd gs1 gs2 : Reg)
  | rem (gd gs1 gs2 : Reg)
  | remu (gd gs1 gs2 : Reg)
  | clz (gd gs1 : Reg)
  | ctz (gd gs1 : Reg)
  | popc (gd gs1 : Reg)
  | sext (gd gs1 : Reg) (code : BitVec 5)
  | zext (gd gs1 : Reg) (code : BitVec 5)
  -- opcodes 0x02 to 0x0A (04 R81)
  | addi (gd gs1 : Reg) (imm : BitVec 15)
  | andi (gd gs1 : Reg) (imm : BitVec 15)
  | ori (gd gs1 : Reg) (imm : BitVec 15)
  | xori (gd gs1 : Reg) (imm : BitVec 15)
  | slti (gd gs1 : Reg) (imm : BitVec 15)
  | sltiu (gd gs1 : Reg) (imm : BitVec 15)
  | slli (gd gs1 : Reg) (sh : BitVec 6)
  | srli (gd gs1 : Reg) (sh : BitVec 6)
  | srai (gd gs1 : Reg) (sh : BitVec 6)
  | lui (gd : Reg) (imm : BitVec 20)
  | auipc (gd : Reg) (imm : BitVec 20)
  -- opcodes 0x0B to 0x0D (04 R81, R82)
  | ldb (gd base : Reg) (off : BitVec 12)
  | ldbu (gd base : Reg) (off : BitVec 12)
  | ldh (gd base : Reg) (off : BitVec 12)
  | ldhu (gd base : Reg) (off : BitVec 12)
  | ldw (gd base : Reg) (off : BitVec 12)
  | ldwu (gd base : Reg) (off : BitVec 12)
  | ldd (gd base : Reg) (off : BitVec 12)
  | stb (gs base : Reg) (off : BitVec 12)
  | sth (gs base : Reg) (off : BitVec 12)
  | stw (gs base : Reg) (off : BitVec 12)
  | std (gs base : Reg) (off : BitVec 12)
  | ldacq (gd base : Reg) (scope width : BitVec 2)
  | strel (base gs : Reg) (scope width : BitVec 2)
  | amoadd (x : Amo)
  | amoswap (x : Amo)
  | amocas (x : Amo)
  | amomin (x : Amo)
  | amomax (x : Amo)
  | amominu (x : Amo)
  | amomaxu (x : Amo)
  | amoor (x : Amo)
  | amoand (x : Amo)
  -- opcodes 0x0E to 0x11 (04 R81)
  | beq (gs1 gs2 : Reg) (off : BitVec 12)
  | bne (gs1 gs2 : Reg) (off : BitVec 12)
  | blt (gs1 gs2 : Reg) (off : BitVec 12)
  | bge (gs1 gs2 : Reg) (off : BitVec 12)
  | bltu (gs1 gs2 : Reg) (off : BitVec 12)
  | bgeu (gs1 gs2 : Reg) (off : BitVec 12)
  | jal (gd : Reg) (off : BitVec 20)
  | jalr (gd gs1 : Reg) (imm : BitVec 15)
  | loop (lvl : Bool) (gs1 : Reg) (imm : BitVec 15)
  -- opcodes 0x12 and 0x13 (04 R83), with the ends of their waits
  | bar
  | barRelease (h : Nat)
  | waitaddr (gd gs1 gs2 : Reg)
  | waitaddrWake (h : Nat) (reason : BitVec 3)
  | waitaddrTimeout (h : Nat)
  | claim (gd gs1 gs2 : Reg)
  | pubwm (gs1 gs2 : Reg)
  | waitwm (gs1 gs2 : Reg)
  | waitwmSatisfied (h : Nat)
  | setregs (gd : Reg) (maxsew : BitVec 3) (count : BitVec 2)
  | stripBoundaryStallEnd (h : Nat)
  | settypeReg (gd gs1 : Reg)
  | settypeImm (gd : Reg) (imm : BitVec 10)
  | setlen (gd gs1 : Reg)
  | setlen2 (gd gs1 gs2 : Reg)
  | settile (gd gs1 gs2 : Reg)
  | tilebind (gd gs1 : Reg)
  | tilebindPartnersMet (h : Nat)
  -- opcode 0x14 (04 R84)
  | vadd (x : VOp)
  | vsub (x : VOp)
  | vrsub (x : VOp)
  | vmul (x : VOp)
  | vmulh (x : VOp)
  | vmulhu (x : VOp)
  | vand (x : VOp)
  | vor (x : VOp)
  | vxor (x : VOp)
  | vsll (x : VOp)
  | vsrl (x : VOp)
  | vsra (x : VOp)
  | vmin (x : VOp)
  | vmax (x : VOp)
  | vminu (x : VOp)
  | vmaxu (x : VOp)
  | vsadd (x : VOp)
  | vssub (x : VOp)
  | vmerge (x : VOp)
  | vcmp (x : VOp) (cond : BitVec 3)
  -- opcode 0x15 (04 R84)
  | vfadd (x : VOp)
  | vfsub (x : VOp)
  | vfmul (x : VOp)
  | vfdiv (x : VOp)
  | vfsqrt (x : VUn)
  | vfma (x : VOp)
  | vfnma (x : VOp)
  | vfms (x : VOp)
  | vfmin (x : VOp)
  | vfmax (x : VOp)
  | vfsgnCopy (x : VOp)
  | vfsgnNeg (x : VOp)
  | vfsgnXor (x : VOp)
  | vfclass (x : VUn)
  | vfcmp (x : VOp) (cond : BitVec 3)
  -- opcodes 0x16 and 0x17 (04 R85)
  | vfexp2 (x : VUn)
  | vflog2 (x : VUn)
  | vfrcp (x : VUn)
  | vfrsq (x : VUn)
  | vftanh (x : VUn)
  | vfsigm (x : VUn)
  | vcvt (x : VUn) (src : BitVec 6)
  | vquant (x : VUn) (src : BitVec 6)
  | vdeq (x : VUn) (src : BitVec 6)
  | vrand (c : Bool) (vd : Reg) (m d : Bool)
  -- opcode 0x18 (04 R85)
  | vmlog (c : Bool) (vd vs1 vs2 : Reg) (op : BitVec 3)
  | vmpopc (c : Bool) (gd vs2 : Reg) (m : Bool)
  | vmfirst (c : Bool) (gd vs2 : Reg) (m : Bool)
  | viota (c : Bool) (vd vs2 : Reg) (m : Bool)
  | vcompress (c : Bool) (vd vs2 : Reg)
  | vexpand (c : Bool) (vd vs2 : Reg)
  | vmvsat (c : Bool) (vd : Reg)
  -- opcode 0x19 (04 R85)
  | vredsum (x : VRed)
  | vredmin (x : VRed)
  | vredmax (x : VRed)
  | vredminu (x : VRed)
  | vredmaxu (x : VRed)
  | vredand (x : VRed)
  | vredor (x : VRed)
  | vfredsum (x : VRed)
  | vfredmin (x : VRed)
  | vfredmax (x : VRed)
  -- opcode 0x1A (04 R85)
  | vslideup (c : Bool) (vd s1 vs2 : Reg) (m : Bool) (form : BitVec 2)
  | vslidedn (c : Bool) (vd s1 vs2 : Reg) (m : Bool) (form : BitVec 2)
  | vgatherv (c : Bool) (vd vs1 vs2 : Reg) (m : Bool)
  | vbcast (c : Bool) (vd s1 : Reg) (m : Bool) (form : BitVec 2)
  | vmv (c : Bool) (vd vs2 : Reg) (m : Bool)
  | vmvxs (c : Bool) (gd vs2 : Reg)
  | vmvsx (c : Bool) (vd gs : Reg)
  -- opcodes 0x1B, 0x1C, 0x1E (04 R86)
  | vld (x : VMem)
  | vlds (x : VMem)
  | vld2d (x : VMem)
  | vldx (x : VMem)
  | vldwr (c : Bool) (vd base gd : Reg)
  | vst (x : VMem)
  | vsts (x : VMem)
  | vstx (x : VMem)
  | vstwr (c : Bool) (vs3 base gd : Reg)
  | vscatadd (x : VMem)
  -- opcode 0x1D (04 R87)
  | stripset (h gs1 gs2 : Reg) (chan : BitVec 2)
  | sld (c : Bool) (vd h : Reg)
  | sst (c : Bool) (vs3 h : Reg)
  | stripFlowRelease (h : Nat)
  | strippos (gd h : Reg)
  -- opcode 0x1F (04 R87)
  | wbld (c : Bool) (gs1 gs2 : Reg) (multi : Bool)
  | wbldRoom (h : Nat)
  | wbdrop (c : Bool)
  | mma (c : Bool) (vs2 : Reg)
  | accz (c : Bool)
  | acci (c : Bool) (gs1 vs2 : Reg)
  | accx (c : Bool) (vd gs1 : Reg) (m clr : Bool)
  | msave (c : Bool) (gd gs1 : Reg)
  | mrest (c : Bool) (gs1 : Reg)
  -- opcode 0x20 (04 R87)
  | knotset (c : Bool) (j : BitVec 6) (gs1 gs2 : Reg)
  | knotrd (c : Bool) (gd : Reg) (j : BitVec 6) (sel : Reg)
  | splld (c : Bool) (gs1 : Reg)
  | splst (c : Bool) (gs1 : Reg)
  | spl (c : Bool) (vs2 : Reg)
  | splbwd (c : Bool) (vs1 vs2 : Reg)
  | splgrad (c : Bool) (vs1 vs2 : Reg)
  | splgx (c : Bool) (gs1 : Reg) (clr : Bool)
  | splref (c : Bool) (vd gs1 vs2 : Reg) (deg : BitVec 2)
  -- opcode 0x21 (04 R87)
  | copyb (c : Bool) (gd vs2 : Reg) (m : Bool)
  | bankb (c : Bool) (gd vs2 : Reg) (m : Bool)
  | batchQueueRoom (h : Nat)
  | copywp (gd gs1 : Reg)
  | settle (c : Bool) (gs0 gs1 gs2 : Reg)
  | renew (c : Bool) (gs0 gs1 gs2 : Reg)
  | rgncnt (gd gs1 : Reg) (which : BitVec 2)
  -- opcode 0x22 (04 R87)
  | mbpost (c : Bool) (vs3 gs1 gd : Reg)
  | mbpostSlotFreed (h : Nat)
  | mbtake (c : Bool) (vd gs1 gd : Reg)
  | mbtakeRecordArrived (h : Nat)
  | mbpoll (gd gs1 : Reg)
  -- words that are no instruction (02 R11), and the management commands that can be held back (24)
  | tenantCreate (t : TenantSpec)
  | tenantTeardown (asid : Nat)
  | setDeviceNumber (n : BitVec 12)
  | setRouteTable (rows : List (Nat × Nat))
  | setPeerWindow (i : Nat) (w : PeerWindow)
  | illegalWord (w : IWord)
  | trapVectorChange (asid : Nat) (vector scratch : Word)
  | columnAssignment (asid col : Nat)
  -- harts: interrupts and resumption (19)
  | parkWake (h : Nat)
  | interruptTaken (h : Nat)
  | sliceExpiry (h : Nat)
  | preemptTimeout (h : Nat)
  | resume (gang : Nat)
  -- scheduler (17)
  | queuePortEnqueue (func : Nat) (record : List Byte)
  | dispatch (cols : List Nat) (preempt : Bool)
  | aging (queue : Nat)
  | graphRegisterWrite (func g off : Nat) (v : Word)
  | publish (func g : Nat)
  -- caches and translation (13)
  | storeBufferDrain (h sector : Nat)
  | l1Eviction (col sector : Nat)
  | eviction (sector : Nat) (drop : Bool)
  | tlbiAll (h : Nat)
  | tlbiAsid (h : Nat) (asid : BitVec 16)
  | tlbiPage (h : Nat) (asid : BitVec 16) (va : BitVec 39)
  | tlbiComplete (i : Nat)
  -- engines (14)
  | slotBaseWrite (slot : Nat) (v : Word)
  | slotSizeWrite (slot : Nat) (v : Word)
  | slotAttrWrite (slot : Nat) (v : Word)
  | slotStatusWrite (slot : Nat) (v : Word)
  | arbitrationRegisterWrite (ch : Nat) (v : Word)
  | engineRowStep (cmd piece : Nat)
  | engineWriteBack (cmd piece : Nat)
  | inPlaceComplete (cmd : Nat)
  | ordinaryRequest (r : BankRequest)
  | arbitrationWindowExpiry (bank : Nat)
  | refresh (bank : Nat)
  | refreshEnd (bank : Nat)
  | settleSweepComplete (id : Nat)
  | renewComplete (id : Nat)
  | copyUnit (col : Nat) (ch : Bool)
  | copyCommandComplete (col : Nat) (ch : Bool)
  | patrolScrub
  -- Greenhouse (22)
  | greenhouseCoreAccess (a : CoreAccess)
  | post (core : Nat)
  | take (core : Nat)
  | openEp (b : Nat) (sgen : BitVec 32) (follow : Bool)
  | closeEp (b : Nat)
  | genfloorStore (b : Nat) (v : Word)
  | ownerWrite (b : Nat) (v : Word)
  | windowWrite (b i : Nat) (v : Word)
  | plotInstall (core plot : Nat)
  | plotUninstall (core : Nat)
  | pruneRecordClear (core : Nat)
  | prune (core : Nat)
  | terminalRecordEntry (b : Nat)
  -- host and peers (24)
  | hostBar2Access (func off : Nat) (write : Bool) (size : Nat) (data : Word)
  | hostResponse (h : Nat)
  | hostAccessTimeout (h : Nat)
  | answerWrite (func : Nat) (v : Word)
  | rlostClear (func : Nat)
  | push (func : Nat)
  | takeans (func : Nat)
  | peerFabricAccess (source addr : Nat) (write : Bool) (size : Nat) (data : Word)
  | flitReplay (port : Nat)
  | retrainTimeout (port : Nat)
  | unitFailure (u : FailedUnit)
  | powerLimitThrottle
  | healthWordRead
  | boot (images : BootImages)
  | teardownComplete (asid : Nat)
  | setPowerMode (m : PowerMode)
  | telemetryRead
  | firmwareUpdate (stage : Nat) (image : BootImage)
  | getVersion
  | getCapabilities
  | negotiateAlgorithms
  | getDigests
  | getCertificate
  | challenge
  | getMeasurements
  | keyExchange
  | finish
  | heartbeat
  | endSession
  | mmioRegisterWrite (h addr : Nat) (v : Word)
  | fetchFault
  | softError (store : EccStore) (corrected : Bool)
  | portRetrainComplete (port : Nat)
  | hostLinkUp (link : Nat)
  | throttleEnd
  | softerrClear
  deriving DecidableEq, Repr

end Sys2Proof
end

