-- ==== Sys2Proof/Machine/State.lean ====
section
/-! DEFINITION. The state of the device, as plain data. INVENTORY.md lists every piece with its rule and its reset
value; a field's comment names the rule. -/
namespace Sys2Proof.Machine

/-! ## A hart -/

/-- The two modes of a hart (01 R38). -/
inductive Mode
  | user | supervisor
  deriving DecidableEq, Repr

/-- Whether a hart slot is free or runs a task (17 R338). -/
inductive RunState
  | free | running
  deriving DecidableEq, Repr

/-- What a vector register was last written as (01 R11, R12): nothing, elements of a width, a mask, an image. -/
inductive RegTag
  | undefined | elems (w : Nat) | bits | image
  deriving DecidableEq, Repr

/-- A vector register (01 R10 to R13): the mask mark of R20 and the defined positions. A position that is not listed
is undefined. Under `elems w` position e holds an element of w bits, under `bits` a mask bit (0 or 1), under `image`
the maxsew bits of a whole-register image. -/
structure VReg where
  tag : RegTag
  mark : Bool
  data : Map (BitVec 64)
  /-- Positions that a re-layout brought from members of the group with another layout (01 R20). -/
  rest : List (RegTag × Map (BitVec 64))
  /-- Positions whose granule is uncorrectable (24 R415). -/
  bad : List Nat
  deriving DecidableEq, Repr

/-- A strip handle (01 R15) with its counts C and P (09 R185). -/
structure Strip where
  base : BitVec 48
  len : BitVec 32
  pos : BitVec 32
  chan : BitVec 2
  consumed : Word
  produced : Word
  deriving DecidableEq, Repr

/-- The pipe classes (04 R91). -/
inductive PipeClass
  | fma | alu | perm | load | store | mtx | eng
  deriving DecidableEq, Repr

/-- The open convoy (04 R92, R93): the classes in it, the vector registers written in it, and those of them written
by an instruction of class PERM, MTX or ENG. -/
structure Convoy where
  classes : List PipeClass
  writes : List Nat
  late : List Nat
  deriving DecidableEq, Repr

/-- A weight stream in the FIFO (10 R203, R223): its address and bytes, the byte offset of the current band and the
rows already popped from it, whether a reissued read failed (R224), and whether its bytes are uncorrectable (24 R415). -/
structure Stream where
  addr : Word
  count : Nat
  bytes : List Byte
  band : Nat
  rows : Nat
  missing : Bool
  bad : Bool
  deriving DecidableEq, Repr

/-- The last SPLLD (10 R223): its address, TILEK and TILEN, and whether a reissued read failed (R224). -/
structure CoefLoad where
  addr : Word
  k : Nat
  n : Nat
  missing : Bool
  deriving DecidableEq, Repr

/-- The WAITADDR monitor (11 R243): the sector it watches and the reason seen since it was armed. -/
structure Monitor where
  sector : Nat
  wake : Option (BitVec 3)
  deriving DecidableEq, Repr

/-- The update of an atomic: its operation code (09 R173), the value compared with, the operand. -/
structure AmoUpdate where
  op : Nat
  cmp : Word
  operand : Word
  deriving DecidableEq, Repr

/-- Where a translated access lands: the physical address (for a peer its key), the leaf entry, its address, the page, the
physical page, and whether the entry maps a 512 MiB block (13 R288 to R292). -/
structure Phys where
  pa : Nat
  pte : Word
  slot : Nat
  vpage : Nat
  frame : Nat
  block : Bool
  deriving DecidableEq, Repr

/-- A HOST or PEER access that awaits its response (19 R355, R357): where it was sent from, in which address space, what
it asked, and what came back: nothing yet, bytes, or an error. -/
structure Request where
  pc : Word
  asid : BitVec 16
  va : Word
  phys : Phys
  size : Nat
  update : Option AmoUpdate
  answer : Option (Option (List Byte))
  deriving DecidableEq, Repr

/-- The physical address of a request. -/
def Request.addr (r : Request) : Nat := r.phys.pa

/-- A vector instruction that stands stopped part-way: its PC and VSTART; whether it draws from the generators, and whether
RNGLOAD reloaded them since (03 R74); and, of the block that a VQUANT stopped inside, the code it wrote and the undefined
source elements by flat index as it read them (07 R146). -/
structure PartRun where
  pc : Word
  vstart : Nat
  draws : Bool
  reloaded : Bool
  block : Option (Nat × Map Nat)
  deriving DecidableEq, Repr

/-- One hart. -/
structure Hart where
  /-- g0 to g31 (01 R8). -/
  g : Vector Word 32
  /-- Address of the next instruction (01 R7). -/
  pc : Word
  /-- 01 R38. -/
  mode : Mode
  /-- 17 R338. -/
  run : RunState
  /-- The instruction a hart waits at (11 R226, 19 R357). -/
  wait : Option Instr
  /-- 0x000 and 0x001 (01 R28). -/
  vl : Nat
  vr : Nat
  /-- 0x002 (03 R59). -/
  vtype : BitVec 16
  /-- 0x003 (01 R7). -/
  vstart : BitVec 32
  /-- 0x005: declared count and maxsew (01 R19); 0 before the first SETREGS. -/
  count : Nat
  maxsew : Nat
  /-- 0x006, 0x007, 0x008 (01 R28). -/
  vsparse : BitVec 32
  vlive : BitVec 32
  vdirty : BitVec 32
  /-- 0x00A, 0x00B, 0x00C (01 R28). -/
  fflags : BitVec 6
  fctl : BitVec 4
  vbscale : BitVec 16
  /-- v0 to v31 (01 R10). -/
  v : Vector VReg 32
  /-- VSAT bits that are defined (01 R14). -/
  vsat : Map Bool
  /-- 0x106 (01 R31). -/
  vstate : BitVec 2
  /-- h0 to h7 (01 R15). -/
  strip : Vector Strip 8
  /-- 0x038 to 0x03D (01 R16). -/
  lc0 : Word
  lb0 : Word
  le0 : Word
  lc1 : Word
  lb1 : Word
  le1 : Word
  /-- 0x030, 0x031 (01 R17) and 0x032. -/
  rngkey : Word
  rngctr : Word
  pgen : BitVec 32
  /-- 0x010 to 0x014 (01 R28, R29). -/
  tilem : Nat
  tilen : Nat
  tilek : Nat
  tilenoff : Nat
  tileset : Word
  /-- The weight-buffer FIFO, oldest first (10 R203). -/
  fifo : List Stream
  /-- 10 R223. -/
  coef : Option CoefLoad
  /-- MSTATE reads DIRTY when not empty (10 R191). -/
  mdirty : Bool
  /-- 0x022 to 0x025 (01 R28). -/
  gangid : Word
  gangsize : Word
  gangrank : Word
  taskarg : Word
  /-- 0x029 (05 R117). -/
  instret : Word
  /-- 0x100 to 0x105 (01 R28, 19 R354). -/
  tstatus : Word
  tcause : Word
  tpc : Word
  tval : Word
  tvec : Word
  tscratch : Word
  /-- 0x107 to 0x109, 0x10B (01 R28). -/
  slice : Word
  ptbase : Word
  asid : BitVec 16
  mstateen : Bool
  /-- 17 R340. -/
  contending : Bool
  /-- 04 R92. -/
  convoy : Option Convoy
  /-- The store buffer: bytes by sector (13 R296), and the size of the widest access in each entry: aligned units of
  that size move whole (05 R106, 09 R176). -/
  sb : Map (List (Option Byte))
  sbGrain : Map Nat
  /-- 11 R243. -/
  monitor : Option Monitor
  /-- BARs executed (11 R242) and whether TRIGGER was executed (R247). -/
  bars : Nat
  triggered : Bool
  /-- A hart that waits at BAR has made the release of its arrival (R242). -/
  arrived : Bool
  /-- The access that awaits its response, and one held across an interrupt (19 R355, R357). -/
  request : Option Request
  held : Option Request
  /-- TPC as it was written by the last trap entry (19 R355: a changed TPC discards a held response). -/
  trapPc : Word
  /-- PREEMPT taken since the last resumption, and the groups held at the yield (19 R363). -/
  preempted : Bool
  yieldGroups : Nat
  /-- RETT with STEP: a BREAK follows the next instruction (19 R355). -/
  stepping : Bool
  /-- An interrupt became pending in user mode since the hart's last turn: that turn's instruction may still stop at it
  part-way (the model's own; log 6). -/
  fresh : Bool
  /-- The flat index at which an interrupt cuts the running instruction (the model's own; log 6). -/
  stopAt : Option Nat
  /-- Instructions that stand stopped part-way, of which something is to be kept (03 R74, 07 R146). -/
  partRuns : List PartRun
  deriving DecidableEq, Repr

/-! ## A core -/

/-- A knot register (01 R26). -/
structure Knot where
  lo : BitVec 32
  h : BitVec 32
  invh : BitVec 32
  g : Nat
  d : Nat
  clamp : Nat
  count : Nat
  deriving DecidableEq, Repr

/-- An accumulator word with its live bit (01 R24, 10 R208). -/
structure AccWord where
  bits : BitVec 32
  live : Bool
  deriving DecidableEq, Repr

/-- One byte of an L1 sector (13 R296): absent, clean, dirty, or dirty with its value lost to an uncorrectable error
(R298, 24 R415). -/
inductive CacheByte
  | absent | clean (b : Byte) | dirty (b : Byte) | lost (b : Byte)
  deriving DecidableEq, Repr

/-- An L1 sector: 128 bytes, and whether its clean bytes were filled from a poisoned sector (13 R298). -/
structure L1Sector where
  bytes : List CacheByte
  poison : Bool
  deriving DecidableEq, Repr

/-- A cached translation (13 R291, R293): a page of an address space, its leaf entry, the address of that entry, the
physical page, the first page that the entry covers and how many it covers (1, the 32 of a 2 MiB run, or, at a die, up to
sixteen runs of 32 MiB), and whether the leaf maps a 512 MiB block. -/
structure TlbEntry where
  asid : BitVec 16
  vpage : Nat
  entry : Word
  slot : Nat
  frame : Nat
  start : Nat
  span : Nat
  block : Bool
  deriving DecidableEq, Repr

/-- A table pointer in the walkers' cache of upper-level entries (13 R293): its level, 1 or 2, and the virtual page
divided by the pages it covers. -/
structure UpperEntry where
  asid : BitVec 16
  level : Nat
  index : Nat
  entry : Word
  deriving DecidableEq, Repr

/-- A copy command in a channel (11 R230 to R232). -/
structure CopyCmd where
  src : Word
  dst : Word
  len : Nat
  fill : Bool
  dstStrip : Bool
  srcStrip : Bool
  asid : BitVec 16
  ptbase : Word
  hart : Nat
  user : Bool
  /-- Counts in WP, RP and DONE (R232). -/
  counted : Bool
  /-- Where its first byte stands in its strip, once it counts no more. -/
  base : Nat
  moved : Nat
  deriving DecidableEq, Repr

/-- A copy channel (11 R231, R237). -/
structure Channel where
  queue : List CopyCmd
  wp : Word
  rp : Word
  done : BitVec 32
  first : Nat
  deriving DecidableEq, Repr

/-- One core. -/
structure CoreState where
  /-- 0x028 (00 R2). -/
  cycle : Word
  /-- 0x10A (01 R21). -/
  lpart : Word
  /-- The hart, 0 to 3, that holds each lane group (01 R18). -/
  owner : Vector (Option Nat) 8
  /-- Accumulator words by physical row × 384 + column; unlisted reads 0 and is not live (01 R24). -/
  acc : Map AccWord
  /-- Accumulator words whose granule is uncorrectable (24 R415). -/
  accBad : List Nat
  /-- Cells with loaded coefficients, by physical row × 64 + n, with the 16 BF16 slots (01 R24). -/
  cells : Map (List (BitVec 16))
  /-- Nonzero gradient slots, by (physical row × 64 + n) × 16 + k (01 R24). -/
  grad : Map (BitVec 32)
  /-- The 64 knot registers by physical row (01 R26). -/
  knot : Vector Knot 64
  /-- The L1 by sector (13 R296). -/
  l1 : Map L1Sector
  /-- The L1 TLB (13 R293). -/
  tlb : List TlbEntry
  /-- The copy channels (11 R231). -/
  chan : Vector Channel 2
  /-- 24 R416. -/
  inService : Bool
  deriving DecidableEq, Repr

/-! ## Memories, engines -/

/-- A memory as a list of cells in one canonical form: addresses rise strictly, and no cell holds 0, which an
unlisted address reads as (log 1). -/
abbrev Memory := List Host.Cell

/-- The canonical form of a memory. -/
def Memory.wf (m : Memory) : Bool := mapRising m && m.all (fun c => !(c.2 == 0))

/-- A sector at its home L2 slice (13 R298). -/
structure HomeSector where
  bytes : List Byte
  dirty : Bool
  poison : Bool
  deriving DecidableEq, Repr

/-- A translation invalidation that a store to TLBI started (13 R294, R295). -/
structure Tlbi where
  hart : Nat
  mode : Nat
  asid : BitVec 16
  page : Nat
  deriving DecidableEq, Repr

/-- The memories beyond the cores (13). -/
structure MemSys where
  /-- DRAM and CAP arrays (the settled image), vaults, the host window and peers' memories, by address. -/
  mem : Memory
  /-- The home L2 slices by sector. -/
  l2 : Map HomeSector
  /-- Sectors poisoned in the arrays (R298). -/
  poison : List Nat
  /-- Elided CAP blocks, by address div 4,096, with their constants (R304). -/
  elided : Map Word
  /-- Whether a 64 KiB page is held compressed, as far as an access has shown it (R305), and, of the pages that a single
  FILL command filled whole since, the mappings that are not invalidated yet. -/
  compressed : Map Bool
  filled : Map (List TlbEntry)
  /-- Ranges, by address and length, whose data is undefined because software broke a rule (R297, R305). -/
  undef : List (Nat × Nat)
  /-- Capacity home map: the mask of each granule (R297). -/
  granule : Map (BitVec 128)
  /-- The last-level TLBs of the four dies, and their walkers' upper-level entries (R293). -/
  dieTlb : Vector (List TlbEntry) 4
  upper : Vector (List UpperEntry) 4
  /-- By hart, the stores to vaults, the host and peers that are not performed yet, as bytes by sector (12 R267, R276). -/
  posted : Map (Map (List (Option Byte)))
  /-- Invalidations under way, oldest first (R295). -/
  tlbi : List Tlbi
  deriving DecidableEq, Repr

/-- A region slot (14 R311). -/
structure Slot where
  base : Nat
  size : Nat
  valid : Bool
  asid : BitVec 16
  sc : BitVec 32
  rc : BitVec 32
  ic : BitVec 32
  first : BitVec 8
  last : BitVec 8
  fails : BitVec 32
  inflight : Nat
  deriving DecidableEq, Repr

/-- One operation of an engine on a piece (14 R316, R317); addresses are physical. -/
inductive MicroOp
  | first (s : BitVec 32) (addr : Nat)
  | step (s : BitVec 32) (addr : Nat)
  | writeBack (addr : Nat)
  | inflate (addr : Nat)
  deriving DecidableEq, Repr

/-- A destination piece (14 R314): the bank it belongs to, its length in bytes, the operations still to do, the
accumulator, and, of a row step that has begun, the bytes it has read so far (R319). -/
structure Piece where
  bank : Nat
  len : Nat
  ops : List MicroOp
  acc : List (BitVec 32)
  begun : Bool
  got : List Byte
  deriving DecidableEq, Repr

/-- A piece on its way through a crossbar queue (14 R315): its command, its piece, its bytes, and the bank it comes
from. -/
structure Transfer where
  cmd : Nat
  piece : Nat
  len : Nat
  bank : Nat
  deriving DecidableEq, Repr

/-- An in-place record (11 R234). -/
structure InPlace where
  op : Nat
  fmt : Nat
  count : Nat
  dslot : Nat
  xslot : Nat
  zslot : Nat
  doff : Nat
  xoff : Nat
  zoff : Nat
  rlen : Nat
  xstride : Nat
  a : BitVec 32
  b : BitVec 32
  deriving DecidableEq, Repr

/-- An accepted in-place command (11 R235): its record, its requester, and, once it started, its pieces. -/
structure Command where
  id : Nat
  rcd : InPlace
  asid : BitVec 16
  hart : Nat
  /-- DSLOT was assigned to the tenant when the command was accepted (14 R313). -/
  owned : Bool
  started : Bool
  pieces : List Piece
  status : Nat
  /-- The physical address met when it failed (19 R360). -/
  where_ : Nat
  deriving DecidableEq, Repr

/-- A settle or renew sweep (11 R238, R239). `todo` are the sectors a settle still has to write; a renew keeps the
sectors it has handled. -/
structure Sweep where
  id : Nat
  slot : Nat
  renew : Bool
  start : Nat
  len : Nat
  todo : List Nat
  deriving DecidableEq, Repr

/-- A bank, or an LPDDR6 channel (14 R319 to R323, 16 R329): whether its engine holds pieces of accepted commands, the
command whose piece is in progress, the command and piece that read it as a source, whether it refreshes, the ordinary
requests that wait, oldest first, each with the ARBBATCH of its arrival (R322), and how many of their windows have
expired. -/
structure Bank where
  busy : Bool
  engine : Option Nat
  source : Option (Nat × Nat)
  refreshing : Bool
  waiting : List (BankRequest × Nat)
  expired : Nat
  deriving DecidableEq, Repr

/-- Arbitration of one channel (14 R322). -/
structure Arbitration where
  win : Nat
  batch : Nat
  yields : Nat
  deriving DecidableEq, Repr

/-- Engines and their control (14). Channels 0 to 127 are stacked, 128 to 191 LPDDR6; a stacked bank is
channel × 32 + bank, an LPDDR6 channel k is bank 4,096 + k. -/
structure EngineState where
  slot : Map Slot
  cmd : List Command
  sweep : List Sweep
  bank : Map Bank
  /-- The crossbar queues, by source channel × 128 + destination channel, in the order in which the steps before them
  ended (R315). Those beyond its first 8 KiB wait for room in it. -/
  crossbar : Map (List Transfer)
  arb : Map Arbitration
  nextId : Nat
  deriving DecidableEq, Repr

/-! ## Scheduler -/

/-- A launch record (17 R334). -/
structure LaunchRecord where
  entry : Word
  args : Word
  wmaddr : Word
  gang : Nat
  harts : Nat
  prio : Nat
  queue : Nat
  ordered : Bool
  early : Bool
  graph : Bool
  array : Bool
  graphNo : Nat
  floors : List Nat
  ceils : List Nat
  deriving DecidableEq, Repr

/-- A queued record (17 R335 to R337): its number, tenant, the number of the record before it in its queue, and the
function through which the host submitted it (19 R359); none for a LAUNCH. -/
structure Queued where
  id : Nat
  rcd : LaunchRecord
  asid : BitVec 16
  before : Option Nat
  aged : Bool
  via : Option Nat
  deriving DecidableEq, Repr

/-- A resident or pre-empted gang (17 R338, R347). `node` names the replay and the successors of the TASK node it
started from, as the one read of that node gave them (R343). -/
structure Gang where
  id : Nat
  task : Nat
  rcd : LaunchRecord
  asid : BitVec 16
  members : List Nat
  ended : List Nat
  triggered : List Nat
  /-- The records of the harts that have yielded after a PREEMPT (19 R363). -/
  left : Map Hart
  preempting : Bool
  node : Option (Nat × List Nat)
  via : Option Nat
  deriving DecidableEq, Repr

/-- A TASK node that waits for dispatch (17 R345): its index, its successors and its record, as they were read. -/
structure ReadyNode where
  index : Nat
  succ : List Nat
  rcd : LaunchRecord
  deriving DecidableEq, Repr

/-- A replay of a resident graph (17 R343, R345): bound image address, node count, signal counts, TASK nodes that wait
for dispatch, nodes still to be signalled, how many run. -/
structure Replay where
  id : Nat
  rcd : LaunchRecord
  asid : BitVec 16
  graph : Nat
  image : Nat
  base : Word
  nodes : Nat
  counts : Map Nat
  ready : List ReadyNode
  signals : List Nat
  running : Nat
  failed : Bool
  via : Option Nat
  deriving DecidableEq, Repr

/-- A graph register (17 R342). -/
structure GraphReg where
  img0 : Word
  img1 : Word
  bound0 : Nat
  bound1 : Nat
  valid : Bool
  cur : Bool
  nodes : Nat
  deriving DecidableEq, Repr

/-- A tenant (24 R413) with its QAGE and VIOPTR (01 R28, 19 R361) and the column of its violation log (19 R360). -/
structure Tenant where
  spec : TenantSpec
  qage : Nat
  lost : Nat
  next : Nat
  logColumn : Option Nat
  /-- The retired column whose log has not moved yet, for want of a column in service. -/
  gone : Option Nat
  tearing : Bool
  deriving DecidableEq, Repr

/-- A watermark in the memory of a peer that waits for its port (17 R339, 24 R408): the tenant, the address with its
translation, and the requester. -/
structure Owed where
  asid : BitVec 16
  wm : Word
  phys : Phys
  req : Nat
  deriving DecidableEq, Repr

/-- The scheduler (17). -/
structure SchedState where
  queue : Map (List Queued)
  /-- The record last accepted into each queue. -/
  lastId : Map Nat
  /-- The queue last dispatched from at each priority (R337). -/
  turn : Map Nat
  gang : List Gang
  replay : List Replay
  /-- By ASID × 64 + graph: a tenant keeps 64 graphs, which every function of it shows (R342). -/
  graph : Map GraphReg
  tenant : Map Tenant
  nextTask : Nat
  owed : List Owed
  deriving DecidableEq, Repr

/-! ## Greenhouse -/

/-- A record of a mailbox ring (22 R389). -/
structure MailRecord where
  episode : BitVec 32
  step : BitVec 32
  gen : BitVec 32
  kind : Nat
  flags : Nat
  len : Nat
  user : Word
  payload : List Byte
  deriving DecidableEq, Repr

/-- The states of an episode (22 R387). -/
inductive EState
  | free | opened | done | pruned | expired | closed
  deriving DecidableEq, Repr

/-- A mailbox and its plot (22 R381, R386, R387). -/
structure Mailbox where
  up : List MailRecord
  dn : List MailRecord
  upstage : Map Byte
  dnstage : Map Byte
  estate : EState
  episode : BitVec 32
  follow : Bool
  xpend : Bool
  stepd : BitVec 32
  stepu : BitVec 32
  egen : BitVec 32
  sgen : BitVec 32
  genfloor : BitVec 32
  ownerV : Bool
  owner : BitVec 16
  win : Vector Word 4
  sealed_ : Bool
  /-- Terminal records written by hardware that wait for a slot of the up-ring (R389). -/
  waiting : List MailRecord
  deriving DecidableEq, Repr

/-- A Greenhouse core (22 R379, R380, R382, R385, R392). The registers that the RISC-V standard gives it stand under
their standard names: x and f registers, the 16 PMP entries, mtvec, the MIE and MPIE bits of mstatus, mepc, mcause, mtval;
`csr` holds the other ones by number. -/
structure GCore where
  installed : Bool
  plot : Nat
  plimit : BitVec 32
  run : Bool
  pcount : BitVec 32
  prunevec : Word
  pv : Bool
  pplot : Nat
  machine : Bool
  pc : Word
  x : Vector Word 32
  f : Vector Word 32
  mtvec : Word
  mepc : Word
  mcause : Word
  mtval : Word
  mppUser : Bool
  mie : Bool
  mpie : Bool
  csr : Map Word
  /-- PMP entries: configuration byte and address register. -/
  pmp : Vector (BitVec 8 × Word) 16
  /-- The core waits at WFI (R391). -/
  asleep : Bool
  /-- The instruction cache, by byte address (R380), its 64-bit granules that are uncorrectable (24 R415), and the bytes
  fetched last. -/
  icache : Map Byte
  ibad : List Nat
  fetched : List Byte
  /-- What the core's last load, POST, TAKE or atomic returned. -/
  last : Word
  /-- A reservation in local SRAM (R380). -/
  resv : Option Nat
  sram : Map Byte
  /-- 64-bit granules of the SRAM that are uncorrectable (24 R415). -/
  bad : List Nat
  inService : Bool
  deriving DecidableEq, Repr

/-- The Greenhouse (22). -/
structure GreenState where
  box : Map Mailbox
  core : Map GCore
  deriving DecidableEq, Repr

/-! ## Host, peers, management -/

/-- One PCI Express function (24 R402, R406, R407). -/
structure Func where
  tenant : Option (BitVec 16)
  rbase : Word
  rsize : Word
  rhead : Word
  rtail : Word
  rlost : Word
  answers : List Word
  stage : Vector Word 4
  /-- MSI-X vectors 0 and 1 signalled so far (R402, R406, R416). -/
  msi0 : Nat
  msi1 : Nat
  deriving DecidableEq, Repr

/-- A link or port (24 R402, R408): up, its lanes, failed replays of the current flit, and, while it is down, whether the
1 ms in which a port may come back has passed. -/
structure Link where
  up : Bool
  lanes : Nat
  replays : Nat
  lost : Bool
  deriving DecidableEq, Repr

/-- The health word (24 R417). -/
structure Health where
  softerr : Nat
  colfail : Nat
  pagefail : Nat
  teardown : Bool
  throttle : Bool
  replace : Bool
  deriving DecidableEq, Repr

/-- An attestation session (24 R412): how far the requester has come. -/
inductive SpdmPhase
  | idle | version | capabilities | algorithms | keyExchanged | session
  deriving DecidableEq, Repr

/-- A certificate of the attestation chain: whose key signs it, and which key it certifies (24 R412). -/
structure Cert where
  issuer : BitVec 384
  subject : BitVec 384
  deriving DecidableEq, Repr

/-- The algorithms of attestation (24 R412). -/
inductive SpdmAlgorithm
  | ecdsaP384 | sha384 | ecdheP384 | aes256Gcm
  deriving DecidableEq, Repr

/-- What an attestation answer says (24 R412); its encoding is in `replyBytes`. -/
inductive SpdmReply
  | none | error | version | capabilities | algorithms (l : List SpdmAlgorithm) | digests (l : List (BitVec 384))
  | certificate (chain : List Cert) | challenge (key : BitVec 384) (measurements : List (Nat × BitVec 384))
  | measurements (l : List (Nat × BitVec 384)) | keyExchange (key : BitVec 384) | finish | heartbeat | endSession
  deriving DecidableEq, Repr

/-- What the outside meets (24). -/
structure HostState where
  func : Map Func
  link : Vector Link 2
  port : Vector Link 16
  devNum : BitVec 12
  routes : List (Nat × Nat)
  window : Map PeerWindow
  refused : Nat
  /-- Corrected soft errors by store: SRAM layer, stacked DRAM, LPDDR6, Greenhouse (R415). -/
  corrected : Vector Nat 4
  health : Health
  power : PowerMode
  /-- Stage 3: booted; 0 to 2: the stage at which boot stands (R411). -/
  bootStage : Nat
  bootFail : Option Nat
  /-- Security versions of the running images and the fused minimum, stages 1, 2, 2. -/
  minVersion : Vector Nat 3
  version : Vector Nat 3
  staged : List (Nat × BootImage)
  /-- The digests of the keys in fuses, for ECDSA and for LMS (R411). -/
  fusedKeys : BitVec 384 × BitVec 384
  /-- The digests of the running images, and the alias key of this boot (R411, R412). -/
  image : Vector (BitVec 384) 3
  aliasKey : BitVec 384
  spdm : SpdmPhase
  spdmReply : SpdmReply
  /-- The last answer of the management paths: attestation bytes, words of telemetry, the health word. -/
  replyBytes : List Byte
  replyWords : List Word
  /-- The last answer to a host request: a completion status and data, as a word and as bytes (R403, R404). -/
  completion : Nat
  completionData : Word
  completionBytes : List Byte
  /-- Management events sent (R416). -/
  events : Nat
  /-- Units that failed hard (R416). -/
  retired : List FailedUnit
  /-- Commands of management that were refused (R418). -/
  refusedCommands : Nat
  deriving DecidableEq, Repr

/-! ## The machine -/

/-- What a peer asks of the device (24 R409, R410): bytes read or written, or an atomic on 4 or 8 bytes, PUBWM among
them. -/
inductive FabricAccess
  | read (n : Nat)
  | write (bytes : List Byte)
  | update (u : AmoUpdate) (n : Nat)
  deriving DecidableEq, Repr

/-- Who moves next (log 2): a hart, which an interrupt may cut at a flat index; a row of the opcode table that has no
word; or one of the happenings that the table has no row for. -/
inductive Turn
  | run (hart : Nat) (stop : Option Nat)
  | event (i : Instr)
  /-- An agent outside the device writes its own memory: the host window, a peer. -/
  | outside (addr : Nat) (bytes : List Byte)
  /-- A management command that waited for the teardown of a tenant is refused (24 R418). -/
  | refuse (asid : Nat)
  /-- Some bytes of a store-buffer entry drain (13 R296, 15 R327). -/
  | drainPart (hart sector mask : Nat)
  /-- A row step reads some more sectors of its source piece (14 R319). -/
  | stepReads (cmd piece sectors : Nat)
  /-- Undefined data changes (13 R297, R305). -/
  | disturb (addr : Nat) (bytes : List Byte)
  /-- An uncorrectable error of a page-table walk, or of a structure that all gangs of a tenant could have used (24
  R415). -/
  | walkError (asid : BitVec 16)
  /-- The peer refuses the access that a hart awaits (24 R410). -/
  | peerRefuses (hart : Nat)
  /-- The host reads bytes of BAR 0 (17 R333, 24 R406). -/
  | barRead (func off size : Nat)
  /-- A host access of BAR 2 of any length: bytes written, or some number read (24 R402, R404). -/
  | bar2 (func off : Nat) (write : Option (List Byte)) (size : Nat)
  /-- A fabric access of any kind (24 R410). -/
  | fabric (source addr : Nat) (access : FabricAccess)
  /-- A Greenhouse core executes the instruction at its pc (22 R379). -/
  | coreRun (core : Nat)
  /-- The WFI of a Greenhouse core ends (22 R391). -/
  | coreWake (core : Nat)
  deriving DecidableEq, Repr

/-- The device. `hart` and `core` are the current hart, number `cur` = 4 × column + hart, and its core; `harts` and
`cores` hold the others. -/
structure State where
  hart : Hart
  cur : Nat
  harts : Map Hart
  core : CoreState
  cores : Map CoreState
  ms : MemSys
  eng : EngineState
  sched : SchedState
  green : GreenState
  host : HostState
  /-- The inputs still to come, oldest first (log 2). -/
  agenda : List Turn
  /-- How many steps were taken: the index of free values (log 5). -/
  tick : Nat
  deriving DecidableEq, Repr

/-- A step of this model never stops with a fault: every cause the spec names is a trap that is taken. -/
inductive Fault
  /-- Raised by nothing; it keeps the type closed and inhabited. Safe. -/
  | none
  deriving DecidableEq, Repr

/-- Why a step gives no meaning. -/
inductive Refusal
  /-- Raised by an arm of `exec` whose instruction has no meaning yet. Safe: nothing is claimed of it. -/
  | notModelled (mnemonic : String)
  deriving DecidableEq, Repr

/-! ## Reset -/

/-- A vector register before anything wrote it (01 R10, log 4). -/
def VReg.reset : VReg := { tag := .undefined, mark := false, data := [], rest := [], bad := [] }

/-- A strip handle at reset (01 R15). -/
def Strip.reset : Strip := { base := 0, len := 0, pos := 0, chan := 0, consumed := 0, produced := 0 }

/-- TILESET at reset: rank 0, size 1, own column as member 0 (01 R29). -/
def tilesetOf (col : Nat) : Word := BitVec.ofNat 64 (4 + col % 128 * 65536)

/-- A hart of a column after reset (01 R28; log 3 names the values the spec does not give). -/
def Hart.reset (col : Nat) : Hart where
  g := Vector.replicate 32 0
  pc := 0
  mode := .user
  run := .free
  wait := none
  vl := 0
  vr := 0
  vtype := 0x8000
  vstart := 0
  count := 0
  maxsew := 0
  vsparse := 0
  vlive := 0xFFFFFFFF
  vdirty := 0
  fflags := 0
  fctl := 0
  vbscale := 0x3F80
  v := Vector.replicate 32 VReg.reset
  vsat := []
  vstate := 0
  strip := Vector.replicate 8 Strip.reset
  lc0 := 0
  lb0 := 0
  le0 := 0
  lc1 := 0
  lb1 := 0
  le1 := 0
  rngkey := 0
  rngctr := 0
  pgen := 0
  tilem := 0
  tilen := 0
  tilek := 0
  tilenoff := 0
  tileset := tilesetOf col
  fifo := []
  coef := none
  mdirty := false
  gangid := 0
  gangsize := 0
  gangrank := 0
  taskarg := 0
  instret := 0
  tstatus := 0x3000
  tcause := 0
  tpc := 0
  tval := 0
  tvec := 0
  tscratch := 0
  slice := 0
  ptbase := 0
  asid := 0
  mstateen := false
  contending := false
  convoy := none
  sb := []
  sbGrain := []
  monitor := none
  bars := 0
  triggered := false
  arrived := false
  request := none
  held := none
  trapPc := 0
  preempted := false
  yieldGroups := 0
  stepping := false
  fresh := false
  stopAt := none
  partRuns := []

/-- A knot register at reset (01 R26). -/
def Knot.reset : Knot := { lo := 0, h := 0x3F800000, invh := 0x3F800000, g := 1, d := 1, clamp := 0, count := 0 }

/-- A copy channel at reset (11 R231). -/
def Channel.reset : Channel := { queue := [], wp := 0, rp := 0, done := 0, first := 0 }

/-- A core after reset (00 R2, 01 R21, R24, R26). -/
def CoreState.reset : CoreState where
  cycle := 0
  lpart := 0
  owner := Vector.replicate 8 none
  acc := []
  accBad := []
  cells := []
  grad := []
  knot := Vector.replicate 64 Knot.reset
  l1 := []
  tlb := []
  chan := Vector.replicate 2 Channel.reset
  inService := true

/-- The memories after reset (13; log 1). -/
def MemSys.reset : MemSys where
  mem := []
  l2 := []
  poison := []
  elided := []
  compressed := []
  filled := []
  undef := []
  granule := []
  dieTlb := Vector.replicate 4 []
  upper := Vector.replicate 4 []
  posted := []
  tlbi := []

/-- A region slot at reset (14 R311). -/
def Slot.reset : Slot where
  base := 0
  size := 0
  valid := false
  asid := 0
  sc := 0
  rc := 0
  ic := 0
  first := 0
  last := 0
  fails := 0
  inflight := 0

/-- A bank at rest. -/
def Bank.reset : Bank :=
  { busy := false, engine := none, source := none, refreshing := false, waiting := [], expired := 0 }

/-- Arbitration at reset (14 R322). -/
def Arbitration.reset : Arbitration := { win := 256, batch := 8, yields := 0 }

/-- The engines after reset. -/
def EngineState.reset : EngineState :=
  { slot := [], cmd := [], sweep := [], bank := [], crossbar := [], arb := [], nextId := 1 }

/-- A graph register at reset (17 R342). -/
def GraphReg.reset : GraphReg :=
  { img0 := 0, img1 := 0, bound0 := 0, bound1 := 0, valid := false, cur := false, nodes := 0 }

/-- The scheduler after reset; the numbering of tasks starts at 1 (log 3). -/
def SchedState.reset : SchedState where
  queue := []
  lastId := []
  turn := []
  gang := []
  replay := []
  graph := []
  tenant := []
  nextTask := 1
  owed := []

/-- A mailbox at reset (22 R386, R387). -/
def Mailbox.reset : Mailbox where
  up := []
  dn := []
  upstage := []
  dnstage := []
  estate := .free
  episode := 0
  follow := false
  xpend := false
  stepd := 0
  stepu := 0
  egen := 0
  sgen := 0
  genfloor := 0
  ownerV := false
  owner := 0
  win := Vector.replicate 4 0
  sealed_ := false
  waiting := []

/-- A Greenhouse core at reset (22 R385; log 3). -/
def GCore.reset : GCore where
  installed := false
  plot := 0
  plimit := 0
  run := false
  pcount := 0
  prunevec := 0
  pv := false
  pplot := 0
  machine := true
  pc := 0
  x := Vector.replicate 32 0
  f := Vector.replicate 32 0
  mtvec := 0
  mepc := 0
  mcause := 0
  mtval := 0
  mppUser := false
  mie := false
  mpie := false
  csr := []
  pmp := Vector.replicate 16 (0, 0)
  asleep := false
  icache := []
  ibad := []
  fetched := []
  last := 0
  resv := none
  sram := []
  bad := []
  inService := true

/-- A function at reset (24 R406). -/
def Func.reset : Func where
  tenant := none
  rbase := 0
  rsize := 0
  rhead := 0
  rtail := 0
  rlost := 0
  answers := []
  stage := Vector.replicate 4 0
  msi0 := 0
  msi1 := 0

/-- Host, peers and management after reset (24; log 3). -/
def HostState.reset : HostState where
  func := []
  link := Vector.replicate 2 { up := true, lanes := 16, replays := 0, lost := false }
  port := Vector.replicate 16 { up := true, lanes := 8, replays := 0, lost := false }
  devNum := 0
  routes := []
  window := []
  refused := 0
  corrected := Vector.replicate 4 0
  health := { softerr := 0, colfail := 0, pagefail := 0, teardown := false, throttle := false,
              replace := false }
  power := .balanced
  bootStage := 0
  bootFail := none
  minVersion := Vector.replicate 3 0
  version := Vector.replicate 3 0
  staged := []
  fusedKeys := (0, 0)
  image := Vector.replicate 3 0
  aliasKey := 0
  spdm := .idle
  spdmReply := .none
  replyBytes := []
  replyWords := []
  completion := 0
  completionData := 0
  completionBytes := []
  events := 0
  retired := []
  refusedCommands := 0

/-- The machine right after reset. -/
def State.reset : State where
  hart := Hart.reset 0
  cur := 0
  harts := []
  core := CoreState.reset
  cores := []
  ms := MemSys.reset
  eng := EngineState.reset
  sched := SchedState.reset
  green := GreenState.mk [] []
  host := HostState.reset
  agenda := []
  tick := 0

end Sys2Proof.Machine
end

