-- ==== Sys2Proof/Machine/Agents.lean ====
section
/-! DEFINITION. Harts and cores by number, and the hart that moves. -/
namespace Sys2Proof.Machine

/-- The column of a hart number. -/
def colOf (h : Nat) : Nat := h / 4

/-- The column of the current hart. -/
def State.col (s : State) : Nat := colOf s.cur

/-- HARTID of the current hart (01 R28). -/
def State.idx (s : State) : Nat := s.cur % 4

/-- A hart by number. -/
def getHart (s : State) (h : Nat) : Hart :=
  if h = s.cur then s.hart else mapGet s.harts h (Hart.reset (colOf h))

/-- Change a hart by number. -/
def modHart (s : State) (h : Nat) (f : Hart → Hart) : State :=
  if h = s.cur then { s with hart := f s.hart }
  else { s with harts := mapSet s.harts h (f (mapGet s.harts h (Hart.reset (colOf h)))) }

/-- A core by column. -/
def getCore (s : State) (c : Nat) : CoreState :=
  if c = s.col then s.core else mapGet s.cores c CoreState.reset

/-- Change a core by column. -/
def modCore (s : State) (c : Nat) (f : CoreState → CoreState) : State :=
  if c = s.col then { s with core := f s.core }
  else { s with cores := mapSet s.cores c (f (mapGet s.cores c CoreState.reset)) }

/-- Make a hart the current one. -/
def focus (s : State) (h : Nat) : State :=
  if h = s.cur then s
  else
    let s' := { s with
      hart := mapGet s.harts h (Hart.reset (colOf h))
      harts := mapSet s.harts s.cur s.hart
      cur := h }
    if colOf h = s.col then s'
    else { s' with core := mapGet s.cores (colOf h) CoreState.reset, cores := mapSet s.cores s.col s.core }

/-- The harts of a column. -/
def hartsOf (col : Nat) : List Nat := [4 * col, 4 * col + 1, 4 * col + 2, 4 * col + 3]

end Sys2Proof.Machine
end

