-- ==== Sys2Proof/Machine/Memory.lean ====
section
/-! DEFINITION. Physical memory: the address map (13 R286), the two images (01 R35), store buffers, L1 and home L2
(13 R296 to R298), elided blocks (R304), and what releases and acquires do (09 R174). -/
namespace Sys2Proof.Machine

/-! ## The address map -/

def dramSize : Nat := 0x4800000000
def capBase : Nat := 0x20000000000
def capEnd : Nat := 0x40000000000
def vaultBase : Nat := 0x80000000000
def slotPages : Nat := 0xC0000000000
def mailPages : Nat := 0xC0040000000
def tlbiPageBase : Nat := 0xC0050000000
def homeMapPage : Nat := 0xC0050010000
def hostBase : Nat := 0x100000000000
def hostEnd : Nat := 0x200000000000
def sramBase : Nat := 0xC0060000000

/-- Stacked DRAM, the capacity tier, a vault byte that exists, an MMIO page, the host window (13 R286). -/
def isDram (a : Nat) : Bool := decide (a < dramSize)
def isCap (a : Nat) : Bool := decide (capBase ≤ a) && decide (a < capEnd)
def isVault (a : Nat) : Bool :=
  decide (vaultBase ≤ a) && decide (a < vaultBase + 128 * 0x1000000) && decide (a % 0x1000000 < 0xBA0000)
def isMmio (a : Nat) : Bool := decide (slotPages ≤ a) && decide (a < homeMapPage + 0x10000)
def isHost (a : Nat) : Bool := decide (hostBase ≤ a) && decide (a < hostEnd)

/-- The save area of a vault (13 R287). -/
def isSaveArea (a : Nat) : Bool := isVault a && decide (0xAA0000 ≤ a % 0x1000000)

/-- Memory the caches hold: DRAM and CAP (R296). -/
def isCached (a : Nat) : Bool := isDram a || isCap a

/-- The memory of a peer: fabric addresses stand above every local one. -/
def isPeer (a : Nat) : Bool := decide (2 ^ 60 ≤ a) && decide (a < 2 ^ 61)

/-- Where the host memory at a bus address is listed: in the host window, or, beyond its reach, above everything else. -/
def hostKey (bus : Nat) : Nat := if bus < 2 ^ 44 then hostBase + bus else 2 ^ 62 + bus

/-- Where the memory of a peer is listed. -/
def peerKey (dev pa : Nat) : Nat := (4096 + dev) * 2 ^ 48 + pa

/-- The column of a DRAM or vault address. -/
def columnOf (a : Nat) : Nat := if isDram a then a / 0x90000000 else (a - vaultBase) / 0x1000000

/-- The bank of a DRAM or CAP address (R302, R303): channel × 32 + bank, or 4,096 + LPDDR6 channel. -/
def bankOf (a : Nat) : Nat :=
  if isDram a then a / 0x90000000 * 32 + a % 0x90000000 / 2048 % 32 else 4096 + (a - capBase) / 4096 % 64

/-- Set bits of a mask, ascending. -/
def setBits (n : Nat) (mask : Nat) : List Nat := (List.range n).filter (fun i => mask.testBit i)

/-- The mask of a CAP address's granule (R297). -/
def granuleMask (s : State) (a : Nat) : Nat := (mapGet s.ms.granule ((a - capBase) / 2 ^ 30) 0).toNat

/-- The home column of a DRAM or CAP address (R297); none for a granule whose mask is zero. -/
def homeOf (s : State) (a : Nat) : Option Nat :=
  if isDram a then some (columnOf a)
  else
    let cols := setBits 128 (granuleMask s a)
    if cols.isEmpty then none else cols[(a - capBase) % 2 ^ 30 / 4096 % cols.length]?

/-! ## Paths to the host and to peers (R306, 24 R402, R408, R409) -/

/-- A host link is up: an access whose own link is down goes on the other. -/
def hostUp (s : State) : Bool := s.host.link.toList.any (·.up)

/-- The device of a peer's address. -/
def deviceOf (a : Nat) : Nat := a / 2 ^ 48 - 4096

/-- The port that carries the traffic of a device and page: one of those the route table names (R409; log 39). -/
def portFor (s : State) (a : Nat) : Option Nat :=
  match (s.host.routes.filter (fun r => r.1 == deviceOf a)).map (·.2) with
  | [] => none
  | [p] => some p
  | ports => ports[Config.portChoice (deviceOf a) (a % 2 ^ 48 / 4096) % ports.length]?

def portOf (s : State) (p : Nat) : Link := s.host.port.toList.getD p { up := false, lanes := 0, replays := 0, lost := true }
def setPort (s : State) (p : Nat) (x : Link) : State :=
  { s with host := { s.host with port := s.host.port.setIfInBounds p x } }

/-- The traffic of an address moves: a vault's always, the host's over a link that is up, a peer's over its port. -/
def pathUp (s : State) (a : Nat) : Bool :=
  if isHost a then hostUp s
  else if isPeer a then ((portFor s a).map (fun p => (portOf s p).up)).getD false
  else true

/-- No response can come any more: no route, or a port that did not come back within its 1 ms. -/
def pathLost (s : State) (a : Nat) : Bool :=
  isPeer a && (match portFor s a with
    | some p => !(portOf s p).up && (portOf s p).lost
    | none => true)

/-! ## The settled image -/

/-- Byte i of a word. -/
def byteOf (w : Nat) (i : Nat) : Byte := BitVec.ofNat 8 (w / 256 ^ i)

/-- The little-endian value of bytes. -/
def natOfBytes : List Byte → Nat
  | [] => 0
  | b :: bs => b.toNat + 256 * natOfBytes bs

/-- The n low bytes of a number, little-endian. -/
def bytesOfNat (n w : Nat) : List Byte := (List.range n).map (byteOf w)

/-- A byte of the settled image, of a vault, of the host window or of a peer; an elided block reads its constant. -/
def settledByte (s : State) (a : Nat) : Byte :=
  if isCap a then
    match mapGet? s.ms.elided (a / 4096) with
    | some c => byteOf c.toNat (a % 8)
    | none => mapGet s.ms.mem a 0
  else mapGet s.ms.mem a 0

/-- Write one byte where nothing is cached. -/
def setByte (s : State) (a : Nat) (b : Byte) : State := { s with ms := { s.ms with mem := memSet s.ms.mem a b } }

/-- Write bytes from an address upward. -/
def setBytes (s : State) (a : Nat) : List Byte → State
  | [] => s
  | b :: bs => setBytes (setByte s a b) (a + 1) bs

/-- The 128 bytes of a sector of the settled image. -/
def settledSector (s : State) (sec : Nat) : List Byte := (List.range 128).map (fun i => settledByte s (sec * 128 + i))

/-- A unit that failed makes an address read as poisoned (24 R416): a column's memory; the 64 KiB pages that have a
block in a failed bank, which are all of its channel (13 R302), or in a channel of a failed package, which are every
fourth (R303). -/
def unitPoison (s : State) (a : Nat) : Bool :=
  s.host.retired.any fun u =>
    match u with
    | .column c => if isCap a then homeOf s a == some c else (isDram a || isVault a) && columnOf a == c
    | .bank ch _ => isDram a && columnOf a == ch
    | .package n => isCap a && ((a - capBase) / 65536 % 4 == n / 8)
    | _ => false

/-- The CAP block of a sector is elided, with its constant (13 R304). -/
def elidedOf (s : State) (sec : Nat) : Option Word :=
  if isCap (sec * 128) then mapGet? s.ms.elided (sec * 128 / 4096) else none

/-- The arrays hold poisoned data in a sector (13 R298); an elided block reads its constant, not them (R304). -/
def arrayPoison (s : State) (sec : Nat) : Bool :=
  (s.ms.poison.contains sec && (elidedOf s sec).isNone) || unitPoison s (sec * 128)

/-- Inflate an elided block: every sector of it is written whole with the constant (13 R304). -/
def inflateBlock (s : State) (blk : Nat) : State :=
  match mapGet? s.ms.elided blk with
  | some c =>
    let s := { s with ms := { s.ms with
      elided := mapErase s.ms.elided blk, poison := s.ms.poison.filter (fun n => n / 32 != blk) } }
    setBytes s (blk * 4096) ((List.range 4096).map (fun i => byteOf c.toNat (i % 8)))
  | none => s

/-- Write a sector of the arrays whole; an elided block is inflated first (13 R304). -/
def writeArray (s : State) (sec : Nat) (bytes : List Byte) (poison : Bool) : State :=
  let s := if (elidedOf s sec).isSome then inflateBlock s (sec * 128 / 4096) else s
  let s := setBytes s (sec * 128) bytes
  { s with ms := { s.ms with poison :=
      if poison then (if s.ms.poison.contains sec then s.ms.poison else sec :: s.ms.poison)
      else s.ms.poison.filter (· != sec) } }

/-! ## The home L2 -/

/-- A sector as its home sees it, filled from the arrays where it is absent. -/
def homeSector (s : State) (sec : Nat) : HomeSector :=
  (mapGet? s.ms.l2 sec).getD { bytes := settledSector s sec, dirty := false, poison := arrayPoison s sec }

/-- A byte of the live image at its home. -/
def homeByte (s : State) (a : Nat) : Byte :=
  match mapGet? s.ms.l2 (a / 128) with
  | some h => h.bytes.getD (a % 128) 0
  | none => settledByte s a

/-- The n bytes at an address as the home holds them. -/
def homeBytes (s : State) (a n : Nat) : List Byte := (List.range n).map (fun i => homeByte s (a + i))

/-- The home reads poisoned at an address. -/
def homePoison (s : State) (a : Nat) : Bool :=
  match mapGet? s.ms.l2 (a / 128) with
  | some h => h.poison || unitPoison s a
  | none => arrayPoison s (a / 128)

/-- Keep a sector at its home. -/
def putHome (s : State) (sec : Nat) (h : HomeSector) : State := { s with ms := { s.ms with l2 := mapSet s.ms.l2 sec h } }

/-- Fill a missing sector from the arrays (13 R298). -/
def fillHome (s : State) (sec : Nat) : State :=
  match mapGet? s.ms.l2 sec with
  | some _ => s
  | none => putHome s sec (homeSector s sec)

/-- Wake the monitor of one hart (11 R243). -/
def wakeMonitor (sec : Nat) (reason : BitVec 3) (h : Hart) : Hart :=
  match h.monitor with
  | some m => if m.sector = sec ∧ m.wake = none then { h with monitor := some { m with wake := some reason } } else h
  | none => h

/-- Wake every monitor that watches a sector. -/
def wakeAll (s : State) (sec : Nat) (reason : BitVec 3) : State :=
  { s with
    hart := wakeMonitor sec reason s.hart
    harts := s.harts.map (fun p => (p.1, wakeMonitor sec reason p.2)) }

/-- The bytes of a sector, replaced where a byte is given. -/
def mergeBytes (bs : List Byte) (xs : List (Option Byte)) : List Byte :=
  overlay (fun b x => x.getD b) 0 none 128 bs xs

/-- 128 places of a sector with bytes from offset `off` upward. -/
def maskedSector (off : Nat) (bytes : List Byte) : List (Option Byte) :=
  (List.range 128).map (fun i => if off ≤ i then bytes[i - off]? else none)

/-- Merge bytes into a sector at its home (13 R298); a write of all 128 clears its poison. -/
def homeMerge (s : State) (sec : Nat) (xs : List (Option Byte)) : State :=
  let h := homeSector s sec
  wakeAll (putHome s sec
    { bytes := mergeBytes h.bytes xs, dirty := true, poison := h.poison && !(xs.all (·.isSome)) }) sec 0

/-- Write bytes of one sector at the home. -/
def homeWrite (s : State) (a : Nat) (bytes : List Byte) : State := homeMerge s (a / 128) (maskedSector (a % 128) bytes)

/-- Carry a dirty sector from its home to the arrays (01 R35). -/
def cleanHome (s : State) (sec : Nat) : State :=
  match mapGet? s.ms.l2 sec with
  | some h => if h.dirty then putHome (writeArray s sec h.bytes h.poison) sec { h with dirty := false } else s
  | none => s

/-- Drop a sector from its home; monitors on it are lost (11 R243). -/
def dropHome (s : State) (sec : Nat) : State :=
  match mapGet? s.ms.l2 sec with
  | some _ => wakeAll { s with ms := { s.ms with l2 := mapErase s.ms.l2 sec } } sec 1
  | none => s

/-! ## L1 and store buffer of the current hart -/

def emptyL1 : L1Sector := { bytes := List.replicate 128 .absent, poison := false }

/-- A byte as the L1 has it. -/
def l1Byte (s : State) (a : Nat) : Option Byte :=
  match mapGet? s.core.l1 (a / 128) with
  | some x => match x.bytes.getD (a % 128) .absent with
    | .absent => none
    | .clean b => some b
    | .dirty b => some b
    | .lost b => some b
  | none => none

/-- A byte as the store buffer of the current hart has it. -/
def sbByte (s : State) (a : Nat) : Option Byte :=
  match mapGet? s.hart.sb (a / 128) with
  | some x => (x.getD (a % 128) none)
  | none => none

/-- A byte of cached memory as the current hart sees it (13 R296). -/
def viewByte (s : State) (a : Nat) : Byte :=
  match sbByte s a with
  | some b => b
  | none => match l1Byte s a with
    | some b => b
    | none => homeByte s a

/-- The current hart would consume poisoned data at an address. -/
def viewPoison (s : State) (a : Nat) : Bool :=
  unitPoison s a || match sbByte s a with
    | some _ => false
    | none => match mapGet? s.core.l1 (a / 128) with
      | some x => match x.bytes.getD (a % 128) .absent with
        | .dirty _ => false
        | .lost _ => true
        | .clean _ => x.poison
        | .absent => homePoison s a
      | none => homePoison s a

/-- An absent byte takes the home's. -/
def fillByte (c : CacheByte) (b : Byte) : CacheByte :=
  match c with
  | .absent => .clean b
  | c => c

/-- Absent bytes of an L1 sector filled with the home's bytes. -/
def fillBytes (cs : List CacheByte) (bs : List Byte) : List CacheByte := overlay fillByte .absent 0 128 cs bs

/-- Fill the L1 sector of an address from its home. -/
def fillL1 (s : State) (sec : Nat) : State :=
  let s := fillHome s sec
  let h := homeSector s sec
  let x := mapGet s.core.l1 sec emptyL1
  let y : L1Sector := ⟨fillBytes x.bytes h.bytes, x.poison || h.poison⟩
  { s with core := { s.core with l1 := mapSet s.core.l1 sec y } }

/-- Fill the L1 for a load of n bytes, where the L1 and the store buffer do not hold them all. -/
def fillFor (s : State) (a n : Nat) : State :=
  if (List.range n).all (fun i => (sbByte s (a + i)).isSome || (l1Byte s (a + i)).isSome) then s else fillL1 s (a / 128)

/-- A byte of a store makes its place dirty. -/
def dirtyByte (c : CacheByte) (x : Option Byte) : CacheByte :=
  match x with
  | some b => .dirty b
  | none => c

/-- Dirty bytes put into an L1 sector. -/
def dirtyBytes (cs : List CacheByte) (xs : List (Option Byte)) : List CacheByte :=
  overlay dirtyByte .absent none 128 cs xs

/-- What an acquire, or a write to the line, leaves of an L1 sector: its dirty bytes (R263). -/
def dirtyPart (x : L1Sector) : L1Sector := ⟨x.bytes.map (fun | .clean _ => .absent | y => y), false⟩

/-- What a write to a 512-byte line leaves of a core's L1: the clean bytes of the line are no longer held (12 R263, 13
R296). -/
def lineWritten (sec : Nat) (l1 : Map L1Sector) : Map L1Sector :=
  l1.map (fun p => if p.1 / 4 = sec / 4 then (p.1, dirtyPart p.2) else p)

/-- A core writes bytes of a sector. -/
def writeL1 (sec : Nat) (x : List (Option Byte)) (c : CoreState) : CoreState :=
  let l1 := lineWritten sec c.l1
  { c with l1 := mapSet l1 sec { bytes := dirtyBytes (mapGet l1 sec emptyL1).bytes x, poison := false } }

/-! ## Stores that no cache holds (12 R258, R267, R276) -/

/-- The posted stores of a hart. -/
def postedOf (s : State) (h : Nat) : Map (List (Option Byte)) := mapGet s.ms.posted h []

def setPosted (s : State) (h : Nat) (m : Map (List (Option Byte))) : State :=
  { s with ms := { s.ms with posted := mapSet s.ms.posted h m } }

/-- A byte of the current hart's posted stores. -/
def postedByte (s : State) (a : Nat) : Option Byte :=
  match mapGet? (postedOf s s.cur) (a / 128) with
  | some x => x.getD (a % 128) none
  | none => none

/-- Write the bytes that are given, from an address upward. -/
def setSome (s : State) (a : Nat) : List (Option Byte) → State
  | [] => s
  | some b :: xs => setSome (setByte s a b) (a + 1) xs
  | none :: xs => setSome s (a + 1) xs

/-- A write of every byte of a sector that no cache holds clears its poison (13 R298). -/
def clearPoison (s : State) (sec : Nat) (whole : Bool) : State :=
  { s with ms := { s.ms with poison := if whole then s.ms.poison.filter (· != sec) else s.ms.poison } }

/-- The posted stores of a hart to one sector are performed at the bank, the host or the peer. -/
def performPosted (s : State) (h sec : Nat) : State :=
  match mapGet? (postedOf s h) sec with
  | some x =>
    if isCached (sec * 128) then s
    else
      let s := clearPoison (setPosted s h (mapErase (postedOf s h) sec)) sec (x.all (·.isSome))
      wakeAll (setSome s (sec * 128) (x.take 128)) sec 0
  | none => s

/-- The posted stores of a hart to the places that some condition names are performed. -/
def performWhere (s : State) (h : Nat) (ok : Nat → Bool) : State :=
  (postedOf s h).foldl (fun s p => if ok (p.1 * 128) then performPosted s h p.1 else s) s

/-! ## Draining and pushing -/

/-- Bytes of one entry of a hart's store buffer go into its core's L1; `rest` stays in the buffer. -/
def drainBytes (s : State) (h sec : Nat) (now rest : List (Option Byte)) : State :=
  let s := modHart s h (fun t =>
    if rest.all (·.isNone) then { t with sb := mapErase t.sb sec, sbGrain := mapErase t.sbGrain sec }
    else { t with sb := mapSet t.sb sec rest })
  modCore s (colOf h) (writeL1 sec now)

/-- An entry of a hart's store buffer drains into its core's L1 (13 R296); a store that no cache holds is performed where
its path is up. -/
def drainOf (s : State) (h sec : Nat) : State :=
  match mapGet? (getHart s h).sb sec with
  | some x => drainBytes s h sec x []
  | none => if pathUp s (sec * 128) then performPosted s h sec else s

/-- Some bytes of a sector, cut to whole aligned units of `grain` bytes. -/
def grainMask (grain mask : Nat) : List Bool :=
  (List.range 128).map (fun i => let k := i / max 1 grain * max 1 grain
    (List.range (max 1 grain)).all (fun j => mask.testBit (k + j)))

/-- Part of an entry drains: elements of one store are in no order among themselves (09 R177, 15 R327), but no access is
torn (05 R106, 09 R176). -/
def drainPart (s : State) (h sec mask : Nat) : State :=
  match mapGet? (getHart s h).sb sec with
  | some x =>
    let m := grainMask (mapGet (getHart s h).sbGrain sec 1) mask
    drainBytes s h sec (overlay (fun b y => if b then y else none) false none 128 m x)
      (overlay (fun b y => if b then none else y) false none 128 m x)
  | none => s

/-- The whole store buffer of a hart drains, and its vault stores are performed (12 R258). -/
def drainAll (s : State) (h : Nat) : State :=
  performWhere ((getHart s h).sb.foldl (fun s p => drainOf s h p.1) s) h isVault

/-- The dirty bytes of an L1 sector. -/
def dirtyOf (x : L1Sector) : List (Option Byte) :=
  x.bytes.map fun | .dirty b => some b | .lost b => some b | _ => none

/-- Some dirty byte of the sector is lost. -/
def anyLost (x : L1Sector) : Bool := x.bytes.any fun | .lost _ => true | _ => false

/-- A sector whose dirty bytes reached their home: a whole sector stays as a clean one; of a part nothing stays, so that a
later fill tears no other agent's store (05 R106). -/
def cleanedL1 (x : L1Sector) : L1Sector :=
  if x.bytes.all (· != .absent) then
    { bytes := x.bytes.map (fun | .dirty b => .clean b | .lost b => .clean b | y => y)
      poison := anyLost x || (x.poison && x.bytes.any (fun | .clean _ => true | _ => false)) }
  else { x with bytes := x.bytes.map (fun | .clean b => .clean b | _ => .absent) }

/-- Push the dirty bytes of an L1 sector of a core to their home; a lost byte poisons the sector there (R298). -/
def pushL1 (s : State) (col sec : Nat) : State :=
  match mapGet? (getCore s col).l1 sec with
  | some x =>
    if (dirtyOf x).all (·.isNone) then s
    else
      let s := homeMerge (modCore s col (fun c => { c with l1 := mapSet c.l1 sec (cleanedL1 x) })) sec (dirtyOf x)
      if anyLost x then putHome s sec { homeSector s sec with poison := true } else s
  | none => s

/-- Push every dirty byte of a core's L1 (09 R174). -/
def pushAll (s : State) (col : Nat) : State := (getCore s col).l1.foldl (fun s p => pushL1 s col p.1) s

/-- A sector leaves a core's L1. -/
def evictL1 (s : State) (col sec : Nat) : State :=
  modCore (pushL1 s col sec) col (fun c => { c with l1 := mapErase c.l1 sec })

/-- The clean bytes of a core's L1 are discarded (09 R174). -/
def discardClean (s : State) (col : Nat) : State :=
  modCore s col fun c => { c with l1 := c.l1.map (fun p => (p.1, dirtyPart p.2)) }

/-- A release by a hart at a scope: 0 core, 1 device, 2 system, which takes in the stores to the host and to peers (09
R174). -/
def releaseOf (s : State) (h : Nat) (scope : Nat) : State :=
  let s := drainAll s h
  if scope = 0 then s
  else
    let s := pushAll s (colOf h)
    if scope = 2 then performWhere s h (pathUp s) else s

/-- An acquire by a hart at a scope. -/
def acquireOf (s : State) (h : Nat) (scope : Nat) : State :=
  if scope = 0 then s else discardClean s (colOf h)

def release (s : State) (scope : Nat) : State := releaseOf s s.cur scope
def acquire (s : State) (scope : Nat) : State := acquireOf s s.cur scope

/-- An entry with bytes stored over what it held. -/
def combine (old : List (Option Byte)) (a : Nat) (bytes : List Byte) : List (Option Byte) :=
  overlay (fun x y => x <|> y) none none 128 (maskedSector (a % 128) bytes) old

/-- The unit that a store of n bytes is not torn below: scalar accesses and elements are 1, 2, 4 or 8 bytes. -/
def grainOf (n : Nat) : Nat := if n = 2 ∨ n = 4 ∨ n = 8 then n else 1

/-- The store buffer takes bytes of one sector; a full buffer first drains an entry (13 R296). -/
def bufferStore (s : State) (a : Nat) (bytes : List Byte) : State :=
  let sec := a / 128
  let s := match mapGet? s.hart.sb sec with
    | some _ => s
    | none =>
      if s.hart.sb.length < 16 then s
      else match s.hart.sb[Config.drainChoice s.tick % s.hart.sb.length]? with
        | some p => drainOf s s.cur p.1
        | none => s
  let grain := max (mapGet s.hart.sbGrain sec 1) (grainOf bytes.length)
  { s with hart := { s.hart with
    sb := mapSet s.hart.sb sec (combine (mapGet s.hart.sb sec (List.replicate 128 none)) a bytes)
    sbGrain := mapSet s.hart.sbGrain sec grain } }

/-- A store to a vault, the host or a peer leaves the hart and is performed later (12 R267, R276). -/
def postStore (s : State) (a : Nat) (bytes : List Byte) : State :=
  let m := postedOf s s.cur
  setPosted s s.cur (mapSet m (a / 128) (combine (mapGet m (a / 128) (List.replicate 128 none)) a bytes))

/-! ## Bytes by kind -/

/-- A byte at a physical address as the current hart's loads see it. -/
def readByte (s : State) (a : Nat) : Byte :=
  if isCached a then viewByte s a else (postedByte s a).getD (settledByte s a)

/-- The n bytes at a physical address as the current hart's loads see them. -/
def readBytes (s : State) (a n : Nat) : List Byte := (List.range n).map (fun i => readByte s (a + i))

/-- Poisoned data among n bytes. -/
def readPoison (s : State) (a n : Nat) : Bool :=
  (List.range n).any fun i =>
    if isCached (a + i) then viewPoison s (a + i) else (postedByte s (a + i)).isNone && arrayPoison s ((a + i) / 128)

/-- A load's effect on the caches. -/
def loadTouch (s : State) (a n : Nat) : State := if isCached a then fillFor s a n else s

/-- A store of bytes within one sector: into the store buffer, or on its way to the one image (05 R107). -/
def storeBytes (s : State) (a : Nat) (bytes : List Byte) : State :=
  if isCached a then bufferStore s a bytes else postStore s a bytes

/-- A store that is performed before the instruction goes on, after the hart's earlier ones to the sector (13 R309). -/
def storeNow (s : State) (a : Nat) (bytes : List Byte) : State :=
  wakeAll (setBytes (performPosted s s.cur (a / 128)) a bytes) (a / 128) 0

/-- Bytes of the hart that lie in one sector reach the home, and the core's copy goes (09 R173), with what it holds clean
of the line (12 R263). -/
def flushSector (s : State) (sec : Nat) : State :=
  modCore (evictL1 (drainOf s s.cur sec) s.col sec) s.col (fun c => { c with l1 := lineWritten sec c.l1 })

/-- The old bytes at the home or bank, before an indivisible update there. -/
def atomicRead (s : State) (a n : Nat) : State × List Byte :=
  if isCached a then
    let s := fillHome (flushSector s (a / 128)) (a / 128)
    (s, homeBytes s a n)
  else
    let s := performPosted s s.cur (a / 128)
    (s, (List.range n).map (fun i => settledByte s (a + i)))

/-- The write of an indivisible update. -/
def atomicWrite (s : State) (a : Nat) (bytes : List Byte) : State :=
  if isCached a then homeWrite s a bytes
  else wakeAll (setBytes (clearPoison s (a / 128) (decide (128 ≤ bytes.length))) a bytes) (a / 128) 0

/-- Poison as an atomic meets it: own bytes are at the home by then. -/
def atomicPoison (s : State) (a n : Nat) : Bool :=
  (List.range n).any fun i =>
    if isCached (a + i) then homePoison (flushSector s (a / 128)) (a + i)
    else arrayPoison (performPosted s s.cur (a / 128)) ((a + i) / 128)

/-- Write bytes at the home or bank, sector by sector: copy channels, the host, peers. -/
def performFrom : Nat → State → Nat → List Byte → State
  | 0, s, _, _ => s
  | fuel + 1, s, a, bytes =>
    if bytes.isEmpty then s
    else
      let k := 128 - a % 128
      performFrom fuel (atomicWrite s a (bytes.take k)) (a + k) (bytes.drop k)

def performBytes (s : State) (a : Nat) (bytes : List Byte) : State := performFrom (bytes.length / 128 + 2) s a bytes

/-- Bytes read at the home or bank; a missing sector is filled from the arrays (13 R298). -/
def readHome (s : State) (a n : Nat) : State × List Byte :=
  let sectors := (List.range ((a % 128 + n + 127) / 128)).map (a / 128 + ·)
  let s := if isCached a then sectors.foldl fillHome s else s
  (s, (List.range n).map (fun i => if isCached (a + i) then homeByte s (a + i) else settledByte s (a + i)))

/-- Poison among n bytes as an agent at the home or bank meets it: the offset of the first such byte. -/
def poisonAt (s : State) (a n : Nat) : Option Nat :=
  (List.range n).find? fun i => if isCached (a + i) then homePoison s (a + i) else arrayPoison s ((a + i) / 128)

/-! ## Banks, and the ordinary requests that wait at them (14 R320) -/

def bankState (s : State) (b : Nat) : Bank := mapGet s.eng.bank b Bank.reset
def setBank (s : State) (b : Nat) (x : Bank) : State := { s with eng := { s.eng with bank := mapSet s.eng.bank b x } }
def arbOf (s : State) (ch : Nat) : Arbitration := mapGet s.eng.arb ch Arbitration.reset

/-- The arbitration register of a bank. -/
def channelOf (b : Nat) : Nat := if b < 4096 then b / 32 else 128 + (b - 4096)

/-- An engine uses the bank, as destination or as source. -/
def inUse (x : Bank) : Bool := x.busy || x.source.isSome

/-- A bank serves an ordinary request at once. -/
def bankFree (s : State) (b : Nat) : Bool := !inUse (bankState s b) && !(bankState s b).refreshing

/-- A request waits at a bank, under the batch size of its arrival (R322); one that waits already stays in its place. -/
def waitAtBank (s : State) (b : Nat) (r : BankRequest) : State :=
  let x := bankState s b
  if x.waiting.any (fun q => q.1 == r) then s
  else setBank s b { x with waiting := x.waiting ++ [(r, (arbOf s (channelOf b)).batch)] }

/-- Sectors that a step from s to t fills from banks that are not free: their fills must first be served. -/
def busyFills (s t : State) : List Nat :=
  (t.ms.l2.map (·.1)).filter fun k => (mapGet? s.ms.l2 k).isNone && !bankFree s (bankOf (k * 128))

/-- The fills of some sectors wait at their banks. -/
def waitFills (s : State) (ks : List Nat) : State := ks.foldl (fun s k => waitAtBank s (bankOf (k * 128)) (.fill k)) s

/-- Elide a CAP block with a constant (13 R304): its sectors leave the L2. -/
def elideBlock (s : State) (blk : Nat) (c : Word) : State :=
  let s := (List.range 32).foldl (fun s i =>
    let sec := blk * 32 + i
    wakeAll { s with ms := { s.ms with l2 := mapErase s.ms.l2 sec, poison := s.ms.poison.filter (· != sec) } } sec 0) s
  { s with ms := { s.ms with elided := mapSet s.ms.elided blk c } }

end Sys2Proof.Machine
end

