-- ==== Sys2Proof/Machine/Translate.lean ====
section
/-! DEFINITION. Translation (13 R287 to R297) and the checks of an access in the order of 02 R50. -/
namespace Sys2Proof.Machine

/-! ## Causes (19 R353) -/

def causeIllegal : Nat := 0
def causeConvoy : Nat := 1
def causeVtype : Nat := 2
def causeVoff : Nat := 3
def causeMisalign : Nat := 4
def causePagefault : Nat := 5
def causeAccess : Nat := 6
def causeMigrate : Nat := 7
def causeFormat : Nat := 8
def causeMailbox : Nat := 9
def causeMoff : Nat := 10
def causeSlice : Nat := 11
def causeBreak : Nat := 12
def causeTrapi : Nat := 13
def causePoison : Nat := 14
def causePreempt : Nat := 16
def causeMessage : Nat := 17
/-- No cause of R353: an uncorrectable error of a page-table walk, which fails the gang (24 R415). -/
def causeWalk : Nat := 64
/-- No cause of R353: the access waits for the path to the host or a peer, and the instruction is tried again (24 R408). -/
def causeWaits : Nat := 65

/-- A trap to be taken: its cause, TVAL, and the access of TSTATUS.ACC, 3 for none (19 R354). -/
structure TrapInfo where
  cause : Nat
  tval : Word
  acc : Nat
  deriving DecidableEq, Repr

/-- A trap that no access caused. -/
def plainTrap (cause : Nat) (tval : Word) : TrapInfo := ⟨cause, tval, 3⟩

/-- The ILLEGAL of a word (04 R89, R90). -/
def illegal (w : IWord) : TrapInfo := plainTrap causeIllegal (w.setWidth 64)

/-- What an access does (13 R290). -/
inductive Access
  | load | store | atomic | fetch
  deriving DecidableEq, Repr

/-- TSTATUS.ACC (19 R354). An atomic and an element of VSCATADD, which read and write, count as stores (DESIGN CHOICE, log
78). -/
def Access.code : Access → Nat
  | .load => 0
  | .store => 1
  | .atomic => 1
  | .fetch => 2

/-- The access writes. -/
def Access.writes : Access → Bool
  | .store => true
  | .atomic => true
  | _ => false

/-- A failed check of an address. -/
def accessTrap (cause : Nat) (va : Word) (acc : Access) : TrapInfo := ⟨cause, va, acc.code⟩

/-! ## Entries (R289) -/

def pteV (e : Word) : Bool := e.getLsbD 0
def pteLeaf (e : Word) : Bool := e.getLsbD 1
def pteR (e : Word) : Bool := e.getLsbD 2
def pteW (e : Word) : Bool := e.getLsbD 3
def pteX (e : Word) : Bool := e.getLsbD 4
def pteU (e : Word) : Bool := e.getLsbD 5
def pteKind (e : Word) : Nat := (e.extractLsb' 8 3).toNat
def pteHostOwned (e : Word) : Bool := e.getLsbD 11
def pteOrdered (e : Word) : Bool := e.getLsbD 12
def pteCompressed (e : Word) : Bool := e.getLsbD 13
def pteDev (e : Word) : Nat := (e.extractLsb' 16 12).toNat
/-- The 64 KiB page of physical memory that an entry names. -/
def pteFrame (e : Word) : Nat := (e.extractLsb' 28 32).toNat
def ptePA (e : Word) : Nat := pteFrame e * 65536

def kindDram : Nat := 0
def kindCap : Nat := 1
def kindVault : Nat := 2
def kindHost : Nat := 3
def kindPeer : Nat := 4
def kindMmio : Nat := 5

/-- A pointer entry uses only V, LEAF and PA (R289). -/
def pointerOk (e : Word) : Bool := pteV e && !pteLeaf e && e &&& 0xF00000000FFFFFFC == 0

/-- A leaf entry breaks no rule of R290; `block` says it stands at level 2. -/
def leafOk (block : Bool) (e : Word) : Bool :=
  pteV e && pteLeaf e && e &&& 0xF000000000008000 == 0 && decide (pteKind e < 6) && !(pteW e && !pteR e)
  && !(block && ptePA e % 2 ^ 29 != 0) && !(pteDev e != 0 && pteKind e != kindPeer)
  && !(pteOrdered e && pteKind e != kindHost)
  && !(pteCompressed e && pteKind e != kindDram && pteKind e != kindCap)

/-- An address is the sign extension of its bits 54:0 (R288). -/
def canonical (va : Word) : Bool := va == (va.setWidth 55).signExtend 64

/-- What a walk finds: a leaf, no translation (PAGEFAULT), an uncorrectable error, or a table in a granule of the capacity
tier that has no home (R297: ACCESS). -/
inductive Walk
  | leaf (pte : Word) (slot frame : Nat) (block : Bool) | fault | poisoned | homeless
  deriving DecidableEq, Repr

/-- An entry as the walker reads it: the live image at its home (R288). Tables must lie in DRAM or CAP, and no trap is
named for one that does not: an entry elsewhere is a free value (00 R3; log 30). -/
def entryAt (s : State) (a : Nat) : Word :=
  if isCached a then BitVec.ofNat 64 (natOfBytes (homeBytes s a 8)) else Config.freeBits s.tick 3001 a

/-- An entry of a table that a walk reads goes on to the next step, or ends the walk. -/
def readEntry (s : State) (a : Nat) (k : Word → Walk) : Walk :=
  if isCached a && (homeOf s a).isNone then .homeless
  else if isCached a && homePoison s a then .poisoned
  else k (entryAt s a)

/-- The last level of a walk, from a pointer to its table. -/
def walkThree (s : State) (e2 : Word) (va : Word) : Walk :=
  let a3 := ptePA e2 + 8 * (va.extractLsb' 16 13).toNat
  readEntry s a3 fun e3 => if leafOk false e3 then .leaf e3 a3 (pteFrame e3) false else .fault

/-- The last two levels of a walk. -/
def walkTwo (s : State) (e1 : Word) (va : Word) : Walk :=
  let a2 := ptePA e1 + 8 * (va.extractLsb' 29 13).toNat
  readEntry s a2 fun e2 =>
    if pteLeaf e2 then
      if leafOk true e2 then .leaf e2 a2 (pteFrame e2 + (va.extractLsb' 16 13).toNat) true else .fault
    else if !pointerOk e2 then .fault
    else walkThree s e2 va

/-- A walk of three levels (R288 to R290). -/
def walk (s : State) (ptbase : Word) (va : Word) : Walk :=
  readEntry s (ptbase.toNat + 8 * (va.extractLsb' 42 13).toNat) fun e1 =>
    if !pointerOk e1 then .fault else walkTwo s e1 va

/-- The entries of a table that n bytes at an address touch, by address. -/
def entriesAt (base a n : Nat) : List Nat :=
  if a < base + 65536 ∧ base < a + n then (List.range (n / 8 + 1)).map (fun i => base + 8 * ((a - base) / 8 + i)) else []

/-- The entries of a table that may be other than 0: those with a listed byte, a sector at its home or an elided block. -/
def tablePlaces (s : State) (base : Nat) : List Nat :=
  s.ms.mem.flatMap (fun c => entriesAt base c.1 1) ++ s.ms.l2.flatMap (fun p => entriesAt base (p.1 * 128) 128)
    ++ s.ms.elided.flatMap (fun p => entriesAt base (p.1 * 4096) 4096)

/-- The leaves of one table space that map a page of DRAM or CAP, as translations of one page (R288 to R290). -/
def mappingsIn (s : State) (asid : BitVec 16) (ptbase page : Nat) : List TlbEntry :=
  (tablePlaces s ptbase).flatMap fun a1 =>
    let e1 := entryAt s a1
    let v1 := (a1 - ptbase) / 8 * 2 ^ 26
    if !pointerOk e1 then []
    else (tablePlaces s (ptePA e1)).flatMap fun a2 =>
      let e2 := entryAt s a2
      let v2 := v1 + (a2 - ptePA e1) / 8 * 8192
      if pteLeaf e2 then
        if leafOk true e2 && pteKind e2 ≤ kindCap && pteFrame e2 / 8192 == page / 8192 then
          [⟨asid, v2 + page % 8192, e2, a2, page, v2 + page % 8192, 1, true⟩]
        else []
      else if !pointerOk e2 then []
      else (tablePlaces s (ptePA e2)).flatMap fun a3 =>
        let e3 := entryAt s a3
        let v3 := v2 + (a3 - ptePA e2) / 8
        if leafOk false e3 && pteKind e3 ≤ kindCap && pteFrame e3 == page then [⟨asid, v3, e3, a3, page, v3, 1, false⟩] else []

/-- The table spaces in use, with their address spaces: those of the tenants and of the harts. -/
def tableRoots (s : State) : List (BitVec 16 × Nat) :=
  (s.sched.tenant.map (fun p => (BitVec.ofNat 16 p.1, p.2.spec.ptbase.toNat))
    ++ (s.hart.asid, s.hart.ptbase.toNat) :: s.harts.map (fun p => (p.2.asid, p.2.ptbase.toNat))).eraseDups

/-- Every mapping of a page of DRAM or CAP. -/
def mappingsOf (s : State) (page : Nat) : List TlbEntry := (tableRoots s).flatMap (fun r => mappingsIn s r.1 r.2 page)

/-- The page of an address is held compressed (R305): as its mappings say, which must agree; with none left, as the last
access found it (log 47). -/
def isCompressed (s : State) (a : Nat) : Bool :=
  match mappingsOf s (a / 65536) with
  | e :: _ => pteCompressed e.entry
  | [] => mapGet s.ms.compressed (a / 65536) false

/-- Software has changed the mark of a page by the rules: it filled the page whole and invalidated every mapping of it
since (R305). -/
def changeAllowed (s : State) (page : Nat) : Bool := mapGet? s.ms.filled page == some []

/-- The mappings of a page break R305 as they stand: they disagree, or they changed the mark against the rules. -/
def marksBroken (s : State) (page : Nat) : Bool :=
  match (mappingsOf s page).map (fun e => pteCompressed e.entry) with
  | [] => false
  | v :: vs => vs.any (· != v) || ((mapGet? s.ms.compressed page).any (· != v) && !changeAllowed s page)

/-- The cause of a failed permission, kind or ownership check, in the order of R50 (R287, R290, R297, R307). -/
def checkLeaf (s : State) (user : Bool) (pte : Word) (pa : Nat) (acc : Access) : Option Nat :=
  let kind := pteKind pte
  let permitted :=
    (!user || pteU pte) &&
    (match acc with
      | .load => pteR pte
      | .store => pteW pte
      | .atomic => pteR pte && pteW pte
      | .fetch => pteX pte && decide (kind ≤ kindVault))
  let placed :=
    match kind with
    | 0 => isDram pa
    | 1 => isCap pa && (homeOf s pa).isSome
    | 2 => isVault pa && !(user && isSaveArea pa)
    | 3 => isHost pa
    | 4 => pteDev pte != s.host.devNum.toNat
    | _ => isMmio pa
  if !permitted || !placed then some causeAccess
  else if pteHostOwned pte then some causeMigrate
  else none

/-- The physical address of a leaf and an offset; a peer's address becomes its key (R286). -/
def physOf (pte : Word) (frame : Nat) (va : Word) : Nat :=
  let pa := frame * 65536 + (va.setWidth 16).toNat
  if pteKind pte = kindPeer then peerKey (pteDev pte) pa else pa

/-- Translate and check for an address space, without a translation cache. -/
def resolveAs (s : State) (ptbase : Word) (user : Bool) (va : Word) (acc : Access) : Except TrapInfo Phys :=
  if !canonical va then .error (accessTrap causePagefault va acc)
  else match walk s ptbase va with
    | .fault => .error (accessTrap causePagefault va acc)
    | .poisoned => .error (accessTrap causeWalk va acc)
    | .homeless => .error (accessTrap causeAccess va acc)
    | .leaf pte slot frame block =>
      match checkLeaf s user pte (physOf pte frame va) acc with
      | some c => .error (accessTrap c va acc)
      | none => .ok ⟨physOf pte frame va, pte, slot, va.toNat / 65536, frame, block⟩

/-- A cached entry covers a page of an address space. -/
def TlbEntry.covers (e : TlbEntry) (asid : BitVec 16) (vpage : Nat) : Bool :=
  e.asid == asid && decide (e.start ≤ vpage) && decide (vpage < e.start + e.span)

/-- The physical page of a page that an entry covers: with the page's offset in the run, or in the 32 MiB of several runs,
applied (R291, R293). -/
def TlbEntry.frameOf (e : TlbEntry) (vpage : Nat) : Nat :=
  let unit := if e.span ≤ 32 then max 1 e.span else 512
  if unit = 1 then e.frame else e.frame / unit * unit + vpage % unit

/-- The cached translation of a page, in the core's TLB or its die's (R293). -/
def tlbFind (s : State) (vpage : Nat) : Option TlbEntry :=
  match s.core.tlb.find? (fun e => e.covers s.hart.asid vpage) with
  | some e => some e
  | none => (s.ms.dieTlb.getD (s.col / 32) []).find? (fun e => e.covers s.hart.asid vpage)

/-- The pages that a table pointer of a level covers: 29 bits of address at level 2, 42 at level 1. -/
def pointerPages (level : Nat) : Nat := if level = 2 then 2 ^ 13 else 2 ^ 26

/-- A table pointer that the die's walkers hold for a page (R293). -/
def upperFind (s : State) (level vpage : Nat) : Option UpperEntry :=
  (s.ms.upper.getD (s.col / 32) []).find? fun e =>
    e.asid == s.hart.asid && e.level == level && e.index == vpage / pointerPages level

/-- What the caches hold stands for what a whole walk finds where they still hold it (R293; log 8). -/
def heldOr (s : State) (held whole : Walk) : Walk :=
  if held = whole then whole else if Config.tlbKeeps s.tick then held else whole

/-- A walk of the current hart: it may start from the pointers that the walkers hold (R293). -/
def walkHere (s : State) (va : Word) : Walk :=
  let whole := walk s s.hart.ptbase va
  match upperFind s 2 (va.toNat / 65536), upperFind s 1 (va.toNat / 65536) with
  | some e, _ => heldOr s (walkThree s e.entry va) whole
  | none, some e => heldOr s (walkTwo s e.entry va) whole
  | none, none => whole

/-- The leaf through which the current hart translates: a cached one where the caches still hold it (R293), else the
walked one. -/
def leafFor (s : State) (va : Word) : Walk :=
  match tlbFind s (va.toNat / 65536) with
  | some e => heldOr s (.leaf e.entry e.slot (e.frameOf (va.toNat / 65536)) e.block) (walkHere s va)
  | none => walkHere s va

/-- Translate and check an access of the current hart: translation, permission and kind, ownership (R50). -/
def resolve (s : State) (va : Word) (acc : Access) : Except TrapInfo Phys :=
  if !canonical va then .error (accessTrap causePagefault va acc)
  else match leafFor s va with
    | .fault => .error (accessTrap causePagefault va acc)
    | .poisoned => .error (accessTrap causeWalk va acc)
    | .homeless => .error (accessTrap causeAccess va acc)
    | .leaf pte slot frame block =>
      match checkLeaf s (s.hart.mode == .user) pte (physOf pte frame va) acc with
      | some c => .error (accessTrap c va acc)
      | none => .ok ⟨physOf pte frame va, pte, slot, va.toNat / 65536, frame, block⟩

/-- The A and D bits an access sets (R292). -/
def usedBits (writes : Bool) : Byte := if writes then 0xC0 else 0x40

/-- An access of a DRAM or CAP page shows whether it is held compressed (R305). A page that was shown otherwise has
changed: by the rules, that is all; else its data is undefined from then on (log 47). -/
def noteCompressed (s : State) (p : Phys) : State :=
  let page := p.pa / 65536
  let now := pteCompressed p.pte
  if kindCap < pteKind p.pte then s
  else match mapGet? s.ms.compressed page with
    | some was =>
      if was = now then s
      else if changeAllowed s page then
        { s with ms := { s.ms with
          compressed := mapSet s.ms.compressed page now, filled := mapErase s.ms.filled page } }
      else
        { s with ms := { s.ms with
          compressed := mapSet s.ms.compressed page now, undef := (page * 65536, 65536) :: s.ms.undef } }
    | none => { s with ms := { s.ms with compressed := mapSet s.ms.compressed page now } }

/-- Set A, and D for a write, at the home of an entry that was read without them (R292): an OR into what stands there.
An entry of a table outside DRAM and CAP has no home, and nothing is written (00 R3, R4). -/
def markUsed (s : State) (p : Phys) (writes : Bool) : State :=
  if !isCached p.slot || p.pte &&& (usedBits writes).setWidth 64 == (usedBits writes).setWidth 64 then s
  else homeWrite s p.slot [homeByte s p.slot ||| usedBits writes]

/-- A translated access uses its entry and its page. -/
def touchEntry (s : State) (p : Phys) (writes : Bool) : State := noteCompressed (markUsed s p writes) p

/-- A leaf at level 3 that is a member of a run (R291). -/
def pteRun (e : Word) : Bool := e.getLsbD 14

/-- Run j of the sixteen of the 32 MiB around a page is mapped as the page's run is, and contiguous: its first entry is
that of the page's run, moved (R293). -/
def runLike (s : State) (p : Phys) (j : Nat) : Bool :=
  let keep : Word := 0xF00000000FFFFF3F
  let e := entryAt s (p.slot - p.slot % 4096 + 256 * j)
  pteRun e && leafOk false e && e &&& keep == p.pte &&& keep && pteFrame e == p.frame / 512 * 512 + 32 * j

/-- The runs of a page's 32 MiB that one entry of a die holds beside the page's own: below it and above it (R293). -/
def runsBeside (s : State) (p : Phys) : Nat × Nat :=
  let j := p.vpage / 32 % 16
  let reach := Config.tlbReach s.tick
  if runLike s p j then
    ((((List.range j).reverse.take reach.1).takeWhile (runLike s p)).length,
      ((((List.range 16).drop (j + 1)).take reach.2).takeWhile (runLike s p)).length)
  else (0, 0)

/-- The pages that a translation is held for, as the first and their number: a page, a 2 MiB run, or, at a die, up to
sixteen runs of 32 MiB; a block is held in pieces of that size (R291, R293; log 8). -/
def spanOf (s : State) (p : Phys) (die : Bool) : Nat × Nat :=
  let v := p.vpage
  if !(p.block || pteRun p.pte) || !Config.tlbSpans s.tick then (v, 1)
  else if !die then (v / 32 * 32, 32)
  else if p.block then (v / 512 * 512, 512)
  else
    let r := runsBeside s p
    (v / 32 * 32 - 32 * r.1, 32 * (r.1 + 1 + r.2))

/-- A list of cached translations takes one: those of the same page go, and the oldest beyond the capacity. -/
def putEntry (cap : Nat) (e : TlbEntry) (l : List TlbEntry) : List TlbEntry :=
  (e :: l.filter (fun x => !x.covers e.asid e.vpage)).take cap

/-- The walkers keep the pointers that lead to a leaf (R293). -/
def putUpper (s : State) (p : Phys) (l : List UpperEntry) : List UpperEntry :=
  let put (level : Nat) (e : Word) (l : List UpperEntry) : List UpperEntry :=
    if pointerOk e then
      ⟨s.hart.asid, level, p.vpage / pointerPages level, e⟩ ::
        l.filter (fun x => !(x.asid == s.hart.asid && x.level == level && x.index == p.vpage / pointerPages level))
    else l
  let e1 := ((upperFind s 1 p.vpage).map (·.entry)).getD (entryAt s (s.hart.ptbase.toNat + 8 * (p.vpage / 2 ^ 26 % 8192)))
  let e2 := ((upperFind s 2 p.vpage).map (·.entry)).getD (entryAt s (ptePA e1 + 8 * (p.vpage / 8192 % 8192)))
  put 2 e2 (put 1 e1 l)

/-- The translation caches take an entry (R293): 256 entries in a core, 16,384 in a die. -/
def cacheEntry (s : State) (p : Phys) (pte : Word) : State :=
  let e (die : Bool) : TlbEntry :=
    ⟨s.hart.asid, p.vpage, pte, p.slot, p.frame, (spanOf s p die).1, (spanOf s p die).2, p.block⟩
  let die := s.col / 32 % 4
  { s with
    core := { s.core with tlb := putEntry 256 (e false) s.core.tlb }
    ms := { s.ms with
      dieTlb := s.ms.dieTlb.setIfInBounds die (putEntry 16384 (e true) (s.ms.dieTlb.getD die []))
      upper := s.ms.upper.setIfInBounds die (putUpper s p (s.ms.upper.getD die [])) } }

/-- What a translated access leaves behind, before it is performed. -/
def touch (s : State) (p : Phys) (writes : Bool) : State :=
  cacheEntry (touchEntry s p writes) p (p.pte ||| (usedBits writes).setWidth 64)

/-- A store through a translation: one to an ORDERED page is performed in its turn (13 R309). -/
def storeTo (s : State) (p : Phys) (bytes : List Byte) : State :=
  if pteOrdered p.pte then storeNow s p.pa bytes else storeBytes s p.pa bytes

end Sys2Proof.Machine
end

