-- ==== Sys2Proof/Machine/Sched.lean ====
section
/-! DEFINITION. What the scheduler does when a hart or a gang ends: lane groups, strip-bound copy commands, the
violation log (19 R360, R361), message rings (24 R406), retirement (17 R339), replays of resident graphs (17 R345), the
failure of a gang (19 R359). -/
namespace Sys2Proof.Machine

/-! ## Lane groups and matrix state of a hart -/

/-- The groups a hart of a core holds, ascending (01 R18). -/
def heldGroups (c : CoreState) (idx : Nat) : List Nat :=
  (List.range 8).filter (fun g => c.owner.getD g none == some idx)

/-- The physical array rows of some groups, ascending (01 R18). -/
def rowsOf (groups : List Nat) : List Nat := groups.flatMap (fun g => (List.range 8).map (fun i => 8 * g + i))

/-- The physical rows of a hart in hart-relative order (01 R18). -/
def heldRows (c : CoreState) (idx : Nat) : List Nat := rowsOf (heldGroups c idx)

/-- Accumulators, cells and gradients of some physical rows are discarded (01 R25). -/
def clearRows (c : CoreState) (rows : List Nat) : CoreState :=
  { c with
    acc := c.acc.filter (fun p => !rows.contains (p.1 / 384))
    accBad := c.accBad.filter (fun k => !rows.contains (k / 384))
    cells := c.cells.filter (fun p => !rows.contains (p.1 / 64))
    grad := c.grad.filter (fun p => !rows.contains (p.1 / 1024)) }

/-- Knot registers of some physical rows take their reset values (01 R26). -/
def resetKnots (c : CoreState) (rows : List Nat) : CoreState :=
  { c with knot := rows.foldl (fun k r => k.setIfInBounds r Knot.reset) c.knot }

/-- Groups leave their holder (01 R25, R26). -/
def freeGroups (c : CoreState) (groups : List Nat) : CoreState :=
  let c := resetKnots (clearRows c (rowsOf groups)) (rowsOf groups)
  { c with owner := groups.foldl (fun o g => o.setIfInBounds g none) c.owner }

/-- The LPART field of a hart (01 R21): EN, CEIL, FLOOR. -/
def lpEn (lp : Word) (idx : Nat) : Bool := lp.getLsbD (16 * idx + 15)
def lpCeil (lp : Word) (idx : Nat) : Nat := (lp.extractLsb' (16 * idx + 8) 4).toNat
def lpFloor (lp : Word) (idx : Nat) : Nat := (lp.extractLsb' (16 * idx) 4).toNat

/-- LPART with one hart's field replaced. -/
def setLpField (lp : Word) (idx : Nat) (field : Nat) : Word :=
  (lp &&& ~~~((0xFFFF : Word) <<< (16 * idx))) ||| ((BitVec.ofNat 64 field) <<< (16 * idx))

/-! ## Strip-bound copy commands (11 R232) -/

/-- A copy channel of a core, 0 or 1. -/
def chanOf (c : CoreState) (k : Nat) : Channel := c.chan.getD k Channel.reset
def setChan (c : CoreState) (k : Nat) (x : Channel) : CoreState := { c with chan := c.chan.setIfInBounds k x }

/-- The strip handles of a core: those of the harts in its slots, and those kept in hart records (19 R363). -/
def stripsOf (s : State) (col : Nat) : List Strip :=
  (hartsOf col).flatMap fun h =>
    (getHart s h).strip.toList ++ s.sched.gang.flatMap (fun g => ((mapGet? g.left h).map (·.strip.toList)).getD [])

/-- The strip of a core bound to a channel. -/
def boundStrip (s : State) (col k : Nat) : Option Strip :=
  (stripsOf s col).find? (fun x => x.len != 0 && x.chan.toNat == k + 1)

/-- The bytes counted by a pointer when `m` bytes of a command are moved (11 R231). -/
def counted (c : CopyCmd) (m : Nat) : Nat := if m = c.len then c.len else m / 128 * 128

/-- The commands of a channel count no more in its pointers, which stand at `wp` and `rp`; each keeps where its first byte
stands in its strip (11 R232; log 74). -/
def uncount : Nat → Nat → List CopyCmd → List CopyCmd
  | _, _, [] => []
  | wp, rp, c :: rest =>
    if c.counted then
      let w := wp - counted c c.moved
      let r := rp - (if c.fill then 0 else counted c c.moved)
      { c with counted := false, base := if c.dstStrip then w else r }
        :: uncount (w + c.len) (r + (if c.fill then 0 else c.len)) rest
    else c :: uncount wp rp rest

/-- A command is counted in DONE with its status (11 R232, R237). -/
def countDone (x : Channel) (cmd : CopyCmd) (status : Nat) : Channel :=
  if cmd.counted then { x with done := x.done + 1, first := if x.first = 0 then status else x.first } else x

/-- A command that ends with CUT: the pointers advance by what it moved beyond their last 128 bytes (11 R231, R232). -/
def cutCommand (x : Channel) (cmd : CopyCmd) : Channel :=
  let d := if cmd.counted then BitVec.ofNat 64 (cmd.moved - counted cmd cmd.moved) else 0
  countDone { x with wp := x.wp + d, rp := if cmd.fill then x.rp else x.rp + d } cmd 8

/-- Commands whose strip is unbound complete at once with CUT (11 R232). -/
def cutChannels (s : State) (col : Nat) : State :=
  (List.range 2).foldl (fun s k =>
    if (boundStrip s col k).isSome then s
    else modCore s col fun c =>
      let x := chanOf c k
      let cut := x.queue.filter (fun cmd => cmd.dstStrip || cmd.srcStrip)
      let x := cut.foldl cutCommand x
      setChan c k { x with queue := x.queue.filter (fun cmd => !(cmd.dstStrip || cmd.srcStrip)) }) s

/-! ## Tenants, the violation log, rings -/

def tenantOf (s : State) (asid : BitVec 16) : Option Tenant := mapGet? s.sched.tenant asid.toNat

/-- A tenant is torn down: its functions answer Completer Abort, and management commands that touch it wait (24 R413,
R418). -/
def tearingDown (s : State) (asid : BitVec 16) : Bool := ((tenantOf s asid).map (·.tearing)).getD false

/-- A command of management is refused. -/
def refuseCommand (s : State) : State := { s with host := { s.host with refusedCommands := s.host.refusedCommands + 1 } }

/-- A command that touches a tenant in teardown waits until that completes, and is then refused (24 R418). -/
def refuseLater (s : State) (asid : Nat) : State :=
  if tearingDown s (BitVec.ofNat 16 asid) then { s with agenda := s.agenda ++ [.refuse asid] } else refuseCommand s

/-- Change a tenant. -/
def modTenant (s : State) (asid : BitVec 16) (f : Tenant → Tenant) : State :=
  match tenantOf s asid with
  | some t => { s with sched := { s.sched with tenant := mapSet s.sched.tenant asid.toNat (f t) } }
  | none => s

/-- The tenant's columns that are in service, ascending. -/
def serviceColumns (s : State) (t : Tenant) : List Nat :=
  sortNat (t.spec.columns.filter (fun c => (getCore s c).inService))

/-- Where the log of a column begins (19 R360). -/
def logBase (col : Nat) : Nat := vaultBase + col * 0x1000000 + 0xB9FC00

/-- The 16 bytes of a log entry (19 R360). -/
def logBytes (addr : Word) (req agent cause flags : Nat) : List Byte :=
  bytesOfNat 8 addr.toNat ++ bytesOfNat 2 req ++ bytesOfNat 2 agent ++ bytesOfNat 1 cause ++ bytesOfNat 1 (1 + flags)
    ++ bytesOfNat 2 0

/-- Write one entry to a tenant's violation log and move NEXT on (19 R361). -/
def logViolation (s : State) (asid : BitVec 16) (addr : Word) (req agent cause flags : Nat) : State :=
  match tenantOf s asid with
  | some t =>
    match t.logColumn with
    | some col =>
      let a := logBase col + 16 * t.next
      let lost := (settledByte s (a + 13)).getLsbD 0
      let s := setBytes s a (logBytes addr req agent cause flags)
      modTenant s asid fun t =>
        { t with next := (t.next + 1) % 64, lost := if lost then min (t.lost + 1) (2 ^ 32 - 1) else t.lost }
    | none => s
  | none => s

/-- REQ of a hart (19 R360). -/
def reqOfHart (h : Nat) : Nat := colOf h + 256 * (h % 4)

def funcOf (s : State) (f : Nat) : Func := mapGet s.host.func f Func.reset
def modFunc (s : State) (f : Nat) (g : Func → Func) : State :=
  { s with host := { s.host with func := mapSet s.host.func f (g (funcOf s f)) } }

/-- Entries of a ring, and whether it is enabled (24 R406). -/
def ringSize (x : Func) : Nat := 2 ^ ((x.rsize.extractLsb' 0 4).toNat + 4)
def ringEnabled (x : Func) : Bool := x.rsize.getLsbD 63
def ringFull (x : Func) : Bool := (x.rtail.toNat + 1) % ringSize x == x.rhead.toNat % ringSize x

/-- The device writes one entry with a posted write, advances RTAIL and signals vector 0 (24 R406). -/
def ringWrite (s : State) (f : Nat) (bytes : List Byte) : State :=
  let x := funcOf s f
  let s := setBytes s (hostKey (x.rbase.toNat + 32 * (x.rtail.toNat % ringSize x))) bytes
  modFunc s f fun x => { x with rtail := BitVec.ofNat 64 ((x.rtail.toNat + 1) % ringSize x), msi0 := x.msi0 + 1 }

/-- A hardware entry; one that finds the ring full is dropped and counted (24 R406). -/
def ringAppend (s : State) (f : Nat) (bytes : List Byte) : State :=
  let x := funcOf s f
  if !ringEnabled x then s
  else if ringFull x then modFunc s f fun x => { x with rlost := x.rlost + 1 }
  else ringWrite s f bytes

/-- The functions of a tenant. -/
def functionsOf (s : State) (asid : BitVec 16) : List Nat :=
  (s.host.func.filter (fun p => p.2.tenant == some asid)).map (·.1)

/-! ## A hart slot is given back -/

/-- The hart's registers and matrix state are discarded, its groups released, its slot and LPART field freed, its
strip handles unbound (17 R339, 19 R359). Its stores stay: they drain. -/
def freeHart (s : State) (h : Nat) : State :=
  let s := drainAll s h
  let s := modCore s (colOf h) fun c =>
    let c := freeGroups c (heldGroups c (h % 4))
    { c with lpart := setLpField c.lpart (h % 4) 0 }
  let s := modHart s h fun _ => Hart.reset (colOf h)
  cutChannels s (colOf h)

/-- A member of a gang stands in its slot: it has neither ended nor yielded (19 R363). -/
def inSlot (g : Gang) (h : Nat) : Bool := g.members.contains h && !g.ended.contains h && (mapGet? g.left h).isNone

/-- The gang a hart belongs to. -/
def gangOf (s : State) (h : Nat) : Option Gang := s.sched.gang.find? (fun g => inSlot g h)

def modGang (s : State) (id : Nat) (f : Gang → Gang) : State :=
  { s with sched := { s.sched with gang := s.sched.gang.map (fun g => if g.id = id then f g else g) } }

/-! ## Scheduler accesses -/

/-- Bytes of a tenant's space as the scheduler reads them: the live image at its home (17 R342). -/
def schedRead (s : State) (asid : BitVec 16) (va : Word) (n : Nat) : Option (List Byte) :=
  match tenantOf s asid with
  | some t =>
    match resolveAs s t.spec.ptbase false va .load with
    | .ok p =>
      if pteKind p.pte ≤ kindVault then
        if isCached p.pa then (if homePoison s p.pa then none else some (homeBytes s p.pa n))
        else some ((List.range n).map (fun i => settledByte s (p.pa + i)))
      else none
    | .error _ => none
  | none => none

/-- An uncorrectable error that every gang of an address space could have used is met: the next turn fails them (24
R415). -/
def noteWalkError (s : State) (asid : BitVec 16) : State := { s with agenda := .walkError asid :: s.agenda }

/-- The walk of an address for the scheduler meets an uncorrectable error. -/
def walkPoisoned (s : State) (asid : BitVec 16) (va : Word) : Bool :=
  match tenantOf s asid with
  | some t => (match resolveAs s t.spec.ptbase false va .load with | .error e => e.cause == causeWalk | .ok _ => false)
  | none => false

/-- A scheduler access fails; where its walk met an uncorrectable error, the gangs fail too. -/
def failedWalk (s : State) (asid : BitVec 16) (va : Word) : State :=
  if walkPoisoned s asid va then noteWalkError s asid else s

/-- The atomic maximum of a retirement watermark with all ones is performed; one that a peer's port can carry no more fails
as a check does (DESIGN CHOICE beside 24 R405, R409, log 84). -/
def performOwed (s : State) (o : Owed) : State :=
  if pathUp s o.phys.pa then atomicWrite (touchEntry s o.phys true) o.phys.pa (List.replicate 8 0xFF)
  else if pathLost s o.phys.pa then logViolation s o.asid o.wm o.req 3 1 0
  else { s with sched := { s.sched with owed := s.sched.owed ++ [o] } }

/-- Watermarks that wait for a port are tried again. -/
def performAllOwed (s : State) : State :=
  s.sched.owed.foldl performOwed { s with sched := { s.sched with owed := [] } }

/-- Publish a retirement watermark (17 R339): an atomic maximum with all ones; a failed check is logged. One in a peer's
memory waits while its port retrains (24 R408). -/
def publish (s : State) (asid : BitVec 16) (wm : Word) (req : Nat) : State :=
  if wm = 0 then s
  else
    match tenantOf s asid with
    | some t =>
      match resolveAs s t.spec.ptbase false wm .store with
      | .ok p =>
        if pteKind p.pte ≤ kindVault ∨ pteKind p.pte = kindPeer then performOwed s ⟨asid, wm, p, req⟩
        else logViolation s asid wm req 3 1 0
      | .error _ => failedWalk (logViolation s asid wm req 3 1 0) asid wm
    | none => s

/-! ## Launch records (17 R334, R335) -/

/-- n bytes of a list from an offset, as a number. -/
def field (bs : List Byte) (off n : Nat) : Nat := natOfBytes ((bs.drop off).take n)

/-- The fields of the first 40 bytes of a launch record. -/
def parseLaunch (bs : List Byte) : LaunchRecord where
  entry := BitVec.ofNat 64 (field bs 0 8)
  args := BitVec.ofNat 64 (field bs 8 8)
  wmaddr := BitVec.ofNat 64 (field bs 16 8)
  gang := field bs 24 2
  harts := field bs 26 1
  prio := field bs 27 1
  queue := field bs 28 1
  ordered := (field bs 29 1).testBit 0
  early := (field bs 29 1).testBit 1
  graph := (field bs 29 1).testBit 2
  array := (field bs 29 1).testBit 3
  graphNo := field bs 30 2
  floors := (List.range 4).map (fun j => field bs (32 + 2 * j) 1)
  ceils := (List.range 4).map (fun j => field bs (33 + 2 * j) 1)

/-- The rules of R335 that a task's own fields must meet, for a record of `columns` columns at most. -/
def taskFieldsOk (r : LaunchRecord) (columns : Nat) : Bool :=
  decide (0 < r.gang) && decide (r.gang ≤ columns) && decide (0 < r.harts) && decide (r.harts ≤ 4)
  && (List.range 4).all (fun j =>
      if j < r.harts then decide (r.floors.getD j 0 ≤ r.ceils.getD j 0) && decide (r.ceils.getD j 0 ≤ 8)
      else r.floors.getD j 0 == 0 && r.ceils.getD j 0 == 0)
  && decide ((r.floors.take r.harts).foldl (· + ·) 0 ≤ 8)

/-! ## Replays of resident graphs (17 R344, R345) -/

/-- A node of a graph (R344). -/
structure GraphNode where
  kind : Nat
  wait : Nat
  succ : List Nat
  cond : Word
  params : LaunchRecord
  deriving DecidableEq, Repr

/-- The node of 128 bytes, or none where it is malformed (R344, R345). -/
def parseNode (bs : List Byte) (index nodes columns : Nat) : Option GraphNode :=
  let kind := field bs 0 1
  let n := field bs 1 1
  let wait := field bs 2 2
  let succ := (List.range n).map (fun i => field bs (16 + 2 * i) 2)
  let cond := field bs 32 8
  let r := parseLaunch (bs.drop 64)
  let ok := decide (kind < 5) && decide (n ≤ 8) && (index == 0 || wait != 0)
    && (if kind = 1 ∨ kind = 2 then n == 2 else if kind = 3 then decide (0 < n) else true)
    && field bs 4 12 == 0 && succ.all (fun i => decide (i < nodes)) && field bs (16 + 2 * n) (16 - 2 * n) == 0
    && field bs 40 24 == 0 && field bs 104 24 == 0
    && (if kind = 0 ∨ kind = 4 then cond == 0 else cond % 8 == 0)
    && (if kind = 0 then
          r.entry.toNat % 4 == 0 && r.wmaddr.toNat % 8 == 0 && decide (r.prio < 8) && r.queue == 0
          && (field bs 93 1 == 0 || field bs 93 1 == 8) && r.graphNo == 0 && taskFieldsOk r columns
        else field bs 64 40 == 0)
  if ok then some ⟨kind, wait, succ, BitVec.ofNat 64 cond, r⟩ else none

/-- Where a node of the bound image stands. -/
def nodeAddr (r : Replay) (x : Nat) : Word := r.base + BitVec.ofNat 64 (128 * x)

/-- The 128 bytes of a node of the bound image, read once each time it is signalled or fired (R343). -/
def nodeBytes (s : State) (r : Replay) (x : Nat) : Option (List Byte) := schedRead s r.asid (nodeAddr r x) 128

/-- The columns of the tenant, for the rules of R335. -/
def columnCount (s : State) (asid : BitVec 16) : Nat := ((tenantOf s asid).map (·.spec.columns.length)).getD 0

/-- The replay fails at an address it read: one log entry, no further node fires (R345; log 29). -/
def failReplay (s : State) (r : Replay) (a : Word) : State × Replay :=
  if r.failed then (s, { r with signals := [] })
  else (failedWalk (logViolation s r.asid a 0 3 2 0) r.asid a, { r with failed := true, signals := [] })

/-- Fire the node of 128 bytes (R345): a TASK waits for dispatch, another kind chooses the nodes to signal next. -/
def fireNode (s : State) (r : Replay) (x : Nat) (bs : List Byte) : State × Replay :=
  match parseNode bs x r.nodes (columnCount s r.asid) with
  | none => failReplay s r (nodeAddr r x)
  | some n =>
    let next (ys : List Nat) : State × Replay := (s, { r with signals := ys ++ r.signals })
    let chosen (f : Nat → Nat) : State × Replay :=
      match schedRead s r.asid n.cond 8 with
      | some bs => next ((n.succ[f (natOfBytes bs)]?).toList)
      | none => failReplay s r n.cond
    match n.kind with
    | 0 =>
      let args := if n.params.args = 0 then r.rcd.args else n.params.args
      (s, { r with ready := r.ready ++ [⟨x, n.succ, { n.params with args := args }⟩] })
    | 1 => chosen (fun v => if v = 0 then 1 else 0)
    | 2 => chosen (fun v => if v = 0 then 1 else 0)
    | 3 => chosen (fun v => min v (n.succ.length - 1))
    | _ => next n.succ

/-- Count a signal at a node; the node fires when its count reaches NWAIT, and fails the replay only then if it is
malformed (R345). -/
def signalNode (s : State) (r : Replay) (y : Nat) : State × Replay :=
  match nodeBytes s r y with
  | none => failReplay s r (nodeAddr r y)
  | some bs =>
    let k := mapGet r.counts y 0 + 1
    if k = field bs 2 2 then fireNode s { r with counts := mapErase r.counts y } y bs
    else (s, { r with counts := mapSet r.counts y k })

/-- Signal the nodes that are due, at most `fuel` of them in one step; what a node signals comes before what was due. -/
def signalDue : Nat → State → Replay → State × Replay
  | 0, s, r => (s, r)
  | fuel + 1, s, r =>
    match r.signals with
    | [] => (s, r)
    | y :: ys =>
      let p := signalNode s { r with signals := ys } y
      signalDue fuel p.1 p.2

/-- The key of a graph register of a tenant (17 R342). -/
def graphKey (asid : BitVec 16) (g : Nat) : Nat := asid.toNat * 64 + g

/-- BOUND of the image a replay is bound to falls by 1 at its retirement (17 R343). -/
def unbind (s : State) (r : Replay) : State :=
  let k := graphKey r.asid r.graph
  let g := mapGet s.sched.graph k GraphReg.reset
  let g := if r.image = 0 then { g with bound0 := g.bound0 - 1 } else { g with bound1 := g.bound1 - 1 }
  { s with sched := { s.sched with graph := mapSet s.sched.graph k g } }

/-- Put a replay back; it retires when no node is firing, queued or running (R345). -/
def settleReplay (s : State) (r : Replay) : State :=
  let others := s.sched.replay.filter (fun x => x.id != r.id)
  if r.signals.isEmpty && r.ready.isEmpty && r.running == 0 then
    publish (unbind { s with sched := { s.sched with replay := others } } r) r.asid r.rcd.wmaddr 0
  else { s with sched := { s.sched with replay := others ++ [r] } }

/-- How many signals are made in one step; the rest follow at the next step of the scheduler. -/
def signalFuel : Nat := 4096

/-- Run a replay on. -/
def advanceReplay (s : State) (r : Replay) : State :=
  let p := signalDue signalFuel s r
  settleReplay p.1 p.2

/-- A TASK node's task retired: signal every successor that its read gave (R343, R345). -/
def nodeRetired (s : State) (id : Nat) (succ : List Nat) : State :=
  match s.sched.replay.find? (fun r => r.id == id) with
  | some r =>
    let r := { r with running := r.running - 1 }
    advanceReplay s (if r.failed then r else { r with signals := r.signals ++ succ })
  | none => s

/-- A task retires: its gang is no longer resident, WMADDR is published with a release of its cores' stores, a graph goes
on (17 R339, R345). -/
def retireGang (s : State) (g : Gang) : State :=
  let s := { s with sched := { s.sched with gang := s.sched.gang.filter (fun x => x.id != g.id) } }
  let s := (g.members.map colOf).foldl pushAll s
  let s := publish s g.asid g.rcd.wmaddr (colOf (g.members.getD 0 0))
  match g.node with
  | some (id, succ) => nodeRetired s id succ
  | none => s

/-! ## Failure (19 R359) -/

/-- The TASKFAIL entry (24 R406). -/
def taskFailBytes (g : Gang) (cause : Nat) (addr : Word) (h : Nat) : List Byte :=
  bytesOfNat 8 g.rcd.entry.toNat ++ bytesOfNat 2 g.asid.toNat ++ bytesOfNat 1 cause ++ bytesOfNat 1 1
  ++ bytesOfNat 4 (reqOfHart h) ++ bytesOfNat 8 addr.toNat ++ bytesOfNat 1 g.rcd.queue ++ bytesOfNat 1 0
  ++ bytesOfNat 2 g.id ++ bytesOfNat 4 0

/-- The function whose ring takes the failure of a gang (19 R359): the one its record was submitted through; for a
LAUNCH some function of the tenant (log 29). -/
def failRing (s : State) (g : Gang) : Option Nat :=
  let fs := functionsOf s g.asid
  match g.via.filter fs.contains, fs with
  | some f, _ => some f
  | none, [] => none
  | none, [f] => some f
  | none, fs => fs[(Config.freeBits s.tick 2006 g.id).toNat % fs.length]?

/-- A member that has yielded gives back its LPART field, where no other hart has its slot. -/
def dropRecord (s : State) (h : Nat) : State :=
  if (gangOf s h).isSome then s
  else modCore s (colOf h) fun c => { c with lpart := setLpField c.lpart (h % 4) 0 }

/-- Every hart of a gang stops and its state is discarded, records of yielded harts included, whose strips are unbound
(11 R232). -/
def stopGang (s : State) (g : Gang) : State :=
  let s := (g.members.filter (inSlot g)).foldl freeHart s
  let s := (g.left.map (·.1)).foldl dropRecord s
  let s := modGang s g.id fun x => { x with left := [], ended := x.members }
  (g.left.map (fun p => colOf p.1)).foldl cutChannels s

/-- The scheduler fails a gang: its harts stop, one log entry with HALT, retirement, and TASKFAIL on the completion
path of the submitter (19 R359). -/
def failGang (s : State) (g : Gang) (h cause : Nat) (addr : Word) : State :=
  let s := stopGang s g
  let s := logViolation s g.asid addr (reqOfHart h) 0 cause 2
  let s := retireGang s g
  match failRing s g with
  | some f => ringAppend s f (taskFailBytes g cause addr h)
  | none => s

/-- A hart halts (19 R359). A hart that belongs to no gang stops alone. -/
def haltHart (s : State) (h cause : Nat) (addr : Word) : State :=
  match gangOf s h with
  | some g => failGang s g h cause addr
  | none => logViolation (freeHart s h) (getHart s h).asid addr (reqOfHart h) 0 cause 2

/-- Every gang of an address space fails: it could have used what an uncorrectable error took (24 R415; log 58). -/
def failSpace (s : State) (asid : BitVec 16) : State :=
  (s.sched.gang.filter (fun g => g.asid == asid)).foldl (fun s g => failGang s g (g.members.headD 0) causePoison 0) s

/-! ## Lanes -/

/-- TSTATUS.RESV of a hart (19 R354). -/
def resvOf (h : Hart) : Nat := (h.tstatus.extractLsb' 20 4).toNat

/-- The hart asks for lanes: since its SETREGS (17 R340), or while it holds a reservation (19 R362). -/
def isContending (h : Hart) : Bool := h.contending || resvOf h != 0

/-- The hart contends: it asks for lanes, and its EN bit is set (01 R23). -/
def contends (s : State) (h : Nat) : Bool := lpEn (getCore s (colOf h)).lpart (h % 4) && isContending (getHart s h)

/-- The indices of the harts of a core that contend (17 R340). -/
def contenders (s : State) (col : Nat) : List Nat := (List.range 4).filter (fun i => contends s (4 * col + i))

/-- One round of the leftover loop of R340. -/
def handOut (ceil : Nat → Nat) : List Nat → Map Nat → Nat → Map Nat × Nat
  | [], t, left => (t, left)
  | i :: is, t, left =>
    if mapGet t i 0 < ceil i ∧ 0 < left then handOut ceil is (mapSet t i (mapGet t i 0 + 1)) (left - 1)
    else handOut ceil is t left

/-- Eight rounds hand out what can be handed out. -/
def handOutRounds (ceil : Nat → Nat) (hs : List Nat) : Nat → Map Nat → Nat → Map Nat
  | 0, t, _ => t
  | n + 1, t, left =>
    let p := handOut ceil hs t left
    handOutRounds ceil hs n p.1 p.2

/-- The targets of the contending harts of a core (17 R340); reservations come first (19 R362). -/
def laneTargets (s : State) (col : Nat) : Map Nat :=
  let hs := contenders s col
  let resv (i : Nat) : Nat := resvOf (getHart s (4 * col + i))
  let lp := (getCore s col).lpart
  let res := hs.filter (fun i => resv i != 0)
  let rest := hs.filter (fun i => resv i == 0)
  let taken := (res.map resv).foldl (· + ·) 0
  let floors := (rest.map (lpFloor lp)).foldl (· + ·) 0
  let t := res.foldl (fun t i => mapSet t i (resv i)) ([] : Map Nat)
  let t := rest.foldl (fun t i => mapSet t i (lpFloor lp i)) t
  handOutRounds (lpCeil lp) rest 8 t (8 - taken - floors)

/-- The target of a hart; 0 where it does not contend. -/
def laneTarget (s : State) (h : Nat) : Nat := mapGet (laneTargets s (colOf h)) (h % 4) 0

end Sys2Proof.Machine
end

