-- ==== Sys2Proof/Machine/Mailbox.lean ====
section
/-! DEFINITION. Mailboxes and plots (22 R381 to R394): rings, records, posts and takes, the ends of episodes, the
registers of the mailbox page. -/
namespace Sys2Proof.Machine

def boxOf (s : State) (b : Nat) : Mailbox := mapGet s.green.box b Mailbox.reset
def setBox (s : State) (b : Nat) (x : Mailbox) : State := { s with green := { s.green with box := mapSet s.green.box b x } }
def gcoreOf (s : State) (g : Nat) : GCore := mapGet s.green.core g GCore.reset
def setGCore (s : State) (g : Nat) (x : GCore) : State :=
  { s with green := { s.green with core := mapSet s.green.core g x } }

/-- The core on which a plot is installed. -/
def installedOn (s : State) (b : Nat) : Option Nat :=
  (s.green.core.find? (fun p => p.2.installed && p.2.plot == b)).map (·.1)

/-- The tenant of a mailbox. -/
def boxOwner (s : State) (b : Nat) : Option (BitVec 16) :=
  if (boxOf s b).ownerV then some (boxOf s b).owner else none

/-- The tenant of a Greenhouse core's block (R379). -/
def coreTenant (s : State) (g : Nat) : Option (BitVec 16) :=
  (s.sched.tenant.find? (fun p => p.2.spec.blocks.contains (g / 8))).map (fun p => BitVec.ofNat 16 p.1)

/-- PCOUNT after some cycles: past a limit it stays past it; under the highest limit, which no count passes, it wraps. -/
def countTo (c : GCore) (cycles : Nat) : BitVec 32 :=
  if c.plimit = 0xFFFFFFFF then c.pcount + BitVec.ofNat 32 cycles else BitVec.ofNat 32 (min (c.pcount.toNat + cycles) 0xFFFFFFFF)

/-- Time passes in PCOUNT while a plot is installed, RUN is 1 and PLIMIT is not 0 (R392; log 9). -/
def countOn (s : State) (c : GCore) : GCore :=
  if c.installed ∧ c.run ∧ c.plimit ≠ 0 then { c with pcount := countTo c (Config.elapsed s.tick) } else c

/-- PCOUNT stands above the limit: the core prunes before its next instruction (R392). -/
def pruneDue (c : GCore) : Bool := c.installed && c.run && c.plimit != 0 && decide (c.plimit.toNat < c.pcount.toNat)

/-- Stop, or start from 0, the pruner count of the core on which a plot is installed. -/
def stopCount (s : State) (b : Nat) : State :=
  match installedOn s b with
  | some g => setGCore s g { countOn s (gcoreOf s g) with run := false }
  | none => s
def startCount (s : State) (b : Nat) : State :=
  match installedOn s b with
  | some g => setGCore s g { gcoreOf s g with pcount := 0, run := true }
  | none => s

/-- A record that enters the down-ring ends a WFI of the core on which the plot is installed (R391). -/
def wakeCore (s : State) (b : Nat) : State :=
  match installedOn s b with
  | some g => if (gcoreOf s g).asleep then setGCore s g { gcoreOf s g with asleep := false } else s
  | none => s

/-! ## Records (R389) -/

def kindAct : Nat := 1
def kindDone : Nat := 3
def kindPruned : Nat := 4
def kindExpired : Nat := 5

def estateCode : EState → Nat
  | .free => 0
  | .opened => 1
  | .done => 2
  | .pruned => 3
  | .expired => 4
  | .closed => 5

/-- FLAGS: FOLLOW and TRUNC. -/
def recordFlags (m : Mailbox) (trunc : Bool) : Nat := (if m.follow then 1 else 0) + (if trunc then 2 else 0)

/-- A record of the up-ring. -/
def upRecord (m : Mailbox) (kind : Nat) (trunc : Bool) (user : Word) (payload : List Byte) : MailRecord :=
  { episode := m.episode, step := m.stepu, gen := if m.follow then m.egen else m.sgen, kind := kind
    flags := recordFlags m trunc, len := payload.length, user := user, payload := payload }

/-- The 512 bytes of a slot. -/
def recordBytes (r : MailRecord) : List Byte :=
  bytesOfNat 4 r.episode.toNat ++ bytesOfNat 4 r.step.toNat ++ bytesOfNat 4 r.gen.toNat ++ bytesOfNat 1 r.kind
  ++ bytesOfNat 1 r.flags ++ bytesOfNat 2 r.len ++ bytesOfNat 8 r.user.toNat ++ bytesOfNat 8 0
  ++ r.payload ++ List.replicate (480 - r.payload.length) 0

/-- The summary of a header (11 R250). -/
def summary (r : MailRecord) : Word :=
  BitVec.ofNat 64 (r.kind % 8 + 8 * (r.len % 512) + 4096 * (r.step.toNat % 2 ^ 20) + 2 ^ 32 * r.gen.toNat)

/-- A terminal record written by hardware; it waits while the up-ring is full (R389). -/
def hardwareUp (m : Mailbox) (kind : Nat) : Mailbox :=
  let r := upRecord m kind true 0 []
  if m.up.length < 8 ∧ m.waiting.isEmpty then { m with up := m.up ++ [r] } else { m with waiting := m.waiting ++ [r] }

/-- Waiting terminal records enter the up-ring as slots are free. -/
def admitWaiting (m : Mailbox) : Mailbox :=
  let n := 8 - m.up.length
  { m with up := m.up ++ m.waiting.take n, waiting := m.waiting.drop n }

/-! ## Episodes (R388, R390 to R394) -/

/-- The episode ends: the plot is sealed and the down-ring emptied. -/
def endEpisode (m : Mailbox) (e : EState) : Mailbox := { m with sealed_ := true, dn := [], estate := e }

/-- OPEN; discarded while the episode is open or the up-ring is not drained. -/
def openEpisode (s : State) (b : Nat) (sgen : BitVec 32) (follow : Bool) : State :=
  let m := boxOf s b
  if m.estate = .opened ∨ !m.up.isEmpty then s
  else
    startCount (setBox s b
      { m with
        episode := m.episode + 1, stepu := 0, stepd := 0, sgen := sgen, egen := sgen, follow := follow
        dn := [], sealed_ := false, estate := .opened
        xpend := !follow && decide (sgen.toNat < m.genfloor.toNat) }) b

/-- CLOSE of an open episode. -/
def closeEpisode (s : State) (b : Nat) : State :=
  let m := boxOf s b
  if m.estate = .opened then stopCount (setBox s b (hardwareUp (endEpisode m .closed) kindDone)) b else s

/-- Expire(). -/
def expire (s : State) (b : Nat) : State :=
  let m := endEpisode (boxOf s b) .expired
  let m := hardwareUp { m with dn := [upRecord m kindExpired true 0 []] } kindExpired
  wakeCore (stopCount (setBox s b { m with xpend := false }) b) b

/-- A GENFLOOR store (R386, R394). -/
def raiseFloor (s : State) (b : Nat) (v : Word) : State :=
  let m := boxOf s b
  let f : BitVec 32 := if m.genfloor.toNat < (v.setWidth 32 : BitVec 32).toNat then v.setWidth 32 else m.genfloor
  setBox s b { m with
    genfloor := f
    xpend := m.xpend || (m.estate == .opened && !m.follow && decide (m.sgen.toNat < f.toNat)) }

/-- An OWNER store (R386). -/
def writeOwner (s : State) (b : Nat) (v : Word) : State :=
  let m := boxOf s b
  if m.estate = .opened then s else setBox s b { m with ownerV := v.getLsbD 16, owner := v.setWidth 16 }

def winSize (w : Word) : Nat := if (w.extractLsb' 48 6).toNat = 0 then 0 else 2 ^ (w.extractLsb' 48 6).toNat
def winBase (w : Word) : Nat := (w.extractLsb' 12 36).toNat * 4096

/-- A range of one of the places a window may cover (R381). -/
def windowPlace (base size : Nat) : Bool :=
  decide (base + size ≤ dramSize) || (decide (capBase ≤ base) && decide (base + size ≤ capEnd))
  || (isVault base && decide (base % 0x1000000 + size ≤ 0xAA0000))
  || (decide (sramBase ≤ base) && decide (base + size ≤ sramBase + 0x20000))

/-- A value that a window register accepts (R381). -/
def windowOk (v : Word) : Bool :=
  let ls := (v.extractLsb' 48 6).toNat
  v &&& 0xF8C0000000000FFF == 0 && (ls == 0 || (decide (12 ≤ ls) && decide (ls ≤ 40)))
  && (ls == 0 || decide (winBase v % 2 ^ ls = 0)) && !(v.getLsbD 57 && !v.getLsbD 56)
  && (ls == 0 || windowPlace (winBase v) (2 ^ ls))

/-- A window store (R381). -/
def writeWindow (s : State) (b i : Nat) (v : Word) : State :=
  let m := boxOf s b
  if m.estate = .opened ∨ !windowOk v then s else setBox s b { m with win := m.win.setIfInBounds i v }

/-- A CTRL store (R388). -/
def writeCtrl (s : State) (b : Nat) (v : Word) : State :=
  if v &&& 0xFFFFFFF0 ≠ 0 then s
  else match (v.extractLsb' 0 3).toNat with
    | 1 => openEpisode s b (v.extractLsb' 32 32) (v.getLsbD 3)
    | 2 => closeEpisode s b
    | _ => s

/-- The outcomes of MBPOST (11 R249, 22 R393). -/
inductive PostCheck
  | deliver | refused | closed
  deriving DecidableEq, Repr

def PostCheck.code : PostCheck → Nat
  | .deliver => 0
  | .refused => 1
  | .closed => 2

/-- The checks of R393. -/
def postCheck (m : Mailbox) (pgen : BitVec 32) : PostCheck :=
  if m.estate ≠ .opened ∨ m.xpend then .closed
  else if pgen.toNat < m.genfloor.toNat then .refused
  else .deliver

/-- An ACT record enters the down-ring (R389, R393). -/
def deliver (s : State) (b : Nat) (pgen : BitVec 32) (payload : List Byte) : State :=
  let m := boxOf s b
  let r : MailRecord :=
    { episode := m.episode, step := m.stepd, gen := pgen, kind := kindAct, flags := recordFlags m false
      len := payload.length, user := 0, payload := payload }
  wakeCore (setBox s b { m with dn := m.dn ++ [r], stepd := m.stepd + 1 }) b

/-- A load of POST by the installed core (R390): the new state and the status. -/
def corePost (s : State) (b : Nat) : State × Nat :=
  let m := boxOf s b
  let bytes := (List.range 512).map (fun i => mapGet m.upstage i 0)
  let kind := field bytes 12 1
  let len := field bytes 14 2
  if m.estate ≠ .opened then (s, 2)
  else if m.xpend then (expire s b, 2)
  else if !(kind == 0 || kind == 2 || kind == 3) || decide (480 < len) || field bytes 24 8 != 0 then (s, 3)
  else if m.up.length = 8 then (s, 1)
  else
    let r := upRecord m kind false (BitVec.ofNat 64 (field bytes 16 8)) ((bytes.drop 32).take len)
    let m := { m with up := m.up ++ [r] }
    let m := if kind = kindDone then endEpisode m .done else m
    (stopCount (setBox s b m) b, 0)

/-- A load of TAKE by the installed core (R391): the new state and the value. -/
def coreTake (s : State) (b : Nat) : State × Word :=
  let s := if (boxOf s b).estate = .opened ∧ (boxOf s b).xpend then expire s b else s
  let m := boxOf s b
  match m.dn with
  | [] => (s, 0xFFFFFFFFFFFFFFFF)
  | r :: rest =>
    let stage : Map Byte := (recordBytes r).zipIdx.foldl (fun st p => memSet st p.2 p.1) []
    let m := { m with dn := rest, dnstage := stage }
    if r.kind = kindAct then (startCount (setBox s b { m with stepu := m.stepu + 1, egen := r.gen }) b, summary r)
    else (setBox s b m, summary r)

/-- The oldest record of the up-ring leaves it for a hart (11 R250). -/
def takeUp (s : State) (b : Nat) : Option (State × MailRecord) :=
  let m := boxOf s b
  match m.up with
  | [] => none
  | r :: rest => some (setBox s b (admitWaiting { m with up := rest }), r)

/-! ## The registers of the page (R386, R387) -/

def stateWord (m : Mailbox) : Word :=
  BitVec.ofNat 64 (estateCode m.estate + (if m.follow then 2 ^ 16 else 0) + (if m.xpend then 2 ^ 17 else 0)
    + m.up.length * 2 ^ 20 + m.dn.length * 2 ^ 24 + m.episode.toNat * 2 ^ 32)
def stepsWord (m : Mailbox) : Word := BitVec.ofNat 64 (m.stepd.toNat * 2 ^ 32 + m.stepu.toNat)
def gensWord (m : Mailbox) : Word := BitVec.ofNat 64 (m.egen.toNat * 2 ^ 32 + m.sgen.toNat)
def ownerWord (m : Mailbox) : Word := BitVec.ofNat 64 ((if m.ownerV then 2 ^ 16 else 0) + m.owner.toNat)

/-! ## Traps of a Greenhouse core -/

/-- Entry into machine mode as the RISC-V standard has it: mepc, mcause, mtval, MPP and MPIE are set, and MIE clears
(log 59). -/
def machineEntry (cause tval pc : Word) (c : GCore) : GCore :=
  { c with
    mepc := c.pc, mcause := cause, mtval := tval, mppUser := !c.machine, mpie := c.mie, mie := false, machine := true
    asleep := false, pc := pc }

/-- The plot of a core is sealed with a PRUNED record and uninstalled (R392, 24 R416). -/
def prunePlot (s : State) (g : Nat) : State :=
  let c := gcoreOf s g
  let s := setBox s c.plot (hardwareUp (endEpisode (boxOf s c.plot) .pruned) kindPruned)
  setGCore s g { c with installed := false, run := false, pplot := c.plot, pv := true }

/-- The pruner fires on a core between two instructions (R392). -/
def pruneCore (s : State) (g : Nat) : State :=
  let b := (gcoreOf s g).plot
  let s := prunePlot s g
  setGCore s g (machineEntry 0x8000000000000018 (BitVec.ofNat 64 b) (gcoreOf s g).prunevec (gcoreOf s g))

end Sys2Proof.Machine
end

