-- ==== Sys2Proof/Machine/Plan.lean ====
section
/-! DEFINITION. In-place commands before their first step (14): region slots (R311 to R313), statuses (11 R236), the rows of
a record (11 R234, 14 R317), pieces and placement (R314, R315), what is found before any row step (R324). -/
namespace Sys2Proof.Machine

/-! ## Region slots (R311, R313) -/

def slotOf (s : State) (n : Nat) : Slot := mapGet s.eng.slot n Slot.reset
def setSlot (s : State) (n : Nat) (x : Slot) : State := { s with eng := { s.eng with slot := mapSet s.eng.slot n x } }

/-- The slot is assigned to a tenant. -/
def slotAssigned (s : State) (n : Nat) (asid : BitVec 16) : Bool :=
  let x := slotOf s n
  decide (n < 16384) && x.valid && x.size != 0 && x.asid == asid

/-- The commands that use ZSLOT: GSUM, SCADD, SGDM. -/
def usesZ (op : Nat) : Bool := op == 3 || op == 4 || op == 5

/-! ## Statuses (R236) -/

def statusAccess : Nat := 1
def statusSpan : Nat := 2
def statusElided : Nat := 3
def statusCompressed : Nat := 4
def statusPoison : Nat := 5
def statusFault : Nat := 6
def statusPlace : Nat := 7

/-! ## From a record to pieces (R314, R315, R317) -/

/-- A field B of ±0: the destination is not read (R316). -/
def zeroScalar (b : BitVec 32) : Bool := b &&& 0x7FFFFFFF == 0

/-- The slots a command names. -/
def slotsUsed (r : InPlace) : List Nat :=
  r.dslot :: ((if r.op = 6 then [] else [r.xslot]) ++ (if usesZ r.op then [r.zslot] else []))

/-- A row of a slot, or the failure of a range past the region's end. -/
def rowAt (s : State) (slot off len : Nat) : Except (Nat × Nat) Nat :=
  let x := slotOf s slot
  if off + len ≤ x.size then .ok (x.base + off) else .error (statusAccess, x.base + off)

/-- idx(i), from the settled image. -/
def idxAt (s : State) (r : InPlace) (i : Nat) : Except (Nat × Nat) Nat :=
  match rowAt s r.zslot (r.zoff + 4 * i) 4 with
  | .error e => .error e
  | .ok a =>
    if isCompressed s a then .error (statusCompressed, a)
    else if arrayPoison s (a / 128) then .error (statusPoison, a)
    else .ok (natOfBytes ((List.range 4).map (fun j => settledByte s (a + j))))

def one32 : BitVec 32 := 0x3F800000
def neg32 (a : BitVec 32) : BitVec 32 := a ^^^ 0x80000000

/-- The first two steps of a row: First(b, D) and Step(a, X), or First(a, X) where D is not read. -/
def openRow (b a : BitVec 32) (d x : Nat) : List MicroOp := if zeroScalar b then [.first a x] else [.first b d, .step a x]

/-- A destination row and what is done for it, with the addresses of whole rows (R317). -/
abbrev RowPlan := Nat × List MicroOp

/-- Collect results for i from `start` upward, up to a failure. -/
def collect {α : Type} (f : Nat → Except (Nat × Nat) α) : Nat → Nat → Except (Nat × Nat) (List α)
  | 0, _ => .ok []
  | n + 1, i =>
    match f i with
    | .error e => .error e
    | .ok x => match collect f n (i + 1) with
      | .error e => .error e
      | .ok xs => .ok (x :: xs)

/-- Two results, up to a failure. -/
def both {α β γ : Type} (a : Except (Nat × Nat) α) (b : Except (Nat × Nat) β) (k : α → β → γ) : Except (Nat × Nat) γ :=
  match a, b with
  | .error e, _ => .error e
  | .ok _, .error e => .error e
  | .ok x, .ok y => .ok (k x y)

/-- Row i of X as GSUM and WSUM read it. -/
def sumSource (s : State) (r : InPlace) (i : Nat) : Except (Nat × Nat) Nat :=
  if r.op = 3 then
    match idxAt s r i with
    | .error e => .error e
    | .ok j => rowAt s r.xslot (r.xoff + j * r.xstride) r.rlen
  else rowAt s r.xslot (r.xoff + i * r.xstride) r.rlen

/-- The rows of a command. INFLATE takes its whole range as one row. -/
def rowPlans (s : State) (r : InPlace) : Except (Nat × Nat) (List RowPlan) :=
  match r.op with
  | 1 => collect (fun i =>
      both (rowAt s r.dslot (r.doff + i * r.rlen) r.rlen) (rowAt s r.xslot (r.xoff + i * r.xstride) r.rlen)
        fun d x => (d, openRow r.b r.a d x ++ [.writeBack d])) r.count 0
  | 4 => collect (fun i =>
      match idxAt s r i with
      | .error e => .error e
      | .ok j =>
        both (rowAt s r.dslot (r.doff + j * r.rlen) r.rlen) (rowAt s r.xslot (r.xoff + i * r.xstride) r.rlen)
          fun d x => (d, [.first one32 d, .step r.a x, .writeBack d])) r.count 0
  | 5 => collect (fun i =>
      both (rowAt s r.zslot (r.zoff + i * r.rlen) r.rlen)
        (both (rowAt s r.dslot (r.doff + i * r.rlen) r.rlen) (rowAt s r.xslot (r.xoff + i * r.xstride) r.rlen) Prod.mk)
        fun m dx => (dx.1,
          (if zeroScalar r.b then [.first one32 dx.2] else [.first r.b m, .step one32 dx.2])
            ++ [.writeBack m, .first one32 dx.1, .step (neg32 r.a) m, .writeBack dx.1])) r.count 0
  | 6 => match rowAt s r.dslot r.doff (r.count * r.rlen) with
    | .error e => .error e
    | .ok d => .ok [(d, [.inflate d])]
  | _ =>
    both (rowAt s r.dslot r.doff r.rlen) (collect (sumSource s r) r.count 0) fun d xs =>
      [(d, openRow r.b r.a d (xs.headD 0) ++ (xs.drop 1).map (fun x => .step r.a x) ++ [.writeBack d])]

/-- An operation moved to byte position o of its row. -/
def MicroOp.shift (o : Nat) : MicroOp → MicroOp
  | .first c a => .first c (a + o)
  | .step c a => .step c (a + o)
  | .writeBack a => .writeBack (a + o)
  | .inflate a => .inflate (a + o)

/-- The address an operation reads or writes. -/
def MicroOp.addr : MicroOp → Nat
  | .first _ a => a
  | .step _ a => a
  | .writeBack a => a
  | .inflate a => a

/-- The operation is a row step. -/
def MicroOp.isStep : MicroOp → Bool
  | .first .. => true
  | .step .. => true
  | _ => false

/-- A piece's address range reaches the engine of a destination address (R315). -/
def reaches (dst src len : Nat) : Bool :=
  if isDram dst then columnOf dst / 32 == columnOf src / 32 && columnOf dst / 32 == columnOf (src + len - 1) / 32
  else bankOf src == bankOf dst && bankOf (src + len - 1) == bankOf dst

/-- A row of `left` bytes from position o cut into pieces. -/
def cutRow (plan : RowPlan) : Nat → Nat → Nat → Except (Nat × Nat) (List Piece)
  | 0, _, _ => .ok []
  | fuel + 1, o, left =>
    if left = 0 then .ok []
    else
      let d := plan.1 + o
      let unit := if isDram d then 2048 else 4096
      let n := min left (unit - d % unit)
      let ops := plan.2.map (MicroOp.shift o)
      match ops.find? (fun op => !reaches d op.addr n) with
      | some op => .error (statusPlace, op.addr)
      | none => match cutRow plan fuel (o + n) (left - n) with
        | .error e => .error e
        | .ok ps => .ok (⟨bankOf d, n, ops, [], false, []⟩ :: ps)

/-- All rows cut. -/
def cutRows (len : Nat) : List RowPlan → Except (Nat × Nat) (List Piece)
  | [] => .ok []
  | p :: ps =>
    match cutRow p (len / 2048 + 2) 0 len, cutRows len ps with
    | .error e, _ => .error e
    | .ok _, .error e => .error e
    | .ok a, .ok b => .ok (a ++ b)

/-- What is found before any row step (R324): slots, kinds, ranges, idx, placement; else the pieces. -/
def planCommand (s : State) (c : Command) : Except (Nat × Nat) (List Piece) :=
  let r := c.rcd
  if !c.owned then .error (statusAccess, r.dslot)
  else match (slotsUsed r).find? (fun n => !slotAssigned s n c.asid) with
    | some n => .error (statusAccess, n)
    | none =>
      let dram := isDram (slotOf s r.dslot).base
      if (slotsUsed r).any (fun n => isDram (slotOf s n).base != dram) then
        .error (statusSpan, (slotOf s r.dslot).base + r.doff)
      else match rowPlans s r with
        | .error e => .error e
        | .ok plans =>
          if r.op = 6 then (if dram then .ok [] else cutRows (r.count * r.rlen) plans) else cutRows r.rlen plans

/-- A command that has not started is planned. -/
def startCommand (s : State) (c : Command) : Command :=
  if c.started then c
  else match planCommand s c with
    | .error (st, a) => { c with started := true, status := st, where_ := a }
    | .ok ps => { c with started := true, pieces := ps }

/-- The pieces of a command, as they stand or as they are going to be. -/
def piecesOf (s : State) (c : Command) : List Piece := (startCommand s c).pieces

end Sys2Proof.Machine
end

