-- ==== Sys2Proof/Machine/Mmio.lean ====
section
/-! DEFINITION. MMIO pages as harts reach them (13 R294, R297, R310; 14 R311, R312, R322; 22 R386; 24 R407): aligned
eight-byte loads and stores; an answer `none` is ACCESS. -/
namespace Sys2Proof.Machine

/-! ## Region slots (14 R311, R312) -/

/-- A register of a slot page; unlisted offsets read 0. -/
def slotRead (x : Slot) (off : Nat) : Word :=
  match off with
  | 0x00 => BitVec.ofNat 64 x.base
  | 0x08 => BitVec.ofNat 64 x.size
  | 0x10 => BitVec.ofNat 64 ((if x.valid then 2 ^ 16 else 0) + x.asid.toNat)
  | 0x18 => x.sc.setWidth 64
  | 0x20 => x.rc.setWidth 64
  | 0x28 => x.ic.setWidth 64
  | 0x30 => BitVec.ofNat 64 (x.fails.toNat * 2 ^ 16 + x.last.toNat * 2 ^ 8 + x.first.toNat)
  | 0x38 => BitVec.ofNat 64 (x.inflight % 2 ^ 16)
  | _ => 0

/-- A size that a slot with a base accepts (R312). -/
def slotSizeOk (base size : Nat) : Bool :=
  decide (size % 4096 = 0) && decide (size ≤ 2 ^ 40)
  && (size == 0 || decide (base + size ≤ dramSize) || (decide (capBase ≤ base) && decide (base + size ≤ capEnd)))

/-- BASE: discarded while commands are in flight; it empties the slot. -/
def writeSlotBase (x : Slot) (v : Word) : Slot :=
  if x.inflight = 0 then { x with base := (v.extractLsb' 12 36).toNat * 4096, size := 0 } else x
def writeSlotSize (x : Slot) (v : Word) : Slot :=
  if x.inflight = 0 ∧ slotSizeOk x.base v.toNat then { x with size := v.toNat } else x
def writeSlotAttr (x : Slot) (v : Word) : Slot :=
  if x.inflight = 0 then { x with valid := v.getLsbD 16, asid := v.setWidth 16 } else x
def clearSlotStatus (x : Slot) : Slot := { x with fails := 0, last := 0, first := 0 }

/-- A store to a slot page. -/
def slotWrite (x : Slot) (off : Nat) (v : Word) : Slot :=
  match off with
  | 0x00 => writeSlotBase x v
  | 0x08 => writeSlotSize x v
  | 0x10 => writeSlotAttr x v
  | 0x18 => { x with sc := v.setWidth 32 }
  | 0x20 => { x with rc := v.setWidth 32 }
  | 0x28 => { x with ic := v.setWidth 32 }
  | 0x30 => clearSlotStatus x
  | _ => x

/-! ## Mailbox pages (22 R386) -/

/-- A load of a hart from a mailbox page. -/
def boxRead (m : Mailbox) (user : Bool) (off : Nat) : Option Word :=
  match off with
  | 0x410 => some (stateWord m)
  | 0x418 => some (stepsWord m)
  | 0x420 => some (gensWord m)
  | 0x428 => some (m.genfloor.setWidth 64)
  | 0x430 => some 0
  | 0x800 => if user then none else some (ownerWord m)
  | 0x840 => if user then none else some m.win[0]
  | 0x848 => if user then none else some m.win[1]
  | 0x850 => if user then none else some m.win[2]
  | 0x858 => if user then none else some m.win[3]
  | _ => none

/-- A store of a hart to a mailbox page. -/
def boxWrite (s : State) (b : Nat) (user : Bool) (off : Nat) (v : Word) : Option State :=
  match off with
  | 0x428 => some (raiseFloor s b v)
  | 0x430 => if user then none else some (writeCtrl s b v)
  | 0x800 => if user then none else some (writeOwner s b v)
  | 0x840 => if user then none else some (writeWindow s b 0 v)
  | 0x848 => if user then none else some (writeWindow s b 1 v)
  | 0x850 => if user then none else some (writeWindow s b 2 v)
  | 0x858 => if user then none else some (writeWindow s b 3 v)
  | _ => none

/-! ## Translation control (13 R294) -/

/-- A store to TLBI by a hart: an invalidation starts, or the store is discarded. -/
def startTlbi (s : State) (h : Nat) (v : Word) : State :=
  let mode := (v.extractLsb' 55 2).toNat
  if v &&& 0xFE00000000000000 ≠ 0 ∨ mode = 3 then s
  else
    let t : Tlbi := ⟨h, mode, v.extractLsb' 39 16, (v.extractLsb' 0 39).toNat⟩
    { s with ms := { s.ms with tlbi := s.ms.tlbi ++ [t] } }

/-! ## The home map page (13 R297, 14 R322, 24 R407) -/

/-- An arbitration register. -/
def arbRead (a : Arbitration) : Word := BitVec.ofNat 64 (a.win + a.batch * 2 ^ 16 + a.yields * 2 ^ 32)

/-- A store to an arbitration register: discarded whole, or it sets the window and batch and clears YIELDS. -/
def arbWrite (a : Arbitration) (v : Word) : Arbitration :=
  let win := (v.extractLsb' 0 13).toNat
  let batch := (v.extractLsb' 16 5).toNat
  if v &&& 0xFFFF0000FFE0E000 ≠ 0 ∨ win < 64 ∨ 4096 < win ∨ batch = 0 then a else ⟨win, batch, 0⟩

def writeArb (s : State) (ch : Nat) (v : Word) : State :=
  { s with eng := { s.eng with arb := mapSet s.eng.arb ch (arbWrite (arbOf s ch) v) } }

/-- PUSH: append the staged entry; 1 where the ring is full or not enabled (24 R407). -/
def pushRing (s : State) (f : Nat) : State × Word :=
  let x := funcOf s f
  if !ringEnabled x || ringFull x then (s, 1)
  else (ringWrite s f (x.stage.toList.flatMap (fun w => bytesOfNat 8 w.toNat)), 0)

/-- TAKEANS: the oldest answer, or all ones (24 R407). -/
def takeAnswer (s : State) (f : Nat) : State × Word :=
  match (funcOf s f).answers with
  | [] => (s, 0xFFFFFFFFFFFFFFFF)
  | a :: rest => (modFunc s f (fun x => { x with answers := rest }), a)

/-- A supervisor load of the home map page. -/
def homeMapRead (s : State) (off : Nat) : State × Word :=
  if off < 0x8000 then
    let m := mapGet s.ms.granule (off / 16) 0
    (s, if off % 16 = 0 then m.setWidth 64 else m.extractLsb' 64 64)
  else if off < 0x8600 then (s, arbRead (arbOf s ((off - 0x8000) / 8)))
  else if 0xC000 ≤ off ∧ off < 0xE000 then
    let f := (off - 0xC000) / 64
    let r := off % 64
    if r < 0x20 then (s, (funcOf s f).stage.getD (r / 8) 0)
    else if r = 0x20 then pushRing s f
    else if r = 0x28 then takeAnswer s f
    else (s, 0)
  else (s, 0)

/-- A range of physical addresses has a byte in a granule. -/
def inGranule (g a n : Nat) : Bool :=
  decide (0 < n) && decide (a < capBase + g * 2 ^ 30 + 2 ^ 30) && decide (capBase + g * 2 ^ 30 < a + n)

/-- An accepted in-place command is still to read or write a byte of a granule: in the pieces that are left, or in the
indices that it reads at its start (14 R317). -/
def commandUses (s : State) (g : Nat) (c : Command) : Bool :=
  let x := startCommand s c
  let z := (slotOf s c.rcd.zslot).base + c.rcd.zoff
  x.status == 0
  && (x.pieces.any (fun p => p.ops.any (fun op => inGranule g op.addr p.len))
    || (!c.started && (c.rcd.op == 3 || c.rcd.op == 4) && inGranule g z (4 * c.rcd.count)))

/-- Some bytes of a tenant's space, from an address, translate to a byte of a granule. -/
def spaceUses (s : State) (g : Nat) (ptbase a : Word) (n : Nat) : Bool :=
  (List.range (n / 65536 + 2)).any fun i =>
    let off := if i = 0 then 0 else i * 65536 - a.toNat % 65536
    decide (off < n) && (match walk s ptbase (a + BitVec.ofNat 64 off) with
      | .leaf pte _ frame _ =>
        let pa := physOf pte frame (a + BitVec.ofNat 64 off)
        inGranule g pa (min (n - off) (65536 - pa % 65536))
      | _ => false)

/-- An accepted copy command is still to read or write a byte of a granule. -/
def copyUses (s : State) (g : Nat) (c : CopyCmd) : Bool :=
  let at_ (a : Word) : Bool := spaceUses s g c.ptbase (a + BitVec.ofNat 64 c.moved) (c.len - c.moved)
  (!c.fill && !c.srcStrip && at_ c.src) || (!c.dstStrip && at_ c.dst)

/-- A cache holds a sector of a granule, or an engine command uses it (R297). -/
def granuleUsed (s : State) (g : Nat) : Bool :=
  let here (sec : Nat) : Bool := inGranule g (sec * 128) 128
  let cores := s.core :: s.cores.map (·.2)
  s.ms.l2.any (fun p => here p.1) || cores.any (fun c => c.l1.any (fun p => here p.1))
  || (s.hart :: s.harts.map (·.2)).any (fun h => h.sb.any (fun p => here p.1))
  || s.eng.cmd.any (commandUses s g) || s.eng.sweep.any (fun w => inGranule g w.start w.len)
  || cores.any (fun c => c.chan.toList.any (fun x => x.queue.any (copyUses s g)))

/-- The mask of a granule is written; while the granule is used that leaves its data undefined (R297). -/
def writeMask (s : State) (g : Nat) (m : BitVec 128) : State :=
  let undef := if m ≠ mapGet s.ms.granule g 0 ∧ granuleUsed s g ∧ !s.ms.undef.contains (capBase + g * 2 ^ 30, 2 ^ 30) then
      (capBase + g * 2 ^ 30, 2 ^ 30) :: s.ms.undef
    else s.ms.undef
  { s with ms := { s.ms with granule := mapSet s.ms.granule g m, undef := undef } }

/-- A supervisor store to the home map page. -/
def homeMapWrite (s : State) (off : Nat) (v : Word) : State :=
  if off < 0x8000 then
    let m := mapGet s.ms.granule (off / 16) 0
    let m := if off % 16 = 0 then m.extractLsb' 64 64 ++ v else v ++ m.extractLsb' 0 64
    writeMask s (off / 16) m
  else if off < 0x8600 then writeArb s ((off - 0x8000) / 8) v
  else if 0xC000 ≤ off ∧ off < 0xE000 ∧ off % 64 < 0x20 then
    modFunc s ((off - 0xC000) / 64) (fun x => { x with stage := x.stage.setIfInBounds (off % 64 / 8) v })
  else s

/-! ## Loads and stores -/

/-- An eight-byte load of an MMIO page. -/
def mmioLoad (s : State) (user : Bool) (pa : Nat) : Option (State × Word) :=
  let off := pa % 0x10000
  if pa < mailPages then some (s, slotRead (slotOf s ((pa - slotPages) / 0x10000)) off)
  else if pa < tlbiPageBase then (boxRead (boxOf s ((pa - mailPages) / 0x10000)) user off).map (fun w => (s, w))
  else if pa < homeMapPage then some (s, 0)
  else if user then none else some (homeMapRead s off)

/-- An eight-byte store of hart `h` to an MMIO page. -/
def mmioStore (s : State) (h : Nat) (user : Bool) (pa : Nat) (v : Word) : Option State :=
  let off := pa % 0x10000
  if pa < mailPages then
    let n := (pa - slotPages) / 0x10000
    if user then none else some (setSlot s n (slotWrite (slotOf s n) off v))
  else if pa < tlbiPageBase then boxWrite s ((pa - mailPages) / 0x10000) user off v
  else if user then none
  else if pa < homeMapPage then some (if off = 0 then startTlbi s h v else s)
  else some (homeMapWrite s off v)

end Sys2Proof.Machine
end

