-- ==== Sys2Proof/WellFormed.lean ====
section
/-! DEFINITION. Which instructions have a word (04 R75 to R89). Events have none and are not well formed in this
sense; they stand in the machine's agenda. -/
namespace Sys2Proof

/-- The operand form of opcodes 0x14, 0x15 and 0x1A is one of those listed (04 R84): 0 VV, 1 VX, 2 VI. -/
def formIn (form : BitVec 2) (vv vx vi : Bool) : Bool :=
  (form == 0 && vv) || (form == 1 && vx) || (form == 2 && vi)

/-- A type code, bits 5:0 of VTYPE, of a legal pair (03 R60). -/
def legalType (code : BitVec 6) : Bool :=
  let fmt := (code.extractLsb' 3 3).toNat
  let sew := (code.extractLsb' 0 3).toNat
  (fmt < 2 && sew < 5) || (fmt == 2 && sew < 4) || (fmt == 3 && (sew == 1 || sew == 2))

/-- The source types VQUANT accepts: fp32, fp16, bf16 (07 R146). -/
def quantSource (code : BitVec 6) : Bool := code == 0x13 || code == 0x12 || code == 0x1A

/-- The source types VDEQ accepts: e2m1, int4, int8 (07 R147). -/
def dequantSource (code : BitVec 6) : Bool := code == 0x10 || code == 0x00 || code == 0x01

/-- A strip handle number, 0 to 7 (09 R185, R186). -/
def handleOk (h : Reg) : Bool := h.toNat < 8

/-- The scope and width fields of opcode 0x0D are not reserved (04 R82). -/
def amoFields (scope width : BitVec 2) : Bool := !(scope == 3) && (width == 2 || width == 3)

/-- The instruction has a word: every field holds a value its map allows (04 R79 to R89). -/
def Instr.wf : Instr → Bool
  | .fence scope before after => !(scope == 3) && !(before == 0) && !(after == 0)
  | .sext _ _ code | .zext _ _ code => code == 1 || code == 2 || code == 3
  | .ldacq _ _ scope width | .strel _ _ scope width => amoFields scope width
  | .amoadd x | .amoswap x | .amocas x | .amomin x | .amomax x | .amominu x | .amomaxu x | .amoor x
  | .amoand x => amoFields x.scope x.width
  | .loop _ _ imm => !(imm == 0)
  | .setregs _ maxsew count => (maxsew == 1 || maxsew == 2 || maxsew == 3 || maxsew == 4) && !(count == 3)
  | .vadd x | .vmul x | .vand x | .vor x | .vxor x | .vsll x | .vsrl x | .vsra x | .vmin x | .vmax x
  | .vsadd x => formIn x.form true true true
  | .vsub x | .vmulh x | .vmulhu x | .vminu x | .vmaxu x | .vssub x => formIn x.form true true false
  | .vrsub x => formIn x.form false true true
  | .vmerge x => formIn x.form true true true && x.m
  | .vcmp x _ => formIn x.form true true true
  | .vfadd x | .vfsub x | .vfmul x | .vfdiv x | .vfma x | .vfnma x | .vfms x | .vfmin x | .vfmax x
  | .vfsgnCopy x | .vfsgnNeg x | .vfsgnXor x | .vfcmp x _ => formIn x.form true true false
  | .vcvt _ src => legalType src
  | .vquant _ src => quantSource src
  | .vdeq _ src => dequantSource src
  | .vslideup _ _ _ _ _ form | .vslidedn _ _ _ _ _ form | .vbcast _ _ _ _ form => formIn form false true true
  | .vld x | .vst x => x.x == 0
  | .vld2d x => !x.x.getLsbD 0
  | .stripset h _ _ chan => handleOk h && !(chan == 3)
  | .sld _ _ h | .sst _ _ h | .strippos _ h => handleOk h
  | .knotrd _ _ _ sel => sel.toNat < 3
  | .splref _ _ _ _ deg => !(deg == 0)
  | .rgncnt _ _ which => !(which == 3)
  | .srr .. | .srw .. | .srset .. | .srclr .. | .trap _ | .rett | .park | .brk | .exit | .trigger | .launch ..
  | .rngsnap _ | .rngload _ | .add .. | .sub .. | .and .. | .or .. | .xor .. | .andn .. | .sll .. | .srl ..
  | .sra .. | .slt .. | .sltu .. | .min .. | .max .. | .minu .. | .maxu .. | .mul .. | .mulh .. | .mulhu ..
  | .div .. | .divu .. | .rem .. | .remu .. | .clz .. | .ctz .. | .popc .. | .addi .. | .andi .. | .ori ..
  | .xori .. | .slti .. | .sltiu .. | .slli .. | .srli .. | .srai .. | .lui .. | .auipc .. | .ldb .. | .ldbu ..
  | .ldh .. | .ldhu .. | .ldw .. | .ldwu .. | .ldd .. | .stb .. | .sth .. | .stw .. | .std .. | .beq .. | .bne ..
  | .blt .. | .bge .. | .bltu .. | .bgeu .. | .jal .. | .jalr .. | .bar | .waitaddr .. | .claim .. | .pubwm ..
  | .waitwm .. | .settypeReg .. | .settypeImm .. | .setlen .. | .setlen2 .. | .settile .. | .tilebind .. => true
  | .vfsqrt _ | .vfclass _ | .vfexp2 _ | .vflog2 _ | .vfrcp _ | .vfrsq _ | .vftanh _ | .vfsigm _ | .vrand ..
  | .vmlog .. | .vmpopc .. | .vmfirst .. | .viota .. | .vcompress .. | .vexpand .. | .vmvsat .. | .vredsum _
  | .vredmin _ | .vredmax _ | .vredminu _ | .vredmaxu _ | .vredand _ | .vredor _ | .vfredsum _ | .vfredmin _
  | .vfredmax _ | .vgatherv .. | .vmv .. | .vmvxs .. | .vmvsx .. | .vlds _ | .vldx _ | .vldwr .. | .vsts _
  | .vstx _ | .vstwr .. | .vscatadd _ | .wbld .. | .wbdrop _ | .mma .. | .accz _ | .acci .. | .accx ..
  | .msave .. | .mrest .. | .knotset .. | .splld .. | .splst .. | .spl .. | .splbwd .. | .splgrad .. | .splgx ..
  | .copyb .. | .bankb .. | .copywp .. | .settle .. | .renew .. | .mbpost .. | .mbtake .. | .mbpoll .. => true
  | .barRelease _ | .waitaddrWake .. | .waitaddrTimeout _ | .waitwmSatisfied _ | .stripBoundaryStallEnd _
  | .tilebindPartnersMet _ | .stripFlowRelease _ | .wbldRoom _ | .batchQueueRoom _ | .mbpostSlotFreed _
  | .mbtakeRecordArrived _ | .parkWake _ | .interruptTaken _ | .sliceExpiry _ | .preemptTimeout _ | .resume _
  | .queuePortEnqueue .. | .dispatch .. | .aging _ | .graphRegisterWrite .. | .publish .. | .storeBufferDrain ..
  | .l1Eviction .. | .eviction .. | .tlbiAll _ | .tlbiAsid .. | .tlbiPage .. | .tlbiComplete _
  | .slotBaseWrite .. | .slotSizeWrite .. | .slotAttrWrite .. | .slotStatusWrite ..
  | .arbitrationRegisterWrite .. | .engineRowStep .. | .engineWriteBack .. | .inPlaceComplete _
  | .ordinaryRequest _ | .arbitrationWindowExpiry _ | .refresh _ | .refreshEnd _ | .settleSweepComplete _
  | .renewComplete _ | .copyUnit .. | .copyCommandComplete .. | .patrolScrub | .greenhouseCoreAccess _ | .post _
  | .take _ | .openEp .. | .closeEp _ | .genfloorStore .. | .ownerWrite .. | .windowWrite .. | .plotInstall ..
  | .plotUninstall _ | .pruneRecordClear _ | .prune _ | .terminalRecordEntry _ | .hostBar2Access ..
  | .hostResponse _ | .hostAccessTimeout _ | .answerWrite .. | .rlostClear _ | .push _ | .takeans _
  | .peerFabricAccess .. | .flitReplay _ | .retrainTimeout _ | .unitFailure _ | .powerLimitThrottle
  | .healthWordRead | .boot _ | .tenantCreate _ | .tenantTeardown _ | .teardownComplete _ | .setDeviceNumber _
  | .setRouteTable _ | .setPeerWindow .. | .setPowerMode _ | .telemetryRead | .firmwareUpdate .. | .getVersion
  | .getCapabilities | .negotiateAlgorithms | .getDigests | .getCertificate | .challenge | .getMeasurements
  | .keyExchange | .finish | .heartbeat | .endSession | .mmioRegisterWrite .. | .illegalWord _ | .fetchFault
  | .softError .. | .portRetrainComplete _ | .hostLinkUp _ | .throttleEnd | .softerrClear
  | .trapVectorChange .. | .columnAssignment .. => false

end Sys2Proof
end

