-- ==== Sys2Proof/Decode.lean ====
section
/-! DEFINITION. From words to instructions (04 R75 to R89) and back. A word is cut into its five fields once; each
opcode group has a decoder over the fields. What is not an instruction is refused under a name. -/
namespace Sys2Proof

/-- Why a word is not an instruction (04 R89), or why no word can be read. -/
inductive DecodeError
  | reservedOpcode | reservedFunct | reservedField | nonzeroField | convoyBit | maskBit | densityBit | oddPair
  | truncated
  deriving DecidableEq, Repr

/-- What the decoder answers. -/
abbrev Decoded := Except DecodeError Instr

/-- Go on only where the condition holds. -/
def need (p : Bool) (e : DecodeError) (k : Decoded) : Decoded := if p then k else .error e

/-! ## Fields of a word (R76) -/

/-- C, opcode, bits 24:20, bits 19:15 and bits 14:0 as one word. -/
def pack (c : Bool) (op : BitVec 6) (a b : Reg) (i : BitVec 15) : IWord :=
  BitVec.ofBool c ++ op ++ a ++ b ++ i

def wordC (w : IWord) : Bool := w.getLsbD 31
def wordOp (w : IWord) : BitVec 6 := w.extractLsb' 25 6
def wordA (w : IWord) : Reg := w.extractLsb' 20 5
def wordB (w : IWord) : Reg := w.extractLsb' 15 5
def wordI (w : IWord) : BitVec 15 := w.extractLsb' 0 15

/-- Bits 14:10. -/
def fieldX (i : BitVec 15) : Reg := i.extractLsb' 10 5
/-- funct10, bits 9:0. -/
def field10 (i : BitVec 15) : BitVec 10 := i.extractLsb' 0 10
/-- funct3, bits 14:12. -/
def field3 (i : BitVec 15) : BitVec 3 := i.extractLsb' 12 3
/-- imm12 or off12, bits 11:0. -/
def field12 (i : BitVec 15) : BitVec 12 := i.extractLsb' 0 12
/-- m, bit 9. -/
def fieldM (i : BitVec 15) : Bool := i.getLsbD 9
/-- d, bit 8. -/
def fieldD (i : BitVec 15) : Bool := i.getLsbD 8
/-- funct8, bits 7:0. -/
def field8 (i : BitVec 15) : BitVec 8 := i.extractLsb' 0 8
/-- funct8 bits 7:6, the operand form. -/
def fieldForm (i : BitVec 15) : BitVec 2 := i.extractLsb' 6 2
/-- funct8 bits 5:0. -/
def fieldOp6 (i : BitVec 15) : BitVec 6 := i.extractLsb' 0 6
/-- mode, bits 7:5 of the VM format. -/
def fieldMode (i : BitVec 15) : BitVec 3 := i.extractLsb' 5 3
/-- aux, bits 4:0 of the VM format. -/
def fieldAux (i : BitVec 15) : Reg := i.extractLsb' 0 5

/-- Bits 14:0 of the VR and VM formats. -/
def packV (x : Reg) (m d : Bool) (f : BitVec 8) : BitVec 15 := x ++ BitVec.ofBool m ++ BitVec.ofBool d ++ f
/-- Bits 14:0 of the SR format. -/
def packR (x : Reg) (f : BitVec 10) : BitVec 15 := x ++ f
/-- Bits 14:0 of the SM and B formats. -/
def packM (f : BitVec 3) (i : BitVec 12) : BitVec 15 := f ++ i

/-! ## Decoders of the opcode groups -/

/-- The miscellaneous instructions of opcode 0x00 (R79). -/
def decodeMisc (a b : Reg) (n : BitVec 12) : Decoded :=
  if n = 0x001 then need (a == 0 && b == 0) .nonzeroField (.ok .rett)
  else if n = 0x002 then need (a == 0 && b == 0) .nonzeroField (.ok .park)
  else if n = 0x003 then need (a == 0 && b == 0) .nonzeroField (.ok .brk)
  else if n = 0x004 then need (a == 0 && b == 0) .nonzeroField (.ok .exit)
  else if n = 0x005 then need (a == 0 && b == 0) .nonzeroField (.ok .trigger)
  else if n = 0x006 then .ok (.launch a b)
  else if n = 0x007 then need (a == 0) .nonzeroField (.ok (.rngsnap b))
  else if n = 0x008 then need (a == 0) .nonzeroField (.ok (.rngload b))
  else .error .reservedFunct

/-- Opcode 0x00 (R79). -/
def decodeSystem (a b : Reg) (i : BitVec 15) : Decoded :=
  let n := field12 i
  match (field3 i).toNat with
  | 1 => need (b == 0) .nonzeroField (.ok (.srr a n))
  | 2 => .ok (.srw a b n)
  | 3 => .ok (.srset a b n)
  | 4 => .ok (.srclr a b n)
  | 5 => need (a == 0 && b == 0) .nonzeroField (.ok (.trap n))
  | 6 =>
    let scope := n.extractLsb' 10 2
    let before := n.extractLsb' 4 4
    let after := n.extractLsb' 0 4
    need (a == 0 && b == 0 && n.extractLsb' 8 2 == 0) .nonzeroField
      (need (!(scope == 3) && !(before == 0) && !(after == 0)) .reservedField (.ok (.fence scope before after)))
  | 7 => decodeMisc a b n
  | _ => .error .reservedFunct

/-- Opcode 0x01 (R80). -/
def decodeAlu (a b : Reg) (i : BitVec 15) : Decoded :=
  let x := fieldX i
  match (field10 i).toNat with
  | 0x000 => .ok (.add a b x)
  | 0x001 => .ok (.sub a b x)
  | 0x002 => .ok (.and a b x)
  | 0x003 => .ok (.or a b x)
  | 0x004 => .ok (.xor a b x)
  | 0x005 => .ok (.andn a b x)
  | 0x006 => .ok (.sll a b x)
  | 0x007 => .ok (.srl a b x)
  | 0x008 => .ok (.sra a b x)
  | 0x009 => .ok (.slt a b x)
  | 0x00A => .ok (.sltu a b x)
  | 0x00B => .ok (.min a b x)
  | 0x00C => .ok (.max a b x)
  | 0x00D => .ok (.minu a b x)
  | 0x00E => .ok (.maxu a b x)
  | 0x010 => .ok (.mul a b x)
  | 0x011 => .ok (.mulh a b x)
  | 0x012 => .ok (.mulhu a b x)
  | 0x014 => .ok (.div a b x)
  | 0x015 => .ok (.divu a b x)
  | 0x016 => .ok (.rem a b x)
  | 0x017 => .ok (.remu a b x)
  | 0x018 => need (x == 0) .nonzeroField (.ok (.clz a b))
  | 0x019 => need (x == 0) .nonzeroField (.ok (.ctz a b))
  | 0x01A => need (x == 0) .nonzeroField (.ok (.popc a b))
  | 0x01C => need (x == 1 || x == 2 || x == 3) .reservedField (.ok (.sext a b x))
  | 0x01D => need (x == 1 || x == 2 || x == 3) .reservedField (.ok (.zext a b x))
  | _ => .error .reservedFunct

/-- Opcode 0x08 (R81). -/
def decodeShift (a b : Reg) (i : BitVec 15) : Decoded :=
  let sh := i.extractLsb' 0 6
  need (i.extractLsb' 6 6 == 0) .nonzeroField <|
    match (field3 i).toNat with
    | 0 => .ok (.slli a b sh)
    | 1 => .ok (.srli a b sh)
    | 2 => .ok (.srai a b sh)
    | _ => .error .reservedFunct

/-- Opcode 0x0B (R81). -/
def decodeLoad (a b : Reg) (i : BitVec 15) : Decoded :=
  let n := field12 i
  match (field3 i).toNat with
  | 0 => .ok (.ldb a b n)
  | 1 => .ok (.ldbu a b n)
  | 2 => .ok (.ldh a b n)
  | 3 => .ok (.ldhu a b n)
  | 4 => .ok (.ldw a b n)
  | 5 => .ok (.ldwu a b n)
  | 6 => .ok (.ldd a b n)
  | _ => .error .reservedFunct

/-- Opcode 0x0C (R81). -/
def decodeStore (a b : Reg) (i : BitVec 15) : Decoded :=
  let n := field12 i
  match (field3 i).toNat with
  | 0 => .ok (.stb a b n)
  | 1 => .ok (.sth a b n)
  | 2 => .ok (.stw a b n)
  | 3 => .ok (.std a b n)
  | _ => .error .reservedFunct

/-- Opcode 0x0D (R82). -/
def decodeAtomic (a b : Reg) (i : BitVec 15) : Decoded :=
  let gs := fieldX i
  let f := field10 i
  let scope := f.extractLsb' 4 2
  let order := f.extractLsb' 2 2
  let width := f.extractLsb' 0 2
  let x : Amo := ⟨a, b, gs, scope, order, width⟩
  need (amoFields scope width) .reservedField <|
    match (f.extractLsb' 6 4).toNat with
    | 0 => need (order == 1) .reservedField (need (gs == 0) .nonzeroField (.ok (.ldacq a b scope width)))
    | 1 => need (order == 2) .reservedField (need (a == 0) .nonzeroField (.ok (.strel b gs scope width)))
    | 2 => .ok (.amoadd x)
    | 3 => .ok (.amoswap x)
    | 4 => .ok (.amocas x)
    | 5 => .ok (.amomin x)
    | 6 => .ok (.amomax x)
    | 7 => .ok (.amominu x)
    | 8 => .ok (.amomaxu x)
    | 9 => .ok (.amoor x)
    | 10 => .ok (.amoand x)
    | _ => .error .reservedFunct

/-- Opcode 0x0E (R81). -/
def decodeBranch (a b : Reg) (i : BitVec 15) : Decoded :=
  let n := field12 i
  match (field3 i).toNat with
  | 0 => .ok (.beq a b n)
  | 1 => .ok (.bne a b n)
  | 2 => .ok (.blt a b n)
  | 3 => .ok (.bge a b n)
  | 4 => .ok (.bltu a b n)
  | 5 => .ok (.bgeu a b n)
  | _ => .error .reservedFunct

/-- Opcode 0x12 (R83). -/
def decodeSync (a b : Reg) (i : BitVec 15) : Decoded :=
  let x := fieldX i
  match (field10 i).toNat with
  | 1 => need (a == 0 && b == 0 && x == 0) .nonzeroField (.ok .bar)
  | 2 => .ok (.waitaddr a b x)
  | 3 => .ok (.claim a b x)
  | 4 => need (a == 0) .nonzeroField (.ok (.pubwm b x))
  | 5 => need (a == 0) .nonzeroField (.ok (.waitwm b x))
  | _ => .error .reservedFunct

/-- Opcode 0x13 (R83). `n` is bits 14:10 and the low bits of funct10. -/
def decodeConfig (a b : Reg) (i : BitVec 15) : Decoded :=
  let x := fieldX i
  let f := field10 i
  let lo := f.extractLsb' 0 5
  let bit5 := f.getLsbD 5
  match (f.extractLsb' 6 4).toNat with
  | 1 =>
    let maxsew := f.extractLsb' 2 3
    let count := f.extractLsb' 0 2
    need (!bit5 && b == 0 && x == 0) .nonzeroField
      (need ((maxsew == 1 || maxsew == 2 || maxsew == 3 || maxsew == 4) && !(count == 3)) .reservedField
        (.ok (.setregs a maxsew count)))
  | 2 =>
    need (lo == 0) .nonzeroField
      (if bit5 then .ok (.settypeImm a (b ++ x)) else need (x == 0) .nonzeroField (.ok (.settypeReg a b)))
  | 3 => need (lo == 0 && !bit5 && x == 0) .nonzeroField (.ok (.setlen a b))
  | 4 => need (lo == 0 && !bit5) .nonzeroField (.ok (.setlen2 a b x))
  | 5 => need (lo == 0 && !bit5) .nonzeroField (.ok (.settile a b x))
  | 6 => need (lo == 0 && !bit5 && x == 0) .nonzeroField (.ok (.tilebind a b))
  | _ => .error .reservedFunct

/-- Opcode 0x14 (R84). -/
def decodeVInt (c : Bool) (a b : Reg) (i : BitVec 15) : Decoded :=
  let x : VOp := ⟨c, a, b, fieldX i, fieldM i, fieldD i, fieldForm i⟩
  let form (vv vx vi : Bool) (k : Instr) : Decoded := need (formIn (fieldForm i) vv vx vi) .reservedFunct (.ok k)
  match (fieldOp6 i).toNat with
  | 0x00 => form true true true (.vadd x)
  | 0x01 => form true true false (.vsub x)
  | 0x02 => form false true true (.vrsub x)
  | 0x03 => form true true true (.vmul x)
  | 0x04 => form true true false (.vmulh x)
  | 0x05 => form true true false (.vmulhu x)
  | 0x06 => form true true true (.vand x)
  | 0x07 => form true true true (.vor x)
  | 0x08 => form true true true (.vxor x)
  | 0x09 => form true true true (.vsll x)
  | 0x0A => form true true true (.vsrl x)
  | 0x0B => form true true true (.vsra x)
  | 0x0C => form true true true (.vmin x)
  | 0x0D => form true true true (.vmax x)
  | 0x0E => form true true false (.vminu x)
  | 0x0F => form true true false (.vmaxu x)
  | 0x10 => form true true true (.vsadd x)
  | 0x11 => form true true false (.vssub x)
  | 0x12 => need (fieldM i) .maskBit (form true true true (.vmerge x))
  | _ =>
    if (fieldOp6 i).extractLsb' 3 3 = 4 then form true true true (.vcmp x ((fieldOp6 i).extractLsb' 0 3))
    else .error .reservedFunct

/-- Opcode 0x15 (R84). -/
def decodeVFloat (c : Bool) (a b : Reg) (i : BitVec 15) : Decoded :=
  let x : VOp := ⟨c, a, b, fieldX i, fieldM i, fieldD i, fieldForm i⟩
  let form (k : Instr) : Decoded := need (formIn (fieldForm i) true true false) .reservedFunct (.ok k)
  let single (k : VUn → Instr) : Decoded :=
    need (fieldForm i == 0) .reservedFunct
      (need (b == 0) .nonzeroField (.ok (k ⟨c, a, fieldX i, fieldM i, fieldD i⟩)))
  match (fieldOp6 i).toNat with
  | 0x00 => form (.vfadd x)
  | 0x01 => form (.vfsub x)
  | 0x02 => form (.vfmul x)
  | 0x03 => form (.vfdiv x)
  | 0x04 => single .vfsqrt
  | 0x05 => form (.vfma x)
  | 0x06 => form (.vfnma x)
  | 0x07 => form (.vfms x)
  | 0x08 => form (.vfmin x)
  | 0x09 => form (.vfmax x)
  | 0x0A => form (.vfsgnCopy x)
  | 0x0B => form (.vfsgnNeg x)
  | 0x0C => form (.vfsgnXor x)
  | 0x0D => single .vfclass
  | _ =>
    if (fieldOp6 i).extractLsb' 3 3 = 4 then form (.vfcmp x ((fieldOp6 i).extractLsb' 0 3))
    else .error .reservedFunct

/-- Opcode 0x16 (R85). -/
def decodeSpecial (c : Bool) (a b : Reg) (i : BitVec 15) : Decoded :=
  let x : VUn := ⟨c, a, fieldX i, fieldM i, fieldD i⟩
  need (b == 0) .nonzeroField <|
    match (field8 i).toNat with
    | 0 => .ok (.vfexp2 x)
    | 1 => .ok (.vflog2 x)
    | 2 => .ok (.vfrcp x)
    | 3 => .ok (.vfrsq x)
    | 4 => .ok (.vftanh x)
    | 5 => .ok (.vfsigm x)
    | _ => .error .reservedFunct

/-- Opcode 0x17 (R85, 07 R144 to R148). -/
def decodeConvert (c : Bool) (a b : Reg) (i : BitVec 15) : Decoded :=
  let x : VUn := ⟨c, a, fieldX i, fieldM i, fieldD i⟩
  let src := fieldOp6 i
  need (b == 0) .nonzeroField <|
    match (fieldForm i).toNat with
    | 0 => need (legalType src) .reservedField (.ok (.vcvt x src))
    | 1 => need (quantSource src) .reservedField (.ok (.vquant x src))
    | 2 => need (dequantSource src) .reservedField (.ok (.vdeq x src))
    | _ => need (src == 0 && fieldX i == 0) .nonzeroField (.ok (.vrand c a (fieldM i) (fieldD i)))

/-- Opcode 0x18 (R85). -/
def decodeMask (c : Bool) (a b : Reg) (i : BitVec 15) : Decoded :=
  let x := fieldX i
  let m := fieldM i
  need (!fieldD i) .densityBit <|
    if (field8 i).extractLsb' 3 5 = 0 then
      need (!m) .maskBit (.ok (.vmlog c a b x ((field8 i).extractLsb' 0 3)))
    else
      need (b == 0) .nonzeroField <|
        match (field8 i).toNat with
        | 0x08 => .ok (.vmpopc c a x m)
        | 0x09 => .ok (.vmfirst c a x m)
        | 0x0A => .ok (.viota c a x m)
        | 0x0B => need m .maskBit (.ok (.vcompress c a x))
        | 0x0C => need m .maskBit (.ok (.vexpand c a x))
        | 0x0D => need (!m) .maskBit (need (x == 0) .nonzeroField (.ok (.vmvsat c a)))
        | _ => .error .reservedFunct

/-- Opcode 0x19 (R85). -/
def decodeReduce (c : Bool) (a b : Reg) (i : BitVec 15) : Decoded :=
  let x : VRed := ⟨c, a, b, fieldX i, fieldM i, (field8 i).getLsbD 4⟩
  need (!fieldD i) .densityBit <| need ((field8 i).extractLsb' 5 3 == 0) .nonzeroField <|
    match ((field8 i).extractLsb' 0 4).toNat with
    | 0 => .ok (.vredsum x)
    | 1 => .ok (.vredmin x)
    | 2 => .ok (.vredmax x)
    | 3 => .ok (.vredminu x)
    | 4 => .ok (.vredmaxu x)
    | 5 => .ok (.vredand x)
    | 6 => .ok (.vredor x)
    | 7 => .ok (.vfredsum x)
    | 8 => .ok (.vfredmin x)
    | 9 => .ok (.vfredmax x)
    | _ => .error .reservedFunct

/-- Opcode 0x1A (R85). -/
def decodePermute (c : Bool) (a b : Reg) (i : BitVec 15) : Decoded :=
  let x := fieldX i
  let m := fieldM i
  let form := fieldForm i
  need (!fieldD i) .densityBit <|
    match (fieldOp6 i).toNat with
    | 0 => need (formIn form false true true) .reservedFunct (.ok (.vslideup c a b x m form))
    | 1 => need (formIn form false true true) .reservedFunct (.ok (.vslidedn c a b x m form))
    | 2 => need (form == 0) .reservedFunct (.ok (.vgatherv c a b x m))
    | 3 => need (formIn form false true true) .reservedFunct
            (need (x == 0) .nonzeroField (.ok (.vbcast c a b m form)))
    | 4 => need (form == 0) .reservedFunct (need (b == 0) .nonzeroField (.ok (.vmv c a x m)))
    | 5 => need (form == 0) .reservedFunct
            (need (!m) .maskBit (need (b == 0) .nonzeroField (.ok (.vmvxs c a x))))
    | 6 => need (form == 1) .reservedFunct
            (need (!m) .maskBit (need (x == 0) .nonzeroField (.ok (.vmvsx c a b))))
    | _ => .error .reservedFunct

/-- Opcode 0x1B (R86). -/
def decodeVLoad (c : Bool) (a b : Reg) (i : BitVec 15) : Decoded :=
  let x : VMem := ⟨c, a, b, fieldX i, fieldM i, fieldD i⟩
  let aux (k : Decoded) : Decoded := need (fieldAux i == 0) .nonzeroField k
  match (fieldMode i).toNat with
  | 0 => aux (need (fieldX i == 0) .nonzeroField (.ok (.vld x)))
  | 1 => aux (.ok (.vlds x))
  | 2 => aux (need (!(fieldX i).getLsbD 0) .oddPair (.ok (.vld2d x)))
  | 3 => aux (.ok (.vldx x))
  | 4 => need (fieldX i == 0) .nonzeroField
          (need (!fieldM i) .maskBit (need (!fieldD i) .densityBit (.ok (.vldwr c a b (fieldAux i)))))
  | _ => .error .reservedFunct

/-- Opcode 0x1C (R86). -/
def decodeVStore (c : Bool) (a b : Reg) (i : BitVec 15) : Decoded :=
  let x : VMem := ⟨c, a, b, fieldX i, fieldM i, fieldD i⟩
  let aux (k : Decoded) : Decoded := need (fieldAux i == 0) .nonzeroField k
  match (fieldMode i).toNat with
  | 0 => aux (need (fieldX i == 0) .nonzeroField (.ok (.vst x)))
  | 1 => aux (.ok (.vsts x))
  | 3 => aux (.ok (.vstx x))
  | 4 => need (fieldX i == 0) .nonzeroField
          (need (!fieldM i) .maskBit (need (!fieldD i) .densityBit (.ok (.vstwr c a b (fieldAux i)))))
  | _ => .error .reservedFunct

/-- Opcode 0x1E (R86). -/
def decodeScatter (c : Bool) (a b : Reg) (i : BitVec 15) : Decoded :=
  need (fieldMode i == 3) .reservedFunct
    (need (fieldAux i == 0) .nonzeroField (.ok (.vscatadd ⟨c, a, b, fieldX i, fieldM i, fieldD i⟩)))

/-- Opcode 0x1D (R87). -/
def decodeStrip (c : Bool) (a b : Reg) (i : BitVec 15) : Decoded :=
  let x := fieldX i
  let f := field8 i
  need (!fieldM i) .maskBit <| need (!fieldD i) .densityBit <|
    match (f.extractLsb' 0 3).toNat with
    | 0 => need (!c) .convoyBit (need (f.extractLsb' 5 3 == 0) .nonzeroField
            (need (handleOk a && !(f.extractLsb' 3 2 == 3)) .reservedField
              (.ok (.stripset a b x (f.extractLsb' 3 2)))))
    | 1 => need (f.extractLsb' 3 5 == 0 && x == 0) .nonzeroField
            (need (handleOk b) .reservedField (.ok (.sld c a b)))
    | 2 => need (f.extractLsb' 3 5 == 0 && x == 0) .nonzeroField
            (need (handleOk b) .reservedField (.ok (.sst c a b)))
    | 3 => need (!c) .convoyBit (need (f.extractLsb' 3 5 == 0 && x == 0) .nonzeroField
            (need (handleOk b) .reservedField (.ok (.strippos a b))))
    | _ => .error .reservedFunct

/-- Opcode 0x1F (R87). Bits 6:4 of funct8 are named by no row. -/
def decodeMatrix (c : Bool) (a b : Reg) (i : BitVec 15) : Decoded :=
  let x := fieldX i
  let f := field8 i
  let bit7 := f.getLsbD 7
  let zero (z : Bool) (k : Instr) : Decoded := need (z && f.extractLsb' 4 3 == 0) .nonzeroField (.ok k)
  need (!fieldD i) .densityBit <|
    match (f.extractLsb' 0 4).toNat with
    | 5 => zero (x == 0) (.accx c a b (fieldM i) bit7)
    | n => need (!fieldM i) .maskBit <|
      match n with
      | 0 => zero (a == 0) (.wbld c b x bit7)
      | 1 => zero (!bit7 && a == 0 && b == 0 && x == 0) (.wbdrop c)
      | 2 => zero (!bit7 && a == 0 && b == 0) (.mma c x)
      | 3 => zero (!bit7 && a == 0 && b == 0 && x == 0) (.accz c)
      | 4 => zero (!bit7 && a == 0) (.acci c b x)
      | 6 => zero (!bit7 && x == 0) (.msave c a b)
      | 7 => zero (!bit7 && a == 0 && x == 0) (.mrest c b)
      | _ => .error .reservedFunct

/-- Opcode 0x20 (R87). -/
def decodeTrellis (c : Bool) (a b : Reg) (i : BitVec 15) : Decoded :=
  let x := fieldX i
  let f := field8 i
  let bit6 := BitVec.ofBool (f.getLsbD 6)
  let hi := f.extractLsb' 4 4
  need (!fieldD i) .densityBit <| need (!fieldM i) .maskBit <|
    match (f.extractLsb' 0 4).toNat with
    | 0 => need (!f.getLsbD 7 && f.extractLsb' 4 2 == 0) .nonzeroField (.ok (.knotset c (bit6 ++ a) b x))
    | 1 => need (!f.getLsbD 7 && f.extractLsb' 4 2 == 0) .nonzeroField
            (need (x.toNat < 3) .reservedField (.ok (.knotrd c a (bit6 ++ b) x)))
    | 2 => need (hi == 0 && a == 0 && x == 0) .nonzeroField (.ok (.splld c b))
    | 3 => need (hi == 0 && a == 0 && x == 0) .nonzeroField (.ok (.splst c b))
    | 4 => need (hi == 0 && a == 0 && b == 0) .nonzeroField (.ok (.spl c x))
    | 5 => need (hi == 0 && a == 0) .nonzeroField (.ok (.splbwd c b x))
    | 6 => need (hi == 0 && a == 0) .nonzeroField (.ok (.splgrad c b x))
    | 7 => need (f.extractLsb' 4 3 == 0 && a == 0 && x == 0) .nonzeroField (.ok (.splgx c b (f.getLsbD 7)))
    | 8 => need (f.extractLsb' 6 2 == 0) .nonzeroField
            (need (!(f.extractLsb' 4 2 == 0)) .reservedField (.ok (.splref c a b x (f.extractLsb' 4 2))))
    | _ => .error .reservedFunct

/-- Opcode 0x21 (R87). -/
def decodeEngine (c : Bool) (a b : Reg) (i : BitVec 15) : Decoded :=
  let x := fieldX i
  let f := field8 i
  let m := fieldM i
  let hi := f.extractLsb' 4 4
  need (!fieldD i) .densityBit <|
    match (f.extractLsb' 0 4).toNat with
    | 0 => need (hi == 0 && b == 0) .nonzeroField (.ok (.copyb c a x m))
    | 1 => need (hi == 0 && b == 0) .nonzeroField (.ok (.bankb c a x m))
    | n => need (!m) .maskBit <|
      match n with
      | 2 => need (!c) .convoyBit (need (hi == 0 && x == 0) .nonzeroField (.ok (.copywp a b)))
      | 3 => need (hi == 0) .nonzeroField (.ok (.settle c a b x))
      | 4 => need (hi == 0) .nonzeroField (.ok (.renew c a b x))
      | 5 => need (!c) .convoyBit (need (f.extractLsb' 6 2 == 0 && x == 0) .nonzeroField
              (need (!(f.extractLsb' 4 2 == 3)) .reservedField (.ok (.rgncnt a b (f.extractLsb' 4 2)))))
      | _ => .error .reservedFunct

/-- Opcode 0x22 (R87). -/
def decodeMailbox (c : Bool) (a b : Reg) (i : BitVec 15) : Decoded :=
  let x := fieldX i
  let f := field8 i
  need (!fieldD i) .densityBit <| need (!fieldM i) .maskBit <| need (f.extractLsb' 4 4 == 0) .nonzeroField <|
    match (f.extractLsb' 0 4).toNat with
    | 0 => .ok (.mbpost c a b x)
    | 1 => .ok (.mbtake c a b x)
    | 2 => need (!c) .convoyBit (need (x == 0) .nonzeroField (.ok (.mbpoll a b)))
    | _ => .error .reservedFunct

/-- The instruction of five fields (R78). C may be 1 only for opcodes 0x14 to 0x22. -/
def decodeFields (c : Bool) (op : BitVec 6) (a b : Reg) (i : BitVec 15) : Decoded :=
  match op.toNat with
  | 0x14 => decodeVInt c a b i
  | 0x15 => decodeVFloat c a b i
  | 0x16 => decodeSpecial c a b i
  | 0x17 => decodeConvert c a b i
  | 0x18 => decodeMask c a b i
  | 0x19 => decodeReduce c a b i
  | 0x1A => decodePermute c a b i
  | 0x1B => decodeVLoad c a b i
  | 0x1C => decodeVStore c a b i
  | 0x1D => decodeStrip c a b i
  | 0x1E => decodeScatter c a b i
  | 0x1F => decodeMatrix c a b i
  | 0x20 => decodeTrellis c a b i
  | 0x21 => decodeEngine c a b i
  | 0x22 => decodeMailbox c a b i
  | n => need (!c || decide (0x23 ≤ n)) .convoyBit <|
    match n with
    | 0x00 => decodeSystem a b i
    | 0x01 => decodeAlu a b i
    | 0x02 => .ok (.addi a b i)
    | 0x03 => .ok (.andi a b i)
    | 0x04 => .ok (.ori a b i)
    | 0x05 => .ok (.xori a b i)
    | 0x06 => .ok (.slti a b i)
    | 0x07 => .ok (.sltiu a b i)
    | 0x08 => decodeShift a b i
    | 0x09 => .ok (.lui a (b ++ i))
    | 0x0A => .ok (.auipc a (b ++ i))
    | 0x0B => decodeLoad a b i
    | 0x0C => decodeStore a b i
    | 0x0D => decodeAtomic a b i
    | 0x0E => decodeBranch a b i
    | 0x0F => .ok (.jal a (b ++ i))
    | 0x10 => .ok (.jalr a b i)
    | 0x11 => need (a.extractLsb' 1 4 == 0) .nonzeroField
                (need (!(i == 0)) .reservedField (.ok (.loop (a.getLsbD 0) b i)))
    | 0x12 => decodeSync a b i
    | 0x13 => decodeConfig a b i
    | _ => .error .reservedOpcode

/-- The instruction of a word, or why it is none. -/
def decodeWord (w : IWord) : Decoded := decodeFields (wordC w) (wordOp w) (wordA w) (wordB w) (wordI w)

/-- A word of four bytes, the first at the lowest address (R75). -/
def wordOfBytes (b0 b1 b2 b3 : Byte) : IWord := b3 ++ b2 ++ b1 ++ b0

/-- The four bytes of a word, the first at the lowest address. -/
def bytesOfWord (w : IWord) : List Byte :=
  [w.extractLsb' 0 8, w.extractLsb' 8 8, w.extractLsb' 16 8, w.extractLsb' 24 8]

/-- The first instruction of a list of bytes, and the bytes after it. -/
def decodeBytes : List Byte → Except DecodeError (Instr × List Byte)
  | b0 :: b1 :: b2 :: b3 :: rest =>
    match decodeWord (wordOfBytes b0 b1 b2 b3) with
    | .ok i => .ok (i, rest)
    | .error e => .error e
  | _ => .error .truncated

/-- The instruction the decoder reads from the bits `w` of an opcode-table row of `nbits` bits; bits above are 0. -/
def decodeTableWord (nbits w : Nat) : Option Instr :=
  match decodeBytes (bytesOfWord (BitVec.ofNat 32 (w % 2 ^ nbits))) with
  | .ok (i, _) => some i
  | .error _ => none

/-! ## The encoder -/

/-- Word of a VOp row. -/
def encodeVOp (op : BitVec 6) (x : VOp) (f : BitVec 6) : IWord :=
  pack x.c op x.vd x.s1 (packV x.vs2 x.m x.d (x.form ++ f))
/-- Word of a single-source row. -/
def encodeVUn (op : BitVec 6) (x : VUn) (f : BitVec 8) : IWord :=
  pack x.c op x.vd 0 (packV x.vs2 x.m x.d f)
/-- Word of a reduction. -/
def encodeVRed (x : VRed) (f : BitVec 4) : IWord :=
  pack x.c 0x19 x.vd x.vs1 (packV x.vs2 x.m false ((0 : BitVec 3) ++ BitVec.ofBool x.tile ++ f))
/-- Word of a vector memory row. -/
def encodeVMem (op : BitVec 6) (x : VMem) (mode : BitVec 3) : IWord :=
  pack x.c op x.v x.base (packV x.x x.m x.d (mode ++ (0 : BitVec 5)))
/-- Word of an SR row. -/
def encodeR (op : BitVec 6) (a b x : Reg) (f : BitVec 10) : IWord := pack false op a b (packR x f)
/-- Word of an SM or B row. -/
def encodeM (op : BitVec 6) (a b : Reg) (f : BitVec 3) (n : BitVec 12) : IWord := pack false op a b (packM f n)
/-- Word of a U or J row. -/
def encodeU (op : BitVec 6) (a : Reg) (n : BitVec 20) : IWord :=
  pack false op a (n.extractLsb' 15 5) (n.extractLsb' 0 15)
/-- Word of a row of opcode 0x0D. -/
def encodeAmo (a b gs : Reg) (op : BitVec 4) (scope order width : BitVec 2) : IWord :=
  encodeR 0x0D a b gs (op ++ scope ++ order ++ width)
/-- Word of a VR row with m and d given. -/
def encodeV (c : Bool) (op : BitVec 6) (a b x : Reg) (m : Bool) (f : BitVec 8) : IWord :=
  pack c op a b (packV x m false f)

/-- The word of an instruction (R75 to R87); none for an event. -/
def encode : Instr → Option IWord
  | .srr gd sr => some (encodeM 0x00 gd 0 1 sr)
  | .srw gd gs sr => some (encodeM 0x00 gd gs 2 sr)
  | .srset gd gs sr => some (encodeM 0x00 gd gs 3 sr)
  | .srclr gd gs sr => some (encodeM 0x00 gd gs 4 sr)
  | .trap imm => some (encodeM 0x00 0 0 5 imm)
  | .fence scope before after => some (encodeM 0x00 0 0 6 (scope ++ (0 : BitVec 2) ++ before ++ after))
  | .rett => some (encodeM 0x00 0 0 7 0x001)
  | .park => some (encodeM 0x00 0 0 7 0x002)
  | .brk => some (encodeM 0x00 0 0 7 0x003)
  | .exit => some (encodeM 0x00 0 0 7 0x004)
  | .trigger => some (encodeM 0x00 0 0 7 0x005)
  | .launch gd gs => some (encodeM 0x00 gd gs 7 0x006)
  | .rngsnap gs => some (encodeM 0x00 0 gs 7 0x007)
  | .rngload gs => some (encodeM 0x00 0 gs 7 0x008)
  | .add a b x => some (encodeR 0x01 a b x 0x000)
  | .sub a b x => some (encodeR 0x01 a b x 0x001)
  | .and a b x => some (encodeR 0x01 a b x 0x002)
  | .or a b x => some (encodeR 0x01 a b x 0x003)
  | .xor a b x => some (encodeR 0x01 a b x 0x004)
  | .andn a b x => some (encodeR 0x01 a b x 0x005)
  | .sll a b x => some (encodeR 0x01 a b x 0x006)
  | .srl a b x => some (encodeR 0x01 a b x 0x007)
  | .sra a b x => some (encodeR 0x01 a b x 0x008)
  | .slt a b x => some (encodeR 0x01 a b x 0x009)
  | .sltu a b x => some (encodeR 0x01 a b x 0x00A)
  | .min a b x => some (encodeR 0x01 a b x 0x00B)
  | .max a b x => some (encodeR 0x01 a b x 0x00C)
  | .minu a b x => some (encodeR 0x01 a b x 0x00D)
  | .maxu a b x => some (encodeR 0x01 a b x 0x00E)
  | .mul a b x => some (encodeR 0x01 a b x 0x010)
  | .mulh a b x => some (encodeR 0x01 a b x 0x011)
  | .mulhu a b x => some (encodeR 0x01 a b x 0x012)
  | .div a b x => some (encodeR 0x01 a b x 0x014)
  | .divu a b x => some (encodeR 0x01 a b x 0x015)
  | .rem a b x => some (encodeR 0x01 a b x 0x016)
  | .remu a b x => some (encodeR 0x01 a b x 0x017)
  | .clz a b => some (encodeR 0x01 a b 0 0x018)
  | .ctz a b => some (encodeR 0x01 a b 0 0x019)
  | .popc a b => some (encodeR 0x01 a b 0 0x01A)
  | .sext a b code => some (encodeR 0x01 a b code 0x01C)
  | .zext a b code => some (encodeR 0x01 a b code 0x01D)
  | .addi a b i => some (pack false 0x02 a b i)
  | .andi a b i => some (pack false 0x03 a b i)
  | .ori a b i => some (pack false 0x04 a b i)
  | .xori a b i => some (pack false 0x05 a b i)
  | .slti a b i => some (pack false 0x06 a b i)
  | .sltiu a b i => some (pack false 0x07 a b i)
  | .slli a b sh => some (encodeM 0x08 a b 0 ((0 : BitVec 6) ++ sh))
  | .srli a b sh => some (encodeM 0x08 a b 1 ((0 : BitVec 6) ++ sh))
  | .srai a b sh => some (encodeM 0x08 a b 2 ((0 : BitVec 6) ++ sh))
  | .lui a n => some (encodeU 0x09 a n)
  | .auipc a n => some (encodeU 0x0A a n)
  | .ldb a b n => some (encodeM 0x0B a b 0 n)
  | .ldbu a b n => some (encodeM 0x0B a b 1 n)
  | .ldh a b n => some (encodeM 0x0B a b 2 n)
  | .ldhu a b n => some (encodeM 0x0B a b 3 n)
  | .ldw a b n => some (encodeM 0x0B a b 4 n)
  | .ldwu a b n => some (encodeM 0x0B a b 5 n)
  | .ldd a b n => some (encodeM 0x0B a b 6 n)
  | .stb a b n => some (encodeM 0x0C a b 0 n)
  | .sth a b n => some (encodeM 0x0C a b 1 n)
  | .stw a b n => some (encodeM 0x0C a b 2 n)
  | .std a b n => some (encodeM 0x0C a b 3 n)
  | .ldacq a b scope width => some (encodeAmo a b 0 0 scope 1 width)
  | .strel b gs scope width => some (encodeAmo 0 b gs 1 scope 2 width)
  | .amoadd x => some (encodeAmo x.gd x.base x.gs 2 x.scope x.order x.width)
  | .amoswap x => some (encodeAmo x.gd x.base x.gs 3 x.scope x.order x.width)
  | .amocas x => some (encodeAmo x.gd x.base x.gs 4 x.scope x.order x.width)
  | .amomin x => some (encodeAmo x.gd x.base x.gs 5 x.scope x.order x.width)
  | .amomax x => some (encodeAmo x.gd x.base x.gs 6 x.scope x.order x.width)
  | .amominu x => some (encodeAmo x.gd x.base x.gs 7 x.scope x.order x.width)
  | .amomaxu x => some (encodeAmo x.gd x.base x.gs 8 x.scope x.order x.width)
  | .amoor x => some (encodeAmo x.gd x.base x.gs 9 x.scope x.order x.width)
  | .amoand x => some (encodeAmo x.gd x.base x.gs 10 x.scope x.order x.width)
  | .beq a b n => some (encodeM 0x0E a b 0 n)
  | .bne a b n => some (encodeM 0x0E a b 1 n)
  | .blt a b n => some (encodeM 0x0E a b 2 n)
  | .bge a b n => some (encodeM 0x0E a b 3 n)
  | .bltu a b n => some (encodeM 0x0E a b 4 n)
  | .bgeu a b n => some (encodeM 0x0E a b 5 n)
  | .jal a n => some (encodeU 0x0F a n)
  | .jalr a b i => some (pack false 0x10 a b i)
  | .loop lvl b i => some (pack false 0x11 ((0 : BitVec 4) ++ BitVec.ofBool lvl) b i)
  | .bar => some (encodeR 0x12 0 0 0 1)
  | .waitaddr a b x => some (encodeR 0x12 a b x 2)
  | .claim a b x => some (encodeR 0x12 a b x 3)
  | .pubwm b x => some (encodeR 0x12 0 b x 4)
  | .waitwm b x => some (encodeR 0x12 0 b x 5)
  | .setregs a maxsew count => some (encodeR 0x13 a 0 0 ((1 : BitVec 4) ++ (0 : BitVec 1) ++ maxsew ++ count))
  | .settypeReg a b => some (encodeR 0x13 a b 0 0x080)
  | .settypeImm a imm => some (encodeR 0x13 a (imm.extractLsb' 5 5) (imm.extractLsb' 0 5) 0x0A0)
  | .setlen a b => some (encodeR 0x13 a b 0 0x0C0)
  | .setlen2 a b x => some (encodeR 0x13 a b x 0x100)
  | .settile a b x => some (encodeR 0x13 a b x 0x140)
  | .tilebind a b => some (encodeR 0x13 a b 0 0x180)
  | .vadd x => some (encodeVOp 0x14 x 0x00)
  | .vsub x => some (encodeVOp 0x14 x 0x01)
  | .vrsub x => some (encodeVOp 0x14 x 0x02)
  | .vmul x => some (encodeVOp 0x14 x 0x03)
  | .vmulh x => some (encodeVOp 0x14 x 0x04)
  | .vmulhu x => some (encodeVOp 0x14 x 0x05)
  | .vand x => some (encodeVOp 0x14 x 0x06)
  | .vor x => some (encodeVOp 0x14 x 0x07)
  | .vxor x => some (encodeVOp 0x14 x 0x08)
  | .vsll x => some (encodeVOp 0x14 x 0x09)
  | .vsrl x => some (encodeVOp 0x14 x 0x0A)
  | .vsra x => some (encodeVOp 0x14 x 0x0B)
  | .vmin x => some (encodeVOp 0x14 x 0x0C)
  | .vmax x => some (encodeVOp 0x14 x 0x0D)
  | .vminu x => some (encodeVOp 0x14 x 0x0E)
  | .vmaxu x => some (encodeVOp 0x14 x 0x0F)
  | .vsadd x => some (encodeVOp 0x14 x 0x10)
  | .vssub x => some (encodeVOp 0x14 x 0x11)
  | .vmerge x => some (encodeVOp 0x14 x 0x12)
  | .vcmp x cond => some (encodeVOp 0x14 x ((4 : BitVec 3) ++ cond))
  | .vfadd x => some (encodeVOp 0x15 x 0x00)
  | .vfsub x => some (encodeVOp 0x15 x 0x01)
  | .vfmul x => some (encodeVOp 0x15 x 0x02)
  | .vfdiv x => some (encodeVOp 0x15 x 0x03)
  | .vfsqrt x => some (encodeVUn 0x15 x 0x04)
  | .vfma x => some (encodeVOp 0x15 x 0x05)
  | .vfnma x => some (encodeVOp 0x15 x 0x06)
  | .vfms x => some (encodeVOp 0x15 x 0x07)
  | .vfmin x => some (encodeVOp 0x15 x 0x08)
  | .vfmax x => some (encodeVOp 0x15 x 0x09)
  | .vfsgnCopy x => some (encodeVOp 0x15 x 0x0A)
  | .vfsgnNeg x => some (encodeVOp 0x15 x 0x0B)
  | .vfsgnXor x => some (encodeVOp 0x15 x 0x0C)
  | .vfclass x => some (encodeVUn 0x15 x 0x0D)
  | .vfcmp x cond => some (encodeVOp 0x15 x ((4 : BitVec 3) ++ cond))
  | .vfexp2 x => some (encodeVUn 0x16 x 0)
  | .vflog2 x => some (encodeVUn 0x16 x 1)
  | .vfrcp x => some (encodeVUn 0x16 x 2)
  | .vfrsq x => some (encodeVUn 0x16 x 3)
  | .vftanh x => some (encodeVUn 0x16 x 4)
  | .vfsigm x => some (encodeVUn 0x16 x 5)
  | .vcvt x src => some (encodeVUn 0x17 x ((0 : BitVec 2) ++ src))
  | .vquant x src => some (encodeVUn 0x17 x ((1 : BitVec 2) ++ src))
  | .vdeq x src => some (encodeVUn 0x17 x ((2 : BitVec 2) ++ src))
  | .vrand c vd m d => some (encodeVUn 0x17 ⟨c, vd, 0, m, d⟩ 0xC0)
  | .vmlog c vd vs1 vs2 op => some (encodeV c 0x18 vd vs1 vs2 false ((0 : BitVec 5) ++ op))
  | .vmpopc c gd vs2 m => some (encodeV c 0x18 gd 0 vs2 m 0x08)
  | .vmfirst c gd vs2 m => some (encodeV c 0x18 gd 0 vs2 m 0x09)
  | .viota c vd vs2 m => some (encodeV c 0x18 vd 0 vs2 m 0x0A)
  | .vcompress c vd vs2 => some (encodeV c 0x18 vd 0 vs2 true 0x0B)
  | .vexpand c vd vs2 => some (encodeV c 0x18 vd 0 vs2 true 0x0C)
  | .vmvsat c vd => some (encodeV c 0x18 vd 0 0 false 0x0D)
  | .vredsum x => some (encodeVRed x 0)
  | .vredmin x => some (encodeVRed x 1)
  | .vredmax x => some (encodeVRed x 2)
  | .vredminu x => some (encodeVRed x 3)
  | .vredmaxu x => some (encodeVRed x 4)
  | .vredand x => some (encodeVRed x 5)
  | .vredor x => some (encodeVRed x 6)
  | .vfredsum x => some (encodeVRed x 7)
  | .vfredmin x => some (encodeVRed x 8)
  | .vfredmax x => some (encodeVRed x 9)
  | .vslideup c vd s1 vs2 m form => some (encodeV c 0x1A vd s1 vs2 m (form ++ (0 : BitVec 6)))
  | .vslidedn c vd s1 vs2 m form => some (encodeV c 0x1A vd s1 vs2 m (form ++ (1 : BitVec 6)))
  | .vgatherv c vd vs1 vs2 m => some (encodeV c 0x1A vd vs1 vs2 m 0x02)
  | .vbcast c vd s1 m form => some (encodeV c 0x1A vd s1 0 m (form ++ (3 : BitVec 6)))
  | .vmv c vd vs2 m => some (encodeV c 0x1A vd 0 vs2 m 0x04)
  | .vmvxs c gd vs2 => some (encodeV c 0x1A gd 0 vs2 false 0x05)
  | .vmvsx c vd gs => some (encodeV c 0x1A vd gs 0 false 0x46)
  | .vld x => some (encodeVMem 0x1B x 0)
  | .vlds x => some (encodeVMem 0x1B x 1)
  | .vld2d x => some (encodeVMem 0x1B x 2)
  | .vldx x => some (encodeVMem 0x1B x 3)
  | .vldwr c vd base gd => some (encodeV c 0x1B vd base 0 false ((4 : BitVec 3) ++ gd))
  | .vst x => some (encodeVMem 0x1C x 0)
  | .vsts x => some (encodeVMem 0x1C x 1)
  | .vstx x => some (encodeVMem 0x1C x 3)
  | .vstwr c vs3 base gd => some (encodeV c 0x1C vs3 base 0 false ((4 : BitVec 3) ++ gd))
  | .vscatadd x => some (encodeVMem 0x1E x 3)
  | .stripset h gs1 gs2 chan => some (encodeV false 0x1D h gs1 gs2 false ((0 : BitVec 3) ++ chan ++ (0 : BitVec 3)))
  | .sld c vd h => some (encodeV c 0x1D vd h 0 false 1)
  | .sst c vs3 h => some (encodeV c 0x1D vs3 h 0 false 2)
  | .strippos gd h => some (encodeV false 0x1D gd h 0 false 3)
  | .wbld c gs1 gs2 multi => some (encodeV c 0x1F 0 gs1 gs2 false (BitVec.ofBool multi ++ (0 : BitVec 7)))
  | .wbdrop c => some (encodeV c 0x1F 0 0 0 false 1)
  | .mma c vs2 => some (encodeV c 0x1F 0 0 vs2 false 2)
  | .accz c => some (encodeV c 0x1F 0 0 0 false 3)
  | .acci c gs1 vs2 => some (encodeV c 0x1F 0 gs1 vs2 false 4)
  | .accx c vd gs1 m clr => some (encodeV c 0x1F vd gs1 0 m (BitVec.ofBool clr ++ (5 : BitVec 7)))
  | .msave c gd gs1 => some (encodeV c 0x1F gd gs1 0 false 6)
  | .mrest c gs1 => some (encodeV c 0x1F 0 gs1 0 false 7)
  | .knotset c j gs1 gs2 =>
    some (encodeV c 0x20 (j.extractLsb' 0 5) gs1 gs2 false ((0 : BitVec 1) ++ j.extractLsb' 5 1 ++ (0 : BitVec 6)))
  | .knotrd c gd j sel =>
    some (encodeV c 0x20 gd (j.extractLsb' 0 5) sel false ((0 : BitVec 1) ++ j.extractLsb' 5 1 ++ (1 : BitVec 6)))
  | .splld c gs1 => some (encodeV c 0x20 0 gs1 0 false 2)
  | .splst c gs1 => some (encodeV c 0x20 0 gs1 0 false 3)
  | .spl c vs2 => some (encodeV c 0x20 0 0 vs2 false 4)
  | .splbwd c vs1 vs2 => some (encodeV c 0x20 0 vs1 vs2 false 5)
  | .splgrad c vs1 vs2 => some (encodeV c 0x20 0 vs1 vs2 false 6)
  | .splgx c gs1 clr => some (encodeV c 0x20 0 gs1 0 false (BitVec.ofBool clr ++ (7 : BitVec 7)))
  | .splref c vd gs1 vs2 deg =>
    some (encodeV c 0x20 vd gs1 vs2 false ((0 : BitVec 2) ++ deg ++ (8 : BitVec 4)))
  | .copyb c gd vs2 m => some (encodeV c 0x21 gd 0 vs2 m 0)
  | .bankb c gd vs2 m => some (encodeV c 0x21 gd 0 vs2 m 1)
  | .copywp gd gs1 => some (encodeV false 0x21 gd gs1 0 false 2)
  | .settle c gs0 gs1 gs2 => some (encodeV c 0x21 gs0 gs1 gs2 false 3)
  | .renew c gs0 gs1 gs2 => some (encodeV c 0x21 gs0 gs1 gs2 false 4)
  | .rgncnt gd gs1 which => some (encodeV false 0x21 gd gs1 0 false ((0 : BitVec 2) ++ which ++ (5 : BitVec 4)))
  | .mbpost c vs3 gs1 gd => some (encodeV c 0x22 vs3 gs1 gd false 0)
  | .mbtake c vd gs1 gd => some (encodeV c 0x22 vd gs1 gd false 1)
  | .mbpoll gd gs1 => some (encodeV false 0x22 gd gs1 0 false 2)
  | _ => none

end Sys2Proof
end

