-- ==== Sys2Proof/Machine/Ops.lean ====
section
/-! DEFINITION. The named operations of a hart: scalar registers, completion with the loop-end action (05 R112), trap
entry (19 R352) and the return from one (19 R355, R363), interrupts (19 R356), waiting. -/
namespace Sys2Proof.Machine

/-- What a step answers. -/
abbrev Out := Host.Outcome State Fault Refusal

/-! ## Scalar registers (01 R8) -/

/-- g[r]; g0 reads 0. -/
def readG (s : State) (r : Reg) : Word := if r = 0 then 0 else s.hart.g[r.toNat]

/-- g[r] := x; a write to g0 is discarded. -/
def writeG (s : State) (r : Reg) (x : Word) : State :=
  if r = 0 then s else { s with hart := { s.hart with g := s.hart.g.set r.toNat x } }

/-! ## Completion -/

/-- The loop-end action of an instruction at address `a` whose next PC is a + 4 (05 R112): level 1, then level 0. -/
def loopEnd (a : Word) (h : Hart) : Hart :=
  let fires1 := h.lc1 != 0 && h.le1 == a
  let lc1 := if fires1 then h.lc1 - 1 else h.lc1
  let back := fires1 && lc1 != 0
  let fires0 := !back && h.lc0 != 0 && h.le0 == a
  let lc0 := if fires0 then h.lc0 - 1 else h.lc0
  { h with
    lc1 := lc1
    lc0 := lc0
    pc := if back then h.lb1 else if fires0 && lc0 != 0 then h.lb0 else a + 4 }

/-- The hart is past an instruction: it counts (05 R117), and it waits for nothing. -/
def retired (h : Hart) : Hart := { h with instret := h.instret + 1, wait := none, request := none, stopAt := none }

/-- An instruction that writes no PC completes. -/
def complete (s : State) : State := { s with hart := loopEnd s.hart.pc (retired s.hart) }

/-- An instruction that writes the PC completes. -/
def jumpTo (s : State) (target : Word) : State := { s with hart := { retired s.hart with pc := target } }

/-- The instruction waits: it has had no effect (11 R226). -/
def waitAt (s : State) (i : Instr) : State := { s with hart := { s.hart with wait := some i } }

/-- The hart's convoys have drained; the next vector instruction starts a new one (04 R92, 11 R226; log 13). -/
def drained (s : State) : State := { s with hart := { s.hart with convoy := none } }

/-- The instruction word, for TVAL. -/
def wordOf (i : Instr) : IWord := (encode i).getD 0

/-! ## Unspecified values (log 5) -/

/-- A value the spec leaves open: of this step, of a place in the instruction, of an element. -/
def freeWord (s : State) (slot e : Nat) : Word := Config.freeBits s.tick slot e
def freeBit (s : State) (slot e : Nat) : Bool := Config.freeBool s.tick slot e

/-! ## TSTATUS (19 R354) -/

/-- Bits lo + n − 1 : lo of a word replaced. -/
def putField (w : Word) (lo n v : Nat) : Word :=
  (w &&& ~~~((BitVec.ofNat 64 (2 ^ n - 1)) <<< lo)) ||| ((BitVec.ofNat 64 (v % 2 ^ n)) <<< lo)

def tsStep (h : Hart) : Bool := h.tstatus.getLsbD 0
def tsYield (h : Hart) : Bool := h.tstatus.getLsbD 1
def ipSlice (h : Hart) : Bool := h.tstatus.getLsbD 4
def ipPreempt (h : Hart) : Bool := h.tstatus.getLsbD 5
def ipMessage (h : Hart) : Bool := h.tstatus.getLsbD 6
def tsPend (h : Hart) : Bool := h.tstatus.getLsbD 14

/-- The interrupt taken first among those pending (19 R356): its cause, its IP bit, TVAL. -/
def firstInterrupt (h : Hart) : Option (Nat × Nat × Word) :=
  if ipPreempt h then some (causePreempt, 5, 0)
  else if ipMessage h then some (causeMessage, 6, 1)
  else if ipSlice h then some (causeSlice, 4, 0)
  else none

/-- An interrupt becomes pending: bit 4 SLICE, 5 PREEMPT, 6 MESSAGE (19 R356). -/
def setPending (bit : Nat) (h : Hart) : Hart :=
  { h with
    fresh := h.mode == .user && (h.fresh || (firstInterrupt h).isNone)
    tstatus := putField h.tstatus bit 1 1 }

/-! ## Trap entry -/

/-- Trap entry as one step (19 R352). A response still outstanding, or held for the hart, sets PEND (R357). -/
def enterTrap (interrupt : Bool) (t : TrapInfo) (h : Hart) : Hart :=
  let held := if h.request.isSome then h.request else h.held
  let ts := putField (putField (putField h.tstatus 15 1 (if interrupt then 1 else 0)) 12 2 t.acc) 0 2 0
  { h with
    tcause := BitVec.ofNat 64 t.cause
    tval := t.tval
    tpc := h.pc
    trapPc := h.pc
    tstatus := putField ts 14 1 (if held.isSome then 1 else 0)
    held := held
    request := none
    mode := .supervisor
    pc := h.tvec
    convoy := none
    wait := none
    stepping := false
    fresh := false
    stopAt := none }

/-- An uncorrectable error met in a page-table walk fails every gang that could have used it: those of the hart's address
space (24 R415). -/
def failWalkers (s : State) : State := failSpace (haltHart s s.cur causePoison 0) s.hart.asid

/-- A trap is taken at the current hart: in user mode it enters the supervisor, and an ACCESS trap is logged (19 R352,
R360); in supervisor mode the hart halts and its gang is failed (01 R38, 19 R359). An access that waits for its path takes
no trap: the hart stands at the instruction, which has had no effect. -/
def takeTrap (s : State) (t : TrapInfo) : State :=
  if t.cause = causeWaits then s
  else if t.cause = causeWalk then
    failWalkers s
  else match s.hart.mode with
    | .supervisor =>
      let s := if t.cause = causeAccess then
        logViolation s s.hart.asid t.tval (reqOfHart s.cur) 0 causeAccess 0 else s
      haltHart s s.cur t.cause s.hart.pc
    | .user =>
      let s := if t.cause = causeAccess then
        logViolation s s.hart.asid t.tval (reqOfHart s.cur) 0 causeAccess 0 else s
      { s with hart := enterTrap false t s.hart }

/-- The first pending interrupt is taken in user mode; its IP bit clears (19 R356). -/
def takeInterrupt (s : State) : State :=
  match s.hart.mode, firstInterrupt s.hart with
  | .user, some (cause, bit, tval) =>
    let h := enterTrap true (plainTrap cause tval) s.hart
    { s with hart := { h with
        tstatus := putField h.tstatus bit 1 0
        preempted := h.preempted || cause == causePreempt } }
  | _, _ => s

/-- At the end of an instruction that a pending interrupt completed or stopped, the interrupt is taken; a single step ends
with its BREAK instead, and the interrupt stays pending (19 R355, R356). -/
def interruptAfter (s : State) : State := if s.hart.stepping then s else takeInterrupt s

/-- An interrupt is pending and may be taken. -/
def interruptDue (h : Hart) : Bool := h.mode == .user && (firstInterrupt h).isSome

/-! ## Return -/

/-- The response that the instruction at TPC still takes up: with PEND 1 and TPC as the entry left it (19 R355). -/
def heldAnswer (h : Hart) : Option Request := if tsPend h && h.tpc == h.trapPc then h.held else none

/-- The hart record of a yield (19 R363): what is not in it is lost. PEND stands in it as a response does (R355). -/
def hartRecord (h : Hart) (col groups : Nat) : Hart :=
  { Hart.reset col with
    tpc := h.tpc, trapPc := h.trapPc
    tstatus := putField (putField h.tstatus 4 3 0) 14 1 (if (heldAnswer h).isSome then 1 else 0)
    tvec := h.tvec, tscratch := h.tscratch, ptbase := h.ptbase, asid := h.asid, mstateen := h.mstateen
    slice := h.slice, gangid := h.gangid, gangsize := h.gangsize, gangrank := h.gangrank, taskarg := h.taskarg
    strip := h.strip, held := heldAnswer h, bars := h.bars, triggered := h.triggered, yieldGroups := groups
    partRuns := h.partRuns }

/-- The hart leaves its slot (19 R363): release, registers and matrix state discarded, groups released, the LPART field
left in place. -/
def yieldHart (s : State) : State :=
  let s := release s 1
  let groups := heldGroups s.core s.idx
  let record := hartRecord s.hart s.col groups.length
  let s := { s with hart := Hart.reset s.col, core := freeGroups s.core groups }
  match gangOf s s.cur with
  | some g => modGang s g.id fun g => { g with left := mapSet g.left s.cur record }
  | none => s

/-- The scheduler asked the hart to stop: PREEMPT was taken since its last resumption (19 R363), or it is pending, which
a RETT with YIELD satisfies (R358; log 72). -/
def mayYield (h : Hart) : Bool := h.preempted || ipPreempt h

/-- RETT in supervisor mode (11 R254, 19 R355). -/
def returnFromTrap (s : State) (word : IWord) : State :=
  let h := s.hart
  if tsYield h then
    if mayYield h then yieldHart s else takeTrap s (illegal word)
  else
    { s with hart := { retired h with
        mode := .user
        pc := h.tpc
        convoy := none
        stepping := tsStep h
        request := heldAnswer h
        held := none
        tstatus := putField (putField h.tstatus 11 1 0) 14 1 0 } }

/-- The BREAK after a single step (19 R355): the stepped instruction completed, or stopped at itself. -/
def singleStepBreak (s : State) : State :=
  if s.hart.stepping && s.hart.mode == .user then takeTrap s (plainTrap causeBreak 1) else s

/-! ## Outcomes of a meaning -/

/-- The instruction traps. -/
def raise (s : State) (t : TrapInfo) : Out := .next (takeTrap s t)

/-- The instruction completes in sequence. -/
def done (s : State) : Out := .next (complete s)

/-- Go on where the check passes, else trap. -/
def withCheck (s : State) (c : Option TrapInfo) (k : Out) : Out :=
  match c with
  | some t => raise s t
  | none => k

/-- A supervisor instruction is ILLEGAL in user mode (01 R38, 04 R89). -/
def supervisorOnly (s : State) (word : IWord) : Option TrapInfo :=
  if s.hart.mode = .user then some (illegal word) else none

end Sys2Proof.Machine
end

