-- ==== Sys2Proof/Machine/Access.lean ====
section
/-! DEFINITION. Accesses of the current hart: kinds an instruction allows, ranges over pages, blocks of bytes, poison,
responses of HOST and PEER (19 R355, R357; 24 R405), releases that wait for an invalidation (13 R295). -/
namespace Sys2Proof.Machine

/-! ## Kinds -/

/-- DRAM, CAP or VAULT. -/
def kindLocal (k : Nat) : Bool := decide (k ≤ kindVault)
/-- DRAM, CAP, VAULT or PEER. -/
def kindShared (k : Nat) : Bool := kindLocal k || k == kindPeer
/-- All but MMIO. -/
def kindMemory (k : Nat) : Bool := decide (k ≤ kindPeer)
/-- Every kind. -/
def kindAny (_ : Nat) : Bool := true

/-- The kind of the page of an address, where it translates. -/
def kindAt (s : State) (va : Word) : Option Nat :=
  match leafFor s va with
  | .leaf pte _ _ _ => some (pteKind pte)
  | _ => none

/-- Translate and check, and refuse the kinds that the instruction does not allow: ACCESS stands before MIGRATE
(02 R50). -/
def resolveKind (s : State) (va : Word) (acc : Access) (ok : Nat → Bool) : Except TrapInfo Phys :=
  match resolve s va acc with
  | .ok p => if ok (pteKind p.pte) then .ok p else .error (accessTrap causeAccess va acc)
  | .error t =>
    if t.cause = causeMigrate ∧ (kindAt s va).any (fun k => !ok k) then .error (accessTrap causeAccess va acc)
    else .error t

/-! ## HOST and PEER accesses that are performed within an instruction (24 R405, R408 to R410) -/

/-- What ends or holds back an access of an address: an error response, or a path that is down. -/
def remoteFault (s : State) (p : Phys) (va : Word) (acc : Access) : Option TrapInfo :=
  if !isHost p.pa && !isPeer p.pa then none
  else if pathLost s p.pa || Config.remoteError s.tick p.pa then some (accessTrap causeAccess va acc)
  else if !pathUp s p.pa then some (accessTrap causeWaits va acc)
  else none

/-! ## Ranges -/

/-- A range cut at page ends: the address and length of each part. -/
def pagesFrom : Nat → Word → Nat → List (Word × Nat)
  | 0, _, _ => []
  | fuel + 1, a, n =>
    if n = 0 then []
    else
      let k := min n (65536 - a.toNat % 65536)
      (a, k) :: pagesFrom fuel (a + BitVec.ofNat 64 k) (n - k)

def pagesOf (a : Word) (n : Nat) : List (Word × Nat) := pagesFrom (n / 65536 + 2) a n

/-- A part of a range that translates. -/
structure Span where
  va : Word
  phys : Phys
  len : Nat
  deriving DecidableEq, Repr

/-- Check every page of a range in ascending order; the first that fails gives the trap. -/
def resolvePages (s : State) (acc : Access) (ok : Nat → Bool) : List (Word × Nat) → Except TrapInfo (List Span)
  | [] => .ok []
  | (a, n) :: rest =>
    match resolveKind s a acc ok with
    | .error t => .error t
    | .ok p => match resolvePages s acc ok rest with
      | .error t => .error t
      | .ok ps => .ok (⟨a, p, n⟩ :: ps)

/-- The checks of a range; then a page whose accesses end in an error or must wait (24 R405, R408). -/
def resolveRange (s : State) (a : Word) (n : Nat) (acc : Access) (ok : Nat → Bool) : Except TrapInfo (List Span) :=
  match resolvePages s acc ok (pagesOf a n) with
  | .error t => .error t
  | .ok ps => match ps.findSome? (fun p => remoteFault s p.phys p.va acc) with
    | some t => .error t
    | none => .ok ps

/-- What translated accesses leave behind. -/
def touchSpans (s : State) (ps : List Span) (writes : Bool) : State := ps.foldl (fun s p => touch s p.phys writes) s

/-- The bytes of a range, as loads of the hart see them. -/
def spanBytes (s : State) (ps : List Span) : List Byte := ps.flatMap (fun p => readBytes s p.phys.pa p.len)

/-- The address of the lowest poisoned byte of a range. -/
def spanPoison (s : State) (ps : List Span) : Option Word :=
  ps.findSome? fun p =>
    ((List.range p.len).find? (fun i => readPoison s (p.phys.pa + i) 1)).map (fun i => p.va + BitVec.ofNat 64 i)

/-- The L1 takes the sectors that loads of n bytes from a physical address touch. -/
def touchSectors (s : State) (a n : Nat) : State :=
  if n = 0 then s
  else (List.range ((a + n - 1) / 128 - a / 128 + 1)).foldl (fun s i =>
    let b := max a ((a / 128 + i) * 128)
    loadTouch s b (min (a + n) ((a / 128 + i + 1) * 128) - b)) s

/-- The loads of a range leave the L1 filled. -/
def fillSpans (s : State) (ps : List Span) : State := ps.foldl (fun s p => touchSectors s p.phys.pa p.len) s

/-- Store bytes from a physical address upward, sector by sector. -/
def storeFrom : Nat → State → Nat → List Byte → State
  | 0, s, _, _ => s
  | fuel + 1, s, a, bytes =>
    if bytes.isEmpty then s
    else
      let k := 128 - a % 128
      storeFrom fuel (storeBytes s a (bytes.take k)) (a + k) (bytes.drop k)

def storeAt (s : State) (a : Nat) (bytes : List Byte) : State := storeFrom (bytes.length / 128 + 2) s a bytes

/-- Store the bytes of a range. -/
def storeSpans (s : State) (ps : List Span) (bytes : List Byte) : State :=
  (ps.foldl (fun (acc : State × List Byte) p =>
    (storeAt acc.1 p.phys.pa (acc.2.take p.len), acc.2.drop p.len)) (s, bytes)).1

/-- The pages of a range below the first that fails its checks. -/
def pagesBelow (s : State) (acc : Access) (ok : Nat → Bool) : List (Word × Nat) → List Span
  | [] => []
  | (a, n) :: rest =>
    match resolveKind s a acc ok with
    | .error _ => []
    | .ok p => ⟨a, p, n⟩ :: pagesBelow s acc ok rest

/-- The checks of a range that is read: every page's, and poison, whose check is the last at each address (02 R50). The
failure at the lowest address gives the trap (DEDUCED for poison below a page that fails, log 79). -/
def loadRange (s : State) (a : Word) (n : Nat) (ok : Nat → Bool) : Except TrapInfo (List Span) :=
  match resolveRange s a n .load ok with
  | .error t => match spanPoison s (pagesBelow s .load ok (pagesOf a n)) with
    | some va => .error (accessTrap causePoison va .load)
    | none => .error t
  | .ok ps => match spanPoison s ps with
    | some va => .error (accessTrap causePoison va .load)
    | none => .ok ps

/-- A load of a block: every check is made before the first byte moves. -/
def loadBlock (s : State) (a : Word) (n : Nat) (ok : Nat → Bool) (k : State → List Byte → Out) : Out :=
  match loadRange s a n ok with
  | .error t => raise s t
  | .ok ps => k (fillSpans (touchSpans s ps false) ps) (spanBytes s ps)

/-- A store of a block: every page is checked before the first byte moves. -/
def storeBlock (s : State) (a : Word) (bytes : List Byte) (ok : Nat → Bool) (k : State → Out) : Out :=
  match resolveRange s a bytes.length .store ok with
  | .error t => raise s t
  | .ok ps => k (storeSpans (touchSpans s ps true) ps bytes)

/-! ## Releases and responses -/

/-- A store of the hart to TLBI is not yet performed (13 R295). -/
def tlbiPending (s : State) : Bool := s.ms.tlbi.any (fun t => t.hart == s.cur)

/-- A store of the hart to the host or a peer waits for its path (24 R408). -/
def postedHeld (s : State) : Bool := (postedOf s s.cur).any (fun p => !pathUp s (p.1 * 128))

/-- What a release at a scope still waits for. -/
def releaseWaits (s : State) (scope : Nat) : Bool := tlbiPending s || (scope == 2 && postedHeld s)

/-- An instruction that releases waits until the hart's invalidations are complete (13 R295) and, at system scope, until
its stores can reach the host and the peers (09 R174); it then goes on from the state after the release. -/
def afterRelease (s : State) (i : Instr) (scope : Nat) (k : State → Out) : Out :=
  if releaseWaits s scope then .next (waitAt s i) else k (release s scope)

/-- A HOST or PEER access that needs an answer is sent (19 R355, R357). The caches may hold its translation, but its
entry is marked as used only where the access is performed, since a faulting access marks none (13 R292). -/
def sendRequest (s : State) (i : Instr) (p : Phys) (va : Word) (size : Nat) (update : Option AmoUpdate) : Out :=
  let s := cacheEntry s p p.pte
  let r : Request := ⟨s.hart.pc, s.hart.asid, va, p, size, update, none⟩
  .next (waitAt { s with hart := { s.hart with request := some r } } i)

/-- The instruction whose access was sent goes on: its response, or an error after the time-out (24 R405), completes it. -/
def followUp (s : State) (i : Instr) (q : Request) (k : State → List Byte → Out) : Out :=
  match q.answer with
  | none => .next (waitAt s i)
  | some none =>
    raise { s with hart := { s.hart with request := none } }
      (accessTrap causeAccess q.va (if q.update.isSome then .atomic else .load))
  | some (some bytes) => k { s with hart := { s.hart with request := none } } bytes

end Sys2Proof.Machine
end

