-- ==== Sys2Proof/Machine/Flags.lean ====
section
/-! DEFINITION. The floating-point flags (03 R64) and how a rounded result sets them. -/
namespace Sys2Proof.Machine

/-- Flags of FFLAGS: 5 NF, 4 NV, 3 DZ, 2 OF, 1 UF, 0 NX (01 R28). -/
abbrev FFlags := BitVec 6

def flagNX : FFlags := 1
def flagUF : FFlags := 2
def flagOF : FFlags := 4
def flagDZ : FFlags := 8
def flagNV : FFlags := 16
def flagNF : FFlags := 32

/-- A flag where its condition holds. -/
def flagIf (p : Bool) (f : FFlags) : FFlags := if p then f else 0

/-- Flags of a rounded finite result that does not overflow: UF where it is nonzero, below the smallest normal and
inexact, NX where it is inexact (03 R64). -/
def flagsRounded (subnormal inexact : Bool) : FFlags :=
  flagIf (subnormal && inexact) flagUF ||| flagIf inexact flagNX

/-- Flags of a result that overflows (03 R64, R67). -/
def flagsOverflow : FFlags := flagOF ||| flagNX

/-- Flags of a result flushed to zero (03 R65). -/
def flagsFlushed : FFlags := flagUF ||| flagNX

end Sys2Proof.Machine
end

