-- ==== Sys2Proof/Machine/Float.lean ====
section
/-! DEFINITION. Number formats and exact arithmetic (03 R51 to R72): values are decoded to exact ones, computed
exactly, and rounded once. -/
namespace Sys2Proof.Machine

/-! ## Formats -/

/-- A floating-point format (03 R52). -/
structure Fmt where
  width : Nat
  expBits : Nat
  manBits : Nat
  bias : Nat
  hasInf : Bool
  hasNan : Bool
  /-- Magnitude code of the largest finite value. -/
  maxCode : Nat
  nan : Nat
  /-- FTZ applies (R65). -/
  flush : Bool
  deriving DecidableEq, Repr

def fp32 : Fmt := ⟨32, 8, 23, 127, true, true, 0x7F7FFFFF, 0x7FC00000, true⟩
def fp16 : Fmt := ⟨16, 5, 10, 15, true, true, 0x7BFF, 0x7E00, true⟩
def bf16 : Fmt := ⟨16, 8, 7, 127, true, true, 0x7F7F, 0x7FC0, true⟩
def e5m2 : Fmt := ⟨8, 5, 2, 15, true, true, 0x7B, 0x7E, false⟩
def e4m3 : Fmt := ⟨8, 4, 3, 7, false, true, 0x7E, 0x7F, false⟩
def e2m1 : Fmt := ⟨4, 2, 1, 1, false, false, 0x7, 0, false⟩

/-- An element type: an integer or a floating-point format (03 R60). -/
inductive EType
  | int (w : Nat) | uint (w : Nat) | fp (f : Fmt)
  deriving DecidableEq, Repr

/-- Width in bits. -/
def EType.width : EType → Nat
  | .int w => w
  | .uint w => w
  | .fp f => f.width

/-- The type of a code, VTYPE bits 5:0; none where the pair is not legal (03 R59, R60). -/
def etypeOf (code : Nat) : Option EType :=
  let fmt := code / 8 % 8
  let sew := code % 8
  match fmt with
  | 0 => if sew < 5 then some (.int (4 * 2 ^ sew)) else none
  | 1 => if sew < 5 then some (.uint (4 * 2 ^ sew)) else none
  | 2 => match sew with
    | 0 => some (.fp e2m1)
    | 1 => some (.fp e4m3)
    | 2 => some (.fp fp16)
    | 3 => some (.fp fp32)
    | _ => none
  | 3 => match sew with
    | 1 => some (.fp e5m2)
    | 2 => some (.fp bf16)
    | _ => none
  | _ => none

/-! ## Exact values -/

/-- An exact value: (−1)^neg × m × 2^e, an infinity, or NaN. -/
inductive FVal
  | nan
  | inf (neg : Bool)
  | fin (neg : Bool) (m : Nat) (e : Int)
  deriving DecidableEq, Repr

/-- The value of a bit pattern (03 R52). -/
def decodeF (f : Fmt) (bits : Nat) : FVal :=
  let neg := bits / 2 ^ (f.width - 1) % 2 == 1
  let mag := bits % 2 ^ (f.width - 1)
  if f.hasNan && f.hasInf && mag / 2 ^ f.manBits == 2 ^ f.expBits - 1 then
    if mag % 2 ^ f.manBits == 0 then .inf neg else .nan
  else if f.hasNan && !f.hasInf && mag == 2 ^ (f.width - 1) - 1 then .nan
  else if mag / 2 ^ f.manBits == 0 then .fin neg mag (1 - (f.bias : Int) - f.manBits)
  else .fin neg (2 ^ f.manBits + mag % 2 ^ f.manBits) ((mag / 2 ^ f.manBits : Nat) - (f.bias : Int) - f.manBits)

/-- The pattern is a nonzero subnormal. -/
def isSubnormal (f : Fmt) (bits : Nat) : Bool :=
  let mag := bits % 2 ^ (f.width - 1)
  mag != 0 && decide (mag < 2 ^ f.manBits)

/-- The sign bit in place. -/
def signBits (f : Fmt) (neg : Bool) : Nat := if neg then 2 ^ (f.width - 1) else 0

/-- The pattern as it is read: under FTZ a subnormal of FP32, FP16 or BF16 is the zero of its sign (03 R65). -/
def flushIn (f : Fmt) (ftz : Bool) (bits : Nat) : Nat :=
  if ftz && f.flush && isSubnormal f bits then signBits f (bits / 2 ^ (f.width - 1) % 2 == 1) else bits

/-- An input as read (03 R65). -/
def readF (f : Fmt) (ftz : Bool) (bits : Nat) : FVal := decodeF f (flushIn f ftz bits)

def FVal.isNan : FVal → Bool
  | .nan => true
  | _ => false

def FVal.neg : FVal → Bool
  | .nan => false
  | .inf n => n
  | .fin n _ _ => n

def FVal.isZero : FVal → Bool
  | .fin _ 0 _ => true
  | _ => false

/-- The value with its sign inverted. -/
def fneg : FVal → FVal
  | .nan => .nan
  | .inf n => .inf (!n)
  | .fin n m e => .fin (!n) m e

/-- m × 2^e as an integer over 2^e' for e' ≤ e. -/
def scaleTo (m : Nat) (e e' : Int) : Nat := m <<< (e - e').toNat

/-- Compare two exact values, NaN excluded: −1, 0 or 1. −0 equals +0. -/
def fcmp : FVal → FVal → Int
  | .inf n, .inf n' => if n = n' then 0 else if n then -1 else 1
  | .inf n, _ => if n then -1 else 1
  | _, .inf n => if n then 1 else -1
  | .fin n m e, .fin n' m' e' =>
    let lo := min e e'
    let a : Int := scaleTo m e lo
    let b : Int := scaleTo m' e' lo
    let a := if n then -a else a
    let b := if n' then -b else b
    if a < b then -1 else if a = b then 0 else 1
  | _, _ => 0

/-- An exact sum with its NV (03 R66). `rdn` is the mode that makes an exact zero −0. -/
def fadd (rdn : Bool) : FVal → FVal → FVal × Bool
  | .nan, _ => (.nan, false)
  | _, .nan => (.nan, false)
  | .inf n, .inf n' => if n = n' then (.inf n, false) else (.nan, true)
  | .inf n, _ => (.inf n, false)
  | _, .inf n => (.inf n, false)
  | .fin n m e, .fin n' m' e' =>
    let lo := min e e'
    let a : Int := if n then -(scaleTo m e lo : Int) else scaleTo m e lo
    let b : Int := if n' then -(scaleTo m' e' lo : Int) else scaleTo m' e' lo
    let s := a + b
    if s = 0 then (.fin (if n = n' then n else rdn) 0 lo, false)
    else (.fin (decide (s < 0)) s.natAbs lo, false)

/-- An exact product with its NV. -/
def fmul : FVal → FVal → FVal × Bool
  | .nan, _ => (.nan, false)
  | _, .nan => (.nan, false)
  | .inf n, .inf n' => (.inf (n != n'), false)
  | .inf n, .fin n' m _ => if m = 0 then (.nan, true) else (.inf (n != n'), false)
  | .fin n m _, .inf n' => if m = 0 then (.nan, true) else (.inf (n != n'), false)
  | .fin n m e, .fin n' m' e' => (.fin (n != n') (m * m') (e + e'), false)

/-- A quotient of nonzero magnitudes with a sticky last bit. -/
def divMag (m : Nat) (e : Int) (m' : Nat) (e' : Int) : Nat × Int :=
  let k := 128 + Nat.log2 m' + 1
  let q := (m <<< k) / m'
  (2 * q + (if (m <<< k) % m' = 0 then 0 else 1), e - e' - k - 1)

/-- A quotient with its flags (07 R137). -/
def fdiv : FVal → FVal → FVal × FFlags
  | .nan, _ => (.nan, 0)
  | _, .nan => (.nan, 0)
  | .inf _, .inf _ => (.nan, flagNV)
  | .inf n, .fin n' _ _ => (.inf (n != n'), 0)
  | .fin n _ _, .inf n' => (.fin (n != n') 0 0, 0)
  | .fin n m e, .fin n' m' e' =>
    if m' = 0 then if m = 0 then (.nan, flagNV) else (.inf (n != n'), flagDZ)
    else if m = 0 then (.fin (n != n') 0 0, 0)
    else
      let q := divMag m e m' e'
      (.fin (n != n') q.1 q.2, 0)

/-- The same value with no trailing zero in its mantissa: an exact quotient has the bits of its shortest expansion (R62,
log 63). -/
def lowest : FVal → FVal
  | .fin n m e =>
    if m = 0 then .fin n m e
    else
      let k := Nat.log2 (m ^^^ (m - 1))
      .fin n (m >>> k) (e + k)
  | v => v

/-- Integer square root, bit by bit from bit `k`. -/
def isqrtFrom (n : Nat) : Nat → Nat → Nat
  | 0, r => if (r + 1) * (r + 1) ≤ n then r + 1 else r
  | k + 1, r => isqrtFrom n k (if (r + 2 ^ (k + 1)) * (r + 2 ^ (k + 1)) ≤ n then r + 2 ^ (k + 1) else r)

/-- The integer square root. -/
def isqrt (n : Nat) : Nat := isqrtFrom n (Nat.log2 n / 2 + 1) 0

/-- √(m × 2^e) with a sticky last bit, for m > 0. -/
def sqrtMag (m : Nat) (e : Int) : Nat × Int :=
  let odd := (e % 2).toNat
  let m := m <<< (odd + 160)
  let e := e - odd - 160
  let r := isqrt m
  (2 * r + (if r * r = m then 0 else 1), e / 2 - 1)

/-- A square root with its flags (07 R137). -/
def fsqrt : FVal → FVal × FFlags
  | .nan => (.nan, 0)
  | .inf n => if n then (.nan, flagNV) else (.inf false, 0)
  | .fin n m e =>
    if m = 0 then (.fin n 0 e, 0)
    else if n then (.nan, flagNV)
    else
      let r := sqrtMag m e
      (.fin false r.1 r.2, 0)

/-! ## Rounding (03 R61, R62) -/

/-- A rounding mode; SR carries its draw. -/
inductive Rnd
  | rne | rtz | rdn | rup | sr (draw : Nat)
  deriving DecidableEq, Repr

/-- FCTL.RM as a mode, for instructions that take SR as RNE (R61). -/
def rndOf (rm : Nat) : Rnd :=
  match rm with
  | 1 => .rtz
  | 2 => .rdn
  | 3 => .rup
  | _ => .rne

/-- Whether the magnitude rounds up, from the kept value and the `shift` discarded bits `rem` (R61, R62). The discarded
bits are those of the mantissa as it comes: a stored value's own, an exact product's in full, a quotient's shortest (DESIGN
CHOICE, log 63). -/
def roundsUp (r : Rnd) (neg : Bool) (kept rem shift : Nat) : Bool :=
  match r with
  | .rne => decide (2 ^ shift < 2 * rem) || (2 * rem == 2 ^ shift && kept % 2 == 1)
  | .rtz => false
  | .rdn => neg && rem != 0
  | .rup => !neg && rem != 0
  | .sr draw =>
    let n := min shift 24
    decide (2 ^ n ≤ rem >>> (shift - n) + draw % 2 ^ n)

/-- m × 2^e as a multiple of 2^q: the rounded multiple and whether it is inexact. -/
def roundAt (r : Rnd) (neg : Bool) (m : Nat) (e q : Int) : Nat × Bool :=
  if q ≤ e then (m <<< (e - q).toNat, false)
  else
    let shift := (q - e).toNat
    let kept := m >>> shift
    let rem := m % 2 ^ shift
    (if roundsUp r neg kept rem shift then kept + 1 else kept, rem != 0)

/-- The magnitude code of a rounded value, with the exponent unbounded above, and whether it is inexact. -/
def roundCode (f : Fmt) (r : Rnd) (neg : Bool) (m : Nat) (e : Int) : Nat × Bool :=
  if m = 0 then (0, false)
  else
    let qmin : Int := 1 - (f.bias : Int) - f.manBits
    let q := max (e + Nat.log2 m - f.manBits) qmin
    let x := roundAt r neg m e q
    ((q - qmin).toNat * 2 ^ f.manBits + x.1, x.2)

/-- A written value: its bits, its VSAT bit, its flags. -/
structure Written where
  bits : Nat
  sat : Bool
  flags : FFlags
  deriving DecidableEq, Repr

/-- Canonical NaN (03 R54); NF (R64). -/
def writtenNan (f : Fmt) : Written := ⟨f.nan, false, flagNF⟩

/-- The infinity of a format. -/
def infBits (f : Fmt) (neg : Bool) : Nat := signBits f neg + (f.maxCode + 1)

/-- Round(fmt, x, rm) of 02 R49 with FTZ (R65); the format has infinities. -/
def roundTo (f : Fmt) (r : Rnd) (ftz : Bool) : FVal → Written
  | .nan => writtenNan f
  | .inf n => ⟨infBits f n, false, flagNF⟩
  | .fin n m e =>
    let x := roundCode f r n m e
    if f.maxCode < x.1 then
      let toInf := match r with
        | .rtz => false
        | .rdn => n
        | .rup => !n
        | _ => true
      if toInf then ⟨infBits f n, false, flagsOverflow ||| flagNF⟩
      else ⟨signBits f n + f.maxCode, false, flagsOverflow⟩
    else
      let sub := x.1 != 0 && decide (x.1 < 2 ^ f.manBits)
      if ftz && f.flush && sub then ⟨signBits f n, false, flagsFlushed⟩
      else ⟨signBits f n + x.1, false, flagsRounded sub x.2⟩

/-- Saturate(D, x, rm) for a floating-point destination (03 R67). DEDUCED: an infinity into a format without NaN sets OF
and NX, as R67 and R57 say, and not the NV of R64's table (log 64). -/
def saturateF (f : Fmt) (r : Rnd) (ftz : Bool) : FVal → Written
  | .nan => if f.hasNan then writtenNan f else ⟨0, true, flagNV⟩
  | .inf n =>
    if f.hasInf then ⟨infBits f n, false, flagNF⟩
    else ⟨signBits f n + f.maxCode, true, flagsOverflow⟩
  | .fin n m e =>
    let x := roundCode f r n m e
    if f.maxCode < x.1 then ⟨signBits f n + f.maxCode, true, flagsOverflow⟩
    else
      let sub := x.1 != 0 && decide (x.1 < 2 ^ f.manBits)
      if ftz && f.flush && sub then ⟨signBits f n, false, flagsFlushed⟩
      else ⟨signBits f n + x.1, false, flagsRounded sub x.2⟩

/-- An integer clamped between two bounds, as w bits, and whether it clamped. -/
def clampInt (lo hi x : Int) (w : Nat) : Nat × Bool :=
  let y := if x < lo then lo else if hi < x then hi else x
  ((y % (2 ^ w : Nat)).toNat, x != y)

/-- The bounds of an integer type (03 R51). -/
def intLo (signed : Bool) (w : Nat) : Int := if signed then -(2 ^ (w - 1) : Nat) else 0
def intHi (signed : Bool) (w : Nat) : Int := if signed then (2 ^ (w - 1) : Nat) - 1 else (2 ^ w : Nat) - 1

/-- Saturate for an integer destination with the bounds `lo` and `hi` (03 R67, 07 R144, R146). -/
def saturateI (lo hi : Int) (w : Nat) (r : Rnd) : FVal → Written
  | .nan => ⟨0, true, flagNV⟩
  | .inf n => ⟨((if n then lo else hi) % (2 ^ w : Nat)).toNat, true, flagNV⟩
  | .fin n m e =>
    let x := roundAt r n m e 0
    let v : Int := if n then -(x.1 : Int) else x.1
    let c := clampInt lo hi v w
    if c.2 then ⟨c.1, true, flagNV⟩ else ⟨c.1, false, flagIf x.2 flagNX⟩

/-- Saturate to an element type. -/
def saturateTo (t : EType) (r : Rnd) (ftz : Bool) (x : FVal) : Written :=
  match t with
  | .fp f => saturateF f r ftz x
  | .int w => saturateI (intLo true w) (intHi true w) w r x
  | .uint w => saturateI (intLo false w) (intHi false w) w r x

/-- Two's complement value of w bits. -/
def toInt (w x : Nat) : Int := if x % 2 ^ w < 2 ^ (w - 1) then ((x % 2 ^ w : Nat) : Int) else (x % 2 ^ w : Nat) - (2 ^ w : Nat)

/-- The low w bits of an integer. -/
def ofInt (w : Nat) (x : Int) : Nat := (x % (2 ^ w : Nat)).toNat

/-- The exact value of an integer. -/
def fvalOfInt (x : Int) : FVal := .fin (decide (x < 0)) x.natAbs 0

/-- The exact value of an element of a type, as read (03 R65). -/
def valueOf (t : EType) (ftz : Bool) (bits : Nat) : FVal :=
  match t with
  | .int w => fvalOfInt (toInt w bits)
  | .uint w => .fin false (bits % 2 ^ w) 0
  | .fp f => readF f ftz bits

/-- The value of an E3M5 block scale, 0xFF excluded (03 R55). -/
def e3m5 (code : Nat) : FVal :=
  if code / 32 = 0 then .fin false (code % 32) (-7)
  else .fin false (32 + code % 32) ((code / 32 : Nat) - 8)

/-- A BF16 code is a band scale: positive, finite and normal (03 R56). -/
def bandScaleOk (b : Nat) : Bool := decide (b < 0x8000) && decide (0 < b / 128) && decide (b / 128 < 0xFF)

/-! ## FP32 operations that round by RNE and keep subnormals (10 R214, 14 R316) -/

def rne32 (x : FVal) : Written := roundTo fp32 .rne false x
def val32 (b : Nat) : FVal := decodeF fp32 b

/-- Round the exact sum of two FP32 words. -/
def add32 (a b : Nat) : Written :=
  let s := fadd false (val32 a) (val32 b)
  let w := rne32 s.1
  { w with flags := w.flags ||| flagIf s.2 flagNV }

/-- Round the exact product of two FP32 words. -/
def mul32 (a b : Nat) : Written :=
  let s := fmul (val32 a) (val32 b)
  let w := rne32 s.1
  { w with flags := w.flags ||| flagIf s.2 flagNV }

/-! ## Special functions (07 R142, R143), correctly rounded from 384-bit fixed point -/

/-- Fraction bits of the fixed-point working values. -/
def fixBits : Nat := 384

/-- 1.0 in fixed point. -/
def fixOne : Nat := 2 ^ fixBits

/-- z + z³/3 + z⁵/5 + … for z < 1/2 in fixed point. -/
def atanhSeries (zz : Nat) : Nat → Nat → Nat → Nat → Nat
  | 0, _, _, acc => acc
  | fuel + 1, k, p, acc => atanhSeries zz fuel (k + 2) (p * zz / fixOne) (acc + p / k)

/-- ln of a fixed-point value in [1, 2]. -/
def fixLn (x : Nat) : Nat :=
  let z := (x - fixOne) * fixOne / (x + fixOne)
  2 * atanhSeries (z * z / fixOne) 130 1 z 0

def fixLn2 : Nat := fixLn (2 * fixOne)

/-- 1 + y + y²/2 + … for y < 1 in fixed point. -/
def expSeries (y : Nat) : Nat → Nat → Nat → Nat → Nat
  | 0, _, _, acc => acc
  | fuel + 1, k, p, acc => expSeries y fuel (k + 1) (p * y / fixOne / k) (acc + p)

/-- 2^f for a fraction f in fixed point: in [1, 2). -/
def fixExp2 (f : Nat) : Nat := expSeries (f * fixLn2 / fixOne) 90 1 fixOne 0

/-- |m × 2^e| in fixed point, toward zero; e is bounded by the caller. -/
def toFix (m : Nat) (e : Int) : Nat :=
  let k := e + fixBits
  if 0 ≤ k then m <<< k.toNat else m >>> (-k).toNat

/-- m × 2^e ≥ 2^k. -/
def magGe (m : Nat) (e : Int) (k : Int) : Bool := m != 0 && decide (k ≤ e + Nat.log2 m)

/-- A magnitude with a sticky last bit, from fixed point scaled by 2^e. -/
def sticky (fix : Nat) (e : Int) (neg : Bool) : FVal := .fin neg (2 * fix + 1) (e - fixBits - 1)

/-- A positive value below every rounding boundary, and one just below 1. -/
def tiny : FVal := .fin false 1 (-4096)
def belowOne (neg : Bool) : FVal := sticky (fixOne - 1) 0 neg

/-- 2^x. -/
def exp2Val (neg : Bool) (m : Nat) (e : Int) : FVal :=
  if m = 0 then .fin false 1 0
  else if magGe m e 10 then (if neg then tiny else .fin false 1 4096)
  else
    let x := toFix m e
    let lost := decide (e + fixBits < 0) && toFix m e <<< (-(e + fixBits)).toNat != m
    if x % fixOne = 0 && !lost then
      .fin false 1 (if neg then -((x / fixOne : Nat) : Int) else (x / fixOne : Nat))
    else if neg then sticky (fixExp2 (fixOne - x % fixOne)) (-((x / fixOne : Nat) : Int) - 1) false
    else sticky (fixExp2 (x % fixOne)) (x / fixOne : Nat) false

/-- e^(−x) for x > 0 below 2^11, as a mantissa in [1, 2) and an exponent. -/
def expNeg (m : Nat) (e : Int) : Nat × Int :=
  let y := toFix m e * fixOne / fixLn2
  (fixExp2 (fixOne - y % fixOne), -((y / fixOne : Nat) : Int) - 1)

/-- log₂ x for x > 0. -/
def log2Val (m : Nat) (e : Int) : FVal :=
  let k := Nat.log2 m
  let n : Int := e + k
  if m = 2 ^ k then fvalOfInt n
  else
    let l := fixLn ((m <<< fixBits) >>> k) * fixOne / fixLn2
    if 0 ≤ n then sticky (n.toNat * fixOne + l) 0 false
    else sticky ((-n).toNat * fixOne - l - 1) 0 true

/-- 1/√x for x > 0. -/
def rsqVal (m : Nat) (e : Int) : FVal :=
  let odd := (e % 2).toNat
  let m := m <<< odd
  let e := e - odd
  let k := Nat.log2 m + 200
  let r := isqrt (2 ^ (2 * k) / m)
  .fin false (2 * r + (if r * r * m = 2 ^ (2 * k) then 0 else 1)) (-k - e / 2 - 1)

/-- tanh x for x ≠ 0. -/
def tanhVal (neg : Bool) (m : Nat) (e : Int) : FVal :=
  if !magGe m e (-64) then .fin neg (m * 2 ^ 96 - 1) (e - 96)
  else if magGe m e 8 then belowOne neg
  else
    let t := expNeg m (e + 1)
    let u := toFix t.1 (t.2 - fixBits)
    sticky ((fixOne - u) * fixOne / (fixOne + u)) 0 neg

/-- 1/(1 + e^(−x)) for x ≠ 0. -/
def sigmVal (neg : Bool) (m : Nat) (e : Int) : FVal :=
  if magGe m e 10 then (if neg then tiny else belowOne false)
  else if !magGe m e (-200) then
    (if neg then .fin false (2 ^ fixBits - 1) (-(fixBits : Int) - 1) else .fin false (2 ^ fixBits + 1) (-(fixBits : Int) - 1))
  else
    let t := expNeg m e
    let u := toFix t.1 (t.2 - fixBits)
    if neg then sticky (t.1 * fixOne / (fixOne + u)) t.2 false
    else sticky (fixOne * fixOne / (fixOne + u)) 0 false

/-- The special functions, in the order of funct8 (04 R85). -/
inductive Special
  | exp2 | log2 | rcp | rsq | tanh | sigm
  deriving DecidableEq, Repr

/-- The exact or sticky result with its NV and DZ (07 R143). -/
def specialVal (k : Special) (x : FVal) : FVal × FFlags :=
  match k, x with
  | _, .nan => (.nan, 0)
  | .exp2, .inf n => (if n then .fin false 0 0 else .inf false, 0)
  | .exp2, .fin n m e => (exp2Val n m e, 0)
  | .log2, .inf n => if n then (.nan, flagNV) else (.inf false, 0)
  | .log2, .fin n m e =>
    if m = 0 then (.inf true, flagDZ) else if n then (.nan, flagNV) else (log2Val m e, 0)
  | .rcp, .inf n => (.fin n 0 0, 0)
  | .rcp, .fin n m e => fdiv (.fin false 1 0) (.fin n m e)
  | .rsq, .inf n => if n then (.nan, flagNV) else (.fin false 0 0, 0)
  | .rsq, .fin n m e =>
    if m = 0 then (.inf n, flagDZ) else if n then (.nan, flagNV) else (rsqVal m e, 0)
  | .tanh, .inf n => (.fin n 1 0, 0)
  | .tanh, .fin n m e => if m = 0 then (.fin n 0 0, 0) else (tanhVal n m e, 0)
  | .sigm, .inf n => (if n then .fin false 0 0 else .fin false 1 0, 0)
  | .sigm, .fin n m e => if m = 0 then (.fin false 1 (-1), 0) else (sigmVal n m e, 0)

/-- A special function of an element (R142): RNE, subnormals kept. VFEXP2 that underflows to +0 sets UF as well
(R143). -/
def specialTo (f : Fmt) (k : Special) (bits : Nat) : Written :=
  let v := specialVal k (decodeF f bits)
  let w := roundTo f .rne false v.1
  let under := flagIf (k == .exp2 && w.bits == 0 && w.flags == flagNX) flagUF
  { w with flags := w.flags ||| v.2 ||| under }

/-! ## The generator (03 R72) -/

def mix (k c : BitVec 64) : BitVec 64 :=
  let z := c + k * 0x9C4F2E71B83AD5C7
  let z := z ^^^ (z >>> 31)
  let z := z * 0xB5E10D637A94C2F1
  let z := z ^^^ (z >>> 29)
  let z := z * 0xE7A35C194B8DF26B
  z ^^^ (z >>> 32)

end Sys2Proof.Machine
end

