-- ==== Sys2Proof/Machine/LoadStore.lean ====
section
/-! DEFINITION. Scalar loads and stores (05 R105 to R107), LDACQ, STREL and atomics (09 R171 to R174). -/
namespace Sys2Proof.Machine

/-- The hart's monitor follows its scalar loads (11 R243). -/
def armMonitor (s : State) (pa : Nat) : State :=
  { s with hart := { s.hart with monitor := some ⟨pa / 128, none⟩ } }

/-- An atomic came between a load and WAITADDR (11 R243). -/
def clearMonitor (s : State) : State := { s with hart := { s.hart with monitor := none } }

/-- The value read, sign-extended from n bytes, or zero-extended. -/
def signedValue (n : Nat) (bs : List Byte) : Word := BitVec.ofInt 64 (toInt (8 * n) (natOfBytes bs))
def unsignedValue (bs : List Byte) : Word := BitVec.ofNat 64 (natOfBytes bs)

/-! ## Reads and writes of n bytes -/

/-- The user mode of the current hart, for pages whose registers look at it. -/
def inUser (s : State) : Bool := s.hart.mode == .user

/-- An MMIO page takes no such access: another size than 8, or one that its registers refuse the mode (R107, 13 R294,
R297, R310). -/
def mmioRefuses (s : State) (pa n : Nat) (acc : Access) : Bool :=
  n != 8 || (if acc.writes then (mmioStore s s.cur (inUser s) pa 0).isNone else (mmioLoad s (inUser s) pa).isNone)

/-- Alignment, then the checks of `resolve`; the ACCESS of an MMIO page that refuses the access stands before MIGRATE (02
R50). -/
def resolveAligned (s : State) (va : Word) (n : Nat) (acc : Access) : Except TrapInfo Phys :=
  if va.toNat % n ≠ 0 then .error (accessTrap causeMisalign va acc)
  else match resolve s va acc with
    | .ok p => .ok p
    | .error t =>
      if t.cause = causeMigrate then
        match leafFor s va with
        | .leaf pte _ frame _ =>
          .error (if pteKind pte = kindMmio
            ∧ mmioRefuses s (physOf pte frame va) n acc then accessTrap causeAccess va acc else t)
        | _ => .error t
      else .error t

/-- A scalar read of n bytes at an address, by kind (05 R107): the continuation gets the bytes. -/
def scalarRead (i : Instr) (a : Word) (n : Nat) (s : State) (k : State → List Byte → Out) : Out :=
  match s.hart.request with
  | some q => followUp s i q fun t bs => k (armMonitor t q.addr) bs
  | none => match resolveAligned s a n .load with
    | .error t => raise s t
    | .ok p =>
      if pteKind p.pte = kindMmio then
        if n ≠ 8 then raise s (accessTrap causeAccess a .load)
        else match mmioLoad (touch s p false) (inUser s) p.pa with
          | none => raise s (accessTrap causeAccess a .load)
          | some (t, w) => k (armMonitor t p.pa) (bytesOfNat 8 w.toNat)
      else if !kindLocal (pteKind p.pte) then sendRequest s i p a n none
      else if readPoison s p.pa n then raise s (accessTrap causePoison a .load)
      else
        let t := touch s p false
        k (armMonitor (loadTouch t p.pa n) p.pa) (readBytes t p.pa n)

/-- A scalar write of bytes at an address, by kind; `before` is what precedes the write once the checks have passed. -/
def scalarWrite (a : Word) (bytes : List Byte) (before : State → (State → Out) → Out) (s : State) : Out :=
  match resolveAligned s a bytes.length .store with
  | .error t => raise s t
  | .ok p =>
    if pteKind p.pte = kindMmio then
      if bytes.length ≠ 8 then raise s (accessTrap causeAccess a .store)
      else match mmioStore s s.cur (inUser s) p.pa (unsignedValue bytes) with
        | none => raise s (accessTrap causeAccess a .store)
        | some _ => before s fun t =>
          match mmioStore (touch t p true) t.cur (inUser t) p.pa (unsignedValue bytes) with
          | none => raise s (accessTrap causeAccess a .store)
          | some u => done u
    else match remoteFault s p a .store with
      | some t => raise s t
      | none => before s fun t => done (storeTo (touch t p true) p bytes)

/-! ## Scalar loads and stores -/

/-- The address of a scalar access (R105). -/
def scalarAddress (s : State) (base : Reg) (off : BitVec 12) : Word := readG s base + off.signExtend 64

def loadScalar (i : Instr) (gd base : Reg) (off : BitVec 12) (n : Nat) (ext : List Byte → Word) (s : State) : Out :=
  scalarRead i (scalarAddress s base off) n s fun t bs => done (writeG t gd (ext bs))

def storeScalar (gs base : Reg) (off : BitVec 12) (n : Nat) (s : State) : Out :=
  scalarWrite (scalarAddress s base off) (bytesOfNat n (readG s gs).toNat) (fun t k => k t) s

def execLdb (gd base : Reg) (off : BitVec 12) (s : State) : Out :=
  loadScalar (.ldb gd base off) gd base off 1 (signedValue 1) s
def execLdbu (gd base : Reg) (off : BitVec 12) (s : State) : Out :=
  loadScalar (.ldbu gd base off) gd base off 1 unsignedValue s
def execLdh (gd base : Reg) (off : BitVec 12) (s : State) : Out :=
  loadScalar (.ldh gd base off) gd base off 2 (signedValue 2) s
def execLdhu (gd base : Reg) (off : BitVec 12) (s : State) : Out :=
  loadScalar (.ldhu gd base off) gd base off 2 unsignedValue s
def execLdw (gd base : Reg) (off : BitVec 12) (s : State) : Out :=
  loadScalar (.ldw gd base off) gd base off 4 (signedValue 4) s
def execLdwu (gd base : Reg) (off : BitVec 12) (s : State) : Out :=
  loadScalar (.ldwu gd base off) gd base off 4 unsignedValue s
def execLdd (gd base : Reg) (off : BitVec 12) (s : State) : Out :=
  loadScalar (.ldd gd base off) gd base off 8 unsignedValue s

def execStb (gs base : Reg) (off : BitVec 12) (s : State) : Out := storeScalar gs base off 1 s
def execSth (gs base : Reg) (off : BitVec 12) (s : State) : Out := storeScalar gs base off 2 s
def execStw (gs base : Reg) (off : BitVec 12) (s : State) : Out := storeScalar gs base off 4 s
def execStd (gs base : Reg) (off : BitVec 12) (s : State) : Out := storeScalar gs base off 8 s

/-! ## LDACQ and STREL (R171, R172, R174) -/

/-- Bytes of a width code (04 R82). -/
def amoBytes (width : BitVec 2) : Nat := if width = 2 then 4 else 8

def execLdacq (gd base : Reg) (scope width : BitVec 2) (s : State) : Out :=
  let n := amoBytes width
  scalarRead (.ldacq gd base scope width) (readG s base) n s fun t bs =>
    done (acquire (writeG t gd (signedValue n bs)) scope.toNat)

def execStrel (base gs : Reg) (scope width : BitVec 2) (s : State) : Out :=
  let i := Instr.strel base gs scope width
  scalarWrite (readG s base) (bytesOfNat (amoBytes width) (readG s gs).toNat)
    (fun t k => afterRelease t i scope.toNat k) s

/-! ## Atomics (R173, R174) -/

/-- What an atomic writes, on w-bit values; none where AMOCAS finds no match. -/
def amoNew (u : AmoUpdate) (w old : Nat) : Option Nat :=
  let v := u.operand.toNat % 2 ^ w
  match u.op with
  | 2 => some ((old + v) % 2 ^ w)
  | 3 => some v
  | 4 => if old = u.cmp.toNat % 2 ^ w then some v else none
  | 5 => some (if toInt w v < toInt w old then v else old)
  | 6 => some (if toInt w old < toInt w v then v else old)
  | 7 => some (min old v)
  | 8 => some (max old v)
  | 9 => some (old ||| v)
  | _ => some (old &&& v)

/-- One indivisible step at the home or bank: the old bytes, and the state with the new ones. -/
def atomicStep (s : State) (pa n : Nat) (u : AmoUpdate) : State × List Byte :=
  let r := atomicRead s pa n
  match amoNew u (8 * n) (natOfBytes r.2) with
  | some x => (atomicWrite r.1 pa (bytesOfNat n x), r.2)
  | none => r

/-- Orders that release, and orders that acquire (04 R82). -/
def releases (order : BitVec 2) : Bool := order.getLsbD 1
def acquires (order : BitVec 2) : Bool := order.getLsbD 0

/-- An atomic: checks, release, the step, the old value in g[gd], acquire. Its page is marked as written also where an
AMOCAS finds no match (DESIGN CHOICE, log 80). -/
def atomic (i : Instr) (op : Nat) (x : Amo) (s : State) : Out :=
  let n := amoBytes x.width
  let a := readG s x.base
  let u : AmoUpdate := ⟨op, readG s x.gd, readG s x.gs⟩
  let released (t : State) (k : State → Out) : Out :=
    if releases x.order then afterRelease t i x.scope.toNat k else k t
  let finish (t : State) (old : List Byte) : Out :=
    let t := writeG (clearMonitor t) x.gd (signedValue n old)
    done (if acquires x.order then acquire t x.scope.toNat else t)
  match s.hart.request with
  | some q => followUp s i q finish
  | none =>
    if a.toNat % n ≠ 0 then raise s (accessTrap causeMisalign a .atomic)
    else match resolveKind s a .atomic kindShared with
      | .error t => raise s t
      | .ok p =>
        if pteKind p.pte = kindPeer then released s fun t => sendRequest t i p a n (some u)
        else if atomicPoison s p.pa n then raise s (accessTrap causePoison a .atomic)
        else released s fun t =>
          let r := atomicStep (touch t p true) p.pa n u
          finish r.1 r.2

def execAmoadd (x : Amo) (s : State) : Out := atomic (.amoadd x) 2 x s
def execAmoswap (x : Amo) (s : State) : Out := atomic (.amoswap x) 3 x s
def execAmocas (x : Amo) (s : State) : Out := atomic (.amocas x) 4 x s
def execAmomin (x : Amo) (s : State) : Out := atomic (.amomin x) 5 x s
def execAmomax (x : Amo) (s : State) : Out := atomic (.amomax x) 6 x s
def execAmominu (x : Amo) (s : State) : Out := atomic (.amominu x) 7 x s
def execAmomaxu (x : Amo) (s : State) : Out := atomic (.amomaxu x) 8 x s
def execAmoor (x : Amo) (s : State) : Out := atomic (.amoor x) 9 x s
def execAmoand (x : Amo) (s : State) : Out := atomic (.amoand x) 10 x s

/-- The access of a request as it is performed at the host or the peer, its entry marked as used before: the bytes it
read. -/
def performRequest (s : State) (r : Request) : State × List Byte :=
  let s := markUsed s r.phys r.update.isSome
  match r.update with
  | none => (s, (List.range r.size).map (fun i => settledByte s (r.addr + i)))
  | some u => atomicStep s r.addr r.size u

end Sys2Proof.Machine
end

