-- ==== Sys2Proof/Machine/Operands.lean ====
section
/-! DEFINITION. Vector operands: VTYPE, lengths and grants (01 R19), elements and masks (01 R11, R12), block scales
(03 R57, R58), the checks of 04 R90, convoys (04 R92, R93), and the element loop with its stops, flags and policies
(02 R50, 06 R125 to R128). -/
namespace Sys2Proof.Machine

/-! ## VTYPE and lengths -/

def vtIll (h : Hart) : Bool := h.vtype.getLsbD 15
def vtMZ (h : Hart) : Bool := h.vtype.getLsbD 9
def vtTZ (h : Hart) : Bool := h.vtype.getLsbD 8
/-- G; 1 while VTYPE is illegal (01 R20, 09 R184). -/
def groupOf (h : Hart) : Nat := if vtIll h then 1 else 2 ^ (h.vtype.extractLsb' 6 2).toNat
/-- The element type; none while VTYPE is illegal. -/
def etype? (h : Hart) : Option EType := if vtIll h then none else etypeOf (h.vtype.extractLsb' 0 6).toNat

/-- Lane groups held by the current hart. -/
def heldCount (s : State) : Nat := (heldGroups s.core s.idx).length

/-- VLMAX for a declaration and a number of groups (01 R19). -/
def vlmaxFor (groups count maxsew : Nat) : Nat := groups * 262144 / count / maxsew

/-- VLMAX at the current grant. -/
def vlmax (s : State) : Nat := vlmaxFor (heldCount s) s.hart.count s.hart.maxsew
/-- VLMAX_g. -/
def vlmaxG (s : State) : Nat := groupOf s.hart * vlmax s
/-- VR × VL. -/
def tileSize (s : State) : Nat := s.hart.vr * s.hart.vl

/-- Elements of an element group: held_groups × 8 × 128 ÷ w (06 R127). -/
def groupElems (s : State) (w : Nat) : Nat := heldCount s * 1024 / w

def rmOf (h : Hart) : Nat := (h.fctl.extractLsb' 0 3).toNat
def ftzOf (h : Hart) : Bool := h.fctl.getLsbD 3
/-- The rounding mode of an instruction that takes SR as RNE (03 R61). -/
def rndMode (h : Hart) : Rnd := rndOf (rmOf h)
/-- The rounding mode of an instruction that honours SR, with the draw of element e (03 R62). -/
def rndModeSR (h : Hart) (e : Nat) : Rnd :=
  if rmOf h = 4 then .sr ((mix h.rngkey (h.rngctr + BitVec.ofNat 64 e)).toNat % 2 ^ 32) else rndOf (rmOf h)

/-! ## Elements of registers -/

/-- The bits of one position of an image as an element of width w (09 R181, log 10). -/
def imageElem (maxsew w : Nat) (raw : BitVec 64) : Nat :=
  if w = maxsew then raw.toNat % 2 ^ w
  else ((Config.arrange maxsew w).symm (raw.setWidth maxsew)).toNat % 2 ^ w

/-- The bits of one position of an image that holds an element of width w; bits beside the element are unspecified. An
element as wide as the position lies in it as it is (DEDUCED from the worked image of 09 R184, log 10). -/
def elemImage (maxsew w : Nat) (x : Nat) (junk : Word) : BitVec 64 :=
  if w = maxsew then BitVec.ofNat 64 (x % 2 ^ w)
  else ((Config.arrange maxsew w) (BitVec.ofNat maxsew (x % 2 ^ w + 2 ^ w * junk.toNat))).setWidth 64

/-- The layouts of a register with their positions. -/
def VReg.parts (r : VReg) : List (RegTag × Map (BitVec 64)) := (r.tag, r.data) :: r.rest

/-- The positions under one layout as elements of width w (01 R11). -/
def partElems (mark : Bool) (maxsew w : Nat) (p : RegTag × Map (BitVec 64)) : Map (BitVec 64) :=
  match p.1 with
  | .elems w' => if w' = w then p.2 else []
  | .image => if mark then [] else p.2.map (fun q => (q.1, BitVec.ofNat 64 (imageElem maxsew w q.2)))
  | _ => []

/-- One position under one layout as an element of width w, where it is defined. -/
def partElem (mark : Bool) (maxsew w pos : Nat) (p : RegTag × Map (BitVec 64)) : Option Nat :=
  match p.1 with
  | .elems w' => if w' = w then (mapGet? p.2 pos).map (·.toNat) else none
  | .image => if mark then none else (mapGet? p.2 pos).map (imageElem maxsew w)
  | _ => none

/-- A position of a register as an element of width w, where it is defined (01 R11). -/
def posElem (r : VReg) (maxsew w pos : Nat) : Option Nat := r.parts.findSome? (partElem r.mark maxsew w pos)

/-- Elem(v, e) at width w where it is defined: element e of a register or group lies in register v + e div VLMAX. -/
def elem? (s : State) (v w e : Nat) : Option Nat :=
  posElem (s.hart.v.getD (v + e / vlmax s) VReg.reset) s.hart.maxsew w (e % vlmax s)

/-- Elem(v, e) at width w; undefined data is a free value of the operand place `slot` (01 R11). -/
def elem (s : State) (slot v w e : Nat) : Nat := (elem? s v w e).getD ((freeWord s slot e).toNat % 2 ^ w)

/-- A mask bit of a register where it is defined (01 R12, 08 R151). -/
def maskBit? (s : State) (v e : Nat) : Option Bool :=
  let r := s.hart.v.getD v VReg.reset
  match r.tag with
  | .bits => (mapGet? r.data e).map (· != 0)
  | .image =>
    if r.mark then (mapGet? r.data (e % vlmax s)).map fun raw =>
      ((Config.arrange s.hart.maxsew 0).symm (raw.setWidth s.hart.maxsew)).getLsbD (e / vlmax s)
    else none
  | _ => none

/-- A mask bit; an undefined one is a free value. -/
def maskBit (s : State) (slot v e : Nat) : Bool := (maskBit? s v e).getD (freeBit s slot e)

/-- Active(e) (02 R49). -/
def active (s : State) (m : Bool) (e : Nat) : Bool := !m || maskBit s 0 0 e

/-- The data of a register about to be written at width w: what it held at another width is undefined (01 R11). -/
def dataAt (r : VReg) (maxsew w : Nat) : Map (BitVec 64) :=
  r.rest.foldl (fun m p => (partElems r.mark maxsew w p).foldl (fun m q =>
      if (mapGet? m q.1).isSome then m else mapSet m q.1 q.2) m)
    (partElems r.mark maxsew w (r.tag, r.data))

/-- Write one element of a register. -/
def putPos (r : VReg) (maxsew w pos x : Nat) : VReg :=
  { tag := .elems w, mark := false, data := mapSet (dataAt r maxsew w) pos (BitVec.ofNat 64 (x % 2 ^ w)), rest := []
    bad := r.bad.filter (· != pos) }

/-- SetElem(v, e, x) without the dirty bits. -/
def putElem (regs : Vector VReg 32) (vlm maxsew v w : Nat) (p : Nat × Nat) : Vector VReg 32 :=
  let r := v + p.1 / vlm
  regs.setIfInBounds r (putPos (regs.getD r VReg.reset) maxsew w (p.1 % vlm) p.2)

/-- Bits of registers, for VDIRTY. -/
def regBits (rs : List Nat) : BitVec 32 := rs.foldl (fun b r => b ||| BitVec.ofNat 32 (2 ^ r)) 0

/-- Registers were written: VDIRTY and VSTATE (01 R31). -/
def markDirty (rs : List Nat) (h : Hart) : Hart :=
  if rs.isEmpty then h else { h with vdirty := h.vdirty ||| regBits rs, vstate := 2 }

/-- The vector registers as a whole. -/
def setV (h : Hart) (regs : Vector VReg 32) : Hart := { h with v := regs }

/-- SetElem for a list of elements (02 R49). -/
def writeElems (s : State) (v w : Nat) (ups : List (Nat × Nat)) : State :=
  let vlm := vlmax s
  let regs := ups.foldl (fun regs p => putElem regs vlm s.hart.maxsew v w p) s.hart.v
  { s with hart := markDirty (ups.map (fun p => v + p.1 / vlm)) (setV s.hart regs) }

/-- The mask bits of a register about to be written as a mask. -/
def bitsAt (s : State) (v : Nat) : Map (BitVec 64) :=
  let r := s.hart.v.getD v VReg.reset
  match r.tag with
  | .bits => r.data
  | .image =>
    if r.mark then
      (List.range (8 * vlmax s)).filterMap (fun e => (maskBit? s v e).map (fun b => (e, if b then (1 : BitVec 64) else 0)))
    else []
  | _ => []

/-- Write mask bits of a register; it carries the mask mark (08 R151). -/
def writeBits (s : State) (v : Nat) (ups : List (Nat × Bool)) : State :=
  if ups.isEmpty then s
  else
    let data := ups.foldl (fun m p => mapSet m p.1 (if p.2 then (1 : BitVec 64) else 0)) (bitsAt s v)
    let bad := (s.hart.v.getD v VReg.reset).bad.filter (fun p => ups.all (fun u => u.1 % vlmax s != p))
    { s with hart := markDirty [v] (setV s.hart (s.hart.v.setIfInBounds v ⟨.bits, true, data, [], bad⟩)) }

/-- VSAT bits are written (03 R68). -/
def writeSat (s : State) (ups : List (Nat × Bool)) : State :=
  if ups.isEmpty then s
  else { s with hart := { s.hart with vsat := ups.foldl (fun m p => mapSet m p.1 p.2) s.hart.vsat, vstate := 2 } }

/-- A VSAT bit; an undefined one is a free value (01 R14). -/
def satBit (s : State) (e : Nat) : Bool := (mapGet? s.hart.vsat e).getD (freeBit s 1000 e)

/-- Flags are sticky (03 R64). -/
def raiseFlags (s : State) (f : FFlags) : State := { s with hart := { s.hart with fflags := s.hart.fflags ||| f } }

/-- VSTART := x; a change sets VSTATE to DIRTY (01 R31). -/
def setVstart (x : Nat) (h : Hart) : Hart :=
  if h.vstart.toNat = x then h else { h with vstart := BitVec.ofNat 32 x, vstate := 2 }

/-- A vector instruction completes: VSTART := 0 (01 R7). -/
def finishV (s : State) : State := complete { s with hart := setVstart 0 s.hart }

/-! ## Block scales (03 R57, R58) -/

/-- The tile fits the limits of R57. -/
def scaleLimits (s : State) : Bool :=
  decide (s.hart.vr ≤ 64) && decide (s.hart.vr * ((s.hart.vl + 7) / 8) ≤ vlmax s)

/-- The index in v1 of the scale of element e. -/
def scaleIndex (s : State) (e : Nat) : Nat := e / s.hart.vl * ((s.hart.vl + 7) / 8) + e % s.hart.vl / 8

/-- Block scale code of element e. -/
def scaleCode (s : State) (e : Nat) : Nat := elem s 1001 1 8 (scaleIndex s e)

/-- The FORMAT trap of an active element's scales (R58). Where both cases hold at one element the band scale is reported
(DESIGN CHOICE, log 81). -/
def scaleTrap (s : State) (e : Nat) : Option TrapInfo :=
  if !bandScaleOk s.hart.vbscale.toNat then some (plainTrap causeFormat (s.hart.vbscale.setWidth 64))
  else if scaleCode s e = 0xFF then some (plainTrap causeFormat (BitVec.ofNat 64 (scaleIndex s e)))
  else none

/-- blockscale × bandscale of element e, exactly. -/
def scaleValue (s : State) (e : Nat) : FVal :=
  (fmul (e3m5 (scaleCode s e)) (decodeF bf16 s.hart.vbscale.toNat)).1

/-- A value written as E2M1 under scales that the instruction does not compute (R57, 07 R144). -/
def saturateScaled (s : State) (e : Nat) (r : Rnd) (ftz : Bool) (x : FVal) : Written :=
  if scaleCode s e = 0 then
    match x with
    | .nan => ⟨0, true, flagNV⟩
    | .inf _ => ⟨0, true, flagsOverflow⟩
    | .fin _ m _ => if m = 0 then ⟨0, false, 0⟩ else ⟨0, true, flagsOverflow⟩
  else saturateF e2m1 r ftz (lowest (fdiv x (scaleValue s e)).1)

/-- The type is the scaled format. -/
def isScaled (t : EType) : Bool := t == .fp e2m1

/-- The exact value of an element as an operand: a scaled E2M1 element under its scales (R57). -/
def operandValue (s : State) (t : EType) (ftz : Bool) (bits e : Nat) : FVal :=
  if isScaled t then (fmul (decodeF e2m1 bits) (scaleValue s e)).1 else valueOf t ftz bits

/-! ## The checks of 04 R90, steps 3 to 7 -/

/-- What a vector instruction names and needs. Grouped operands move with G; single ones are masks and images. -/
structure VReq where
  word : IWord
  cls : Option PipeClass
  c : Bool
  groupReads : List Nat
  singleReads : List Nat
  groupWrites : List Nat
  singleWrites : List Nat
  /-- Reads v0 as its mask. -/
  masked : Bool
  /-- Reads v1 for block scales. -/
  scales : Bool
  /-- Writes v1 besides its destination (07 R146). -/
  writesScales : Bool
  /-- A register overlap that the instruction forbids. -/
  clash : Bool
  /-- The accepted types; none where VTYPE is not read. -/
  accept : Option (EType → Bool)
  /-- A further condition on VTYPE and the tile (03 R57, 07 R145). -/
  typeOk : Bool
  array : Bool
  /-- VOFF applies (01 R31, 11 R227). -/
  needsVector : Bool
  /-- The accumulator words it reads, by physical row × 384 + column. -/
  accs : List Nat
  /-- It goes element by element from VSTART, and meets an uncorrectable granule at the element that reads it. -/
  steps : Bool
  /-- The elements it reads otherwise, by register or group and index; none where these are those of the whole tile. -/
  needs : Option (List (Nat × Nat))

/-- A vector instruction that names nothing yet. -/
def vreq (word : IWord) (cls : PipeClass) (c : Bool) : VReq :=
  { word := word, cls := some cls, c := c, groupReads := [], singleReads := [], groupWrites := [], singleWrites := []
    masked := false, scales := false, writesScales := false, clash := false, accept := some (fun _ => true)
    typeOk := true, array := false, needsVector := true, accs := []
    steps := cls == .fma || cls == .alu || cls == .load || cls == .store, needs := none }

/-- The registers of a grouped operand. -/
def groupRegs (s : State) (v : Nat) : List Nat := (List.range (groupOf s.hart)).map (v + ·)

/-- Two lists of registers share one. -/
def shares (a b : List Nat) : Bool := a.any (fun r => b.contains r)

/-- Two grouped operands share a register. -/
def groupClash (s : State) (a b : Reg) : Bool := shares (groupRegs s a.toNat) (groupRegs s b.toNat)

/-- Every register an instruction reads, implicit ones included (04 R93). -/
def readsOf (s : State) (q : VReq) : List Nat :=
  q.groupReads.flatMap (groupRegs s) ++ q.singleReads ++ (if q.masked then [0] else []) ++ (if q.scales then [1] else [])

/-- Every register an instruction writes. -/
def writesOf (s : State) (q : VReq) : List Nat :=
  q.groupWrites.flatMap (groupRegs s) ++ q.singleWrites ++ (if q.writesScales then [1] else [])

/-- Step 5: the state-dependent ILLEGAL checks (R10, R90, R419). -/
def illegalState (s : State) (q : VReq) : Bool :=
  (q.groupReads ++ q.groupWrites).any (fun r => r % groupOf s.hart != 0 || decide (s.hart.count < r + groupOf s.hart))
  || (q.singleReads ++ q.singleWrites).any (fun r => decide (s.hart.count ≤ r))
  || (q.masked && (q.groupWrites.flatMap (groupRegs s)).contains 0)
  || q.clash

/-- Step 6: VTYPE (03 R60, 01 R19). -/
def vtypeBad (s : State) (q : VReq) : Bool :=
  match q.accept with
  | none => false
  | some f =>
    match etype? s.hart with
    | none => true
    | some t => !f t || decide (s.hart.maxsew < t.width) || !q.typeOk

/-- The instruction joins the open convoy (04 R92). -/
def joins (s : State) (q : VReq) : Option Convoy := if q.c then none else s.hart.convoy

/-- Step 7: CONVOY (04 R93). -/
def convoyBad (s : State) (q : VReq) : Bool :=
  match q.cls, joins s q with
  | some k, some v => v.classes.contains k || shares (writesOf s q) v.writes || shares (readsOf s q) v.late
  | _, _ => false

/-! ## Uncorrectable granules (24 R415) -/

/-- The granule of element e of an operand is uncorrectable; of mask bit e of a register. -/
def badElem (s : State) (v e : Nat) : Bool := (s.hart.v.getD (v + e / vlmax s) VReg.reset).bad.contains (e % vlmax s)
def badBit (s : State) (v e : Nat) : Bool := (s.hart.v.getD v VReg.reset).bad.contains (e % vlmax s)

/-- A register that the instruction reads holds an uncorrectable granule. -/
def anyBad (s : State) (q : VReq) : Bool := (readsOf s q).any (fun r => !(s.hart.v.getD r VReg.reset).bad.isEmpty)

/-- What the instruction reads for element e has an uncorrectable granule. -/
def granuleBad (s : State) (q : VReq) (e : Nat) : Bool :=
  (q.masked && badBit s 0 e)
  || (active s q.masked e && (q.groupReads.any (fun v => badElem s v e) || q.singleReads.any (fun v => badBit s v e)
    || (q.scales && badElem s 1 (scaleIndex s e))))

/-- The first element from VSTART whose granules are uncorrectable. -/
def firstBad (s : State) (q : VReq) : Option Nat :=
  if anyBad s q then ((List.range (tileSize s - s.hart.vstart.toNat)).map (s.hart.vstart.toNat + ·)).find? (granuleBad s q)
  else none

/-- Where a run over elements meets an uncorrectable granule; past the tile where there is none. -/
def badPoint (s : State) (q : VReq) : Nat := (firstBad s q).getD (tileSize s)

/-- The POISON trap of element e, TVAL 0. -/
def badFault (s : State) (q : VReq) (e : Nat) : Option TrapInfo :=
  if firstBad s q = some e then some (plainTrap causePoison 0) else none

/-- An uncorrectable granule stops the instruction before it has any effect: at the element at VSTART, or, where it does
not go element by element, anywhere in what it reads (log 58). -/
def poisonedStart (s : State) (q : VReq) : Bool :=
  (tileSize s != 0 && q.accs.any (fun k => s.core.accBad.contains k))
  || match q.needs with
    | some l => l.any (fun p => badElem s p.1 p.2)
    | none =>
      if q.steps then firstBad s q == some s.hart.vstart.toNat
      else anyBad s q && (List.range (tileSize s)).any (granuleBad s q)

/-- The elements that an instruction reads, by register or group and index; none where VSTART is past the tile (01 R7).
Mask bit e of register v lies in its position e mod VLMAX. -/
def needed (s : State) (l : List (Nat × Nat)) : Option (List (Nat × Nat)) :=
  some (if tileSize s ≤ s.hart.vstart.toNat then [] else l)
def maskAt (s : State) (v e : Nat) : Nat × Nat := (v, e % vlmax s)
/-- The mask bits of v0 of the tile, where the instruction is masked. -/
def maskNeeds (s : State) (m : Bool) : List (Nat × Nat) := if m then (List.range (tileSize s)).map (maskAt s 0) else []
/-- The active indices of the tile. -/
def activeTile (s : State) (m : Bool) : List Nat := (List.range (tileSize s)).filter (active s m)

/-- Steps 3 to 7 of R90: the first that holds; then an uncorrectable granule that the instruction meets at once (24
R415). -/
def checkVector (s : State) (q : VReq) : Option TrapInfo :=
  if q.needsVector && s.hart.vstate == 0 then some (plainTrap causeVoff (q.word.setWidth 64))
  else if q.array && !s.hart.mstateen then some (plainTrap causeMoff (q.word.setWidth 64))
  else if illegalState s q then some (illegal q.word)
  else if vtypeBad s q then some (plainTrap causeVtype (s.hart.vtype.setWidth 64))
  else if convoyBad s q then some (plainTrap causeConvoy (q.word.setWidth 64))
  else if poisonedStart s q then some (plainTrap causePoison 0)
  else none

/-- The classes whose results may not be read in the same convoy (R93). -/
def isLate : PipeClass → Bool
  | .perm => true
  | .mtx => true
  | .eng => true
  | _ => false

/-- The instruction is in the hart's convoy, an open one or a new one (R92). -/
def joinConvoy (s : State) (q : VReq) : State :=
  match q.cls with
  | none => s
  | some k =>
    let old := (joins s q).getD ⟨[], [], []⟩
    let ws := writesOf s q
    { s with hart := { s.hart with
        convoy := some ⟨k :: old.classes, ws ++ old.writes, if isLate k then ws ++ old.late else old.late⟩ } }

/-- The current element type; checked before by `checkVector`. Only the overlap check of a conversion, which stands before
it (04 R90, 07 R145), asks under an illegal VTYPE: the width is then 8 (DESIGN CHOICE, log 65). -/
def etypeD (s : State) : EType := (etype? s.hart).getD (.uint 8)
/-- SEW. -/
def sew (s : State) : Nat := (etypeD s).width

/-! ## The element loop (02 R50) -/

/-- What is kept of the instruction at the PC, which goes on from where it stopped. -/
def partRun? (h : Hart) : Option PartRun :=
  if h.vstart = 0 then none else h.partRuns.find? (fun p => p.pc == h.pc && p.vstart == h.vstart.toNat)

/-- A generating instruction goes on after its generators were reloaded: what its elements give is undefined (03 R74). -/
def drawsUndefined (s : State) : Bool := (partRun? s.hart).any (·.reloaded)

/-- What one active element gives: a value with its flags and, for a saturating instruction, its VSAT bit; nothing; or
a trap at it. -/
inductive ElemRes
  | write (x : Nat) (flags : FFlags) (sat : Option Bool)
  | skip
  | trap (t : TrapInfo)
  deriving DecidableEq, Repr

/-- A written value as the result of a saturating instruction, and of one that is not. -/
def satRes (w : Written) : ElemRes := .write w.bits w.flags (some w.sat)
def valRes (w : Written) : ElemRes := .write w.bits w.flags none

/-- The result of an element that draws, on w bits: a free value where R74 leaves it undefined, with a free VSAT bit; its
flags are those of the draw from the new state (log 66). -/
def drawnRes (s : State) (w e : Nat) (r : ElemRes) : ElemRes :=
  match r with
  | .write _ fl sat =>
    if drawsUndefined s then .write ((freeWord s 7 e).toNat % 2 ^ w) fl (sat.map (fun _ => freeBit s 7 e)) else r
  | _ => r

/-- What a run over elements gathered. -/
structure Gathered where
  ups : List (Nat × Nat)
  sats : List (Nat × Bool)
  flags : FFlags
  trap : Option (Nat × TrapInfo)
  deriving DecidableEq, Repr

/-- Run over elements in ascending order up to a trap. -/
def gather (f : Nat → ElemRes) : List Nat → Gathered
  | [] => ⟨[], [], 0, none⟩
  | e :: es =>
    match f e with
    | .trap t => ⟨[], [], 0, some (e, t)⟩
    | .skip => gather f es
    | .write x fl sat =>
      let g := gather f es
      ⟨(e, x) :: g.ups, (sat.map (fun b => (e, b))).toList ++ g.sats, fl ||| g.flags, g.trap⟩

/-- Flat indices from `lo` to `hi` − 1. -/
def elemRange (lo hi : Nat) : List Nat := (List.range (hi - lo)).map (lo + ·)

/-- Active elements from VSTART (04 R95, 06 R128). -/
def activeCount (s : State) (m : Bool) : Nat :=
  ((elemRange s.hart.vstart.toNat (tileSize s)).filter (active s m)).length

/-- The instruction runs compacted (06 R128). -/
def compacted (s : State) (m d : Bool) : Bool := d && decide (activeCount s m < s.hart.vsparse.toNat)

/-- The flat index at which the running instruction is to stop, where it allows that: under a single step the first
one of its stop points (19 R355), else the one at which an interrupt is taken. -/
def stopRequest (s : State) (group : Nat) : Option Nat :=
  if s.hart.stepping && s.hart.mode == .user then some ((s.hart.vstart.toNat / group + 1) * group)
  else if interruptDue s.hart then s.hart.stopAt else none

/-- Where the run over elements ends: at VR × VL, or at an element-group boundary at which it stops (06 R127). -/
def stopPoint (s : State) (group : Nat) : Nat :=
  match stopRequest s group with
  | some e => if e % group = 0 ∧ s.hart.vstart.toNat < e ∧ e < tileSize s then e else tileSize s
  | none => tileSize s

/-- Where a run over elements ends: also before the first element that meets an uncorrectable granule. -/
def runEnd (s : State) (q : VReq) (group : Nat) : Nat := min (badPoint s q) (stopPoint s group)

/-- A run that ends at index `hi`, before the index `stop` at which it was to stop, has met an uncorrectable granule: the
trap of that element. -/
def badTrap (hi stop : Nat) : Option (Nat × TrapInfo) := if hi < stop then some (hi, plainTrap causePoison 0) else none

/-- A vector instruction stops with VSTART at `e`, and the pending interrupt is taken (01 R7); under a single step the
BREAK follows, and the interrupt stays pending (19 R355). -/
def stopped (s : State) (e : Nat) : State :=
  interruptAfter { s with hart := setVstart e s.hart }

/-- A trap at an element: VSTART points at it (02 R49). -/
def trapAt (s : State) (e : Nat) (t : TrapInfo) : State := takeTrap { s with hart := setVstart e s.hart } t

/-- The run stops at index `e`: a fault of the element there is taken, and the interrupt stays pending (19 R358). -/
def stopsAt (s : State) (e : Nat) (fault : Option TrapInfo) : State :=
  match fault with
  | some t => if s.hart.stepping then stopped s e else trapAt s e t
  | none => stopped s e

/-- The trap of an element, if it has one. -/
def resTrap : ElemRes → Option TrapInfo
  | .trap t => some t
  | _ => none

/-- The tail elements set to zero under TZ (06 R126). -/
def tailZeros (s : State) : List (Nat × Nat) :=
  if vtTZ s.hart then (elemRange (tileSize s) (vlmaxG s)).map (fun e => (e, 0)) else []

/-- The result of an element under the mask policy: masked-off elements are kept or zeroed (06 R126). -/
def maskedRes (s : State) (m : Bool) (f : Nat → ElemRes) (e : Nat) : ElemRes :=
  if active s m e then f e else if vtMZ s.hart then .write 0 0 none else .skip

/-- What completed elements leave: results at width w, VSAT bits, flags. -/
def applyElems (s : State) (vd w : Nat) (g : Gathered) : State :=
  raiseFlags (writeSat (writeElems s vd w g.ups) g.sats) g.flags

/-- Nothing is kept any more of the instruction at the PC. -/
def forgetRun (h : Hart) : Hart := { h with partRuns := h.partRuns.filter (fun p => p.pc != h.pc) }

/-- An instruction over elements leaves off before element `e`: the hart keeps whether it draws (03 R74) and the block it
stopped inside (07 R146), where there is one of these to keep. -/
def suspended (s : State) (draws : Bool) (block : Option (Nat × Map Nat)) (e : Nat) (h : Hart) : Hart :=
  let h := forgetRun h
  if draws || block.isSome then
    { h with partRuns := ⟨h.pc, e, draws, draws && drawsUndefined s, block⟩ :: h.partRuns }
  else h

/-- A generating instruction completes: RNGCTR moves on (03 R63). -/
def drew (n : Nat) (h : Hart) : Hart := { h with rngctr := h.rngctr + BitVec.ofNat 64 n }

/-- A run over the elements of the tile (02 R50): `whole` says that it may not stop part-way, `w` is the width of vd,
`wide` the largest width it reads or writes, `draws` says that it advances RNGCTR (03 R63), `f` gives what each flat
index gets, `also` what else is written once the elements below an index are complete, and `block` the block that is to be
kept where it stops at an index. At a trap or stop the masked-off elements below it are zero under MZ (DESIGN CHOICE between
02 R50 and 06 R128, log 67). -/
def elementRun (s : State) (q : VReq) (whole : Bool) (vd w wide : Nat) (draws : Bool) (f : Nat → ElemRes)
    (also : Nat → State → State) (block : Nat → Option (Nat × Map Nat)) : Out :=
  let n := tileSize s
  let lo := s.hart.vstart.toNat
  if n ≤ lo then .next (finishV (joinConvoy s q))
  else
    let stop := if whole then n else stopPoint s (groupElems s wide)
    let hi := min (badPoint s q) stop
    let g := gather f (elemRange lo hi)
    let last := (g.trap.map (·.1)).getD hi
    let t := joinConvoy (also last (applyElems s vd w g)) q
    let part := { t with hart := suspended s draws (block last) last t.hart }
    match g.trap <|> badTrap hi stop with
    | some (e, tr) => .next (trapAt part e tr)
    | none =>
      if hi < n then .next (stopsAt part hi ((badFault s q hi) <|> resTrap (f hi)))
      else
        let t := writeElems t vd w (tailZeros s)
        let t := { t with hart := forgetRun t.hart }
        .next (finishV (if draws then { t with hart := drew n t.hart } else t))

/-- An elementwise instruction under the mask policy. -/
def elementwise (s : State) (q : VReq) (m d : Bool) (vd w wide : Nat) (draws : Bool) (f : Nat → ElemRes) : Out :=
  elementRun s q (compacted s m d) vd w wide draws (maskedRes s m f) (fun _ t => t) (fun _ => none)

/-- A mask-writing instruction over the tile (07 R135): bits of active elements, policies bit by bit; at a trap or stop
as `elementRun` (DESIGN CHOICE, log 67). -/
def maskRun (s : State) (q : VReq) (whole m : Bool) (vd wide : Nat) (f : Nat → Bool) : Out :=
  let n := tileSize s
  let lo := s.hart.vstart.toNat
  if n ≤ lo then .next (finishV (joinConvoy s q))
  else
    let stop := if whole then n else stopPoint s (groupElems s wide)
    let hi := min (badPoint s q) stop
    let bits := (elemRange lo hi).filterMap fun e =>
      if active s m e then some (e, f e) else if vtMZ s.hart then some (e, false) else none
    let tail := if vtTZ s.hart then (elemRange n (vlmaxG s)).map (fun e => (e, false)) else []
    let part := joinConvoy (writeBits s vd bits) q
    match badTrap hi stop with
    | some (e, t) => .next (trapAt part e t)
    | none =>
      if hi < n then .next (stopsAt part hi (badFault s q hi))
      else .next (finishV (joinConvoy (writeBits s vd (bits ++ tail)) q))

/-- A comparison, which may stop or run compacted. -/
def maskwise (s : State) (q : VReq) (m d : Bool) (vd wide : Nat) (f : Nat → Bool) : Out :=
  maskRun s q (compacted s m d) m vd wide f

/-- An instruction that is never stopped part-way (08 R152, R153): it writes some elements, those below VSTART left
out, and nothing where VSTART is past the tile or the tile is empty. -/
def wholeRun (s : State) (q : VReq) (vd w : Nat) (flags : FFlags) (ups : List (Nat × Nat)) : Out :=
  let lo := s.hart.vstart.toNat
  if tileSize s ≤ lo then .next (finishV (joinConvoy s q))
  else .next (finishV (joinConvoy (raiseFlags (writeElems s vd w (ups.filter (fun p => decide (lo ≤ p.1)))) flags) q))

/-- The elements from k upward set to zero under TZ (06 R126). -/
def tailFrom (s : State) (k : Nat) : List (Nat × Nat) :=
  if vtTZ s.hart then (elemRange k (vlmaxG s)).map (fun e => (e, 0)) else []

/-! ## Operand forms of opcodes 0x14, 0x15 and 0x1A (07 R129) -/

/-- imm5 as an element: sign-extended modulo 2^w, or zero-extended in shifts and slides (04 R77). -/
def imm5 (zero : Bool) (w : Nat) (i : Reg) : Nat := if zero then i.toNat % 2 ^ w else ofInt w i.toInt

/-- The operands a and b of element e by form: VV, VX, VI (R129). -/
def operandsOf (s : State) (x : VOp) (zeroExt : Bool) (w e : Nat) : Nat × Nat :=
  match x.form.toNat with
  | 0 => (elem s 1 x.s1.toNat w e, elem s 2 x.vs2.toNat w e)
  | 1 => (elem s 2 x.vs2.toNat w e, (readG s x.s1).toNat % 2 ^ w)
  | _ => (elem s 2 x.vs2.toNat w e, imm5 zeroExt w x.s1)

/-- The vector sources a VOp names. -/
def vopSources (x : VOp) : List Nat := if x.form = 0 then [x.s1.toNat, x.vs2.toNat] else [x.vs2.toNat]

end Sys2Proof.Machine
end

