-- ==== Sys2Proof/Machine/ArrayState.lean ====
section
/-! DEFINITION. A hart's matrix state and matrix context (01 R24, R25; 10 R191, R208), by hart-relative rows. -/
namespace Sys2Proof.Machine

/-- The physical array row of a hart-relative one (01 R18). -/
def physRow (s : State) (m : Nat) : Nat := (heldRows s.core s.idx).getD m 64

/-- H = 8 × held_groups (10 R196). -/
def rowCount (s : State) : Nat := 8 * heldCount s

/-- acc(m, n): its stored bits. A word never written reads 0 (01 R24). -/
def accWord (s : State) (m n : Nat) : BitVec 32 := (mapGet s.core.acc (physRow s m * 384 + n) ⟨0, false⟩).bits

/-- Write an accumulator word and set its live bit (10 R208). -/
def setAcc (s : State) (m n : Nat) (x : BitVec 32) : State :=
  let k := physRow s m * 384 + n
  { s with core := { s.core with acc := mapSet s.core.acc k ⟨x, true⟩, accBad := s.core.accBad.filter (· != k) } }

/-- The stored words of some rows and columns that are uncorrectable, by physical place (24 R415). -/
def badAccs (s : State) (rows c0 cols : Nat) : List Nat :=
  if s.core.accBad.isEmpty then []
  else ((List.range rows).flatMap (fun m => (List.range cols).map (fun n => physRow s m * 384 + (c0 + n)))).filter
    (fun k => s.core.accBad.contains k)

/-- Zero an accumulator word and clear its live bit (10 R208); a row has 384 words (01 R24). -/
def clearAcc (s : State) (m n : Nat) : State :=
  let k := physRow s m * 384 + n
  if n < 384 then
    { s with core := { s.core with acc := mapErase s.core.acc k, accBad := s.core.accBad.filter (· != k) } }
  else s

/-- Physical rows with a live word. -/
def liveRows (c : CoreState) : List Nat := (c.acc.filter (fun p => p.2.live)).map (fun p => p.1 / 384)

/-- ACCLIVE (10 R208). -/
def accLive (s : State) : Word :=
  let live := liveRows s.core
  BitVec.ofNat 64 (((heldRows s.core s.idx).zipIdx.map (fun p => if live.contains p.1 then 2 ^ p.2 else 0)).foldl (· + ·) 0)

/-- A word is a nonzero FP32 value. -/
def nonzero32 (b : BitVec 32) : Bool := b &&& 0x7FFFFFFF != 0

/-- The matrix state of the current hart is empty (01 R25). -/
def matrixEmpty (s : State) : Bool :=
  let rows := heldRows s.core s.idx
  accLive s == 0 && s.hart.fifo.isEmpty
  && !s.core.cells.any (fun p => rows.contains (p.1 / 64))
  && !s.core.grad.any (fun p => rows.contains (p.1 / 1024) && nonzero32 p.2)

/-- The tile registers hold their reset values. -/
def tilesReset (s : State) : Bool :=
  s.hart.tilem == 0 && s.hart.tilen == 0 && s.hart.tilek == 0 && s.hart.tilenoff == 0
  && s.hart.tileset == tilesetOf s.col

/-- Every knot register of the hart holds the values of R26. -/
def knotsReset (s : State) : Bool := (heldRows s.core s.idx).all (fun r => s.core.knot.getD r Knot.reset == Knot.reset)

/-- MSTATE: 0 OFF, 1 EMPTY, 2 CLEAN, 3 DIRTY (10 R191). -/
def mstate (s : State) : Nat :=
  if !s.hart.mstateen then 0
  else if matrixEmpty s && tilesReset s && knotsReset s then 1
  else if s.hart.mdirty then 3
  else 2

/-- The matrix context of the hart changed (10 R191). -/
def contextChanged (s : State) : State := { s with hart := { s.hart with mdirty := true } }

/-- The matrix state of the hart is discarded (11 R248, R255). -/
def discardMatrix (s : State) : State :=
  { s with
    core := clearRows s.core (heldRows s.core s.idx)
    hart := { s.hart with fifo := [], coef := none } }

end Sys2Proof.Machine
end

