-- ==== Sys2Proof/Machine/Setup.lean ====
section
/-! DEFINITION. Configuration (06 R118 to R124, 10 R196, R199): strip boundaries with the lane arbiter and re-layout,
SETREGS, SETTYPE, SETLEN, SETLEN2, SETTILE, TILEBIND. -/
namespace Sys2Proof.Machine

/-- VOFF, then MOFF for the array's configuration instructions (01 R31, 04 R90). -/
def setupCheck (s : State) (i : Instr) (array : Bool) : Option TrapInfo :=
  if s.hart.vstate == 0 then some (plainTrap causeVoff ((wordOf i).setWidth 64))
  else if array && !s.hart.mstateen then some (plainTrap causeMoff ((wordOf i).setWidth 64))
  else none

/-! ## Re-layout (01 R20) -/

/-- The register is marked in VLIVE. -/
def isLive (h : Hart) (r : Nat) : Bool := h.vlive.getLsbD r

/-- The entries of one layout of a register of a group by flat index of the group. -/
def flatEntries (data : Map (BitVec 64)) (j vlm : Nat) : Map (BitVec 64) :=
  (data.filter (fun p => decide (p.1 < vlm))).map (fun p => (j * vlm + p.1, p.2))

/-- A mask register keeps its bits below `keep`. -/
def relayMask (s : State) (old new keep r : Nat) : VReg :=
  ⟨.bits, true, (bitsAt s r).filter (fun p => decide (p.1 < keep)), [],
    ((s.hart.v.getD r VReg.reset).bad.flatMap (fun p => ((List.range 8).map (fun k => p + k * old)).filter
      (fun e => decide (e < keep)))).map (· % new)⟩

/-- The members of the aligned group of a register that are re-laid out with it, with their places in the group. -/
def relayMembers (s : State) (r : Nat) : List (Nat × VReg) :=
  let g := groupOf s.hart
  ((List.range g).map (fun j => (j, s.hart.v.getD (r / g * g + j) VReg.reset))).filter
    (fun p => isLive s.hart (r / g * g + p.1) && !p.2.mark)

/-- What the group of a register held at the flat indices that it holds after the move from `old` to `new` elements a
register, by layout and place in the register. -/
def relayParts (s : State) (old new keep r : Nat) : List (RegTag × Map (BitVec 64)) :=
  let i := r % groupOf s.hart
  ((relayMembers s r).flatMap fun m => m.2.parts.map fun p =>
    (p.1, ((flatEntries p.2 m.1 old).filter (fun q => decide (q.1 < keep) && q.1 / new == i)).map
      (fun q => (q.1 % new, q.2)))).filter (fun p => !p.2.isEmpty)

/-- The uncorrectable positions of a register after the move. -/
def relayBad (s : State) (old new keep r : Nat) : List Nat :=
  (((relayMembers s r).flatMap fun m => m.2.bad.map (fun p => m.1 * old + p)).filter
    (fun e => decide (e < keep) && e / new == r % groupOf s.hart)).map (· % new)

/-- An ordinary register after the move: every element that its group held at its flat indices, each layout by itself. -/
def relayGroup (s : State) (old new keep r : Nat) : VReg :=
  let parts := relayParts s old new keep r
  match (parts.map (·.1)).eraseDups.map (fun t => (t, (parts.filter (fun p => p.1 == t)).flatMap (·.2))) with
  | [] => { VReg.reset with bad := relayBad s old new keep r }
  | (tag, data) :: rest => ⟨tag, false, data, rest, relayBad s old new keep r⟩

/-- A register after a strip boundary that changed the holding. One that becomes undefined without a write loses its mask
mark (DESIGN CHOICE, log 68). -/
def relayReg (s : State) (old new r : Nat) : VReg :=
  let keep := groupOf s.hart * min old new
  if s.hart.count ≤ r ∨ !isLive s.hart r then VReg.reset
  else if (s.hart.v.getD r VReg.reset).mark then relayMask s old new keep r
  else relayGroup s old new keep r

/-- All registers re-laid out; VSAT becomes undefined where VLMAX changed (01 R14). `s` is the state before the
holding changed, whose VLMAX is `old`. -/
def relayout (s : State) (old new : Nat) (h : Hart) : Hart :=
  { h with
    v := Vector.ofFn (fun (r : Fin 32) => relayReg s old new r.val)
    vsat := if old = new then h.vsat else [] }

/-! ## The arbiter at a strip boundary (06 R118, R119; 19 R362) -/

/-- RESV clears at the first strip boundary in user mode (19 R362). -/
def clearResv (h : Hart) : Hart :=
  if h.mode == .user then { h with tstatus := putField h.tstatus 20 4 0 } else h

/-- The groups the arbiter moves: those released and those taken. A hart that does not contend has the target 0 (17
R340). -/
def groupMoves (s : State) : List Nat × List Nat :=
  let held := heldGroups s.core s.idx
  let n := held.length
  let user := s.hart.mode == .user
  if user || resvOf s.hart != 0 then
    let t := if user then laneTarget s s.cur else resvOf s.hart
    if t < n then
      if !user || matrixEmpty s then ((held.reverse).take (n - t), []) else ([], [])
    else ([], ((List.range 8).filter (fun g => s.core.owner.getD g none == none)).take (t - n))
  else ([], [])

/-- The streams of a weight-buffer FIFO that a share of `cap` bytes still holds: the oldest, up to the first that does not
fit with those before it (DESIGN CHOICE, log 83). -/
def fifoKept : Nat → List Stream → List Stream
  | _, [] => []
  | cap, st :: rest =>
    let n := st.count - st.band
    if cap < n then [] else st :: fifoKept (cap - n) rest

/-- The released groups' matrix state is discarded: their part of the weight buffer, and every coefficient where no group
is left (19 R362). -/
def discardShare (groups : Nat) (h : Hart) : Hart :=
  { h with fifo := fifoKept (65536 * groups) h.fifo, coef := if groups = 0 then none else h.coef }

/-- Step 3, and step 4 under the declaration that stands (R118). VL and VR become 0 where this boundary takes the last
group; a hart that held none before keeps them as they stand (DESIGN CHOICE beside R119, log 69). -/
def arbitrate (s : State) : State :=
  let m := groupMoves s
  if m.1.isEmpty && m.2.isEmpty then s
  else
    let core := freeGroups s.core m.1
    let core := { core with owner := m.2.foldl (fun o g => o.setIfInBounds g (some s.idx)) core.owner }
    let new := vlmaxFor (heldGroups core s.idx).length s.hart.count s.hart.maxsew
    let h := relayout s (vlmax s) new s.hart
    let h := if !m.2.isEmpty && !matrixEmpty s then { h with mdirty := true } else h
    let h := if m.1.isEmpty then h else discardShare (heldGroups core s.idx).length h
    let h := if (heldGroups core s.idx).isEmpty then { h with vl := 0, vr := 0 } else h
    { s with core := core, hart := h }

/-- The hart stalls after step 3 (R119, R362). -/
def mustStall (s : State) : Bool :=
  if s.hart.mode == .user then contends s s.cur && heldCount s == 0
  else decide (heldCount s < resvOf s.hart)

/-- VSTART := 0 at a strip boundary; of the instructions that make one, CLAIM alone is outside the opcodes whose change
of VSTART makes VSTATE DIRTY (01 R31). -/
def boundaryVstart (i : Instr) (h : Hart) : Hart :=
  match i with
  | .claim .. => { h with vstart := 0 }
  | _ => setVstart 0 h

/-- A strip-boundary instruction: it drains, the arbiter acts, and its own effect follows unless it stalls (R118). -/
def stripBoundary (i : Instr) (s : State) (own : State → Out) : Out :=
  let t := arbitrate { s with hart := clearResv { s.hart with convoy := none } }
  if mustStall t then .next (waitAt t i) else own { t with hart := boundaryVstart i t.hart }

/-- In supervisor mode a hart without groups is granted no length (19 R362). -/
def noLength (s : State) : Bool := s.hart.mode == .supervisor && heldCount s == 0

/-- VL and VR. -/
def setLengths (s : State) (vr vl : Nat) : State := { s with hart := { s.hart with vl := vl, vr := vr } }

/-! ## SETREGS (R120) -/

/-- The counts and widths of the codes (04 R83). -/
def countOf (code : BitVec 2) : Nat := 8 * 2 ^ code.toNat
def maxsewOf (code : BitVec 3) : Nat := 8 * 2 ^ (code.toNat - 1)

/-- A declaration that differs makes every register and VSAT undefined; no register keeps a mask mark (DESIGN CHOICE, log
68). -/
def declare (count maxsew : Nat) (h : Hart) : Hart :=
  if h.count = count ∧ h.maxsew = maxsew then h
  else { h with count := count, maxsew := maxsew, v := Vector.replicate 32 VReg.reset, vsat := [] }

def execSetregs (gd : Reg) (maxsew : BitVec 3) (count : BitVec 2) (s : State) : Out :=
  let i := Instr.setregs gd maxsew count
  withCheck s (setupCheck s i false)
    (if !lpEn s.core.lpart s.idx then raise s (illegal (wordOf i))
     else
       stripBoundary i { s with hart := { s.hart with contending := true } } fun t =>
         let t := setLengths { t with hart := declare (countOf count) (maxsewOf maxsew) t.hart } 0 0
         done (writeG t gd (BitVec.ofNat 64 (vlmax t))))

/-! ## SETTYPE (R121) -/

/-- A legal request (03 R59, R60). -/
def legalVtype (v : Nat) : Bool := decide (v < 1024) && (etypeOf (v % 64)).isSome

def setType (i : Instr) (gd : Reg) (request : Nat) (s : State) : Out :=
  withCheck s (setupCheck s i false)
    (let s := drained s
     if legalVtype request then
       let t := { s with hart := { s.hart with vtype := BitVec.ofNat 16 request } }
       let t := if vlmaxG t < tileSize t then setLengths t 0 0 else t
       let t := { t with hart := setVstart 0 t.hart }
       let w := ((etypeOf (request % 64)).map (·.width)).getD 0
       done (writeG t gd (if w ≤ t.hart.maxsew then BitVec.ofNat 64 (vlmax t) else 0))
     else
       let t := { s with hart := setVstart 0 { s.hart with vtype := 0x8000 } }
       done (writeG t gd 0))

def execSettypeReg (gd gs : Reg) (s : State) : Out := setType (.settypeReg gd gs) gd (readG s gs).toNat s
def execSettypeImm (gd : Reg) (imm : BitVec 10) (s : State) : Out := setType (.settypeImm gd imm) gd imm.toNat s

/-! ## SETLEN and SETLEN2 (R122, R123) -/

def execSetlen (gd gs : Reg) (s : State) : Out :=
  let i := Instr.setlen gd gs
  withCheck s (setupCheck s i false)
    (stripBoundary i s fun t =>
      let n := min (readG s gs).toNat (vlmaxG t)
      let t := if noLength t then setLengths t 0 0 else setLengths t 1 n
      done (writeG t gd (BitVec.ofNat 64 t.hart.vl)))

/-- The grant of SETLEN2: VR and VL. -/
def tileGrant (rows cols limit : Nat) : Nat × Nat :=
  if rows = 0 ∨ cols = 0 ∨ limit = 0 then (0, 0)
  else
    let vl := min cols limit
    (min rows (limit / vl), vl)

def execSetlen2 (gd gs1 gs2 : Reg) (s : State) : Out :=
  let i := Instr.setlen2 gd gs1 gs2
  withCheck s (setupCheck s i false)
    (stripBoundary i s fun t =>
      let g := tileGrant (readG s gs1).toNat (readG s gs2).toNat (vlmaxG t)
      done (writeG (setLengths t g.1 g.2) gd (BitVec.ofNat 64 (g.1 * 2 ^ 32 + g.2))))

/-- A stalled strip-boundary instruction is a waiting instruction; its stall ends when it executes again (R119). -/
def isStripBoundary : Instr → Bool
  | .setregs .. => true
  | .setlen .. => true
  | .setlen2 .. => true
  | .claim .. => true
  | _ => false

/-! ## SETTILE (10 R196) -/

/-- S and p of TILESET (01 R29). -/
def tsSize (ts : Word) : Nat := (ts.extractLsb' 2 2).toNat
def tsRank (ts : Word) : Nat := (ts.extractLsb' 0 2).toNat
def tsMember (ts : Word) (k : Nat) : Nat := (ts.extractLsb' (16 + 8 * k) 7).toNat

def execSettile (gd gs1 gs2 : Reg) (s : State) : Out :=
  withCheck s (setupCheck s (.settile gd gs1 gs2) true)
    (let s := drained s
     let a := readG s gs1
     let b := readG s gs2
     let noff := (b.extractLsb' 16 16).toNat
     let h := s.hart
     let h :=
       if 384 ≤ noff then { h with tilem := 0, tilen := 0, tilek := 0, tilenoff := 0 }
       else { h with
         tilem := min (a.extractLsb' 0 16).toNat (rowCount s * tsSize h.tileset)
         tilen := min (a.extractLsb' 16 16).toNat (384 - noff)
         tilek := min (b.extractLsb' 0 16).toNat 256
         tilenoff := noff }
     let t := contextChanged { s with hart := setVstart 0 h }
     done (writeG t gd (BitVec.ofNat 64
       (h.tilem + h.tilen * 2 ^ 16 + h.tilek * 2 ^ 32 + h.tilenoff * 2 ^ 48))))

/-! ## TILEBIND (10 R199) -/

/-- The local checks of a request. -/
def tileRequestOk (col : Nat) (v : Word) : Bool :=
  let n := tsSize v
  decide (1 ≤ n) && decide (n ≤ 3) && decide (tsRank v < n) && tsMember v (tsRank v) == col
  && ((List.range n).map (tsMember v)).Nodup
  && v &&& ~~~(0x7F7F7F000F : Word) == 0
  && (List.range 3).all (fun k => decide (k < n) || tsMember v k == 0)

/-- Two requests name one set: equal but for the rank, which differs from member to member (log 15). -/
def sameSet (v w : Word) : Bool := v &&& ~~~(3 : Word) == w &&& ~~~(3 : Word)

/-- The value of the TILEBIND at which a hart waits. -/
def bindValue (s : State) (h : Nat) : Option Word :=
  let x := getHart s h
  match x.wait with
  | some (.tilebind _ gs) => some (if gs = 0 then 0 else x.g[gs.toNat])
  | _ => none

/-- The other members of a set, as harts of one number. -/
def partners (s : State) (v : Word) : List Nat :=
  (((List.range (tsSize v)).map (tsMember v)).filter (· != s.col)).map (fun c => 4 * c + s.idx)

/-- A waiting member completes with a status; one that binds takes its own request (R199). -/
def completeBind (status : Nat) (s : State) (h : Nat) : State :=
  modHart s h fun x =>
    match x.wait with
    | some (.tilebind gd gs) =>
      let v := if gs = 0 then 0 else x.g[gs.toNat]
      let x := { x with g := if gd = 0 then x.g else x.g.set gd.toNat (BitVec.ofNat 64 status) }
      let x := if status = 0 then { x with tileset := v, mdirty := true } else x
      loopEnd x.pc (retired (setVstart 0 x))
    | _ => x

/-- The hart's TILEBIND ends with a status. -/
def bindStatus (s : State) (gd : Reg) (v : Word) (status : Nat) : Out :=
  let t := if status = 0 then contextChanged { s with hart := { s.hart with tileset := v } } else s
  done (writeG { t with hart := setVstart 0 t.hart } gd (BitVec.ofNat 64 status))

/-- The other harts of the gang with the hart's number that wait at a TILEBIND, each with its value. -/
def waitingBinds (s : State) : List (Nat × Word) :=
  (((gangOf s s.cur).map (·.members)).getD []).filterMap fun h =>
    if h % 4 = s.idx ∧ h ≠ s.cur then (bindValue s h).map (fun w => (h, w)) else none

/-- A request names a column. -/
def namesColumn (w : Word) (col : Nat) : Bool := ((List.range (tsSize w)).map (tsMember w)).contains col

/-- A named partner waits with another value. -/
def bindClash (s : State) (v : Word) : Bool := (partners s v).any (fun h => (bindValue s h).any (fun w => !sameSet v w))

/-- The waits that end in MISMATCH where the hart executes TILEBIND with value v: those that name its column with another
value, those of its own set where it fails by a clash, and with each the other members of its set that wait (R199). -/
def failedBinds (s : State) (v : Word) (own : Bool) : List Nat :=
  let ws := waitingBinds s
  let lost := (ws.filter (fun p => namesColumn p.2 s.col && !sameSet p.2 v)).map (·.2)
  let sets := if own then v :: lost else lost
  (ws.filter (fun p => sets.any (sameSet p.2))).map (·.1)

/-- The status with which a TILEBIND ends; none where it waits. One that waits already has passed its own checks, and ends
in BOUND or MISMATCH (R199). -/
def bindOutcome (s : State) (v : Word) (waits : Bool) : Option Nat :=
  let ps := partners s v
  if !waits && !tileRequestOk s.col v then some 3
  else if !waits && !s.hart.fifo.isEmpty then some 4
  else if !waits && ps.any (fun h =>
      (gangOf s h).map (·.id) != (gangOf s s.cur).map (·.id) || (gangOf s s.cur).isNone) then some 2
  else if bindClash s v then some 1
  else if ps.all (fun h => (bindValue s h).isSome) then some 0
  else none

def execTilebind (gd gs : Reg) (s : State) : Out :=
  let i := Instr.tilebind gd gs
  withCheck s (setupCheck s i true)
    (let s := drained s
     let v := readG s gs
     let r := bindOutcome s v (s.hart.wait == some i)
     let t := (failedBinds s v (r == some 1)).foldl (completeBind 1) s
     match r with
     | none => .next (waitAt t i)
     | some k => bindStatus (if k = 0 then (partners s v).foldl (completeBind 0) t else t) gd v k)

end Sys2Proof.Machine
end

