-- ==== Sys2Proof/Machine/Sync.lean ====
section
/-! DEFINITION. Synchronisation (11 R242 to R245): BAR, WAITADDR, CLAIM, PUBWM, WAITWM and the ends of their waits. -/
namespace Sys2Proof.Machine

/-- A waiting instruction of a hart goes on: the hart moves, and the meaning of the instruction it waits at is asked
again; a single step ends with it (19 R355). -/
def goOn (s : State) (h : Nat) (f : State → Instr → Out) : Out :=
  match (getHart s h).wait with
  | some i => match f (focus s h) i with
    | .next t => .next (if (getHart s h).stepping && t.hart.wait.isNone then singleStepBreak t else t)
    | r => r
  | none => .next s

/-! ## BAR (R242) -/

/-- A member of a gang as it stands: in its slot, or in its record after a yield (19 R363). -/
def memberHart (s : State) (g : Gang) (m : Nat) : Hart := (mapGet? g.left m).getD (getHart s m)

/-- A hart waits at its k-th BAR, and its release is made: one whose invalidation is still under way has not arrived
(13 R295). -/
def waitsAtBar (x : Hart) (k : Nat) : Bool := x.bars == k && x.wait == some .bar && x.arrived

/-- A member has executed its k-th BAR: it waits at it, or it is past it. -/
def atBar (x : Hart) (k : Nat) : Bool := decide (k < x.bars) || waitsAtBar x k

/-- Every other member of the hart's gang has executed its k-th BAR or has exited. -/
def barOpen (s : State) : Bool :=
  match gangOf s s.cur with
  | some g => (g.members.filter (fun m => m != s.cur && !g.ended.contains m)).all
      (fun m => atBar (memberHart s g m) s.hart.bars)
  | none => true

/-- The other members that wait at the same barrier. -/
def barWaiters (s : State) : List Nat :=
  match gangOf s s.cur with
  | some g => g.members.filter (fun m => m != s.cur && !g.ended.contains m && (mapGet? g.left m).isNone
      && waitsAtBar (getHart s m) s.hart.bars)
  | none => []

/-- A member leaves the barrier, which acts as an acquire. -/
def leaveBar (s : State) (m : Nat) : State :=
  modHart (acquireOf s m 1) m fun x => loopEnd x.pc (retired { x with bars := x.bars + 1, arrived := false })

/-- The hart arrives, which acts as a release; the last one opens the barrier for all. -/
def execBar (s : State) : Out :=
  afterRelease { s with hart := { s.hart with convoy := none, arrived := false } } .bar 1 fun t =>
    if barOpen t then
      let u := (barWaiters t).foldl leaveBar t
      done (acquire { u with hart := { u.hart with bars := u.hart.bars + 1 } } 1)
    else .next (waitAt { t with hart := { t.hart with arrived := true } } .bar)

/-! ## WAITADDR (R243) -/

/-- WAITADDR returns with a reason. -/
def waitaddrReturn (s : State) (gd : Reg) (reason : BitVec 3) : State :=
  complete (writeG (clearMonitor s) gd (reason.setWidth 64))

/-- The monitor of the sector, armed by the last scalar load or here. -/
def monitorFor (s : State) (sector : Nat) : Monitor :=
  match s.hart.monitor with
  | some m => if m.sector = sector then m else ⟨sector, none⟩
  | none => ⟨sector, none⟩

def execWaitaddr (gd gs1 gs2 : Reg) (s : State) : Out :=
  let s := drained s
  match resolveKind s (readG s gs1) .load kindLocal with
  | .error t => raise s t
  | .ok p =>
    let s := touch s p false
    let m := monitorFor s (p.pa / 128)
    match m.wake with
    | some r => .next (waitaddrReturn s gd r)
    | none =>
      if s.hart.wait == some (.waitaddr gd gs1 gs2) && interruptDue s.hart then
        .next (interruptAfter (waitaddrReturn s gd 2))
      else .next (waitAt { s with hart := { s.hart with monitor := some m } } (.waitaddr gd gs1 gs2))

/-- A wake-up with the reason the device reports: a write seen by the monitor, a lost monitor, or a spurious one. -/
def execWaitaddrWake (h : Nat) (reason : BitVec 3) (s : State) : Out :=
  goOn s h fun t i =>
    match i with
    | .waitaddr gd _ _ =>
      let seen := (t.hart.monitor.bind (·.wake)) == some reason
      if seen || reason == 1 || reason == 4 then .next (waitaddrReturn t gd reason) else .next t
    | _ => .next t

/-- The timeout expires; 0 means none. -/
def execWaitaddrTimeout (h : Nat) (s : State) : Out :=
  goOn s h fun t i =>
    match i with
    | .waitaddr gd _ gs2 => if readG t gs2 = 0 then .next t else .next (waitaddrReturn t gd 3)
    | _ => .next t

/-! ## CLAIM (R244) -/

/-- The claim: next, limit and the wish and grant limits give the length granted. -/
def claimLength (next limit wish vlm : Nat) : Nat := min wish (min (if next < limit then limit - next else 0) vlm)

/-- The indivisible step on the pair at a physical address: the new state, next as it was, and the length granted. -/
def claimStep (s : State) (pa wish vlm : Nat) : State × Word × Nat :=
  let r := atomicRead s pa 16
  let next := natOfBytes (r.2.take 8)
  let n := claimLength next (natOfBytes (r.2.drop 8)) wish vlm
  (if n = 0 then r.1 else atomicWrite r.1 pa (bytesOfNat 8 (next + n)), BitVec.ofNat 64 next, n)

def execClaim (gd gs1 gs2 : Reg) (s : State) : Out :=
  let a := readG s gs1
  let s := drained s
  if a.toNat % 16 ≠ 0 then raise s (accessTrap causeMisalign a .atomic)
  else match resolveKind s a .atomic kindShared with
    | .error t => raise s t
    | .ok p =>
      if atomicPoison s p.pa 16 then raise s (accessTrap causePoison a .atomic)
      else withCheck s (remoteFault s p a .atomic)
        <| stripBoundary (.claim gd gs1 gs2) s fun t =>
          let r := claimStep (clearMonitor (touch t p true)) p.pa (readG s gs2).toNat (if noLength t then 0 else vlmaxG t)
          done (writeG (setLengths r.1 (if noLength t then 0 else 1) r.2.2) gd r.2.1)

/-! ## PUBWM and WAITWM (R245) -/

def execPubwm (gs1 gs2 : Reg) (s : State) : Out :=
  let a := readG s gs1
  let s := drained s
  if a.toNat % 8 ≠ 0 then raise s (accessTrap causeMisalign a .atomic)
  else match resolveKind s a .atomic kindShared with
    | .error t => raise s t
    | .ok p =>
      if atomicPoison s p.pa 8 then raise s (accessTrap causePoison a .atomic)
      else withCheck s (remoteFault s p a .atomic) <| afterRelease s (.pubwm gs1 gs2) 1 fun t =>
        done (clearMonitor (atomicStep (touch t p true) p.pa 8 ⟨8, 0, readG t gs2⟩).1)

def execWaitwm (gs1 gs2 : Reg) (s : State) : Out :=
  let a := readG s gs1
  let s := drained s
  if a.toNat % 8 ≠ 0 then raise s (accessTrap causeMisalign a .load)
  else match resolveKind s a .load kindShared with
    | .error t => raise s t
    | .ok p => withCheck s (remoteFault s p a .load) <|
      let t := discardClean (touch s p false) s.col
      if readPoison t p.pa 8 then raise s (accessTrap causePoison a .load)
      else if (readG t gs2).toNat ≤ natOfBytes (readBytes t p.pa 8) then done (acquire t 1)
      else .next (waitAt t (.waitwm gs1 gs2))

/-! ## Ends of waits -/

def execBarRelease (h : Nat) (s : State) : Out :=
  goOn s h fun t i => match i with
    | .bar => execBar t
    | _ => .next t

def execWaitwmSatisfied (h : Nat) (s : State) : Out :=
  goOn s h fun t i => match i with
    | .waitwm a b => execWaitwm a b t
    | _ => .next t

/-- A stalled strip boundary repeats its third step (06 R119). -/
def execStripBoundaryStallEnd (h : Nat) (s : State) : Out :=
  goOn s h fun t i => match i with
    | .setregs gd maxsew count => execSetregs gd maxsew count t
    | .setlen gd gs => execSetlen gd gs t
    | .setlen2 gd a b => execSetlen2 gd a b t
    | .claim gd a b => execClaim gd a b t
    | _ => .next t

def execTilebindPartnersMet (h : Nat) (s : State) : Out :=
  goOn s h fun t i => match i with
    | .tilebind gd gs => execTilebind gd gs t
    | _ => .next t

/-- A parked hart completes once an interrupt is pending (11 R255). -/
def execParkWake (h : Nat) (s : State) : Out :=
  goOn s h fun t i => match i with
    | .park => if interruptDue t.hart then .next (interruptAfter (complete t)) else .next t
    | _ => .next t

end Sys2Proof.Machine
end

