-- ==== Sys2Proof/Machine/VInt.lean ====
section
/-! DEFINITION. Integer vector instructions (07 R129 to R136): opcode 0x14. -/
namespace Sys2Proof.Machine

/-- The formats of opcode 0x14 (R131). -/
def acceptInt : EType → Bool
  | .int _ => true
  | .uint _ => true
  | .fp _ => false

/-- What a VOp names. -/
def vopReq (i : Instr) (cls : PipeClass) (x : VOp) (accept : EType → Bool) : VReq :=
  { vreq (wordOf i) cls x.c with
    groupReads := vopSources x, groupWrites := [x.vd.toNat], masked := x.m, accept := some accept }

/-- An integer instruction whose result is a function of the width and the operands, modulo 2^SEW (R132). -/
def intVec (i : Instr) (cls : PipeClass) (x : VOp) (zeroExt : Bool) (f : Nat → Nat → Nat → Nat) (s : State) : Out :=
  let q := vopReq i cls x acceptInt
  withCheck s (checkVector s q)
    (let w := sew s
     elementwise s q x.m x.d x.vd.toNat w w false fun e =>
       let ab := operandsOf s x zeroExt w e
       .write (f w ab.1 ab.2 % 2 ^ w) 0 none)

/-! ## Results -/

def vAdd (_ a b : Nat) : Nat := a + b
def vSub (w a b : Nat) : Nat := a + 2 ^ w - b
def vRsub (w a b : Nat) : Nat := b + 2 ^ w - a
def vMul (_ a b : Nat) : Nat := a * b
def vMulh (w a b : Nat) : Nat := ofInt w (toInt w a * toInt w b / (2 ^ w : Nat))
def vMulhu (w a b : Nat) : Nat := a * b / 2 ^ w
def vAnd (_ a b : Nat) : Nat := a &&& b
def vOr (_ a b : Nat) : Nat := a ||| b
def vXor (_ a b : Nat) : Nat := a ^^^ b
def vSll (w a b : Nat) : Nat := a * 2 ^ (b % w)
def vSrl (w a b : Nat) : Nat := a / 2 ^ (b % w)
def vSra (w a b : Nat) : Nat := ofInt w (toInt w a / (2 ^ (b % w) : Nat))
def vMin (w a b : Nat) : Nat := if toInt w a < toInt w b then a else b
def vMax (w a b : Nat) : Nat := if toInt w a < toInt w b then b else a
def vMinu (_ a b : Nat) : Nat := min a b
def vMaxu (_ a b : Nat) : Nat := max a b

def execVadd (x : VOp) (s : State) : Out := intVec (.vadd x) .alu x false vAdd s
def execVsub (x : VOp) (s : State) : Out := intVec (.vsub x) .alu x false vSub s
def execVrsub (x : VOp) (s : State) : Out := intVec (.vrsub x) .alu x false vRsub s
def execVmul (x : VOp) (s : State) : Out := intVec (.vmul x) .fma x false vMul s
def execVmulh (x : VOp) (s : State) : Out := intVec (.vmulh x) .fma x false vMulh s
def execVmulhu (x : VOp) (s : State) : Out := intVec (.vmulhu x) .fma x false vMulhu s
def execVand (x : VOp) (s : State) : Out := intVec (.vand x) .alu x false vAnd s
def execVor (x : VOp) (s : State) : Out := intVec (.vor x) .alu x false vOr s
def execVxor (x : VOp) (s : State) : Out := intVec (.vxor x) .alu x false vXor s
def execVsll (x : VOp) (s : State) : Out := intVec (.vsll x) .alu x true vSll s
def execVsrl (x : VOp) (s : State) : Out := intVec (.vsrl x) .alu x true vSrl s
def execVsra (x : VOp) (s : State) : Out := intVec (.vsra x) .alu x true vSra s
def execVmin (x : VOp) (s : State) : Out := intVec (.vmin x) .alu x false vMin s
def execVmax (x : VOp) (s : State) : Out := intVec (.vmax x) .alu x false vMax s
def execVminu (x : VOp) (s : State) : Out := intVec (.vminu x) .alu x false vMinu s
def execVmaxu (x : VOp) (s : State) : Out := intVec (.vmaxu x) .alu x false vMaxu s

/-! ## Saturating sums (R133) -/

/-- An element read as its type says. -/
def intValue (t : EType) (bits : Nat) : Int :=
  match t with
  | .int w => toInt w bits
  | _ => (bits : Int)

/-- The exact result clamped to the range of the type, with its VSAT bit. -/
def saturated (t : EType) (x : Int) : ElemRes :=
  let signed := match t with
    | .int _ => true
    | _ => false
  let c := clampInt (intLo signed t.width) (intHi signed t.width) x t.width
  .write c.1 0 (some c.2)

def satVec (i : Instr) (x : VOp) (f : Int → Int → Int) (s : State) : Out :=
  let q := vopReq i .alu x acceptInt
  withCheck s (checkVector s q)
    (let t := etypeD s
     elementwise s q x.m x.d x.vd.toNat t.width t.width false fun e =>
       let ab := operandsOf s x false t.width e
       saturated t (f (intValue t ab.1) (intValue t ab.2)))

def execVsadd (x : VOp) (s : State) : Out := satVec (.vsadd x) x (· + ·) s
def execVssub (x : VOp) (s : State) : Out := satVec (.vssub x) x (· - ·) s

/-! ## VMERGE (R134) -/

def execVmerge (x : VOp) (s : State) : Out :=
  let q := vopReq (.vmerge x) .alu x acceptInt
  withCheck s (checkVector s q)
    (let w := sew s
     elementRun s q (compacted s x.m x.d) x.vd.toNat w w false
       (fun e =>
         let ab := operandsOf s x false w e
         .write (if maskBit s 0 0 e then ab.2 else ab.1) 0 none)
       (fun _ t => t) (fun _ => none))

/-! ## VCMP (R135, R136) -/

/-- The conditions of VCMP: eq, ne, lt, le, gt, ltu, leu, gtu. -/
def intCond (cond : BitVec 3) (w a b : Nat) : Bool :=
  match cond.toNat with
  | 0 => a == b
  | 1 => a != b
  | 2 => decide (toInt w a < toInt w b)
  | 3 => decide (toInt w a ≤ toInt w b)
  | 4 => decide (toInt w b < toInt w a)
  | 5 => decide (a < b)
  | 6 => decide (a ≤ b)
  | _ => decide (b < a)

/-- What a comparison names: its destination is a single register, and no named source may hold it (R136). -/
def cmpReq (s : State) (i : Instr) (cls : PipeClass) (x : VOp) (accept : EType → Bool) : VReq :=
  { vreq (wordOf i) cls x.c with
    groupReads := vopSources x, singleWrites := [x.vd.toNat], masked := x.m, accept := some accept
    clash := ((vopSources x).flatMap (groupRegs s)).contains x.vd.toNat }

def execVcmp (x : VOp) (cond : BitVec 3) (s : State) : Out :=
  let q := cmpReq s (.vcmp x cond) .alu x acceptInt
  withCheck s (checkVector s q)
    (let w := sew s
     maskwise s q x.m x.d x.vd.toNat w fun e =>
       let ab := operandsOf s x false w e
       intCond cond w ab.1 ab.2)

end Sys2Proof.Machine
end

