-- ==== Sys2Proof/Machine/VFloat.lean ====
section
/-! DEFINITION. Floating-point vector instructions (07 R137 to R143): opcodes 0x15 and 0x16. -/
namespace Sys2Proof.Machine

/-- FP32, FP16, BF16 (R131). -/
def acceptFloat : EType → Bool
  | .fp f => f.flush
  | _ => false

/-- The formats above, E4M3 and E5M2. -/
def acceptFloat8 : EType → Bool
  | .fp f => f.hasNan
  | _ => false

/-- The formats of opcode 0x16. -/
def acceptSpecial : EType → Bool
  | .fp f => f == fp32 || f == bf16
  | _ => false

/-- The current format. -/
def fmtD (s : State) : Fmt :=
  match etypeD s with
  | .fp f => f
  | _ => fp32

/-! ## Rounded arithmetic (R137, R138) -/

/-- One rounded operation: an exact value with its flags. -/
def rounded (s : State) (f : Fmt) (v : FVal × FFlags) : ElemRes :=
  let w := roundTo f (rndMode s.hart) (ftzOf s.hart) v.1
  .write w.bits (w.flags ||| v.2) none

/-- The mode is RDN, which makes an exact zero sum −0 (03 R66). -/
def isRdn (s : State) : Bool := rndMode s.hart == .rdn

/-- An operation of two operands. -/
def floatVec (i : Instr) (x : VOp) (op : State → FVal → FVal → FVal × FFlags) (s : State) : Out :=
  let q := vopReq i .fma x acceptFloat
  withCheck s (checkVector s q)
    (let f := fmtD s
     elementwise s q x.m x.d x.vd.toNat f.width f.width false fun e =>
       let ab := operandsOf s x false f.width e
       rounded s f (op s (readF f (ftzOf s.hart) ab.1) (readF f (ftzOf s.hart) ab.2)))

/-- A value with NV where the operation was invalid. -/
def withNV (p : FVal × Bool) : FVal × FFlags := (p.1, flagIf p.2 flagNV)

def sumOf (s : State) (a b : FVal) : FVal × FFlags := withNV (fadd (isRdn s) a b)
def diffOf (s : State) (a b : FVal) : FVal × FFlags := withNV (fadd (isRdn s) a (fneg b))
def prodOf (_ : State) (a b : FVal) : FVal × FFlags := withNV (fmul a b)
def quotOf (_ : State) (a b : FVal) : FVal × FFlags := fdiv a b

def execVfadd (x : VOp) (s : State) : Out := floatVec (.vfadd x) x sumOf s
def execVfsub (x : VOp) (s : State) : Out := floatVec (.vfsub x) x diffOf s
def execVfmul (x : VOp) (s : State) : Out := floatVec (.vfmul x) x prodOf s
def execVfdiv (x : VOp) (s : State) : Out := floatVec (.vfdiv x) x quotOf s

/-- What a single-source instruction names. -/
def vunReq (i : Instr) (cls : PipeClass) (x : VUn) (accept : EType → Bool) : VReq :=
  { vreq (wordOf i) cls x.c with
    groupReads := [x.vs2.toNat], groupWrites := [x.vd.toNat], masked := x.m, accept := some accept }

/-- A single-source instruction on the current format. -/
def unaryVec (i : Instr) (x : VUn) (accept : EType → Bool) (f : Fmt → Nat → ElemRes) (s : State) : Out :=
  let q := vunReq i .fma x accept
  withCheck s (checkVector s q)
    (let fm := fmtD s
     elementwise s q x.m x.d x.vd.toNat fm.width fm.width false fun e => f fm (elem s 2 x.vs2.toNat fm.width e))

def execVfsqrt (x : VUn) (s : State) : Out :=
  unaryVec (.vfsqrt x) x acceptFloat (fun f b => rounded s f (fsqrt (readF f (ftzOf s.hart) b))) s

/-- A fused operation: the exact product, perhaps negated, plus the old element, perhaps negated (R138). -/
def fusedOf (s : State) (negProduct negAddend : Bool) (a b c : FVal) : FVal × FFlags :=
  let p := fmul a b
  let r := fadd (isRdn s) (if negProduct then fneg p.1 else p.1) (if negAddend then fneg c else c)
  (r.1, flagIf (p.2 || r.2) flagNV)

def fusedVec (i : Instr) (x : VOp) (negProduct negAddend : Bool) (s : State) : Out :=
  let q := { vopReq i .fma x acceptFloat with groupReads := x.vd.toNat :: vopSources x }
  withCheck s (checkVector s q)
    (let f := fmtD s
     let rd := readF f (ftzOf s.hart)
     elementwise s q x.m x.d x.vd.toNat f.width f.width false fun e =>
       let ab := operandsOf s x false f.width e
       rounded s f (fusedOf s negProduct negAddend (rd ab.1) (rd ab.2) (rd (elem s 3 x.vd.toNat f.width e))))

def execVfma (x : VOp) (s : State) : Out := fusedVec (.vfma x) x false false s
def execVfnma (x : VOp) (s : State) : Out := fusedVec (.vfnma x) x true false s
def execVfms (x : VOp) (s : State) : Out := fusedVec (.vfms x) x false true s

/-! ## Selection (R139) -/

/-- NF where a written pattern is an infinity or a NaN. -/
def nfOf (f : Fmt) (bits : Nat) : FFlags :=
  match decodeF f bits with
  | .nan => flagNF
  | .inf _ => flagNF
  | .fin .. => 0

/-- a is taken as the smaller: −0 ranks below +0 (03 R66). -/
def fless (a b : FVal) : Bool :=
  let c := fcmp a b
  decide (c < 0) || (c == 0 && a.neg && !b.neg)

/-- The operand that a minimum or maximum selects, by its bits as read. -/
def selectBits (f : Fmt) (ftz wantMax : Bool) (a b : Nat) : Nat :=
  let a := flushIn f ftz a
  let b := flushIn f ftz b
  let va := decodeF f a
  let vb := decodeF f b
  if va.isNan then (if vb.isNan then f.nan else b)
  else if vb.isNan then a
  else if wantMax then (if fless va vb then b else a)
  else (if fless vb va then b else a)

/-- An instruction that selects bits and sets only NF. -/
def selectVec (i : Instr) (x : VOp) (g : Fmt → Nat → Nat → Nat) (s : State) : Out :=
  let q := vopReq i .fma x acceptFloat8
  withCheck s (checkVector s q)
    (let f := fmtD s
     elementwise s q x.m x.d x.vd.toNat f.width f.width false fun e =>
       let ab := operandsOf s x false f.width e
       let r := g f ab.1 ab.2
       .write r (nfOf f r) none)

def execVfmin (x : VOp) (s : State) : Out := selectVec (.vfmin x) x (fun f a b => selectBits f (ftzOf s.hart) false a b) s
def execVfmax (x : VOp) (s : State) : Out := selectVec (.vfmax x) x (fun f a b => selectBits f (ftzOf s.hart) true a b) s

/-- The stored sign of a pattern. -/
def signOf (f : Fmt) (bits : Nat) : Bool := bits / 2 ^ (f.width - 1) % 2 == 1

/-- The stored magnitude of a with a sign; the canonical NaN where a is NaN. -/
def signed (f : Fmt) (a : Nat) (neg : Bool) : Nat :=
  if (decodeF f a).isNan then f.nan else signBits f neg + a % 2 ^ (f.width - 1)

def execVfsgnCopy (x : VOp) (s : State) : Out :=
  selectVec (.vfsgnCopy x) x (fun f a b => signed f a (signOf f b)) s
def execVfsgnNeg (x : VOp) (s : State) : Out :=
  selectVec (.vfsgnNeg x) x (fun f a b => signed f a (!signOf f b)) s
def execVfsgnXor (x : VOp) (s : State) : Out :=
  selectVec (.vfsgnXor x) x (fun f a b => signed f a (signOf f a != signOf f b)) s

/-! ## VFCMP and VFCLASS (R140, R141) -/

/-- The conditions of VFCMP: eq, ne, lt, le, gt, ge, un, ord. -/
def floatCond (cond : BitVec 3) (a b : FVal) : Bool :=
  let un := a.isNan || b.isNan
  let c := fcmp a b
  match cond.toNat with
  | 0 => !un && c == 0
  | 1 => un || c != 0
  | 2 => !un && decide (c < 0)
  | 3 => !un && decide (c ≤ 0)
  | 4 => !un && decide (0 < c)
  | 5 => !un && decide (0 ≤ c)
  | 6 => un
  | _ => !un

def execVfcmp (x : VOp) (cond : BitVec 3) (s : State) : Out :=
  let q := cmpReq s (.vfcmp x cond) .fma x acceptFloat8
  withCheck s (checkVector s q)
    (let f := fmtD s
     maskwise s q x.m x.d x.vd.toNat f.width fun e =>
       let ab := operandsOf s x false f.width e
       floatCond cond (readF f (ftzOf s.hart) ab.1) (readF f (ftzOf s.hart) ab.2))

/-- The class code of a stored pattern. -/
def classCode (f : Fmt) (bits : Nat) : Nat :=
  let neg := signOf f bits
  match decodeF f bits with
  | .nan => 8
  | .inf _ => if neg then 0 else 7
  | .fin _ m _ =>
    if m = 0 then (if neg then 3 else 4)
    else if isSubnormal f bits then (if neg then 2 else 5)
    else (if neg then 1 else 6)

def execVfclass (x : VUn) (s : State) : Out :=
  unaryVec (.vfclass x) x acceptFloat8 (fun f b => .write (classCode f b) 0 none) s

/-! ## Special functions (R142, R143) -/

def specialVec (i : Instr) (k : Special) (x : VUn) (s : State) : Out :=
  unaryVec i x acceptSpecial (fun f b => valRes (specialTo f k b)) s

def execVfexp2 (x : VUn) (s : State) : Out := specialVec (.vfexp2 x) .exp2 x s
def execVflog2 (x : VUn) (s : State) : Out := specialVec (.vflog2 x) .log2 x s
def execVfrcp (x : VUn) (s : State) : Out := specialVec (.vfrcp x) .rcp x s
def execVfrsq (x : VUn) (s : State) : Out := specialVec (.vfrsq x) .rsq x s
def execVftanh (x : VUn) (s : State) : Out := specialVec (.vftanh x) .tanh x s
def execVfsigm (x : VUn) (s : State) : Out := specialVec (.vfsigm x) .sigm x s

end Sys2Proof.Machine
end

