-- ==== Sys2Proof/Machine/VMem.lean ====
section
/-! DEFINITION. Vector loads and stores (09 R175 to R178) and VSCATADD (R179, R180). -/
namespace Sys2Proof.Machine

/-! ## Addresses and elements (R175) -/

/-- Bytes of an element access; a 4-bit element lies in one byte. -/
def elemBytes (w : Nat) : Nat := max 1 (w / 8)

/-- Addr(e) of the unit mode. -/
def unitAddr (s : State) (base : Reg) (w e : Nat) : Word := readG s base + BitVec.ofNat 64 (e * w / 8)
/-- Addr(e) of the strided mode. -/
def strideAddr (s : State) (base x : Reg) (e : Nat) : Word := readG s base + BitVec.ofNat 64 e * readG s x
/-- Addr(e) of the twod mode; the pair is two registers from an even one. -/
def twodAddr (s : State) (base x : Reg) (e : Nat) : Word :=
  readG s base + BitVec.ofNat 64 (e / s.hart.vl) * readG s x + BitVec.ofNat 64 (e % s.hart.vl) * readG s (x + 1)
/-- Addr(e) of the indexed mode. -/
def indexAddr (s : State) (base x : Reg) (w e : Nat) : Word :=
  readG s base + BitVec.ofNat 64 (elem s 4 x.toNat w e)

/-- One element as it lies in memory: nibble e mod 2 of its byte at SEW 4. -/
def fromBytes (w e : Nat) (bs : List Byte) : Nat := if w = 4 then natOfBytes bs / 16 ^ (e % 2) % 16 else natOfBytes bs

/-- Alignment, then translation, permission, kind and ownership (02 R50); then an element of a HOST or PEER page may end in
an error or have to wait (24 R405, R408). -/
def resolveElem (s : State) (a : Word) (b : Nat) (acc : Access) (ok : Nat → Bool) : Except TrapInfo Phys :=
  if a.toNat % b ≠ 0 then .error (accessTrap causeMisalign a acc)
  else match resolveKind s a acc ok with
    | .error t => .error t
    | .ok p => match remoteFault s p a acc with
      | some t => .error t
      | none => .ok p

/-- The load of one element. -/
def loadElem (s : State) (a : Word) (w e : Nat) : Except TrapInfo (State × Nat) :=
  let b := elemBytes w
  match resolveElem s a b .load kindMemory with
  | .error t => .error t
  | .ok p =>
    if readPoison s p.pa b then .error (accessTrap causePoison a .load)
    else
      let t := touch s p false
      .ok (loadTouch t p.pa b, fromBytes w e (readBytes t p.pa b))

/-- The store of one element; a 4-bit one updates its byte at the home or bank. -/
def storeElem (s : State) (a : Word) (w e x : Nat) : Except TrapInfo State :=
  let b := elemBytes w
  match resolveElem s a b .store kindMemory with
  | .error t => .error t
  | .ok p =>
    let t := touch s p true
    if w = 4 then
      let r := atomicRead t p.pa 1
      let old := natOfBytes r.2
      let new := if e % 2 = 0 then old / 16 * 16 + x % 16 else x % 16 * 16 + old % 16
      .ok (atomicWrite r.1 p.pa (bytesOfNat 1 new))
    else .ok (storeTo t p (bytesOfNat b x))

/-! ## Runs over elements (R176, R178) -/

/-- What a run over a load's elements gives. -/
structure LoadRun where
  st : State
  ups : List (Nat × Nat)
  trap : Option (Nat × TrapInfo)

/-- The loads of some elements in ascending order, up to a trap. -/
def loadRun (addr : Nat → Word) (m : Bool) (w : Nat) : State → List Nat → LoadRun
  | s, [] => ⟨s, [], none⟩
  | s, e :: es =>
    if active s m e then
      match loadElem s (addr e) w e with
      | .error t => ⟨s, [], some (e, t)⟩
      | .ok (t, x) =>
        let r := loadRun addr m w t es
        ⟨r.st, (e, x) :: r.ups, r.trap⟩
    else
      let r := loadRun addr m w s es
      ⟨r.st, if vtMZ s.hart then (e, 0) :: r.ups else r.ups, r.trap⟩

/-- The stores of some elements in ascending order, up to a trap. -/
def storeRun (addr : Nat → Word) (m : Bool) (vs3 w : Nat) : State → List Nat → State × Option (Nat × TrapInfo)
  | s, [] => (s, none)
  | s, e :: es =>
    if active s m e then
      match storeElem s (addr e) w e (elem s 1 vs3 w e) with
      | .error t => (s, some (e, t))
      | .ok t => storeRun addr m vs3 w t es
    else storeRun addr m vs3 w s es

/-- One element of a register becomes undefined. The register is one that the load writes: its mask bits and its mask mark
are gone (DESIGN CHOICE beside 08 R151, log 68). -/
def dropElem (vlm maxsew v w : Nat) (regs : Vector VReg 32) (e : Nat) : Vector VReg 32 :=
  let i := v + e / vlm
  let r := regs.getD i VReg.reset
  regs.setIfInBounds i { tag := .elems w, mark := false, data := mapErase (dataAt r maxsew w) (e % vlm), rest := [], bad := r.bad }

/-- The active elements from where a load stopped are undefined until it completes (R178). They are not written, so no
register becomes dirty for them (01 R31, 02 R49). -/
def blankFrom (s : State) (m : Bool) (vd w at_ : Nat) : State :=
  let es := (elemRange at_ (tileSize s)).filter (active s m)
  let vlm := vlmax s
  { s with hart := setV s.hart (es.foldl (dropElem vlm s.hart.maxsew vd w) s.hart.v) }

/-- What a load that ended at `at_` leaves: the elements below it, and none of the active ones from there up. Under MZ the
masked-off elements below it are zero already, as the loop of R176 passes them (DESIGN CHOICE beside R178, log 67). -/
def loadedTo (q : VReq) (m : Bool) (vd w at_ : Nat) (r : LoadRun) : State :=
  joinConvoy (writeElems (blankFrom r.st m vd w at_) vd w r.ups) q

/-- The fault of the element at which a load stops (19 R358). -/
def loadFault (s : State) (m : Bool) (a : Word) (w e : Nat) : Option TrapInfo :=
  if active s m e then (match loadElem s a w e with | .error t => some t | .ok _ => none) else none

/-- The fault of the element at which a store stops. -/
def storeFault (s : State) (m : Bool) (a : Word) (w e : Nat) : Option TrapInfo :=
  if active s m e then
    (match resolveElem s a (elemBytes w) .store kindMemory with | .error t => some t | .ok _ => none)
  else none

/-- A vector load after its checks. -/
def loadVector (s : State) (q : VReq) (m : Bool) (vd : Nat) (addr : Nat → Word) : Out :=
  let n := tileSize s
  let lo := s.hart.vstart.toNat
  let w := sew s
  if n ≤ lo then .next (finishV (joinConvoy s q))
  else
    let hi := runEnd s q (groupElems s w)
    let r := loadRun addr m w s (elemRange lo hi)
    match r.trap <|> badTrap hi (stopPoint s (groupElems s w)) with
    | some (e, t) => .next (if t.cause = causeWaits then s else trapAt (loadedTo q m vd w e r) e t)
    | none =>
      if hi < n then .next (stopsAt (loadedTo q m vd w hi r) hi
        ((badFault s q hi) <|> loadFault r.st m (addr hi) w hi))
      else .next (finishV (joinConvoy (writeElems r.st vd w (r.ups ++ tailZeros s)) q))

/-- A vector store after its checks. -/
def storeVector (s : State) (q : VReq) (m : Bool) (vs3 : Nat) (addr : Nat → Word) : Out :=
  let n := tileSize s
  let lo := s.hart.vstart.toNat
  let w := sew s
  if n ≤ lo then .next (finishV (joinConvoy s q))
  else
    let hi := runEnd s q (groupElems s w)
    let r := storeRun addr m vs3 w s (elemRange lo hi)
    match r.2 <|> badTrap hi (stopPoint s (groupElems s w)) with
    | some (e, t) => .next (if t.cause = causeWaits then s else trapAt (joinConvoy r.1 q) e t)
    | none =>
      if hi < n then .next (stopsAt (joinConvoy r.1 q) hi
        ((badFault s q hi) <|> storeFault r.1 m (addr hi) w hi))
      else .next (finishV (joinConvoy r.1 q))

/-! ## The instructions -/

/-- Every legal format, and those of SEW 8 and more (R175). -/
def acceptUnit (_ : EType) : Bool := true
def acceptBytes (t : EType) : Bool := decide (8 ≤ t.width)

/-- What a vector memory instruction names; `index` says that bits 14:10 name a vector. -/
def memReq (s : State) (i : Instr) (x : VMem) (load index : Bool) (accept : EType → Bool) : VReq :=
  { vreq (wordOf i) (if load then .load else .store) x.c with
    groupReads := (if load then [] else [x.v.toNat]) ++ (if index then [x.x.toNat] else [])
    groupWrites := if load then [x.v.toNat] else []
    masked := x.m, accept := some accept, clash := load && index && groupClash s x.v x.x }

def execVld (x : VMem) (s : State) : Out :=
  let q := memReq s (.vld x) x true false acceptUnit
  withCheck s (checkVector s q) (loadVector s q x.m x.v.toNat (unitAddr s x.base (sew s)))
def execVlds (x : VMem) (s : State) : Out :=
  let q := memReq s (.vlds x) x true false acceptBytes
  withCheck s (checkVector s q) (loadVector s q x.m x.v.toNat (strideAddr s x.base x.x))
def execVld2d (x : VMem) (s : State) : Out :=
  let q := memReq s (.vld2d x) x true false acceptBytes
  withCheck s (checkVector s q) (loadVector s q x.m x.v.toNat (twodAddr s x.base x.x))
def execVldx (x : VMem) (s : State) : Out :=
  let q := memReq s (.vldx x) x true true acceptBytes
  withCheck s (checkVector s q) (loadVector s q x.m x.v.toNat (indexAddr s x.base x.x (sew s)))

def execVst (x : VMem) (s : State) : Out :=
  let q := memReq s (.vst x) x false false acceptUnit
  withCheck s (checkVector s q) (storeVector s q x.m x.v.toNat (unitAddr s x.base (sew s)))
def execVsts (x : VMem) (s : State) : Out :=
  let q := memReq s (.vsts x) x false false acceptBytes
  withCheck s (checkVector s q) (storeVector s q x.m x.v.toNat (strideAddr s x.base x.x))
def execVstx (x : VMem) (s : State) : Out :=
  let q := memReq s (.vstx x) x false true acceptBytes
  withCheck s (checkVector s q) (storeVector s q x.m x.v.toNat (indexAddr s x.base x.x (sew s)))

/-! ## VSCATADD (R179, R180) -/

/-- INT and UINT at SEW 32 and 64, FP32, FP16, BF16. -/
def acceptScatter : EType → Bool
  | .int w => decide (32 ≤ w)
  | .uint w => decide (32 ≤ w)
  | .fp f => f.flush

/-- Add of R179: bits and flags. -/
def scatterAdd (s : State) (a b : Nat) : Nat × FFlags :=
  match etypeD s with
  | .fp f =>
    let v := fadd (isRdn s) (readF f (ftzOf s.hart) a) (readF f (ftzOf s.hart) b)
    let w := roundTo f (rndMode s.hart) (ftzOf s.hart) v.1
    (w.bits, w.flags ||| flagIf v.2 flagNV)
  | t => ((a + b) % 2 ^ t.width, 0)

/-- The checks of a window: every element's address and place, or the first trap. -/
def windowChecks (s : State) (addr : Nat → Word) (b : Nat) : List Nat → Except TrapInfo (List (Nat × Word × Phys))
  | [] => .ok []
  | e :: es =>
    match resolveElem s (addr e) b .atomic kindShared with
    | .error t => .error t
    | .ok p =>
      if atomicPoison s p.pa b then .error (accessTrap causePoison (addr e) .atomic)
      else match windowChecks s addr b es with
        | .error t => .error t
        | .ok l => .ok ((e, addr e, p) :: l)

/-- A partial sum of a window: its address, its place, the sum so far and its flags. -/
structure Partial where
  va : Word
  phys : Phys
  sum : Nat
  flags : FFlags

/-- Add an element to the partial sum of its address, or start one. -/
def addPartial (s : State) (va : Word) (p : Phys) (x : Nat) : List Partial → List Partial
  | [] => [⟨va, p, x, 0⟩]
  | y :: ys =>
    if y.va = va then
      let r := scatterAdd s y.sum x
      { y with sum := r.1, flags := y.flags ||| r.2 } :: ys
    else y :: addPartial s va p x ys

/-- One indivisible add at an address's home. -/
def addHome (b : Nat) (s : State) (y : Partial) : State :=
  let r := atomicRead (touch s y.phys true) y.phys.pa b
  let v := scatterAdd s (natOfBytes r.2) y.sum
  raiseFlags (atomicWrite r.1 y.phys.pa (bytesOfNat b v.1)) (y.flags ||| v.2)

/-- One window: its adds, or the trap that it takes as a whole. -/
def scatterWindow (s : State) (addr : Nat → Word) (vs3 w : Nat) (es : List Nat) : Except TrapInfo State :=
  match windowChecks s addr (w / 8) es with
  | .error t => .error t
  | .ok l => .ok ((l.foldl (fun ps p => addPartial s p.2.1 p.2.2 (elem s 1 vs3 w p.1) ps) []).foldl (addHome (w / 8)) s)

/-- The windows from `k` upward, at most `fuel` of them, below index `hi`. -/
def scatterRun (addr : Nat → Word) (m : Bool) (vs3 w hi : Nat) : Nat → Nat → State → State × Option (Nat × TrapInfo)
  | 0, _, s => (s, none)
  | fuel + 1, k, s =>
    let lo := max (256 * k) s.hart.vstart.toNat
    if hi ≤ lo then (s, none)
    else
      match scatterWindow s addr vs3 w ((elemRange lo (min hi (256 * k + 256))).filter (active s m)) with
      | .error t => (s, some (lo, t))
      | .ok t => scatterRun addr m vs3 w hi fuel (k + 1) t

/-- Where a run of windows ends: a window with an uncorrectable granule is not begun. -/
def windowEnd (s : State) (q : VReq) : Nat :=
  match firstBad s q with
  | some b => min (max s.hart.vstart.toNat (b / 256 * 256)) (stopPoint s 256)
  | none => stopPoint s 256

/-- The trap of the window at `hi`. -/
def windowFault (s : State) (q : VReq) (hi : Nat) : Option TrapInfo :=
  if (firstBad s q).any (fun b => decide (b / 256 ≤ hi / 256)) then some (plainTrap causePoison 0) else none

def execVscatadd (x : VMem) (s : State) : Out :=
  let q := memReq s (.vscatadd x) x false true acceptScatter
  withCheck s (checkVector s q)
    (let n := tileSize s
     let lo := s.hart.vstart.toNat
     let w := sew s
     if n ≤ lo then .next (finishV (joinConvoy s q))
     else
       let hi := windowEnd s q
       let r := scatterRun (indexAddr s x.base x.x w) x.m x.v.toNat w hi (hi / 256 + 1) (lo / 256) s
       match r.2 <|> badTrap hi (stopPoint s 256) with
       | some (e, t) => .next (if t.cause = causeWaits then s else trapAt (joinConvoy r.1 q) e t)
       | none =>
         if hi < n then
           let next := scatterRun (indexAddr s x.base x.x w) x.m x.v.toNat w (min n (hi + 256)) 1 (hi / 256)
             { r.1 with hart := setVstart hi r.1.hart }
           .next (stopsAt (joinConvoy r.1 q) hi ((windowFault s q hi) <|> next.2.map (·.2)))
         else .next (finishV (joinConvoy r.1 q)))

end Sys2Proof.Machine
end

