-- ==== Sys2Proof/Machine/Strips.lean ====
section
/-! DEFINITION. Strips (09 R185 to R188): STRIPSET, SLD, SST, STRIPPOS and their flow control. -/
namespace Sys2Proof.Machine

def stripOf (s : State) (h : Reg) : Strip := s.hart.strip.getD h.toNat Strip.reset

/-- A strip handle is written: VSTATE becomes DIRTY (01 R31). -/
def setStrip (s : State) (h : Reg) (x : Strip) : State :=
  { s with hart := { s.hart with strip := s.hart.strip.setIfInBounds h.toNat x, vstate := 2 } }

/-- Instructions of opcode 0x1D that have no class raise VOFF as the others do (01 R31). -/
def voffCheck (s : State) (i : Instr) : Option TrapInfo :=
  if s.hart.vstate == 0 then some (plainTrap causeVoff ((wordOf i).setWidth 64)) else none

/-! ## STRIPSET (R185) -/

/-- The largest strip: 10.625 MiB. -/
def stripMax : Nat := 0xAA0000

/-- The physical address that an address translates to. -/
def placeAt (s : State) (a : Word) : Option Nat :=
  match leafFor s a with
  | .leaf pte _ frame _ => some (physOf pte frame a)
  | _ => none

/-- A place in the hart's own vault, and the next one where a page came before. -/
def stripPlace (s : State) (next : Option Nat) (pa : Nat) : Bool := columnOf pa == s.col && next.all (· == pa)

/-- Every page of a strip lies in the hart's own vault, readable and writable, one after the other: the vault address
of the first byte. A page that the host owns raises MIGRATE after these checks, as every access does (02 R50; DEDUCED, log
71). The address of the first page that TVAL holds is the strip's own (DESIGN CHOICE, log 71). -/
def stripPages (s : State) (next : Option Nat) : List (Word × Nat) → Except TrapInfo (List Phys)
  | [] => .ok []
  | (a, n) :: rest =>
    match resolveKind s a .atomic (· == kindVault) with
    | .error t =>
      if t.cause = causeMigrate ∧ (placeAt s a).any (fun pa => !stripPlace s next pa) then
        .error (accessTrap causeAccess a .atomic)
      else .error t
    | .ok p =>
      if !stripPlace s next p.pa then .error (accessTrap causeAccess a .atomic)
      else match stripPages s (some (p.pa + n)) rest with
        | .error t => .error t
        | .ok ps => .ok (p :: ps)

/-- A channel is bound to a handle other than this one. -/
def boundElsewhere (s : State) (h : Reg) (k : Nat) : Bool := (boundStrip (setStrip s h Strip.reset) s.col (k - 1)).isSome

/-- WP and RP of a channel are reset. -/
def resetPointers (s : State) (k : Nat) : State :=
  { s with core := setChan s.core k { chanOf s.core k with wp := 0, rp := 0 } }

/-- STRIPSET. The pages that it checks are marked as read and written (DESIGN CHOICE, log 71). -/
def execStripset (h gs1 gs2 : Reg) (chan : BitVec 2) (s : State) : Out :=
  let i := Instr.stripset h gs1 gs2 chan
  let a := readG s gs1
  let n := (readG s gs2).toNat
  withCheck s (voffCheck s i)
    (if n = 0 then
       done (cutChannels (setStrip s h { stripOf s h with len := 0, chan := 0 }) s.col)
     else if a.toNat % 64 ≠ 0 ∨ n % 64 ≠ 0 ∨ stripMax < n then raise s (plainTrap causeMisalign a)
     else match stripPages s none (pagesOf a n) with
       | .error t => raise s t
       | .ok ps =>
         if chan ≠ 0 ∧ boundElsewhere s h chan.toNat then raise s (plainTrap causeAccess (chan.setWidth 64))
         else if chan ≠ 0 ∧ !(chanOf s.core (chan.toNat - 1)).queue.isEmpty then .next (waitAt s i)
         else
           let base := (ps.head?.map (·.pa)).getD 0
           let t := ps.foldl (fun t p => touch t p true) s
           let t := if chan = 0 then t else resetPointers t (chan.toNat - 1)
           let t := setStrip t h
             { base := BitVec.ofNat 48 base, len := BitVec.ofNat 32 n, pos := 0, chan := chan, consumed := 0
               produced := 0 }
           done (cutChannels t t.col))

/-! ## Flow control (R187) -/

/-- What flow control says of an SLD or SST. -/
inductive Flow
  | go | hold | wrong
  deriving DecidableEq, Repr

/-- The command of a channel that uses the strip bound to it. -/
def stripCommand (x : Channel) : Option CopyCmd := x.queue.find? (fun c => c.dstStrip || c.srcStrip)

/-- The bytes that an access of n bytes needs are there, or have room. -/
def flowReady (ch : Channel) (x : Strip) (load : Bool) (n : Nat) : Bool :=
  if load then decide (x.consumed.toNat + n ≤ ch.wp.toNat)
  else decide (x.produced.toNat + n ≤ ch.rp.toNat + x.len.toNat)

/-- Flow control of an access of n bytes to a strip; one that resumes has met its condition before (log 28). -/
def flowOf (s : State) (x : Strip) (load : Bool) (n : Nat) : Flow :=
  if x.chan = 0 then .go
  else
    let ch := chanOf s.core (x.chan.toNat - 1)
    let ready : Flow := if flowReady ch x load n then .go else .hold
    match stripCommand ch with
    | none => if 0 < s.hart.vstart.toNat then ready else .hold
    | some c => if (if load then c.dstStrip else c.srcStrip) then ready else .wrong

/-! ## SLD and SST (R186) -/

/-- The vault address of element e. -/
def stripAddr (x : Strip) (b e : Nat) : Nat := x.base.toNat + (x.pos.toNat + e * b) % x.len.toNat

/-- Bytes that an access of the whole tile moves. -/
def stripBytes (s : State) : Nat := tileSize s * (sew s / 8)

/-- The instruction's own traps and flow control; `k` runs where it may go. -/
def onStrip (s : State) (i : Instr) (q : VReq) (h : Reg) (load : Bool) (k : Strip → Out) : Out :=
  let x := stripOf s h
  if tileSize s ≤ s.hart.vstart.toNat then .next (finishV (joinConvoy s q))
  else if x.len = 0 ∨ x.len.toNat < stripBytes s then raise s (illegal (wordOf i))
  else match flowOf s x load (stripBytes s) with
    | .go => k x
    | .hold => .next (waitAt s i)
    | .wrong => raise s (plainTrap causeAccess (x.base.setWidth 64))

/-- POS moves on by n bytes. -/
def advanced (x : Strip) (n : Nat) : Strip := { x with pos := BitVec.ofNat 32 ((x.pos.toNat + n) % x.len.toNat) }

/-- The elements of a strip from `es`, up to the first that meets uncorrectable data. -/
def stripLoads (s : State) (x : Strip) (w : Nat) : List Nat → List (Nat × Nat) × Option (Nat × TrapInfo)
  | [] => ([], none)
  | e :: es =>
    let a := stripAddr x (w / 8) e
    if readPoison s a (w / 8) then ([], some (e, accessTrap causePoison (BitVec.ofNat 64 a) .load))
    else
      let r := stripLoads s x w es
      ((e, natOfBytes (readBytes s a (w / 8))) :: r.1, r.2)

def execSld (c : Bool) (vd h : Reg) (s : State) : Out :=
  let i := Instr.sld c vd h
  let q := { vreq (wordOf i) .load c with groupWrites := [vd.toNat], accept := some acceptBytes }
  withCheck s (checkVector s q)
    (onStrip s i q h true fun x =>
      let n := tileSize s
      let w := sew s
      let hi := runEnd s q (groupElems s w)
      let p := stripLoads s x w (elemRange s.hart.vstart.toNat hi)
      let r : LoadRun := ⟨s, p.1, p.2⟩
      match r.trap with
      | some (e, t) => .next (trapAt (loadedTo q false vd.toNat w e r) e t)
      | none =>
        if hi < n then .next (stopsAt (loadedTo q false vd.toNat w hi r) hi ((stripLoads s x w [hi]).2.map (·.2)))
        else
          let t := writeElems s vd.toNat w (r.ups ++ tailZeros s)
          let m := stripBytes s
          .next (finishV (joinConvoy (setStrip t h { advanced x m with consumed := x.consumed + BitVec.ofNat 64 m }) q)))

/-- The bytes of an SST are at their bank when it completes, so that the channel can read them (R187); what the hart stored
to vaults before goes first. -/
def execSst (c : Bool) (vs3 h : Reg) (s : State) : Out :=
  let i := Instr.sst c vs3 h
  let q := { vreq (wordOf i) .store c with groupReads := [vs3.toNat], accept := some acceptBytes }
  withCheck s (checkVector s q)
    (onStrip s i q h false fun x =>
      let n := tileSize s
      let w := sew s
      let hi := runEnd s q (groupElems s w)
      let t := (elemRange s.hart.vstart.toNat hi).foldl (fun t e =>
        performBytes t (stripAddr x (w / 8) e) (bytesOfNat (w / 8) (elem s 1 vs3.toNat w e)))
        (performWhere s s.cur isVault)
      match badTrap hi (stopPoint s (groupElems s w)) with
      | some (e, tr) => .next (trapAt (joinConvoy t q) e tr)
      | none =>
        if hi < n then .next (stopsAt (joinConvoy t q) hi (badFault s q hi))
        else
          let m := stripBytes s
          .next (finishV (joinConvoy (setStrip t h { advanced x m with produced := x.produced + BitVec.ofNat 64 m }) q)))

/-! ## STRIPPOS (R188) and the end of a wait -/

def execStrippos (gd h : Reg) (s : State) : Out :=
  withCheck s (voffCheck s (.strippos gd h))
    (let x := stripOf s h
     done (writeG s gd (if x.len = 0 then 0 else x.pos.setWidth 64)))

/-- An SLD or SST that waits is asked again. -/
def execStripFlowRelease (h : Nat) (s : State) : Out :=
  goOn s h fun t i => match i with
    | .sld c vd x => execSld c vd x t
    | .sst c vs3 x => execSst c vs3 x t
    | _ => .next t

end Sys2Proof.Machine
end

