-- ==== Sys2Proof/Machine/Batch.lean ====
section
/-! DEFINITION. Command batches (11 R228 to R236), channel pointers (R237), SETTLE, RENEW and RGNCNT (R238 to R240):
opcode 0x21. -/
namespace Sys2Proof.Machine

/-! ## Records (R230, R234) -/

/-- The 64 bytes of command record q of a tile in v (R228). -/
def commandBytes (s : State) (v q : Nat) : List Byte :=
  (List.range 8).flatMap (fun j => bytesOfNat 8 (elem s 1 v 64 (8 * q + j)))

/-- A well-formed copy record under the ASID of the hart, with its channel (R230). -/
def parseCopy (s : State) (bs : List Byte) : Option (Nat × CopyCmd) :=
  let len := field bs 16 4
  let kind := field bs 20 1
  let chan := field bs 21 1
  let flags := field bs 22 1
  let strip := decide (0 < flags)
  let ok := decide (0 < len) && (kind == 1 || kind == 2) && decide (chan < 2) && decide (flags < 3) && field bs 23 41 == 0
    && (!strip || (boundStrip s s.col chan).isSome)
  if ok then
    some (chan,
      { src := BitVec.ofNat 64 (field bs 0 8), dst := BitVec.ofNat 64 (field bs 8 8), len := len, fill := kind == 2
        dstStrip := flags == 1, srcStrip := flags == 2, asid := s.hart.asid, ptbase := s.hart.ptbase, hart := s.cur
        user := s.hart.mode == .user, counted := true, base := 0, moved := 0 })
  else none

/-- The fields of an in-place record. -/
def inPlaceFields (bs : List Byte) : InPlace where
  op := field bs 0 1
  fmt := field bs 1 1
  count := field bs 4 4
  dslot := field bs 8 2
  xslot := field bs 10 2
  zslot := field bs 12 2
  doff := field bs 16 8
  xoff := field bs 24 8
  zoff := field bs 32 8
  rlen := field bs 40 4
  xstride := field bs 44 4
  a := BitVec.ofNat 32 (field bs 48 4)
  b := BitVec.ofNat 32 (field bs 52 4)

/-- A well-formed in-place record (R234). -/
def parseInPlace (bs : List Byte) : Option InPlace :=
  let r := inPlaceFields bs
  let ok := decide (1 ≤ r.op) && decide (r.op ≤ 6) && decide (r.fmt < 3) && decide (0 < r.count)
    && decide (r.dslot < 16384) && decide (r.xslot < 16384) && decide (r.zslot < 16384)
    && field bs 2 2 == 0 && field bs 14 2 == 0 && field bs 56 8 == 0
    && r.doff % 128 == 0 && r.xoff % 128 == 0 && decide (0 < r.rlen) && r.rlen % 128 == 0 && r.xstride % 128 == 0
    && (if usesZ r.op then r.zoff % (if r.op = 5 then 128 else 4) == 0 else r.zslot == 0 && r.zoff == 0)
  if ok then some r else none

/-! ## Acceptance (R229) -/

/-- What becomes of a record: refused, no room in its queue, or accepted. -/
inductive Accepted
  | refused | full | accepted (s : State)

/-- A copy record: a channel holds 32 commands. What precedes the instruction is at device scope by then (R233). -/
def acceptCopy (s : State) (bs : List Byte) : Accepted :=
  match parseCopy s bs with
  | none => .refused
  | some (k, cmd) =>
    let x := chanOf s.core k
    if 32 ≤ x.queue.length then .full
    else .accepted { s with core := setChan s.core k { x with queue := x.queue ++ [cmd] } }

/-- In-place commands that a core has outstanding. -/
def outstanding (s : State) (col : Nat) : Nat := (s.eng.cmd.filter (fun c => colOf c.hart == col)).length

/-- An in-place record: a core holds 128 commands. DSLOT counts it in INFLIGHT where it is assigned (14 R311, R313). -/
def acceptInPlace (s : State) (bs : List Byte) : Accepted :=
  match parseInPlace bs with
  | none => .refused
  | some r =>
    if 128 ≤ outstanding s s.col then .full
    else
      let own := slotAssigned s r.dslot s.hart.asid
      let cmd : Command :=
        { id := s.eng.nextId, rcd := r, asid := s.hart.asid, hart := s.cur, owned := own, started := false, pieces := []
          status := 0, where_ := 0 }
      let s := { s with eng := { s.eng with cmd := s.eng.cmd ++ [cmd], nextId := s.eng.nextId + 1 } }
      .accepted (if own then setSlot s r.dslot { slotOf s r.dslot with inflight := (slotOf s r.dslot).inflight + 1 } else s)

/-- The commands q of a batch in ascending order; `fin` ends the run. -/
def batchRun (i : Instr) (accept : State → List Byte → Accepted) (gd : Reg) (v : Nat) (m : Bool) (fin : State → Out) :
    List Nat → State → Out
  | [], s => fin s
  | q :: qs, s =>
    if active s m (8 * q) then
      match accept s (commandBytes s v q) with
      | .refused => batchRun i accept gd v m fin qs s
      | .full => .next (waitAt { s with hart := setVstart (8 * q) s.hart } i)
      | .accepted t => batchRun i accept gd v m fin qs (writeG t gd (readG t gd ||| BitVec.ofNat 64 (2 ^ q)))
    else batchRun i accept gd v m fin qs s

/-- COPYB and BANKB read 64-bit integers (R227). -/
def acceptWords (t : EType) : Bool := t == .int 64 || t == .uint 64

/-- The rules for the batch (R228). -/
def batchOk (s : State) : Bool := s.hart.vl % 8 == 0 && decide (tileSize s / 8 ≤ 64)

/-- The mask bits and words that a batch reads: those of the commands from VSTART up. -/
def batchNeeds (s : State) (vs2 : Nat) (m : Bool) : List (Nat × Nat) :=
  ((elemRange (s.hart.vstart.toNat / 8) (tileSize s / 8)).flatMap fun q =>
    (if m then [maskAt s 0 (8 * q)] else [])
      ++ (if active s m (8 * q) then (List.range 8).map (fun j => (vs2, 8 * q + j)) else []))

/-- What a batch names. -/
def batchReq (s : State) (i : Instr) (c : Bool) (vs2 : Reg) (m : Bool) : VReq :=
  { vreq (wordOf i) .eng c with
    groupReads := [vs2.toNat], masked := m, accept := some acceptWords, needs := needed s (batchNeeds s vs2.toNat m) }

/-- A batch (R229). -/
def batch (i : Instr) (accept : State → List Byte → Accepted) (c : Bool) (gd vs2 : Reg) (m : Bool) (s : State) : Out :=
  let q := batchReq s i c vs2 m
  withCheck s (checkVector s q)
    (let n := tileSize s
     let lo := s.hart.vstart.toNat
     if n = 0 then .next (finishV (joinConvoy (writeG s gd 0) q))
     else if n ≤ lo then .next (finishV (joinConvoy s q))
     else if !batchOk s then raise s (illegal (wordOf i))
     else afterRelease s i 1 fun s =>
       let hi := stopPoint s 8
       let s := if lo = 0 then writeG s gd 0 else s
       batchRun i accept gd vs2.toNat m
         (fun t => .next (if hi < n then stopped (joinConvoy t q) hi else finishV (joinConvoy t q)))
         ((List.range (hi / 8 - lo / 8)).map (lo / 8 + ·)) s)

def execCopyb (c : Bool) (gd vs2 : Reg) (m : Bool) (s : State) : Out := batch (.copyb c gd vs2 m) acceptCopy c gd vs2 m s
def execBankb (c : Bool) (gd vs2 : Reg) (m : Bool) (s : State) : Out :=
  batch (.bankb c gd vs2 m) acceptInPlace c gd vs2 m s

/-- A batch that waits for room is asked again. -/
def execBatchQueueRoom (h : Nat) (s : State) : Out :=
  goOn s h fun t i => match i with
    | .copyb c gd v m => execCopyb c gd v m t
    | .bankb c gd v m => execBankb c gd v m t
    | _ => .next t

/-! ## COPYWP (R237) -/

/-- The word chosen by bits 9:8. -/
def pointerWord (x : Channel) (which : Nat) : Word :=
  match which with
  | 0 => x.wp
  | 1 => x.rp
  | _ => BitVec.ofNat 64 (x.done.toNat + x.first * 2 ^ 32)

def execCopywp (gd gs1 : Reg) (s : State) : Out :=
  let s := drained s
  let v := readG s gs1
  let which := (v.extractLsb' 8 2).toNat
  if v &&& ~~~(0x301 : Word) ≠ 0 ∨ which = 3 then raise s (plainTrap causeIllegal v)
  else done (acquire (writeG s gd (pointerWord (chanOf s.core (v.extractLsb' 0 1).toNat) which)) 1)

/-! ## SETTLE, RENEW, RGNCNT (R238 to R240) -/

/-- The range checks of SETTLE: the trap, or the physical start and length. -/
def regionRange (s : State) (slot off len : Word) : Except TrapInfo (Nat × Nat) :=
  if len ≠ 0 ∧ (off.toNat % 128 ≠ 0 ∨ len.toNat % 128 ≠ 0) then .error (plainTrap causeMisalign off)
  else if !slotAssigned s slot.toNat s.hart.asid then .error (plainTrap causeAccess slot)
  else
    let x := slotOf s slot.toNat
    if len = 0 then .ok (x.base, x.size)
    else if x.size < off.toNat + len.toNat then .error (plainTrap causeAccess off)
    else .ok (x.base + off.toNat, len.toNat)

/-- The sectors of a range that are dirty at their homes. -/
def dirtySectors (s : State) (a n : Nat) : List Nat :=
  (s.ms.l2.filter (fun p => p.2.dirty && decide (a ≤ p.1 * 128) && decide (p.1 * 128 < a + n))).map (·.1)

/-- A sweep starts; it counts in INFLIGHT of its slot. -/
def startSweep (s : State) (renew : Bool) (slot a n : Nat) : State :=
  let w : Sweep := { id := s.eng.nextId, slot := slot, renew := renew, start := a, len := n
                     todo := if renew then [] else dirtySectors s a n }
  let s := { s with eng := { s.eng with sweep := s.eng.sweep ++ [w], nextId := s.eng.nextId + 1 } }
  setSlot s slot { slotOf s slot with inflight := (slotOf s slot).inflight + 1 }

/-- SETTLE and RENEW: they act on no elements, so VSTART only becomes 0 (log 34). -/
def sweepOf (i : Instr) (renew c : Bool) (gs0 gs1 gs2 : Reg) (s : State) : Out :=
  let q := { vreq (wordOf i) .eng c with accept := none, needsVector := false }
  withCheck s (checkVector s q)
    (match regionRange s (readG s gs0) (readG s gs1) (readG s gs2) with
     | .error t => raise s t
     | .ok (a, n) => .next (finishV (joinConvoy (startSweep s renew (readG s gs0).toNat a n) q)))

def execSettle (c : Bool) (gs0 gs1 gs2 : Reg) (s : State) : Out :=
  sweepOf (.settle c gs0 gs1 gs2) false c gs0 gs1 gs2 s
def execRenew (c : Bool) (gs0 gs1 gs2 : Reg) (s : State) : Out :=
  sweepOf (.renew c gs0 gs1 gs2) true c gs0 gs1 gs2 s

/-- The count of a slot chosen by `which`. -/
def slotCount (x : Slot) (which : BitVec 2) : BitVec 32 := if which = 0 then x.sc else if which = 1 then x.rc else x.ic

def execRgncnt (gd gs1 : Reg) (which : BitVec 2) (s : State) : Out :=
  let s := drained s
  let n := readG s gs1
  if !slotAssigned s n.toNat s.hart.asid then raise s (plainTrap causeAccess n)
  else done (acquire (writeG s gd ((slotCount (slotOf s n.toNat) which).setWidth 64)) 1)

end Sys2Proof.Machine
end

