-- ==== Sys2Proof/Machine/Caches.lean ====
section
/-! DEFINITION. What caches do by themselves (01 R35, 13 R296, R298), and translation invalidations (13 R294, R295). -/
namespace Sys2Proof.Machine

/-- STORE_BUFFER_DRAIN: an entry drains into the core's L1. -/
def execStoreBufferDrain (h sector : Nat) (s : State) : Out := .next (drainOf s h sector)

/-- L1_EVICTION: a sector's dirty bytes leave for their home, and the sector leaves the L1. -/
def execL1Eviction (col sector : Nat) (s : State) : Out := .next (evictL1 s col sector)

/-- The sector is dirty at its home. -/
def needsWrite (s : State) (sec : Nat) : Bool := ((mapGet? s.ms.l2 sec).map (·.dirty)).getD false

/-- EVICTION: a dirty home sector goes whole to the arrays; it may leave its home. At a bank that an engine uses the write
waits, and the sector stays (14 R320). -/
def execEviction (sector : Nat) (drop : Bool) (s : State) : Out :=
  if needsWrite s sector && !bankFree s (bankOf (sector * 128)) then
    .next (waitAtBank s (bankOf (sector * 128)) (.write sector))
  else
    let t := cleanHome s sector
    .next (if drop then dropHome t sector else t)

/-! ## Invalidation -/

/-- A hart that acts from supervisor mode. -/
def isSupervisor (s : State) (h : Nat) : Bool :=
  let x := getHart s h
  x.run == .running && x.mode == .supervisor

/-- The value stored to TLBI. -/
def tlbiWord (mode : Nat) (asid : BitVec 16) (va : BitVec 39) : Word :=
  BitVec.ofNat 64 (mode * 2 ^ 55 + asid.toNat * 2 ^ 39 + va.toNat)

/-- A store of a supervisor hart to TLBI. -/
def tlbiStore (h mode : Nat) (asid : BitVec 16) (va : BitVec 39) (s : State) : Out :=
  .next (if isSupervisor s h then startTlbi s h (tlbiWord mode asid va) else s)

def execTlbiAll (h : Nat) (s : State) : Out := tlbiStore h 0 0 0 s
def execTlbiAsid (h : Nat) (asid : BitVec 16) (s : State) : Out := tlbiStore h 1 asid 0 s
def execTlbiPage (h : Nat) (asid : BitVec 16) (va : BitVec 39) (s : State) : Out := tlbiStore h 2 asid va s

/-- An invalidation names a page of an address space. -/
def namesPage (t : Tlbi) (asid : BitVec 16) (vpage : Nat) : Bool :=
  match t.mode with
  | 0 => true
  | 1 => asid == t.asid
  | _ => asid == t.asid && vpage % 2 ^ 39 == t.page

/-- An invalidation names a cached translation; MODE 2 names the page's own entry, every entry of its run or block, and any
entry that covers the page (13 R294). -/
def named (t : Tlbi) (e : TlbEntry) : Bool :=
  let v := e.vpage % 2 ^ 39
  let first := e.start % 2 ^ 39
  match t.mode with
  | 0 => true
  | 1 => e.asid == t.asid
  | _ => e.asid == t.asid && (v == t.page || (pteRun e.entry && !e.block && v / 32 == t.page / 32)
      || (e.block && v / 8192 == t.page / 8192) || (decide (first ≤ t.page) && decide (t.page < first + e.span)))

/-- An invalidation names a table pointer that the walkers hold: one on the way to the page. -/
def namedUpper (t : Tlbi) (e : UpperEntry) : Bool :=
  match t.mode with
  | 0 => true
  | 1 => e.asid == t.asid
  | _ => e.asid == t.asid && e.index % (2 ^ 39 / pointerPages e.level) == t.page / pointerPages e.level

/-- Every hart's store buffer and posted stores, and every core's dirty bytes, reach their homes. -/
def performAll (s : State) : State :=
  let s := (s.cur :: s.harts.map (·.1)).foldl drainAll s
  let s := (s.ms.posted.map (·.1)).foldl (fun s h => performWhere s h (pathUp s)) s
  (s.col :: s.cores.map (·.1)).foldl pushAll s

/-- No TLB and no walker holds a named translation; mappings of filled pages count as invalidated (R305). -/
def dropTranslations (s : State) (t : Tlbi) : State :=
  let keep (l : List TlbEntry) : List TlbEntry := l.filter (fun e => !named t e)
  { s with
    core := { s.core with tlb := keep s.core.tlb }
    cores := s.cores.map (fun p => (p.1, { p.2 with tlb := keep p.2.tlb }))
    ms := { s.ms with
      filled := s.ms.filled.map (fun p => (p.1, keep p.2))
      dieTlb := s.ms.dieTlb.map keep, upper := s.ms.upper.map (fun l => l.filter (fun e => !namedUpper t e)) } }

/-- A hart awaits the response to an access that used a named translation. -/
def awaitsNamed (t : Tlbi) (x : Hart) : Bool :=
  let open_ (r : Option Request) : Bool := r.any fun q => q.answer.isNone && namesPage t q.asid (q.va.toNat / 65536)
  open_ x.request || open_ x.held

/-- Some access that used a named translation cannot be performed yet: a HOST or PEER access without its response, or a
store that waits for its path (R295). -/
def stillUsed (s : State) (t : Tlbi) : Bool :=
  awaitsNamed t s.hart || s.harts.any (fun p => awaitsNamed t p.2)
  || s.sched.gang.any (fun g => g.left.any (fun p => awaitsNamed t p.2))
  || s.ms.posted.any (fun p => p.2.any (fun q => !pathUp s (q.1 * 128)))
  || s.sched.owed.any (fun o => namesPage t o.asid (o.wm.toNat / 65536))

/-- TLBI_COMPLETE of the invalidation numbered `i` among those under way; it is not due while an access that used a named
translation is still to be performed. -/
def execTlbiComplete (i : Nat) (s : State) : Out :=
  match s.ms.tlbi[i]? with
  | some t =>
    if stillUsed s t then .next s
    else
      let u := dropTranslations (performAll s) t
      .next { u with ms := { u.ms with tlbi := u.ms.tlbi.eraseIdx i } }
  | none => .next s

end Sys2Proof.Machine
end

