-- ==== Sys2Proof/Machine/Convert.lean ====
section
/-! DEFINITION. Conversions and VRAND (07 R144 to R148): opcode 0x17. -/
namespace Sys2Proof.Machine

/-- The source type of a code; the decoder admits legal codes only. -/
def srcType (code : BitVec 6) : EType := (etypeOf code.toNat).getD (.uint 8)

/-- SR is in force. -/
def drawsNow (s : State) : Bool := rmOf s.hart == 4

/-- What a conversion names: the overlaps of R145, the limits of R57 where it is scaled. Under an illegal VTYPE the
destination is taken as 8 bits wide (DESIGN CHOICE, log 65). -/
def cvtReq (s : State) (i : Instr) (x : VUn) (src : EType) (scaled scalesRead : Bool) (accept : EType → Bool) : VReq :=
  { vunReq i .fma x accept with
    scales := scalesRead
    clash := (src.width != sew s && groupClash s x.vd x.vs2)
      || (scaled && (groupRegs s x.vd.toNat ++ groupRegs s x.vs2.toNat).contains 1)
    typeOk := decide (src.width ≤ s.hart.maxsew) && (!scaled || scaleLimits s) }

/-- A value as an element of the destination type of a conversion (R144). -/
def convertTo (s : State) (dst : EType) (e : Nat) (v : FVal) : ElemRes :=
  let r := rndModeSR s.hart e
  let x := satRes (if isScaled dst then saturateScaled s e r (ftzOf s.hart) v else saturateTo dst r (ftzOf s.hart) v)
  if drawsNow s then drawnRes s dst.width e x else x

/-- The scale traps of an element, then its result. -/
def scaledRes (s : State) (scaled : Bool) (e : Nat) (r : ElemRes) : ElemRes :=
  match (if scaled then scaleTrap s e else none) with
  | some t => .trap t
  | none => r

def execVcvt (x : VUn) (code : BitVec 6) (s : State) : Out :=
  let src := srcType code
  let scaled := isScaled src || (etype? s.hart).any isScaled
  let q := cvtReq s (.vcvt x code) x src scaled scaled (fun _ => true)
  withCheck s (checkVector s q)
    (let dst := etypeD s
     elementwise s q x.m x.d x.vd.toNat dst.width (max src.width dst.width) (drawsNow s) fun e =>
       scaledRes s scaled e
         (convertTo s dst e (operandValue s src (ftzOf s.hart) (elem s 2 x.vs2.toNat src.width e) e)))

/-! ## VQUANT (R146) -/

/-- E2M1, INT4, INT8. -/
def acceptQuant : EType → Bool
  | .int w => decide (w ≤ 8)
  | .fp f => f == e2m1
  | _ => false

/-- Q of a destination type. -/
def quantMax (dst : EType) : Nat :=
  match dst with
  | .fp _ => 6
  | t => if t.width = 4 then 7 else 127

/-- The flat indices of the block of element e: eight columns of its row. -/
def blockOf (s : State) (e : Nat) : List Nat :=
  let vl := s.hart.vl
  let c := e % vl / 8 * 8
  (List.range (min 8 (vl - c))).map (fun i => e / vl * vl + c + i)

/-- The magnitude of a finite value; none of an infinity or NaN. -/
def finiteMag : FVal → Option FVal
  | .fin _ m e => some (.fin false m e)
  | _ => none

/-- The largest of some magnitudes, 0 of none. -/
def largestMag (vs : List FVal) : FVal := vs.foldl (fun a v => if fcmp a v < 0 then v else a) (.fin false 0 0)

/-- The code of a block whose largest finite magnitude is given. -/
def quantCode (q : Nat) (band amax : FVal) : Nat :=
  if amax.isZero then 0
  else ((elemRange 1 0xFF).find? (fun c =>
    decide (0 ≤ fcmp (fmul (e3m5 c) (fmul (.fin false q 0) band).1).1 amax))).getD 0xFE

/-- What was kept of the block of element e, where VQUANT goes on inside it: its code, and the undefined elements as they
were read (R146). -/
def keptBlock (s : State) (e : Nat) : Option (Nat × Map Nat) :=
  if blockOf s e = blockOf s s.hart.vstart.toNat then (partRun? s.hart).bind (·.block) else none

/-- The bits of a source element of VQUANT as read. -/
def quantBits (s : State) (x : VUn) (src : EType) (e : Nat) : Nat :=
  (((keptBlock s e).bind (fun b => mapGet? b.2 e))).getD (elem s 2 x.vs2.toNat src.width e)

/-- A source element of VQUANT. -/
def quantSource (s : State) (x : VUn) (src : EType) (e : Nat) : FVal := valueOf src (ftzOf s.hart) (quantBits s x src e)

/-- The code of the block of element e, over all its active elements; a block it resumes inside has the same one. -/
def blockCode (s : State) (x : VUn) (src dst : EType) (e : Nat) : Nat :=
  match keptBlock s e with
  | some b => b.1
  | none =>
    let mags := ((blockOf s e).filter (active s x.m)).filterMap (fun i => finiteMag (quantSource s x src i))
    quantCode (quantMax dst) (decodeF bf16 s.hart.vbscale.toNat) (largestMag mags)

/-- What is kept of the block inside which VQUANT stops at element `last`, where its code rests on undefined data or mask
bits: these would be other free values when it goes on. -/
def blockAt (s : State) (x : VUn) (src dst : EType) (last : Nat) : Option (Nat × Map Nat) :=
  let es := (blockOf s last).filter (active s x.m)
  let open_ := es.filter (fun i => (elem? s x.vs2.toNat src.width i).isNone)
  if last % s.hart.vl % 8 = 0 then none
  else if (keptBlock s last).isSome then keptBlock s last
  else if open_.isEmpty && !(x.m && (blockOf s last).any (fun i => (maskBit? s 0 i).isNone)) then none
  else some (blockCode s x src dst last, open_.map (fun i => (i, quantBits s x src i)))

/-- An element quantised under a code. -/
def quantElem (s : State) (dst : EType) (code e : Nat) (v : FVal) : ElemRes :=
  let r := rndModeSR s.hart e
  let x :=
    if code = 0 then
      match v with
      | .fin .. => .write 0 0 (some false)
      | _ => satRes (saturateTo dst r (ftzOf s.hart) v)
    else
      satRes (saturateTo dst r (ftzOf s.hart)
        (lowest (fdiv v (fmul (e3m5 code) (decodeF bf16 s.hart.vbscale.toNat)).1).1))
  if drawsNow s then drawnRes s dst.width e x else x

/-- The codes written to v1 once the elements below `hi` are complete. -/
def writeCodes (s : State) (x : VUn) (src dst : EType) (hi : Nat) (t : State) : State :=
  let es := (elemRange s.hart.vstart.toNat hi).filter (active s x.m)
  let first := es.foldl (fun (acc : List (Nat × Nat)) e =>
    if acc.any (fun p => p.1 == scaleIndex s e) then acc else acc ++ [(scaleIndex s e, e)]) []
  writeElems t 1 8 (first.map (fun p => (p.1, blockCode s x src dst p.2)))

def execVquant (x : VUn) (code : BitVec 6) (s : State) : Out :=
  let src := srcType code
  let q := { cvtReq s (.vquant x code) x src true false acceptQuant with writesScales := true }
  withCheck s (checkVector s q)
    (let dst := etypeD s
     let band := s.hart.vbscale
     elementRun s q (compacted s x.m x.d) x.vd.toNat dst.width (max src.width dst.width) (drawsNow s)
       (maskedRes s x.m fun e =>
         if !bandScaleOk band.toNat then .trap (plainTrap causeFormat (band.setWidth 64))
         else quantElem s dst (blockCode s x src dst e) e (quantSource s x src e))
       (writeCodes s x src dst) (blockAt s x src dst))

/-! ## VDEQ (R147) -/

/-- The exact value of a scaled element, integer or E2M1; under SR all bits of the product below the kept ones count
(DESIGN CHOICE, log 63). -/
def deqValue (s : State) (src : EType) (bits e : Nat) : FVal := (fmul (valueOf src false bits) (scaleValue s e)).1

def execVdeq (x : VUn) (code : BitVec 6) (s : State) : Out :=
  let src := srcType code
  let q := cvtReq s (.vdeq x code) x src true true acceptFloat
  withCheck s (checkVector s q)
    (let dst := etypeD s
     elementwise s q x.m x.d x.vd.toNat dst.width (max src.width dst.width) (drawsNow s) fun e =>
       scaledRes s true e (convertTo s dst e (deqValue s src (elem s 2 x.vs2.toNat src.width e) e)))

/-! ## VRAND (R148) -/

/-- The formats of VRAND (R131). -/
def acceptRand (t : EType) : Bool := acceptInt t || acceptFloat t

/-- The bits drawn: the top `p` bits as a fraction, or the low SEW bits. -/
def randBits (t : EType) (z : BitVec 64) : Nat :=
  match t with
  | .fp f => (roundTo f .rne false (.fin false (z.toNat / 2 ^ (64 - (f.manBits + 1))) (-((f.manBits + 1 : Nat) : Int)))).bits
  | t => z.toNat % 2 ^ t.width

def execVrand (c : Bool) (vd : Reg) (m d : Bool) (s : State) : Out :=
  let q := { vreq (wordOf (.vrand c vd m d)) .alu c with
    groupWrites := [vd.toNat], masked := m, accept := some acceptRand }
  withCheck s (checkVector s q)
    (let t := etypeD s
     elementwise s q m d vd.toNat t.width t.width true fun e =>
       drawnRes s t.width e (.write (randBits t (mix s.hart.rngkey (s.hart.rngctr + BitVec.ofNat 64 e))) 0 none))

end Sys2Proof.Machine
end

