-- ==== Sys2Proof/Machine/CopyChannel.lean ====
section
/-! DEFINITION. The copy channels (11 R230 to R236, 09 R187): COPY_UNIT and COPY_COMMAND_COMPLETE. -/
namespace Sys2Proof.Machine

/-! ## The pages of a unit -/

/-- No status of R236: an uncorrectable error of a page-table walk. The command reports POISON (24 R415). -/
def statusWalk : Nat := 64

/-- The status that a command reports. -/
def reported (status : Nat) : Nat := if status = statusWalk then statusPoison else status

/-- The status of a failed check (R236). -/
def copyStatus (cause : Nat) : Nat :=
  if cause = causePagefault ∨ cause = causeMigrate then 6 else if cause = causeWalk then statusWalk else 1

/-- Device registers and save areas take no engine command (13 R287, R310). -/
def copyRefuses (pte : Word) (pa : Nat) : Bool := pteKind pte == kindMmio || isSaveArea pa

/-- The translation of an address leads where no engine command may go. -/
def leadsAstray (s : State) (ptbase va : Word) : Bool :=
  match walk s ptbase va with
  | .leaf pte _ frame _ => copyRefuses pte (physOf pte frame va)
  | _ => false

/-- A page of a command, under the issuing hart's address space at acceptance (R231): its page or the failure. ACCESS of
such a place stands before the ownership check (02 R50). -/
def copyPage (s : State) (c : CopyCmd) (va : Word) (acc : Access) : Except (Nat × Word) Phys :=
  match resolveAs s c.ptbase c.user va acc with
  | .error t => .error (if t.cause = causeMigrate ∧ leadsAstray s c.ptbase va then (1, va) else (copyStatus t.cause, va))
  | .ok p => if copyRefuses p.pte p.pa then .error (1, va) else .ok p

/-- The parts of a range, checked page by page: each of the kind of the range's first page (R236 SPAN). -/
def copyPages (s : State) (c : CopyCmd) (start : Word) (acc : Access) :
    List (Word × Nat) → Except (Nat × Word) (List Span)
  | [] => .ok []
  | (a, n) :: rest =>
    match copyPage s c a acc with
    | .error e => .error e
    | .ok p =>
      match copyPage s c start acc with
      | .ok q =>
        if pteKind q.pte ≠ pteKind p.pte then .error (2, a)
        else match copyPages s c start acc rest with
          | .error e => .error e
          | .ok ps => .ok (⟨a, p, n⟩ :: ps)
      | .error _ => match copyPages s c start acc rest with
        | .error e => .error e
        | .ok ps => .ok (⟨a, p, n⟩ :: ps)

/-- n bytes of a strip from strip byte x on: vault addresses and lengths (R230). -/
def stripParts (x : Strip) (at_ n : Nat) : List (Nat × Nat) :=
  let len := x.len.toNat
  let k := min n (len - at_ % len)
  if len = 0 then []
  else (x.base.toNat + at_ % len, k) :: (if k < n then [(x.base.toNat, n - k)] else [])

/-- Bytes moved that a pointer does not count yet. -/
def uncounted (c : CopyCmd) : Nat := c.moved - counted c c.moved

/-- The strip byte at which a command goes on: as the pointer counts it, or, for a command of an earlier task, from
where its first byte stood when the pointers were reset (R232; log 74). -/
def stripAt (ch : Channel) (c : CopyCmd) : Nat :=
  if c.counted then (if c.dstStrip then ch.wp.toNat else ch.rp.toNat) + uncounted c else c.base + c.moved

/-- A part of a unit lies in a save area (13 R287). -/
def savePart (ps : List (Nat × Nat)) : Option (Nat × Nat) := ps.find? (fun p => isSaveArea p.1 || isSaveArea (p.1 + p.2 - 1))

/-- Where the source and the destination of n bytes from byte m of a command are. -/
structure CopyPlan where
  src : List Span
  srcParts : List (Nat × Nat)
  dst : List Span
  dstParts : List (Nat × Nat)

def spanParts (ps : List Span) : List (Nat × Nat) := ps.map (fun p => (p.phys.pa, p.len))

/-- The checks of bytes m to m + n − 1: source pages, destination pages, poison of the source (R236); of a strip only the
first `avail` bytes can be read yet (09 R187). -/
def planUnit (s : State) (ch : Channel) (strip : Strip) (c : CopyCmd) (m n avail : Nat) : Except (Nat × Word) CopyPlan :=
  let src := if c.fill ∨ c.srcStrip then .ok [] else copyPages s c c.src .load (pagesOf (c.src + BitVec.ofNat 64 m) n)
  match src with
  | .error e => .error e
  | .ok src =>
    let srcParts := if c.srcStrip then stripParts strip (stripAt ch c) (min n avail) else spanParts src
    let dst := if c.dstStrip then .ok [] else copyPages s c c.dst .store (pagesOf (c.dst + BitVec.ofNat 64 m) n)
    match dst with
    | .error e => .error e
    | .ok dst =>
      let dstParts := if c.dstStrip then stripParts strip (stripAt ch c) n else spanParts dst
      match savePart srcParts <|> savePart dstParts with
      | some p => .error (1, BitVec.ofNat 64 p.1)
      | none => match srcParts.find? (fun p => (poisonAt s p.1 p.2).isSome) with
        | some p => .error (5, if c.srcStrip then BitVec.ofNat 64 p.1 else c.src + BitVec.ofNat 64 m)
        | none => .ok ⟨src, srcParts, dst, dstParts⟩

/-- The end of the 128-byte unit that holds byte m. -/
def unitEnd (c : CopyCmd) (m : Nat) : Nat := min c.len (m / 128 * 128 + 128)

/-- A FILL covers a whole aligned block of a CAP page from byte m on (13 R304), and no unit that has a byte of the block
fails: one that fails stops the command at that unit, so that it covers the block no more (R236). -/
def elides (s : State) (c : CopyCmd) (m : Nat) : Bool :=
  let a := c.dst + BitVec.ofNat 64 m
  c.fill && !c.dstStrip && decide (m + 4096 ≤ c.len)
  && (match copyPage s c a .store with
    | .ok p => pteKind p.pte == kindCap && !pteCompressed p.pte && p.pa % 4096 == 0
    | .error _ => false)
  && (match copyPages s c c.dst .store (pagesOf a (unitEnd c (m + 4095) - m)) with
    | .ok _ => true
    | .error _ => false)

/-- Bytes the next move takes: a whole elided block, else no more than its unit, the flow control of its strip, and,
for a FILL, the block it is in. -/
def moveLength (s : State) (ch : Channel) (strip : Strip) (c : CopyCmd) : Nat :=
  let m := c.moved
  if elides s c m then 4096
  else
    let n := unitEnd c m - m
    if c.dstStrip then min n (strip.consumed.toNat + strip.len.toNat - stripAt ch c)
    else if c.srcStrip then min n (strip.produced.toNat - stripAt ch c)
    else if c.fill then min n (4096 - (c.dst + BitVec.ofNat 64 m).toNat % 4096)
    else n

/-- Every unit that the next move touches passes its checks. -/
def unitsOk (s : State) (ch : Channel) (strip : Strip) (c : CopyCmd) (n : Nat) : Except (Nat × Word) CopyPlan :=
  planUnit s ch strip c c.moved (unitEnd c (c.moved + n - 1) - c.moved) n

/-! ## Moving -/

/-- Read parts at the home or bank. -/
def readParts (s : State) : List (Nat × Nat) → State × List Byte
  | [] => (s, [])
  | (a, n) :: rest =>
    let r := readHome s a n
    let q := readParts r.1 rest
    (q.1, r.2 ++ q.2)

/-- Write bytes to parts at the home or bank, in ascending order. -/
def writeParts (s : State) : List (Nat × Nat) → List Byte → State
  | [], _ => s
  | (a, n) :: rest, bytes => writeParts (performBytes s a (bytes.take n)) rest (bytes.drop n)

/-- The first n bytes of some parts. -/
def takeParts : Nat → List (Nat × Nat) → List (Nat × Nat)
  | _, [] => []
  | n, (a, k) :: rest => if n = 0 then [] else (a, min n k) :: takeParts (n - min n k) rest

/-- The pattern of a FILL over parts: byte i at addresses i modulo 8. -/
def fillOver (c : CopyCmd) (ps : List (Nat × Nat)) : List Byte :=
  ps.flatMap (fun p => (List.range p.2).map (fun i => byteOf c.src.toNat ((p.1 + i) % 8)))

/-- The pages of a unit are used. -/
def touchPages (s : State) (ps : List Span) (writes : Bool) : State :=
  ps.foldl (fun s p => touchEntry s p.phys writes) s

/-- The channel after a command has moved to byte `m`: WP counts destination bytes, RP source bytes; a command of an
earlier task counts in neither (R231, R232). -/
def advancePointers (ch : Channel) (c : CopyCmd) (m : Nat) : Channel :=
  if c.counted then
    let d := BitVec.ofNat 64 (counted c m - counted c c.moved)
    { ch with wp := ch.wp + d, rp := if c.fill then ch.rp else ch.rp + d }
  else ch

/-- n bytes move. -/
def moveBytes (s : State) (c : CopyCmd) (n : Nat) (plan : CopyPlan) : State :=
  let s := touchPages (touchPages s plan.src false) plan.dst true
  let dst := takeParts n plan.dstParts
  if c.fill then
    if elides s c c.moved then elideBlock s ((dst.headD (0, 0)).1 / 4096) c.src
    else writeParts s dst (fillOver c dst)
  else
    let r := readParts s (takeParts n plan.srcParts)
    writeParts r.1 dst r.2

/-- The address of a HOST or PEER part whose access ends in an error (24 R405, R408, R410). -/
def planError (s : State) (plan : CopyPlan) : Option Word :=
  ((plan.src ++ plan.dst).find? (fun p =>
    (isHost p.phys.pa || isPeer p.phys.pa) && (pathLost s p.phys.pa || Config.remoteError s.tick p.phys.pa))).map (·.va)

/-- A part waits for its link or port (24 R408, R409). -/
def planWaits (s : State) (plan : CopyPlan) : Bool := (plan.src ++ plan.dst).any (fun p => !pathUp s p.phys.pa)

/-- A command may not read before the stores that precede its COPYB are performed (R233). -/
def heldBack (s : State) (c : CopyCmd) : Bool := c.moved == 0 && s.ms.tlbi.any (fun t => t.hart == c.hart)

/-- COPY_UNIT: the command at the head of a channel moves on, unless a path is down (24 R408) or a sector must first be
filled from a bank in use (14 R320). -/
def execCopyUnit (col : Nat) (chan : Bool) (s : State) : Out :=
  let k := if chan then 1 else 0
  let ch := chanOf (getCore s col) k
  match ch.queue with
  | [] => .next s
  | c :: rest =>
    let strip := (boundStrip s col k).getD Strip.reset
    let n := moveLength s ch strip c
    if heldBack s c ∨ n = 0 then .next s
    else match unitsOk s ch strip c n with
      | .error _ => .next s
      | .ok plan =>
        let t := moveBytes s c n plan
        if planWaits s plan ∨ (planError s plan).isSome then .next s
        else if !(busyFills s t).isEmpty then .next (waitFills s (busyFills s t))
        else
          .next (modCore t col fun x =>
            setChan x k { advancePointers ch c (c.moved + n) with queue := { c with moved := c.moved + n } :: rest })

/-- The pages that a FILL has filled whole, with the mappings that stand at that time (13 R305). -/
def noteFilled (s : State) (c : CopyCmd) : State :=
  if !c.fill || c.dstStrip then s
  else
    let skip := (65536 - c.dst.toNat % 65536) % 65536
    let pages := (List.range ((c.len - skip) / 65536)).filterMap fun i =>
      match copyPage s c (c.dst + BitVec.ofNat 64 (skip + i * 65536)) .store with
      | .ok p => if pteKind p.pte ≤ kindCap then some (p.pa / 65536) else none
      | .error _ => none
    { s with ms := { s.ms with filled := pages.foldl (fun m n => mapSet m n (mappingsOf s n)) s.ms.filled } }

/-- A command ends: it leaves its channel, and DONE counts it where it still counts. -/
def endCommand (s : State) (col k : Nat) (ch : Channel) (c : CopyCmd) (rest : List CopyCmd) (status : Nat) : State :=
  modCore s col fun x =>
    setChan x k { countDone (advancePointers ch c c.len) c status with queue := rest }

/-- COPY_COMMAND_COMPLETE: all bytes are moved, or the next unit fails; then WP and RP still advance over the whole
command, and the failure is logged. -/
def execCopyCommandComplete (col : Nat) (chan : Bool) (s : State) : Out :=
  let k := if chan then 1 else 0
  let ch := chanOf (getCore s col) k
  match ch.queue with
  | [] => .next s
  | c :: rest =>
    let strip := (boundStrip s col k).getD Strip.reset
    let n := moveLength s ch strip c
    if c.moved = c.len then .next (noteFilled (endCommand s col k ch c rest 0) c)
    else if heldBack s c ∨ n = 0 then .next s
    else match unitsOk s ch strip c n with
      | .ok plan => match planError s plan with
        | some va => .next (logViolation (endCommand s col k ch c rest 6) c.asid va (col + 256 * k) 1 6 0)
        | none => .next s
      | .error (status, va) =>
        let t := logViolation (endCommand s col k ch c rest (reported status)) c.asid va (col + 256 * k) 1 (reported status) 0
        .next (if status = statusWalk then noteWalkError t c.asid else t)

end Sys2Proof.Machine
end

