-- ==== Sys2Proof/Machine/Engines.lean ====
section
/-! DEFINITION. Row engines and channel engines (14): slot and arbitration registers, in-place commands cut into pieces
(R314, R315), row steps and write-backs (R316, R317), completion (R235, R236, R324), ordinary requests and refresh (R319
to R323), sweeps (11 R238, R239). -/
namespace Sys2Proof.Machine

/-! ## Slot and arbitration registers (R311, R312, R322) -/

/-- A supervisor's store to a slot page. -/
def slotStore (slot : Nat) (f : Slot → Slot) (s : State) : Out :=
  .next (if slot < 16384 then setSlot s slot (f (slotOf s slot)) else s)

def execSlotBaseWrite (slot : Nat) (v : Word) (s : State) : Out := slotStore slot (fun x => writeSlotBase x v) s
def execSlotSizeWrite (slot : Nat) (v : Word) (s : State) : Out := slotStore slot (fun x => writeSlotSize x v) s
def execSlotAttrWrite (slot : Nat) (v : Word) (s : State) : Out := slotStore slot (fun x => writeSlotAttr x v) s
def execSlotStatusWrite (slot : Nat) (_v : Word) (s : State) : Out := slotStore slot clearSlotStatus s
def execArbitrationRegisterWrite (ch : Nat) (v : Word) (s : State) : Out := .next (if ch < 192 then writeArb s ch v else s)

def findCommand (s : State) (id : Nat) : Option Command := s.eng.cmd.find? (fun c => c.id == id)
def setCommand (s : State) (c : Command) : State :=
  { s with eng := { s.eng with cmd := s.eng.cmd.map (fun x => if x.id = c.id then c else x) } }

/-! ## Banks and ordinary requests (R319 to R323) -/

/-- One sector of a sweep: a settle writes a sector that was dirty at its start; a renew writes it if it is dirty and
drops it. -/
def sweepSector (s : State) (w : Sweep) (sec : Nat) : State :=
  let put (todo : List Nat) (s : State) : State :=
    { s with eng := { s.eng with sweep := s.eng.sweep.map (fun x => if x.id = w.id then { x with todo := todo } else x) } }
  if w.renew then
    if w.start ≤ sec * 128 ∧ sec * 128 < w.start + w.len ∧ !w.todo.contains sec then
      put (sec :: w.todo) (dropHome (cleanHome s sec) sec)
    else s
  else if w.todo.contains sec then put (w.todo.filter (· != sec)) (cleanHome s sec)
  else s

/-- An ordinary request is served: one sector is read or written. -/
def serveRequest (s : State) (r : BankRequest) : State :=
  match r with
  | .fill sec => if isCached (sec * 128) then fillHome s sec else s
  | .write sec => cleanHome s sec
  | .sweep id sec => match s.eng.sweep.find? (fun w => w.id == id) with
    | some w => sweepSector s w sec
    | none => s

def requestSector : BankRequest → Nat
  | .fill sec => sec
  | .write sec => sec
  | .sweep _ sec => sec

/-- The bank serves its n oldest waiting requests. -/
def serveWaiting (s : State) (b n : Nat) : State :=
  let x := bankState s b
  let s := setBank s b { x with waiting := x.waiting.drop n, expired := x.expired - n }
  (x.waiting.take n).foldl (fun s q => serveRequest s q.1) s

/-- A safe point of an engine that holds the bank: it yields once a window has expired, and the bank serves as many
requests as the oldest one's ARBBATCH says (R320, R322). -/
def safePoint (s : State) (b : Nat) : State :=
  match (bankState s b).waiting with
  | q :: _ =>
    if 0 < (bankState s b).expired then
      let a := arbOf s (channelOf b)
      let s := { s with eng := { s.eng with
        arb := mapSet s.eng.arb (channelOf b) { a with yields := min (a.yields + 1) 0xFFFF } } }
      serveWaiting s b q.2
    else s
  | [] => s

/-- A bank that has become free serves what waits (R320). -/
def serveFree (s : State) (b : Nat) : State :=
  if bankFree s b then serveWaiting s b (bankState s b).waiting.length else s

/-- An accepted command has a piece left in the bank (16 R329). -/
def bankWanted (s : State) (b : Nat) : Bool :=
  s.eng.cmd.any fun c => (startCommand s c).status == 0 && (piecesOf s c).any (fun p => p.bank == b && !p.ops.isEmpty)

/-- No piece is in progress in a bank: its engine keeps it for the pieces that are left, at a safe point, or frees it
(16 R329). -/
def betweenPieces (s : State) (b : Nat) : State :=
  let s := setBank s b { bankState s b with engine := none }
  if bankWanted s b then safePoint s b else serveFree (setBank s b { bankState s b with busy := false }) b

/-- ORDINARY_REQUEST: served where the bank is free, else it waits. -/
def execOrdinaryRequest (r : BankRequest) (s : State) : Out :=
  if !isCached (requestSector r * 128) then .next s
  else
    let b := bankOf (requestSector r * 128)
    .next (if bankFree s b then serveRequest s r else waitAtBank s b r)

/-- ARBITRATION_WINDOW_EXPIRY: the window of the oldest request whose window still runs. -/
def execArbitrationWindowExpiry (bank : Nat) (s : State) : Out :=
  let x := bankState s bank
  .next (if x.expired < x.waiting.length then setBank s bank { x with expired := x.expired + 1 } else s)

/-- REFRESH: no step, write-back or access starts at the bank until it ends. -/
def execRefresh (bank : Nat) (s : State) : Out :=
  .next (if bank < 4160 then setBank s bank { bankState s bank with refreshing := true } else s)

/-- REFRESH_END: a safe point; a bank that no engine uses serves what waits. -/
def execRefreshEnd (bank : Nat) (s : State) : Out :=
  let x := bankState s bank
  if x.refreshing then
    let s := setBank s bank { x with refreshing := false }
    .next (if inUse x then safePoint s bank else serveFree s bank)
  else .next s

/-! ## Row steps and write-backs (R316) -/

def fmtOfRecord (r : InPlace) : Fmt := if r.fmt = 0 then fp32 else if r.fmt = 1 then bf16 else fp16

/-- First(c, V). -/
def firstElem (c : BitVec 32) (v : FVal) : BitVec 32 := BitVec.ofNat 32 (rne32 (fmul (val32 c.toNat) v).1).bits
/-- Step(c, V). -/
def stepElem (c : BitVec 32) (acc : BitVec 32) (v : FVal) : BitVec 32 :=
  BitVec.ofNat 32 (rne32 (fadd false (val32 acc.toNat) (fmul (val32 c.toNat) v).1).1).bits
/-- WriteBack of one element. -/
def backElem (f : Fmt) (x : BitVec 32) : Nat := if f.width = 32 then x.toNat else (roundTo f .rne false (val32 x.toNat)).bits

/-- What stops a command at a piece (R236): a compressed page, poisoned data read, an elided block written. -/
def pieceFault (s : State) (a len : Nat) (writes : Bool) : Option (Nat × Nat) :=
  if isCompressed s a ∨ isCompressed s (a + len - 1) then some (statusCompressed, a)
  else if writes then (if isCap a ∧ (mapGet? s.ms.elided (a / 4096)).isSome then some (statusElided, a) else none)
  else ((List.range (len / 128 + 1)).find? (fun i => decide (i * 128 < len) && arrayPoison s ((a + i * 128) / 128))).map
    (fun i => (statusPoison, a + i * 128))

/-! ## Banks and queues of a row step (R315, R319; 16 R329) -/

/-- The piece an operation reads or writes lies in another bank than its engine's. -/
def MicroOp.away (p : Piece) (op : MicroOp) : Bool := bankOf op.addr != p.bank

/-- The crossbar queue of an operation: of its source channel and its engine's, or, for a write-back, the other way. -/
def crossQueue (p : Piece) (op : MicroOp) : Option Nat :=
  let near := p.bank / 32
  let far := bankOf op.addr / 32
  if isDram op.addr && near != far then some (if op.isStep then far * 128 + near else near * 128 + far) else none

def crossbarOf (s : State) (k : Nat) : List Transfer := mapGet s.eng.crossbar k []
def setCrossbar (s : State) (k : Nat) (l : List Transfer) : State :=
  { s with eng := { s.eng with crossbar := mapSet s.eng.crossbar k l } }

/-- The transfers of a queue that have their place in its 8 KiB, the oldest first. -/
def inRoom : Nat → List Transfer → List Transfer
  | _, [] => []
  | room, t :: rest => if t.len ≤ room then t :: inRoom (room - t.len) rest else []

/-- The engine of a bank is in the middle of a row step's reads. -/
def stepOpen (s : State) (b : Nat) : Bool :=
  s.eng.cmd.any fun c => c.pieces.any fun p => p.bank == b && p.begun && decide (p.got.length < p.len)

/-- The bank of an operation away from the engine's bank can be read or written now: no refresh, and no other step is open
there. -/
def sourceFree (s : State) (c : Command) (i : Nat) (p : Piece) (op : MicroOp) : Bool :=
  let b := bankOf op.addr
  let x := bankState s b
  !op.away p || (!x.refreshing && (x.source.isNone || x.source == some (c.id, i)) && !stepOpen s b)

/-- The engine of a piece may act: the command goes on, no earlier piece of its bank is left, no other command's piece
is in progress there, and the bank does not refresh. -/
def mayAct (s : State) (c : Command) (i : Nat) (p : Piece) : Bool :=
  let b := bankState s p.bank
  c.status == 0 && !b.refreshing && (b.engine.isNone || b.engine == some c.id) && b.source.isNone
  && (c.pieces.take i).all (fun q => q.bank != p.bank || q.ops.isEmpty)

/-- The piece's own transfer waits in a queue. -/
def inQueue (s : State) (c : Command) (i k : Nat) : Bool := (crossbarOf s k).any (fun t => t.cmd == c.id && t.piece == i)

/-- A queue lets an operation end: it is empty, or the piece's transfer is the oldest. -/
def queueGoes (s : State) (c : Command) (i : Nat) (p : Piece) (op : MicroOp) : Bool :=
  match crossQueue p op with
  | none => true
  | some k => match crossbarOf s k with
    | [] => true
    | t :: _ => t.cmd == c.id && t.piece == i

/-- A source bank is read no more. -/
def leaveSource (s : State) (id i b : Nat) : State :=
  let x := bankState s b
  if x.source = some (id, i) then serveFree (setBank s b { x with source := none }) b else s

/-- The source banks of the transfers that have room in a queue are read no more; a full queue holds those of the others
(R315). -/
def settleQueue (s : State) (k : Nat) : State :=
  (inRoom 8192 (crossbarOf s k)).foldl (fun s t => leaveSource s t.cmd t.piece t.bank) s

/-- The transfer of a piece leaves its queue, and the operation its source bank. -/
def leavePath (s : State) (c : Command) (i : Nat) (p : Piece) (op : MicroOp) : State :=
  let s := match crossQueue p op with
    | some k => settleQueue (setCrossbar s k ((crossbarOf s k).filter (fun t => !(t.cmd == c.id && t.piece == i)))) k
    | none => s
  leaveSource s c.id i (bankOf op.addr)

/-- Everything a command holds of banks and queues is given back. -/
def letGo (s : State) (id : Nat) : State :=
  let held := s.eng.bank.filter (fun p => p.2.engine == some id)
  let read := s.eng.bank.filter (fun p => p.2.source.any (·.1 == id))
  let s := { s with eng := { s.eng with crossbar := s.eng.crossbar.map (fun (q : Nat × List Transfer) => (q.1, q.2.filter (·.cmd != id))) } }
  let s := (s.eng.crossbar.map (·.1)).foldl settleQueue s
  let s := read.foldl (fun s p => serveFree (setBank s p.1 { bankState s p.1 with source := none }) p.1) s
  held.foldl (fun s p => betweenPieces s p.1) s

/-- Banks that their engines held for pieces that are no longer to be done become free. -/
def freeBanks (s : State) : State :=
  (s.eng.bank.filter (fun p => p.2.busy && p.2.engine.isNone)).foldl (fun (s : State) p => if bankWanted s p.1 then s
    else serveFree (setBank s p.1 { bankState s p.1 with busy := false }) p.1) s

/-- The command stops: no further piece is written, and its banks are free. -/
def failCommand (s : State) (c : Command) (st a : Nat) : State :=
  freeBanks (letGo (setCommand s { c with status := st, where_ := a, pieces := [] }) c.id)

/-- The piece after an operation: the engine is at a safe point, or through with the piece. -/
def pieceNext (s : State) (c : Command) (i : Nat) (p : Piece) (op : MicroOp) (rest : List MicroOp) (acc : List (BitVec 32)) :
    State :=
  let s := setCommand s { c with pieces := c.pieces.set i { p with ops := rest, acc := acc, begun := false, got := [] } }
  let s := leavePath s c i p op
  if rest.isEmpty then betweenPieces (setBank s p.bank { bankState s p.bank with busy := true }) p.bank
  else safePoint (setBank s p.bank { bankState s p.bank with busy := true, engine := some c.id }) p.bank

/-- The bytes of a write-back. -/
def backBytes (f : Fmt) (acc : List (BitVec 32)) : List Byte := acc.flatMap (fun x => bytesOfNat (f.width / 8) (backElem f x))

/-- Write whole sectors of the arrays. -/
def writeSectors : Nat → State → Nat → List Byte → State
  | 0, s, _, _ => s
  | fuel + 1, s, a, bytes =>
    if bytes.isEmpty then s else writeSectors fuel (writeArray s (a / 128) (bytes.take 128) false) (a + 128) (bytes.drop 128)

/-- The bytes of a row step: those it has read, then the rest as the settled image holds it now (R319). -/
def stepBytes (s : State) (p : Piece) (a : Nat) : List Byte :=
  p.got ++ (List.range (p.len - p.got.length)).map (fun i => settledByte s (a + p.got.length + i))

/-- The elements of a piece's bytes. -/
def pieceElems (f : Fmt) (bytes : List Byte) : List FVal :=
  let b := f.width / 8
  (List.range (bytes.length / b)).map fun k => decodeF f (natOfBytes ((bytes.drop (k * b)).take b))

/-- The failure of a row step in what it has still to read. -/
def stepFault (s : State) (p : Piece) (a : Nat) : Option (Nat × Nat) :=
  if p.len ≤ p.got.length then none else pieceFault s (a + p.got.length) (p.len - p.got.length) false

/-- One operation of a piece. A row step reads; a write-back or an inflation writes. -/
def performOp (s : State) (c : Command) (i : Nat) (p : Piece) (op : MicroOp) (rest : List MicroOp) : State :=
  let f := fmtOfRecord c.rcd
  match op with
  | .first k a =>
    match stepFault s p a with
    | some e => failCommand s c e.1 e.2
    | none => pieceNext s c i p op rest ((pieceElems f (stepBytes s p a)).map (firstElem k))
  | .step k a =>
    match stepFault s p a with
    | some e => failCommand s c e.1 e.2
    | none => pieceNext s c i p op rest (p.acc.zipWith (stepElem k) (pieceElems f (stepBytes s p a)))
  | .writeBack a =>
    match pieceFault s a p.len true with
    | some e => failCommand s c e.1 e.2
    | none => pieceNext (writeSectors (p.len / 128 + 1) s a (backBytes f p.acc)) c i p op rest p.acc
  | .inflate a =>
    if isCompressed s a then failCommand s c statusCompressed a
    else pieceNext (inflateBlock s (a / 4096)) c i p op rest []

/-- A piece of a started command, with its next operation. -/
def nextOp (c : Command) (piece : Nat) : Option (Piece × MicroOp × List MicroOp) :=
  match c.pieces[piece]? with
  | none => none
  | some p => match p.ops with
    | [] => none
    | op :: rest => some (p, op, rest)

/-- A piece takes its place in the crossbar queue of an operation: a source piece that is read, or one that is to be
written back to another channel. -/
def joinQueue (s : State) (c : Command) (i : Nat) (p : Piece) (op : MicroOp) : State :=
  match crossQueue p op with
  | none => s
  | some k =>
    if inQueue s c i k then s
    else settleQueue (setCrossbar s k (crossbarOf s k ++ [⟨c.id, i, p.len, if op.isStep then bankOf op.addr else p.bank⟩])) k

/-- A source step that is through puts its piece into the crossbar queue. -/
def enterQueue (s : State) (c : Command) (i : Nat) (p : Piece) (op : MicroOp) : State :=
  if p.got.length < p.len then s else joinQueue s c i p op

/-- A command is taken up: planned where it has not started. One that fails by that leaves no bank held for its pieces. -/
def beginCommand (s : State) (c : Command) : State :=
  let x := startCommand s c
  let s := setCommand s x
  if x.status = 0 then s else freeBanks s

/-- Part of a row step: up to n more sectors of the source piece are read and held (R319). -/
def stepReads (s : State) (id piece n : Nat) : State :=
  match findCommand s id with
  | none => s
  | some c0 =>
    let c := startCommand s c0
    let s := beginCommand s c0
    match nextOp c piece with
    | none => s
    | some (p, op, _) =>
      if !op.isStep || !mayAct s c piece p || !sourceFree s c piece p op || (stepFault s p op.addr).isSome then s
      else
        let p := { p with begun := true, got := (stepBytes s p op.addr).take (p.got.length + n * 128) }
        let s := setCommand s { c with pieces := c.pieces.set piece p }
        let s := setBank s p.bank { bankState s p.bank with busy := true, engine := some c.id }
        let away := op.away p && !(crossQueue p op).any (inQueue s c piece)
        let s := if away then setBank s (bankOf op.addr) { bankState s (bankOf op.addr) with source := some (c.id, piece) } else s
        enterQueue s c piece p op

/-- The source of an operation is through, or can be read or written now. -/
def sourceReady (s : State) (c : Command) (i : Nat) (p : Piece) (op : MicroOp) : Bool :=
  (crossQueue p op).any (inQueue s c i) || sourceFree s c i p op

/-- An engine performs the next operation of a piece, where it is of the kind named and may act; one that may not end yet
because of its queue takes its place in it. -/
def engineAct (isStep : Bool) (id piece : Nat) (s : State) : Out :=
  match findCommand s id with
  | none => .next s
  | some c0 =>
    let c := startCommand s c0
    let s := beginCommand s c0
    match nextOp c piece with
    | none => .next s
    | some (p, op, rest) =>
      .next (
        if op.isStep != isStep || !mayAct s c piece p then s
        else if isStep then
          (if !sourceReady s c piece p op then s
           else if queueGoes s c piece p op then performOp s c piece p op rest
           else stepReads s id piece (p.len / 128))
        else if sourceFree s c piece p op && queueGoes s c piece p op then performOp s c piece p op rest
        else joinQueue s c piece p op)

/-- ENGINE_ROW_STEP. -/
def execEngineRowStep (cmd piece : Nat) (s : State) : Out := engineAct true cmd piece s
/-- ENGINE_WRITE_BACK, and the inflation of a block. -/
def execEngineWriteBack (cmd piece : Nat) (s : State) : Out := engineAct false cmd piece s

/-! ## Completion (R235, R236, R324) -/

/-- A slot after a completion with a status. -/
def countStatus (x : Slot) (st : Nat) : Slot :=
  let x := { x with ic := x.ic + 1, inflight := x.inflight - 1 }
  if st = 0 then x
  else
    { x with
      fails := if x.fails = 0xFFFFFFFF then x.fails else x.fails + 1
      last := BitVec.ofNat 8 st
      first := if x.first = 0 then BitVec.ofNat 8 st else x.first }

/-- IN_PLACE_COMPLETE. -/
def execInPlaceComplete (cmd : Nat) (s : State) : Out :=
  match findCommand s cmd with
  | none => .next s
  | some c0 =>
    let c := startCommand s c0
    let s := beginCommand s c0
    if c.status = 0 ∧ !(c.pieces.all (fun p => p.ops.isEmpty)) then .next s
    else
      let s := { s with eng := { s.eng with cmd := s.eng.cmd.filter (fun x => x.id != cmd) } }
      let s := if c.owned then setSlot s c.rcd.dslot (countStatus (slotOf s c.rcd.dslot) c.status) else s
      .next (if c.status = 0 then s
        else logViolation s c.asid (BitVec.ofNat 64 c.where_) (reqOfHart c.hart) 2 c.status 0)

/-! ## Sweeps complete (R238, R239) -/

/-- The sectors a sweep has still to handle: for a renew, those of its range at their homes. -/
def sweepLeft (s : State) (w : Sweep) : List Nat :=
  if w.renew then
    (s.ms.l2.filter (fun p =>
      decide (w.start ≤ p.1 * 128) && decide (p.1 * 128 < w.start + w.len) && !w.todo.contains p.1)).map (·.1)
  else w.todo

/-- A sweep completes once every sector left can be handled; its count rises. -/
def sweepComplete (renew : Bool) (id : Nat) (s : State) : Out :=
  match s.eng.sweep.find? (fun w => w.id == id && w.renew == renew) with
  | none => .next s
  | some w =>
    let left := sweepLeft s w
    if left.all (fun sec => !needsWrite s sec || bankFree s (bankOf (sec * 128))) then
      let s := left.foldl (fun s sec => if renew then dropHome (cleanHome s sec) sec else cleanHome s sec) s
      let s := { s with eng := { s.eng with sweep := s.eng.sweep.filter (fun x => x.id != id) } }
      let x := slotOf s w.slot
      let x := { x with inflight := x.inflight - 1 }
      .next (setSlot s w.slot (if renew then { x with rc := x.rc + 1 } else { x with sc := x.sc + 1 }))
    else .next s

def execSettleSweepComplete (id : Nat) (s : State) : Out := sweepComplete false id s
def execRenewComplete (id : Nat) (s : State) : Out := sweepComplete true id s

end Sys2Proof.Machine
end

