-- ==== Sys2Proof/Machine/Greenhouse.lean ====
section
/-! DEFINITION. The Greenhouse side (22): a core's accesses under PMP and the plot checker (R379 to R386), posts and takes
(R390, R391), plots (R385), the pruner (R392), and the commands of the mailbox page. -/
namespace Sys2Proof.Machine

/-! ## Windows and the mailbox page (R381 to R383, R386) -/

/-- The window grants a kind of access. -/
def windowGrants (w : Word) (k : AccessKind) : Bool :=
  match k with
  | .fetch => w.getLsbD 58
  | .load => w.getLsbD 56
  | .lr => w.getLsbD 56
  | _ => w.getLsbD 57

/-- The access lies wholly in a window in use that grants it. -/
def inWindow (m : Mailbox) (a : CoreAccess) : Bool :=
  m.win.toList.any fun w =>
    winSize w != 0 && decide (winBase w ≤ a.addr) && decide (a.addr + a.size ≤ winBase w + winSize w)
    && windowGrants w a.kind

/-- The mailbox page of a plot: the offset of an address in it. -/
def pageOffset (plot addr : Nat) : Option Nat :=
  if mailPages + plot * 0x10000 ≤ addr ∧ addr < mailPages + (plot + 1) * 0x10000 then
    some (addr - (mailPages + plot * 0x10000))
  else none

/-- A naturally aligned access of 1, 2, 4 or 8 bytes to a staging area. -/
def stageAccess (off size : Nat) : Bool := (size == 1 || size == 2 || size == 4 || size == 8) && off % size == 0

/-- An access listed as open to a core (R386); machine mode is the monitor's. -/
def pageOpen (off size : Nat) (k : AccessKind) (user : Bool) : Bool :=
  match k with
  | .load =>
    (decide (off < 0x400) && stageAccess off size)
    || (size == 8 && (off == 0x400 || off == 0x408 || off == 0x410 || off == 0x418 || off == 0x420 || off == 0x428
      || off == 0x430 || (!user && (off == 0x840 || off == 0x848 || off == 0x850 || off == 0x858))))
  | .store => (decide (off < 0x200) && stageAccess off size) || (!user && size == 8 && off == 0x430)
  | _ => false

/-- What a sealed plot's page still accepts from user mode (R383); a POST returns CLOSED. -/
def sealedOpen (off : Nat) (k : AccessKind) : Bool :=
  k == .load && ((decide (0x200 ≤ off) && decide (off < 0x400)) || off == 0x400 || off == 0x408 || off == 0x410)

/-! ## PMP (R379; the rules are those of the RISC-V standard, log 59) -/

/-- How many of the low bits of a number are ones. -/
def lowOnes : Nat → Nat → Nat
  | 0, _ => 0
  | fuel + 1, n => if n % 2 = 1 then lowOnes fuel (n / 2) + 1 else 0

/-- The range of a PMP entry, as its first byte and the byte past it: none where it is off. -/
def pmpRange (c : GCore) (i : Nat) : Option (Nat × Nat) :=
  let e := c.pmp.getD i (0, 0)
  let a := e.2.toNat % 2 ^ 54
  match (e.1.extractLsb' 3 2).toNat with
  | 0 => none
  | 1 => some ((if i = 0 then 0 else (c.pmp.getD (i - 1) (0, 0)).2.toNat % 2 ^ 54 * 4), a * 4)
  | 2 => some (a * 4, a * 4 + 4)
  | _ =>
    let k := lowOnes 54 a
    let base := a / 2 ^ (k + 1) * 2 ^ (k + 1) * 4
    some (base, base + 2 ^ (k + 3))

/-- A PMP entry grants an access that it matches. -/
def pmpGrants (cfg : BitVec 8) (a : CoreAccess) : Bool :=
  if !a.user && !cfg.getLsbD 7 then true
  else match a.kind with
    | .fetch => cfg.getLsbD 2
    | .load => cfg.getLsbD 0
    | .lr => cfg.getLsbD 0
    | .amo _ => cfg.getLsbD 0 && cfg.getLsbD 1
    | _ => cfg.getLsbD 1

/-- What the PMP entries answer: the lowest that touches the access decides, and must hold all of it; where none does,
machine mode alone goes on. -/
def pmpAllows (c : GCore) (a : CoreAccess) : Bool :=
  let hits := (List.range 16).filterMap fun i => (pmpRange c i).bind fun r =>
    if r.1 < a.addr + a.size ∧ a.addr < r.2 then some (i, r) else none
  match hits with
  | [] => !a.user
  | (i, r) :: _ => decide (r.1 ≤ a.addr) && decide (a.addr + a.size ≤ r.2) && pmpGrants (c.pmp.getD i (0, 0)).1 a

/-! ## Places (R379, R380) -/

def contextPage : Nat := 0xC0061000000

/-- Where an access of a core goes. -/
inductive Place
  | memory | sram | context (off : Nat) | page (off : Nat) | nowhere
  deriving DecidableEq, Repr

/-- The whole of an access lies in one of the ranges of memory (13 R286); a CAP granule without a home is none. -/
def inMemory (s : State) (a n : Nat) : Bool :=
  (isDram a && isDram (a + n - 1)) || (isCap a && isCap (a + n - 1) && (homeOf s a).isSome) || (isVault a
    && isVault (a + n - 1))

def placeOf (s : State) (c : GCore) (a : CoreAccess) : Place :=
  if sramBase ≤ a.addr ∧ a.addr + a.size ≤ sramBase + 0x20000 then .sram
  else if contextPage ≤ a.addr ∧ a.addr < contextPage + 0x1000 then .context (a.addr - contextPage)
  else if inMemory s a.addr a.size then .memory
  else if c.installed then
    match pageOffset c.plot a.addr with
    | some off => .page off
    | none => .nowhere
  else .nowhere

/-- The answer to an access: allowed; refused, with or without an entry in a violation log; an atomic off its natural
boundary (09 R173; log 59). -/
inductive Verdict
  | allowed | fault | violation | misaligned
  deriving DecidableEq, Repr

/-- LR and SC. -/
def reserving (k : AccessKind) : Bool := k == .lr || k == .sc

/-- An atomic, LR or SC that is not naturally aligned. -/
def atomicOff (a : CoreAccess) : Bool :=
  a.addr % a.size != 0 && (match a.kind with
    | .amo _ => true
    | k => reserving k)

/-- Whose place and mode allow an access, but for its alignment. -/
def verdictAt (s : State) (c : GCore) (a : CoreAccess) : Verdict :=
  let m := boxOf s c.plot
  let place := placeOf s c a
  match place with
  | .page off =>
    if !pageOpen off a.size a.kind a.user || (a.user && m.sealed_ && !sealedOpen off a.kind) then .violation
    else if pmpAllows c a then .allowed else .fault
  | _ =>
    if a.user ∧ c.installed then
      if m.sealed_ ∨ !inWindow m a then .violation
      else if !pmpAllows c a ∨ !(place == .memory || place == .sram) ∨ (reserving a.kind ∧ place ≠ .sram) then .fault
      else .allowed
    else if a.user then
      if !pmpAllows c a ∨ place ≠ .memory then .violation else if reserving a.kind then .fault else .allowed
    else
      match place with
      | .nowhere => .fault
      | .context off =>
        if pmpAllows c a ∧ a.size = 8 ∧ off % 8 = 0 ∧ (a.kind = .load ∨ a.kind = .store) then .allowed else .fault
      | _ => if !pmpAllows c a ∨ (reserving a.kind ∧ place ≠ .sram) then .fault else .allowed

/-- The checks of an access: PMP, the plot checker in user mode, what a core reaches at all; last the alignment of an
atomic. -/
def verdict (s : State) (c : GCore) (a : CoreAccess) : Verdict :=
  let v := verdictAt s c a
  if v = .allowed ∧ atomicOff a then .misaligned else v

/-- The tenant in whose log a refusal is entered (R382). -/
def refusalTenant (s : State) (g : Nat) (c : GCore) : Option (BitVec 16) :=
  if c.installed then boxOwner s c.plot else coreTenant s g

/-- The RISC-V access fault into machine mode (R382), to the base of mtvec. -/
def coreFaultOf (s : State) (g : Nat) (cause : Word) (a : CoreAccess) : State :=
  let c := gcoreOf s g
  setGCore s g (machineEntry cause (BitVec.ofNat 64 a.addr) (c.mtvec &&& ~~~(3 : Word)) c)

def coreFault (s : State) (g : Nat) (a : CoreAccess) : State :=
  coreFaultOf s g (match a.kind with
    | .fetch => 1
    | .load => 5
    | .lr => 5
    | _ => 7) a

/-- Uncorrectable data gives a load access fault (24 R415); a fetch of it the fault of a fetch (log 59). -/
def poisonFault (s : State) (g : Nat) (a : CoreAccess) : State := coreFaultOf s g (if a.kind = .fetch then 1 else 5) a

/-- An address-misaligned exception: of a load for LR, else of a store. -/
def misalignedFault (s : State) (g : Nat) (a : CoreAccess) : State := coreFaultOf s g (if a.kind = .lr then 4 else 6) a

/-! ## Performing an access -/

/-- A register takes a value: 0 to 31 the x registers, of which x0 reads 0, 32 to 63 the f registers. -/
def setReg (rd : Nat) (v : Word) (c : GCore) : GCore :=
  if rd = 0 then c else if rd < 32 then { c with x := c.x.setIfInBounds rd v } else { c with f := c.f.setIfInBounds (rd - 32) v }

/-- An instruction more has retired: minstret rises by 1, where mcountinhibit lets it (log 54). -/
def retire (c : GCore) : GCore :=
  if (mapGet c.csr 0x320 0).getLsbD 2 then c else { c with csr := mapSet c.csr 0xB02 (mapGet c.csr 0xB02 0 + 1) }

/-- The core is past an instruction of some length. -/
def corePast (len : Nat) (c : GCore) : GCore := { retire c with pc := c.pc + BitVec.ofNat 64 len }

/-- What an access answers: a value; the bytes of a fetch; nothing; a trap that the core has taken. -/
inductive CoreReply
  | value (v : Word) | bytes (l : List Byte) | done | trapped
  deriving DecidableEq, Repr

/-- The core goes on with what an access answered: its value in a register, or the bytes fetched. -/
def coreFinish (g rd len : Nat) (r : State × CoreReply) : State :=
  let c := gcoreOf r.1 g
  match r.2 with
  | .value v => setGCore r.1 g (corePast len (setReg rd v { c with last := v }))
  | .bytes l => setGCore r.1 g { c with fetched := l }
  | .done => setGCore r.1 g (corePast len c)
  | .trapped => r.1

/-- Local SRAM. -/
def sramRead (c : GCore) (off n : Nat) : Nat := natOfBytes ((List.range n).map (fun i => mapGet c.sram (off + i) 0))
def sramWrite (c : GCore) (off : Nat) (bytes : List Byte) : GCore :=
  { c with sram := bytes.zipIdx.foldl (fun m p => memSet m (off + p.2) p.1) c.sram }

/-- The value an atomic of the A extension writes. -/
def coreAmo (op size : Nat) (data : Word) (old : Nat) : Nat :=
  if op = 11 then (old ^^^ data.toNat) % 2 ^ (8 * size) else (amoNew ⟨op, 0, data⟩ (8 * size) old).getD old

/-- A value of n bytes as a core's atomic, LR or signed load returns it: sign-extended. -/
def coreSigned (n v : Nat) : Word := BitVec.ofInt 64 (toInt (8 * n) v)

/-- A 64-bit granule of those listed holds one of n bytes. -/
def granuleHit (bad : List Nat) (a n : Nat) : Bool := bad.any (fun k => decide (a / 8 ≤ k) && decide (k ≤ (a + n - 1) / 8))

/-- A granule of the SRAM that the access reads is uncorrectable. -/
def sramBad (c : GCore) (off n : Nat) : Bool := granuleHit c.bad off n

/-- The granules listed, but for those that n bytes hold whole. -/
def mended (bad : List Nat) (a n : Nat) : List Nat := bad.filter (fun k => !(decide (a ≤ 8 * k) && decide (8 * k + 8 ≤ a + n)))

/-- Granules of the SRAM written whole are good again. -/
def sramMended (off n : Nat) (c : GCore) : GCore := { c with bad := mended c.bad off n }

/-- The instruction cache holds the bytes of a fetch, and uses them (R380; log 59). -/
def cacheHit (s : State) (c : GCore) (a : CoreAccess) : Bool :=
  (List.range a.size).all (fun i => (mapGet? c.icache (a.addr + i)).isSome) && Config.freeBool s.tick 2007 a.core

/-- The instruction cache is empty. -/
def cacheEmptied (c : GCore) : GCore := { c with icache := [], ibad := [] }

/-- The instruction cache may take the bytes of a fetch through a window: at most 32 KiB (R380). -/
def cacheFill (s : State) (a : CoreAccess) (bytes : List Byte) (c : GCore) : GCore :=
  if a.user && c.installed && Config.freeBool s.tick 2006 a.core then
    let c := if c.icache.length + a.size ≤ 32768 then c else cacheEmptied c
    { c with
      icache := bytes.zipIdx.foldl (fun m p => mapSet m (a.addr + p.2) p.1) c.icache
      ibad := mended c.ibad a.addr a.size }
  else c

/-- A fetch: from the instruction cache where it holds the bytes, else from where they stand. -/
def fetchThrough (s : State) (g : Nat) (a : CoreAccess) (bad : Bool) (read : State → State × List Byte) : State × CoreReply :=
  let c := gcoreOf s g
  if cacheHit s c a then
    if granuleHit c.ibad a.addr a.size then (poisonFault s g a, .trapped)
    else (s, .bytes ((List.range a.size).map (fun i => mapGet c.icache (a.addr + i) 0)))
  else if bad then (poisonFault s g a, .trapped)
  else
    let r := read s
    (setGCore r.1 g (cacheFill s a r.2 (gcoreOf r.1 g)), .bytes r.2)

/-- An access to local SRAM; LR and SC work only here. -/
def sramAccess (s : State) (g : Nat) (a : CoreAccess) : State × CoreReply :=
  let c := gcoreOf s g
  let off := a.addr - sramBase
  let old := sramRead c off a.size
  let write (v : Nat) (c : GCore) : GCore := sramMended off a.size (sramWrite c off (bytesOfNat a.size v))
  let bad := sramBad c off a.size
  match a.kind with
  | .store => (setGCore s g (write a.data.toNat c), .done)
  | .sc =>
    if c.resv = some a.addr then (setGCore s g { write a.data.toNat c with resv := none }, .value 0)
    else (setGCore s g { c with resv := none }, .value 1)
  | .fetch => fetchThrough s g a bad (fun s => (s, bytesOfNat a.size old))
  | .amo op =>
    if bad then (poisonFault s g a, .trapped)
    else (setGCore s g (write (coreAmo op a.size a.data old) c), .value (coreSigned a.size old))
  | .lr =>
    if bad then (poisonFault s g a, .trapped) else (setGCore s g { c with resv := some a.addr }, .value (coreSigned a.size old))
  | .load => if bad then (poisonFault s g a, .trapped) else (s, .value (BitVec.ofNat 64 old))

/-- An access to DRAM, CAP or a vault, at the home or the bank (R380). Uncorrectable data gives a load access fault
(24 R415). LR and SC do not come here. -/
def coreMemory (s : State) (g : Nat) (a : CoreAccess) : State × CoreReply :=
  let bad := (poisonAt s a.addr a.size).isSome
  match a.kind with
  | .store => (performBytes s a.addr (bytesOfNat a.size a.data.toNat), .done)
  | .fetch => fetchThrough s g a bad (fun s => readHome s a.addr a.size)
  | .amo op =>
    if bad then (poisonFault s g a, .trapped)
    else
      let r := readHome s a.addr a.size
      let old := natOfBytes r.2
      (performBytes r.1 a.addr (bytesOfNat a.size (coreAmo op a.size a.data old)), .value (coreSigned a.size old))
  | _ =>
    if bad then (poisonFault s g a, .trapped)
    else
      let r := readHome s a.addr a.size
      (r.1, .value (BitVec.ofNat 64 (natOfBytes r.2)))

/-- A context-page register (R385). -/
def contextRead (c : GCore) (off : Nat) : Word :=
  match off with
  | 0x00 => BitVec.ofNat 64 ((if c.installed then 2 ^ 63 else 0) + c.plot)
  | 0x08 => c.plimit.setWidth 64
  | 0x10 => BitVec.ofNat 64 ((if c.run then 2 ^ 32 else 0) + c.pcount.toNat)
  | 0x18 => c.prunevec
  | 0x20 => BitVec.ofNat 64 ((if c.pv then 2 ^ 63 else 0) + c.pplot)
  | _ => 0

/-- Install a plot: discarded where its OWNER is not the tenant of the core's block, or it is installed elsewhere. -/
def installPlot (s : State) (g plot : Nat) : State :=
  let elsewhere := (installedOn s plot).any (· != g)
  if plot < 4096 ∧ (coreTenant s g).isSome ∧ boxOwner s plot = coreTenant s g ∧ !elsewhere then
    setGCore s g { gcoreOf s g with installed := true, plot := plot }
  else s

/-- A store to a context-page register. -/
def contextWrite (s : State) (g off : Nat) (v : Word) : State :=
  let c := gcoreOf s g
  match off with
  | 0x00 =>
    let plot := (v.extractLsb' 0 12).toNat
    if v.getLsbD 63 then installPlot s g plot else setGCore s g { c with installed := false, plot := plot }
  | 0x08 => setGCore s g { c with plimit := v.setWidth 32 }
  | 0x10 => setGCore s g { c with run := v.getLsbD 32, pcount := v.setWidth 32 }
  | 0x18 => setGCore s g { c with prunevec := v &&& ~~~(3 : Word) }
  | 0x20 => setGCore s g { c with pv := false }
  | _ => s

/-- Bytes of a staging area. -/
def stageRead (m : Map Byte) (off n : Nat) : Word := BitVec.ofNat 64 (natOfBytes ((List.range n).map (fun i => mapGet m (off + i) 0)))

/-- A load of the mailbox page by the installed core. -/
def pageLoad (s : State) (g off size : Nat) : State × Word :=
  let b := (gcoreOf s g).plot
  let m := boxOf s b
  if off < 0x200 then (s, stageRead m.upstage off size)
  else if off < 0x400 then (s, stageRead m.dnstage (off - 0x200) size)
  else if off = 0x400 then let r := corePost s b; (r.1, BitVec.ofNat 64 r.2)
  else if off = 0x408 then coreTake s b
  else (s, (boxRead m false off).getD 0)

/-- A store to the mailbox page by the installed core. -/
def pageStore (s : State) (g off size : Nat) (v : Word) : State :=
  let b := (gcoreOf s g).plot
  let m := boxOf s b
  if off < 0x200 then
    setBox s b { m with upstage := (bytesOfNat size v.toNat).zipIdx.foldl (fun st p => memSet st (off + p.2) p.1) m.upstage }
  else if (coreTenant s g).isSome ∧ coreTenant s g = boxOwner s b then writeCtrl s b v
  else s

/-- A load's value with the state it leaves. -/
def answered (r : State × Word) : State × CoreReply := (r.1, .value r.2)

/-- An access of the context page; PCOUNT has moved on to this moment (R385, R392). -/
def contextAccess (s : State) (a : CoreAccess) (off : Nat) : State × CoreReply :=
  let s := setGCore s a.core (countOn s (gcoreOf s a.core))
  if a.kind = .load then (s, .value (contextRead (gcoreOf s a.core) off)) else (contextWrite s a.core off a.data, .done)

/-- A refusal that is entered in a log (R382). -/
def coreRefused (s : State) (a : CoreAccess) : State :=
  let t := coreFault s a.core a
  match refusalTenant s a.core (gcoreOf s a.core) with
  | some asid => logViolation t asid (BitVec.ofNat 64 a.addr) a.core 4 1 0
  | none => t

/-- An access of a core and what it answers. -/
def coreReach (s : State) (a : CoreAccess) : State × CoreReply :=
  let c := gcoreOf s a.core
  match verdict s c a with
  | .violation => (coreRefused s a, .trapped)
  | .fault => (coreFault s a.core a, .trapped)
  | .misaligned => (misalignedFault s a.core a, .trapped)
  | .allowed => match placeOf s c a with
    | .sram => sramAccess s a.core a
    | .memory => coreMemory s a.core a
    | .context off => contextAccess s a off
    | .page off =>
      if a.kind = .load then answered (pageLoad s a.core off a.size) else (pageStore s a.core off a.size a.data, .done)
    | .nowhere => (s, .done)

/-- The mode of an access: the core's own, or, for what machine mode loads and stores under mstatus.MPRV, that of MPP. -/
def accessUser (c : GCore) (k : AccessKind) : Bool :=
  if c.machine && k != .fetch && (mapGet c.csr 0x300 0).getLsbD 17 then c.mppUser else !c.machine

/-- A core makes an access: it works, does not wait at WFI, and is in the mode of the access. -/
def accessDue (c : GCore) (a : CoreAccess) : Bool :=
  decide (a.core < 256) && c.inService && !c.asleep && a.user == accessUser c a.kind

/-- GREENHOUSE_CORE_ACCESS; a core whose count has passed its limit prunes first (R392). -/
def execGreenhouseCoreAccess (a : CoreAccess) (s : State) : Out :=
  let c := gcoreOf s a.core
  .next (if !accessDue c a then s
    else if pruneDue c then pruneCore s a.core
    else coreFinish a.core a.rd a.len (coreReach s a))

/-! ## Rows of their own -/

/-- A step of the mailbox of the plot installed on a core that is awake, which prunes first where that is due: a load whose
register and length the row does not give, so they are free (log 54). -/
def onPlot (core : Nat) (s : State) (f : Nat → State × Word) : Out :=
  let c := gcoreOf s core
  .next (if !(c.installed && c.inService && !c.asleep) then s
    else if pruneDue c then pruneCore s core
    else coreFinish core ((Config.freeBits s.tick 2005 core).toNat % 32) (if Config.freeBool s.tick 2005 core then 2 else 4)
      (answered (f c.plot)))

/-- POST (R390). -/
def execPost (core : Nat) (s : State) : Out :=
  onPlot core s fun b => let r := corePost s b; (r.1, BitVec.ofNat 64 r.2)
/-- TAKE (R391). -/
def execTake (core : Nat) (s : State) : Out := onPlot core s fun b => coreTake s b

/-- A mailbox that exists. -/
def onBox (b : Nat) (s : State) (t : State) : Out := .next (if b < 4096 then t else s)

def execOpenEp (b : Nat) (sgen : BitVec 32) (follow : Bool) (s : State) : Out := onBox b s (openEpisode s b sgen follow)
def execCloseEp (b : Nat) (s : State) : Out := onBox b s (closeEpisode s b)
def execGenfloorStore (b : Nat) (v : Word) (s : State) : Out := onBox b s (raiseFloor s b v)
def execOwnerWrite (b : Nat) (v : Word) (s : State) : Out := onBox b s (writeOwner s b v)
def execWindowWrite (b i : Nat) (v : Word) (s : State) : Out := onBox b s (writeWindow s b i v)

/-- A core that works. -/
def onCore (core : Nat) (s : State) (t : State) : Out :=
  .next (if core < 256 ∧ (gcoreOf s core).inService then t else s)

def execPlotInstall (core plot : Nat) (s : State) : Out := onCore core s (installPlot s core plot)
def execPlotUninstall (core : Nat) (s : State) : Out := onCore core s (setGCore s core { countOn s (gcoreOf s core) with installed := false })
def execPruneRecordClear (core : Nat) (s : State) : Out := onCore core s (setGCore s core { gcoreOf s core with pv := false })

/-- PRUNE: PCOUNT has passed PLIMIT, as time may have brought it at any moment (log 9). -/
def execPrune (core : Nat) (s : State) : Out :=
  let c := gcoreOf s core
  if c.installed && c.run && c.plimit != 0 && c.plimit != 0xFFFFFFFF && c.inService then
    let n := (countOn s c).pcount
    let past : BitVec 32 := if c.plimit.toNat < n.toNat then n else c.plimit + 1
    .next (pruneCore (setGCore s core { c with pcount := past }) core)
  else .next s

/-- TERMINAL_RECORD_ENTRY. -/
def execTerminalRecordEntry (b : Nat) (s : State) : Out := onBox b s (setBox s b (admitWaiting (boxOf s b)))

end Sys2Proof.Machine
end

