-- ==== Sys2Proof/Machine/Interrupts.lean ====
section
/-! DEFINITION. Interrupts as events (01 R32, 19 R356, R357), the time-out of a pre-emption (19 R365), and resumption
(19 R364). -/
namespace Sys2Proof.Machine

/-- The pending interrupt of the current hart is taken where it stands: before the next instruction, at a waiting one,
after a parked one or a WAITADDR, which complete (R243, R255, R357); the BREAK of a single step then comes first
(R355). -/
def interruptHere (s : State) : State :=
  match s.hart.wait with
  | some .park => singleStepBreak (interruptAfter (complete s))
  | some (.waitaddr gd _ _) => singleStepBreak (interruptAfter (waitaddrReturn s gd 2))
  | _ => takeInterrupt s

/-- INTERRUPT_TAKEN. -/
def execInterruptTaken (h : Nat) (s : State) : Out :=
  let x := getHart s h
  if x.run == .running && interruptDue x then .next (interruptHere (focus s h)) else .next s

/-- SLICE_EXPIRY: the step from 1 to 0 of a hart's SLICE. -/
def execSliceExpiry (h : Nat) (s : State) : Out :=
  let x := getHart s h
  if x.run == .running && x.slice != 0 then .next (modHart s h fun x => setPending 4 { x with slice := 0 }) else .next s

/-- PREEMPT_TIMEOUT: a hart that took PREEMPT and has not yielded is halted. -/
def execPreemptTimeout (h : Nat) (s : State) : Out :=
  let x := getHart s h
  if x.run == .running && x.preempted then .next (haltHart s h causePreempt x.pc) else .next s

/-! ## Resumption (R364) -/

/-- Every hart of a pre-empted gang that has not ended has yielded. -/
def allLeft (g : Gang) : Bool := g.members.all (fun m => g.ended.contains m || (mapGet? g.left m).isSome)

/-- The slot of a hart is free. -/
def slotFree (s : State) (h : Nat) : Bool := (getHart s h).run == .free

/-- The floors that contending harts of a column hold. -/
def contendingFloors (s : State) (col : Nat) : Nat :=
  ((contenders s col).map (lpFloor (getCore s col).lpart)).foldl (· + ·) 0

/-- Groups that the returning harts of a column held at their yields. -/
def returning (g : Gang) (col : Nat) : Nat :=
  ((g.left.filter (fun p => colOf p.1 == col)).map (fun p => p.2.yieldGroups)).foldl (· + ·) 0

/-- Every column the gang left accepts it. -/
def canResume (s : State) (g : Gang) : Bool :=
  g.preempting && allLeft g && !g.left.isEmpty
  && g.left.all (fun p => slotFree s p.1 && (getCore s (colOf p.1)).inService)
  && (g.left.map (fun p => colOf p.1)).all (fun c => decide (contendingFloors s c + returning g c ≤ 8))

/-- The hart of a record as it resumes: MESSAGE is taken at TVEC. -/
def resumed (x : Hart) : Hart :=
  let ts := putField (putField (putField x.tstatus 20 4 x.yieldGroups) 11 1 1) 12 4
    (3 + (if x.held.isSome then 4 else 0) + 8)
  { x with
    run := .running, mode := .supervisor, pc := x.tvec
    tcause := BitVec.ofNat 64 causeMessage, tval := 1, trapPc := x.tpc
    tstatus := putField ts 0 2 0
    vstate := 0, yieldGroups := 0 }

/-- LPART of a returning hart: its field where it still stands, else that of its launch record (log 35). -/
def restoreField (s : State) (g : Gang) (h : Nat) : State :=
  modCore s (colOf h) fun c =>
    if lpEn c.lpart (h % 4) then c
    else
      let slots := sortNat (g.members.filter (fun m => colOf m == colOf h))
      let j := slots.idxOf h
      { c with lpart := setLpField c.lpart (h % 4) (0x8000 + g.rcd.ceils.getD j 0 * 256 + g.rcd.floors.getD j 0) }

/-- A hart returns to its slot; the resumption is an acquire (12 R276). -/
def returnHart (g : Gang) (s : State) (p : Nat × Hart) : State :=
  let s := restoreField (discardClean s (colOf p.1)) g p.1
  modHart s p.1 fun _ => resumed p.2

/-- Every hart of a gang returns. -/
def resumeGang (s : State) (g : Gang) : State :=
  modGang (g.left.foldl (returnHart g) s) g.id fun g => { g with left := [], preempting := false }

end Sys2Proof.Machine
end

