-- ==== Sys2Proof/Machine/Submit.lean ====
section
/-! DEFINITION. Submission of a launch record (17 R333 to R335). -/
namespace Sys2Proof.Machine

/-- The answers to a submission (11 R246, 24 R403). -/
inductive Answer
  | accepted | busy | rejected
  deriving DecidableEq, Repr

/-- The status in g[gd] (11 R246). -/
def Answer.code : Answer → Nat
  | .accepted => 0
  | .busy => 1
  | .rejected => 2

/-- The fields marked zero in R334 are zero. -/
def recordZeros (bs : List Byte) : Bool :=
  field bs 27 1 < 8 && field bs 29 1 < 16 && field bs 30 2 < 64 && field bs 40 88 == 0

/-- The graph register of a tenant (17 R342). -/
def graphReg (s : State) (asid : BitVec 16) (g : Nat) : GraphReg := mapGet s.sched.graph (graphKey asid g) GraphReg.reset

/-- The record breaks no rule of R335 for a tenant. -/
def recordOk (s : State) (t : Tenant) (asid : BitVec 16) (bs : List Byte) : Bool :=
  let r := parseLaunch bs
  recordZeros bs && decide (r.entry.toNat % 4 = 0) && decide (r.wmaddr.toNat % 8 = 0) && t.spec.queues.contains r.queue
  && !(r.ordered && r.early) && !t.tearing
  && (if r.graph then
        r.entry == 0 && r.gang == 0 && r.harts == 0 && field bs 32 8 == 0 && (graphReg s asid r.graphNo).valid
      else r.graphNo == 0 && taskFieldsOk r t.spec.columns.length)

def queueOf (s : State) (q : Nat) : List Queued := mapGet s.sched.queue q []

/-- Records of a tenant that have not started. -/
def queuedBy (s : State) (asid : BitVec 16) : Nat :=
  (s.sched.queue.map (fun p => (p.2.filter (fun r => r.asid == asid)).length)).foldl (· + ·) 0

/-- The scheduler answers a submission (17 R335): of a hart, or through a function of the host. -/
def submit (s : State) (asid : BitVec 16) (bs : List Byte) (via : Option Nat := none) : State × Answer :=
  match tenantOf s asid with
  | none => (s, .rejected)
  | some t =>
    let r := parseLaunch bs
    if !recordOk s t asid bs then (s, .rejected)
    else if 64 ≤ (queueOf s r.queue).length ∨ t.spec.quota ≤ queuedBy s asid then (s, .busy)
    else
      let id := s.sched.nextTask
      let q : Queued := ⟨id, r, asid, mapGet? s.sched.lastId r.queue, false, via⟩
      ({ s with sched := { s.sched with
          nextTask := id + 1
          queue := mapSet s.sched.queue r.queue (queueOf s r.queue ++ [q])
          lastId := mapSet s.sched.lastId r.queue id } }, .accepted)

end Sys2Proof.Machine
end

