-- ==== Sys2Proof/Machine/Schedule.lean ====
section
/-! DEFINITION. The scheduler (17): the queue port (R333, R335), dispatch with placement, hart start, replays and
pre-emption (R336 to R347), aging (R337), graph registers (R342). -/
namespace Sys2Proof.Machine

/-! ## Eligibility (R336) -/

/-- A started record has retired: neither its gang nor its replay is left. -/
def hasRetired (s : State) (id : Nat) : Bool :=
  !s.sched.gang.any (fun g => g.task == id) && !s.sched.replay.any (fun r => r.id == id)

/-- Every hart of the gang of a started record has executed TRIGGER or EXIT; a replay counts when it has retired. -/
def hasTriggered (s : State) (id : Nat) : Bool :=
  hasRetired s id || s.sched.gang.any (fun g =>
    g.task == id && g.members.all (fun m => g.triggered.contains m || g.ended.contains m))

/-- The record at the head of its queue meets its start condition. -/
def eligible (s : State) (q : Queued) : Bool :=
  match q.before with
  | none => true
  | some p => if q.rcd.ordered then hasRetired s p else if q.rcd.early then hasTriggered s p else true

/-! ## Candidates (R337, R345) -/

/-- What may be dispatched: the head of a queue, a TASK node of a replay, or a pre-empted gang that can resume, which
keeps its place before its queue's eligible records (R347). -/
inductive Candidate
  | head (q : Queued)
  | gang (g : Gang)
  | node (r : Replay) (n : ReadyNode)
  deriving DecidableEq, Repr

/-- Effective priority. -/
def Candidate.level : Candidate → Nat
  | .head q => if q.aged then q.rcd.prio - 1 else q.rcd.prio
  | .gang g => g.rcd.prio
  | .node _ n => n.rcd.prio

/-- PRIO as the record gives it. -/
def Candidate.prio : Candidate → Nat
  | .head q => q.rcd.prio
  | .gang g => g.rcd.prio
  | .node _ n => n.rcd.prio

def Candidate.rcd : Candidate → LaunchRecord
  | .head q => q.rcd
  | .gang g => g.rcd
  | .node _ n => n.rcd

def Candidate.asid : Candidate → BitVec 16
  | .head q => q.asid
  | .gang g => g.asid
  | .node r _ => r.asid

/-- The candidates of one queue: gangs that can resume, the TASK nodes of its replays, its head (log 57). -/
def queueCandidates (s : State) (q : Nat) : List Candidate :=
  (s.sched.gang.filter (fun g => g.rcd.queue == q && canResume s g)).map Candidate.gang
  ++ (s.sched.replay.filter (fun r => r.rcd.queue == q)).flatMap (fun r => r.ready.map (Candidate.node r))
  ++ (((queueOf s q).head?.filter (eligible s)).map Candidate.head).toList

/-- The queues in the order in which a level takes them: ascending, after the one it last dispatched from. -/
def queueOrder (s : State) (level : Nat) : List Nat :=
  match mapGet? s.sched.turn level with
  | some t => (List.range 256).filter (fun q => decide (t < q)) ++ (List.range 256).filter (fun q => decide (q ≤ t))
  | none => List.range 256

/-- All candidates in the order of R337. -/
def candidates (s : State) : List (Nat × Candidate) :=
  (List.range 8).flatMap fun level =>
    (queueOrder s level).flatMap fun q =>
      ((queueCandidates s q).filter (fun c => c.level == level)).map (fun c => (q, c))

/-! ## Placement (R338) -/

/-- A slot is free, or will be once some gangs have yielded. -/
def slotUsable (s : State) (gone : List Nat) (h : Nat) : Bool :=
  slotFree s h || s.sched.gang.any (fun g => gone.contains g.id && inSlot g h)

/-- The slots that a record takes in a column, as hart indices. -/
def slotsFor (s : State) (gone : List Nat) (r : LaunchRecord) (col : Nat) : List Nat :=
  ((List.range 4).filter (fun i => slotUsable s gone (4 * col + i))).take r.harts

/-- The column is kept for other gangs by the LATENCY mode (24 R414). -/
def columnKept (s : State) (r : LaunchRecord) (col : Nat) : Bool :=
  match s.host.power with
  | .latency cols => cols.contains col && decide (1 < r.prio)
  | _ => false

/-- A column can take its share of a record: hart slots, and floors beside all those that fields with EN set hold
(log 36). -/
def columnFits (s : State) (gone : List Nat) (r : LaunchRecord) (col : Nat) : Bool :=
  let slots := slotsFor s gone r col
  let lp := (getCore s col).lpart
  let held := (((List.range 4).filter (lpEn lp)).map (lpFloor lp)).foldl (· + ·) 0
  (getCore s col).inService && !columnKept s r col && slots.length == r.harts
  && decide (held + (r.floors.take r.harts).foldl (· + ·) 0 ≤ 8)

/-- The columns of a tenant that fit. -/
def fittingColumns (s : State) (gone : List Nat) (asid : BitVec 16) (r : LaunchRecord) : List Nat :=
  match tenantOf s asid with
  | some t => (serviceColumns s t).filter (columnFits s gone r)
  | none => []

/-- The columns a record is placed on: the scheduler's choice where it fits, else the lowest that do. -/
def placeOn (s : State) (asid : BitVec 16) (r : LaunchRecord) (choice : List Nat) : Option (List Nat) :=
  let fit := fittingColumns s [] asid r
  if choice.length = r.gang ∧ choice.Nodup ∧ choice.all (fun c => fit.contains c) then some (sortNat choice)
  else if r.gang ≤ fit.length then some (fit.take r.gang)
  else none

/-! ## Start (R33, R231, R339) -/

/-- No resident gang has the number. -/
def unusedGang (s : State) (n : Nat) : Bool := !s.sched.gang.any (fun g => g.id == n)

/-- GANGID: a number of 16 bits, from a free value on, that no resident gang has (log 31); should there be none, which
the 512 hart slots rule out, a longer one. -/
def freshGang (s : State) : Nat :=
  let n := s.sched.gang.length + 1
  match ((List.range n).map (fun i => ((freeWord s 2005 0).toNat + i) % 2 ^ 16)).find? (unusedGang s) with
  | some id => id
  | none => ((List.range n).find? (unusedGang s)).getD 0

/-- The registers of a hart at the start of a task. -/
def startedHart (t : Tenant) (asid : BitVec 16) (r : LaunchRecord) (gang rank col : Nat) : Hart :=
  { Hart.reset col with
    run := .running, pc := r.entry, taskarg := r.args, tvec := t.spec.vector &&& ~~~(3 : Word), tscratch := t.spec.scratch
    mstateen := r.array, vstate := 1, ptbase := t.spec.ptbase, asid := asid
    gangid := BitVec.ofNat 64 gang, gangsize := BitVec.ofNat 64 (r.gang * r.harts), gangrank := BitVec.ofNat 64 rank }

/-- A task starts on a core: pointers and DONE of its channels are reset, and what is outstanding no longer counts
(11 R231, R232); the start is an acquire. -/
def startOnCore (s : State) (col : Nat) : State :=
  modCore (discardClean s col) col fun c =>
    { c with chan := c.chan.map fun x =>
        { queue := uncount x.wp.toNat x.rp.toNat x.queue, wp := 0, rp := 0, done := 0, first := 0 } }

/-- Place one hart: its LPART field, its registers. -/
def startHart (t : Tenant) (asid : BitVec 16) (r : LaunchRecord) (gang : Nat) (s : State) (p : Nat × Nat × Nat) : State :=
  let h := p.1
  let j := p.2.1
  let s := modCore s (colOf h) fun c =>
    { c with lpart := setLpField c.lpart (h % 4) (0x8000 + r.ceils.getD j 0 * 256 + r.floors.getD j 0) }
  modHart s h fun _ => startedHart t asid r gang p.2.2 (colOf h)

/-- The hart numbers of a placed gang with their record numbers and ranks. -/
def placement (s : State) (r : LaunchRecord) (cols : List Nat) : List (Nat × Nat × Nat) :=
  cols.zipIdx.flatMap fun p =>
    (slotsFor s [] r p.1).zipIdx.map (fun q => (4 * p.1 + q.1, q.2, p.2 * r.harts + q.2))

/-- A gang is placed and all its harts start. -/
def startGang (s : State) (t : Tenant) (asid : BitVec 16) (r : LaunchRecord) (task : Nat) (node : Option (Nat × List Nat))
    (via : Option Nat) (cols : List Nat) : State :=
  let id := freshGang s
  let ps := placement s r cols
  let s := cols.foldl startOnCore s
  let s := ps.foldl (startHart t asid r id) s
  let g : Gang :=
    { id := id, task := task, rcd := r, asid := asid, members := ps.map (·.1), ended := [], triggered := [], left := []
      preempting := false, node := node, via := via }
  { s with sched := { s.sched with gang := s.sched.gang ++ [g] } }

/-- A replay starts: it binds CUR, and node 0 fires (R343, R345). -/
def startReplay (s : State) (q : Queued) : State :=
  let k := graphKey q.asid q.rcd.graphNo
  let g := mapGet s.sched.graph k GraphReg.reset
  let g' := if g.cur then { g with bound1 := g.bound1 + 1 } else { g with bound0 := g.bound0 + 1 }
  let s := { s with sched := { s.sched with graph := mapSet s.sched.graph k g' } }
  let r : Replay :=
    { id := q.id, rcd := q.rcd, asid := q.asid, graph := q.rcd.graphNo, image := if g.cur then 1 else 0
      base := if g.cur then g.img1 else g.img0, nodes := g.nodes, counts := [], ready := [], signals := [], running := 0
      failed := false, via := q.via }
  let p := match nodeBytes s r 0 with
    | some bs => fireNode s r 0 bs
    | none => failReplay s r (nodeAddr r 0)
  advanceReplay p.1 p.2

/-- The record leaves the head of its queue. -/
def dequeue (s : State) (q : Queued) : State :=
  { s with sched := { s.sched with queue := mapSet s.sched.queue q.rcd.queue ((queueOf s q.rcd.queue).drop 1) } }

/-- One TASK node starts running. -/
def takeNode (r : Replay) (n : ReadyNode) : Replay := { r with ready := r.ready.erase n, running := r.running + 1 }

/-- Start a candidate where it can be placed. -/
def startCandidate (s : State) (choice : List Nat) (c : Candidate) : Option State :=
  match c, tenantOf s c.asid with
  | .gang g, _ => some (resumeGang s g)
  | .head q, some t =>
    if q.rcd.graph then some (startReplay (dequeue s q) q)
    else (placeOn s q.asid q.rcd choice).map fun cols => startGang (dequeue s q) t q.asid q.rcd q.id none q.via cols
  | .node r n, some t =>
    (placeOn s r.asid n.rcd choice).map fun cols =>
      let s := { s with sched := { s.sched with
        replay := s.sched.replay.map (fun y => if y.id = r.id then takeNode y n else y), nextTask := s.sched.nextTask + 1 } }
      startGang s t r.asid { n.rcd with queue := r.rcd.queue } (s.sched.nextTask - 1) (some (r.id, n.succ)) r.via cols
  | _, none => none

/-! ## Pre-emption (R347) -/

/-- The running gangs a candidate may pre-empt, in the order of victims: lowest priority first, then the most recently
started. -/
def victims (s : State) (asid : BitVec 16) : List Gang :=
  let run := (s.sched.gang.filter (fun g => g.asid == asid && decide (4 ≤ g.rcd.prio) && !g.preempting)).reverse
  [7, 6, 5, 4].flatMap (fun p => run.filter (fun g => g.rcd.prio == p))

/-- The choices of n from a list, earlier members first. -/
def choose {α : Type} : Nat → List α → List (List α)
  | 0, _ => [[]]
  | _ + 1, [] => []
  | n + 1, x :: xs => (choose n xs).map (x :: ·) ++ choose (n + 1) xs

/-- The fewest victims that make a record fit, beside those already asked to stop. -/
def victimsFor (s : State) (asid : BitVec 16) (r : LaunchRecord) : List Gang :=
  let vs := victims s asid
  let going := (s.sched.gang.filter (·.preempting)).map (·.id)
  let enough (gs : List Gang) : Bool := decide (r.gang ≤ (fittingColumns s (going ++ gs.map (·.id)) asid r).length)
  ((List.range (vs.length + 1)).findSome? (fun n => (choose n vs).find? enough)).getD []

/-- A gang is pre-empted: PREEMPT becomes pending at all its harts together. -/
def preemptGang (s : State) (g : Gang) : State :=
  modGang ((g.members.filter (inSlot g)).foldl (fun s h => modHart s h (setPending 5)) s) g.id
    fun g => { g with preempting := true }

/-! ## DISPATCH (R337) -/

/-- Replays with signals still to make go on. -/
def advanceFiring (s : State) : State := (s.sched.replay.filter (fun r => !r.signals.isEmpty)).foldl advanceReplay s

/-- Try the candidates in order; the first that can be placed starts. -/
def dispatchFrom (choice : List Nat) (s : State) : List (Nat × Candidate) → Option State
  | [] => none
  | (q, c) :: rest =>
    match startCandidate s choice c with
    | some t => some { t with sched := { t.sched with turn := mapSet t.sched.turn c.level q } }
    | none => dispatchFrom choice s rest

/-- A pre-empted gang is the next to start: it stands first among the candidates that can (R337, R347). -/
def resumesNext (s : State) (g : Gang) : Bool :=
  match (candidates s).find? (fun c => (startCandidate s [] c.2).isSome) with
  | some (_, .gang x) => x.id == g.id
  | _ => false

/-- RESUME: a pre-empted gang whose turn it is goes on; its level has then dispatched from its queue. -/
def execResume (gang : Nat) (s : State) : Out :=
  match s.sched.gang.find? (fun g => g.id == gang) with
  | some g =>
    if resumesNext s g then
      let t := resumeGang s g
      .next { t with sched := { t.sched with turn := mapSet t.sched.turn g.rcd.prio g.rcd.queue } }
    else .next s
  | none => .next s

/-- A candidate of PRIO 0 or 1 that cannot be placed pre-empts, the first for which there are gangs to stop. -/
def preemptFor (s : State) : List (Nat × Candidate) → State
  | [] => s
  | (_, c) :: rest =>
    if c.prio ≤ 1 ∧ !(c.rcd.graph) ∧ (placeOn s c.asid c.rcd []).isNone then
      match victimsFor s c.asid c.rcd with
      | [] => preemptFor s rest
      | vs => vs.foldl preemptGang s
    else preemptFor s rest

/-- DISPATCH: `cols` is the set of columns the scheduler would choose, `preempt` whether it uses its right to pre-empt. -/
def execDispatch (cols : List Nat) (preempt : Bool) (s : State) : Out :=
  let s := advanceFiring s
  let cs := candidates s
  if preempt then .next (preemptFor s cs) else .next ((dispatchFrom cols s cs).getD s)

/-- AGING: the eligible head of a queue is raised once; a QAGE of 0 disables it. -/
def execAging (queue : Nat) (s : State) : Out :=
  match queueOf s queue with
  | [] => .next s
  | q :: rest =>
    if eligible s q && !q.aged && decide (((tenantOf s q.asid).map (·.qage)).getD 0 ≠ 0) then
      .next { s with sched := { s.sched with queue := mapSet s.sched.queue queue ({ q with aged := true } :: rest) } }
    else .next s

/-! ## The scheduler window of BAR 0 (R333, R342, 24 R403) -/

/-- Completion statuses of PCI Express: 0 Successful Completion, 1 Unsupported Request, 2 Request Retry Status,
4 Completer Abort. -/
def completed (s : State) (status : Nat) (data : Word) : State :=
  { s with host := { s.host with completion := status, completionData := data } }

/-- A function answers requests: it serves a tenant and the device has booted (24 R402, R411). -/
def servedTenant (s : State) (func : Nat) : Option (BitVec 16) :=
  if s.host.bootFail.isSome then none else (funcOf s func).tenant

/-- QUEUE_PORT_ENQUEUE. -/
def execQueuePortEnqueue (func : Nat) (rcd : List Byte) (s : State) : Out :=
  match servedTenant s func with
  | none => .next (completed s 1 0)
  | some asid =>
    if rcd.length ≠ 128 then .next (completed s 1 0)
    else
      let r := submit s asid rcd (some func)
      .next (completed r.1 (match r.2 with | .accepted => 0 | .busy => 2 | .rejected => 4) 0)

/-- A host write to a graph register; PUBLISH is a row of its own. -/
def writeGraph (g : GraphReg) (off : Nat) (v : Word) : GraphReg :=
  if g.bound0 + g.bound1 ≠ 0 then g
  else
    let nodes := (v.extractLsb' 0 13).toNat
    let on := v.getLsbD 31
    match off with
    | 0x00 => { g with img0 := v }
    | 0x08 => { g with img1 := v }
    | 0x10 =>
      if v &&& 0x7FFEE000 ≠ 0 ∨ (on ∧ (nodes = 0 ∨ 4096 < nodes)) then g else { g with valid := on, nodes := nodes }
    | _ => g

/-- Change a graph register through a function; a write at another offset of the window is discarded (R333). -/
def graphAccess (func g : Nat) (f : GraphReg → GraphReg) (s : State) : Out :=
  match servedTenant s func with
  | none => .next (completed s 1 0)
  | some asid =>
    if tearingDown s asid then .next (completed s 4 0)
    else if 64 ≤ g then .next s
    else
      let k := graphKey asid g
      .next { s with sched := { s.sched with graph := mapModify s.sched.graph k GraphReg.reset f } }

/-- GRAPH_REGISTER_WRITE. -/
def execGraphRegisterWrite (func g off : Nat) (v : Word) (s : State) : Out :=
  graphAccess func g (fun x => writeGraph x off v) s

/-- PUBLISH: current and staging images are exchanged. -/
def execPublish (func g : Nat) (s : State) : Out := graphAccess func g (fun x => { x with cur := !x.cur }) s

end Sys2Proof.Machine
end

