-- ==== Sys2Proof/Machine/HostSide.lean ====
section
/-! DEFINITION. The host and the peers (24): BAR 2 (R404), responses and time-outs (R405, R408, 19 R357), message rings and
the host queue block (R406, R407), fabric accesses (R410), Cerman ports (R408), stores to registers (13 R310). -/
namespace Sys2Proof.Machine

/-! ## BAR 2 (R404) -/

/-- The pages of a host range, each checked; `none` where one is refused. Save areas are the supervisor's and the
scheduler's alone (19 R360). -/
def barPages (s : State) (t : Tenant) (write : Bool) : List (Word × Nat) → Option (List Span)
  | [] => some []
  | (a, n) :: rest =>
    match resolveAs s t.spec.ptbase false a (if write then .store else .load) with
    | .error _ => none
    | .ok p =>
      if pteKind p.pte ≤ kindVault ∧ !isSaveArea p.pa then (barPages s t write rest).map (fun ps => ⟨a, p, n⟩ :: ps) else none

/-- A completion with the bytes that were read. -/
def completedWith (s : State) (bytes : List Byte) : State :=
  let t := completed s 0 (BitVec.ofNat 64 (natOfBytes (bytes.take 8)))
  { t with host := { t.host with completionBytes := bytes } }

/-- Some free bytes: what a poisoned read returns (log 38). -/
def poisonedBytes (s : State) (n : Nat) : List Byte :=
  (List.range n).map (fun i => (Config.freeBits s.tick 2003 i).setWidth 8)

/-- Bytes written, or read into the completion. -/
def performOutside (s : State) (parts : List (Nat × Nat)) (write : Bool) (data : List Byte) : State :=
  if write then completed (writeParts s parts data) 0 0
  else if parts.any (fun p => (poisonAt s p.1 p.2).isSome) then completedWith s (poisonedBytes s (parts.map (·.2)).sum)
  else
    let r := readParts s parts
    completedWith r.1 r.2

/-- A BAR 2 access of a range of virtual addresses. -/
def bar2Access (s : State) (func off : Nat) (write : Bool) (size : Nat) (data : List Byte) : State :=
  match servedTenant s func with
  | none => completed s 1 0
  | some asid =>
    match tenantOf s asid with
    | none => completed s 1 0
    | some t =>
      if t.tearing then completed s 4 0
      else match barPages s t write (pagesOf (BitVec.ofNat 64 off) size) with
        | none =>
          let va := BitVec.ofNat 64 off
          let t := logViolation (completed s 4 0) asid va func 5 1 0
          if (pagesOf va size).any (fun p => walkPoisoned s asid p.1) then noteWalkError t asid else t
        | some ps => performOutside (touchPages s ps write) (spanParts ps) write data

/-- HOST_BAR2_ACCESS of 1 to 8 bytes; longer ones come as turns of their own. -/
def execHostBar2Access (func off : Nat) (write : Bool) (size : Nat) (data : Word) (s : State) : Out :=
  .next (if size = 0 ∨ 8 < size ∨ 2 ^ 46 < off + size then s
    else bar2Access s func off write size (bytesOfNat size data.toNat))

/-- A BAR 2 access of any length that the links carry: 512 bytes written, 4,096 read (R402). -/
def longBar2 (s : State) (func off : Nat) (write : Option (List Byte)) (size : Nat) : State :=
  let n := (write.map (·.length)).getD size
  if n = 0 ∨ (if write.isSome then 512 else 4096) < n ∨ 2 ^ 46 < off + n then s
  else bar2Access s func off write.isSome n (write.getD [])

/-! ## Reads of BAR 0 (17 R333, R342; R406) -/

/-- The word of a graph register at +0x10 (17 R342). -/
def graphWord (g : GraphReg) : Word :=
  BitVec.ofNat 64 (g.bound1 % 2 ^ 16 * 2 ^ 48 + g.bound0 % 2 ^ 16 * 2 ^ 32 + (if g.valid then 2 ^ 31 else 0)
    + (if g.cur then 2 ^ 16 else 0) + g.nodes % 2 ^ 13)

/-- A register of a function's BAR 0; every other offset reads 0 (17 R333; log 46). -/
def bar0Word (s : State) (func : Nat) (asid : BitVec 16) (off : Nat) : Word :=
  if 0x1000 ≤ off ∧ off < 0x1800 then
    let g := graphReg s asid ((off - 0x1000) / 32)
    match off % 32 with
    | 0 => g.img0
    | 8 => g.img1
    | 16 => graphWord g
    | _ => 0
  else
    let x := funcOf s func
    match off with
    | 0x2000 => x.rbase
    | 0x2008 => x.rsize
    | 0x2010 => x.rhead
    | 0x2018 => x.rtail
    | 0x2020 => x.rlost
    | _ => 0

/-- A host read of BAR 0. The queue port takes submissions alone: a read of it is an Unsupported Request (R403). -/
def bar0Read (s : State) (func off size : Nat) : State :=
  match servedTenant s func with
  | none => completed s 1 0
  | some asid =>
    if tearingDown s asid then completed s 4 0
    else if off < 0x80 then completed s 1 0
    else completedWith s ((List.range (min size 4096)).map (fun i =>
      byteOf (bar0Word s func asid ((off + i) / 8 * 8)).toNat ((off + i) % 8)))

/-! ## Responses (R405, R408, 19 R357) -/

/-- A response can come: the host over a link that is up, a peer over its port. -/
def answerable (s : State) (r : Request) : Bool := pathUp s r.addr

/-- The request of a hart that is still without an answer, wherever it is kept. -/
def openRequest (s : State) (h : Nat) : Option Request :=
  let pick (x : Hart) : Option Request :=
    match x.request.filter (fun r => r.answer.isNone) with
    | some r => some r
    | none => x.held.filter (fun r => r.answer.isNone)
  match pick (getHart s h) with
  | some r => some r
  | none => s.sched.gang.findSome? (fun g => (mapGet? g.left h).bind pick)

/-- A request's answer, in one hart. -/
def answerHart (r : Request) (x : Hart) : Hart :=
  let put (q : Request) : Request :=
    if q.answer.isNone && q.pc == r.pc && q.addr == r.addr then { q with answer := r.answer } else q
  { x with request := x.request.map put, held := x.held.map put }

/-- The answer is delivered to the hart or kept in its record (R357). -/
def deliverAnswer (s : State) (h : Nat) (r : Request) (answer : Option (List Byte)) : State :=
  let r := { r with answer := some answer }
  let s := modHart s h (answerHart r)
  { s with sched := { s.sched with gang := s.sched.gang.map (fun g =>
      { g with left := g.left.map (fun p => if p.1 = h then (p.1, answerHart r p.2) else p) }) } }

/-- HOST_RESPONSE: the access is performed, after the hart's own stores to the place, and its response arrives. -/
def execHostResponse (h : Nat) (s : State) : Out :=
  match openRequest s h with
  | none => .next s
  | some r =>
    if answerable s r then
      let p := performRequest (performPosted s h (r.addr / 128)) r
      let t := deliverAnswer p.1 h r (some p.2)
      .next (match (if isHost r.addr then none else portFor s r.addr) with
        | some q => setPort t q { portOf t q with replays := 0 }
        | none => t)
    else .next s

/-- Posted stores that can reach their place no more are given up: no instruction is left to end in an error (log 20). -/
def dropPosted (s : State) (gone : Nat → Bool) : State :=
  { s with ms := { s.ms with posted := s.ms.posted.map (fun p => (p.1, p.2.filter (fun q => !gone (q.1 * 128)))) } }

/-- HOST_ACCESS_TIMEOUT: an access of a HOST page without completion for 50 ms gets an error response. -/
def execHostAccessTimeout (h : Nat) (s : State) : Out :=
  match openRequest s h with
  | none => .next (if hostUp s then s else dropPosted s isHost)
  | some r => if isHost r.addr then .next (deliverAnswer s h r none) else .next s

/-- The peer refuses an access, which ends with an error response (R410). -/
def peerRefuses (s : State) (h : Nat) : State :=
  match openRequest s h with
  | none => s
  | some r => if isHost r.addr then s else deliverAnswer s h r none

/-! ## Cerman ports (R408) -/

/-- FLIT_REPLAY: after eight failed replays of a flit the port retrains. Whether it is the flit that failed last, or that
one has passed and another fails, is a free value (log 85). -/
def execFlitReplay (port : Nat) (s : State) : Out :=
  let x := portOf s port
  let n := if Config.freeBool s.tick 2010 port then x.replays else 0
  if x.up then
    .next (setPort s port (if 8 ≤ n then { x with up := false, replays := 0 } else { x with replays := n + 1 }))
  else .next s

/-- Every hart number the device knows of. -/
def knownHarts (s : State) : List Nat :=
  (s.cur :: s.harts.map (·.1)) ++ s.sched.gang.flatMap (fun g => g.left.map (·.1))

/-- RETRAIN_TIMEOUT: the outstanding accesses of a port that did not come back end with an error response. -/
def execRetrainTimeout (port : Nat) (s : State) : Out :=
  if (portOf s port).up then .next s
  else
    let ofPort (a : Nat) : Bool := isPeer a && portFor s a == some port
    let s := performAllOwed (dropPosted (setPort s port { portOf s port with lost := true }) ofPort)
    .next ((knownHarts s).foldl (fun s h =>
      match openRequest s h with
      | some r => if !isHost r.addr && portFor s r.addr == some port then deliverAnswer s h r none else s
      | none => s) s)

/-- PORT_RETRAIN_COMPLETE. -/
def execPortRetrainComplete (port : Nat) (s : State) : Out :=
  .next (if port < 16 then performAllOwed (setPort s port { portOf s port with up := true, replays := 0, lost := false })
    else s)

/-- HOST_LINK_UP. -/
def execHostLinkUp (link : Nat) (s : State) : Out :=
  .next (match s.host.link.toList[link]? with
    | some x => { s with host := { s.host with link := s.host.link.setIfInBounds link { x with up := true } } }
    | none => s)

/-! ## Rings (R406, R407) -/

/-- A host store to a register of a function that serves a tenant; during its teardown it is aborted. -/
def hostStore (func : Nat) (f : Func → Func) (s : State) : Out :=
  match servedTenant s func with
  | none => .next (completed s 1 0)
  | some asid => if tearingDown s asid then .next (completed s 4 0) else .next (completed (modFunc s func f) 0 0)

/-- ANSWER_WRITE: up to 64 answers are held. -/
def execAnswerWrite (func : Nat) (v : Word) (s : State) : Out :=
  hostStore func (fun x => if x.answers.length < 64 then { x with answers := x.answers ++ [v] } else x) s

/-- RLOST_CLEAR. -/
def execRlostClear (func : Nat) (s : State) : Out := hostStore func (fun x => { x with rlost := 0 }) s

/-- PUSH. -/
def execPush (func : Nat) (s : State) : Out := .next (if func < 128 then (pushRing s func).1 else s)

/-- TAKEANS. -/
def execTakeans (func : Nat) (s : State) : Out := .next (if func < 128 then (takeAnswer s func).1 else s)

/-- A host store to the other ring registers of BAR 0 (R406); RTAIL is read-only. -/
def ringRegister (off : Nat) (v : Word) (x : Func) : Func :=
  match off with
  | 0x2000 => { x with rbase := v &&& ~~~(0xFFF : Word) }
  | 0x2008 => { x with rsize := if 8 < (v.extractLsb' 0 4).toNat then x.rsize else v &&& 0x800000000000000F }
  | 0x2010 => { x with rhead := v }
  | _ => x

/-- MMIO_REGISTER_WRITE: a store to a register without a row of its own, by hart `h`, or, from 512 on, by the host through
function `h` − 512, whose address is the offset in BAR 0. The queue port takes no such request (R403). -/
def execMmioRegisterWrite (h addr : Nat) (v : Word) (s : State) : Out :=
  if h < 512 then
    let x := getHart s h
    if x.run == .running && isMmio addr && addr % 8 == 0 then
      .next ((mmioStore s h (x.mode == .user) addr v).getD s)
    else .next s
  else if addr < 0x80 then .next (completed s 1 0)
  else hostStore (h - 512) (ringRegister addr v) s

/-! ## Fabric accesses (R410) -/

/-- The tenant that owns the memory at a local address. -/
def memoryTenant (s : State) (a : Nat) : Option (BitVec 16) :=
  (s.sched.tenant.find? (fun p =>
    if isCap a then p.2.spec.granules.contains ((a - capBase) / 2 ^ 30)
    else (isDram a || isVault a) && p.2.spec.columns.contains (columnOf a))).map (fun p => BitVec.ofNat 16 p.1)

/-- A window of a source holds a range. -/
def windowHolds (w : PeerWindow) (source addr size : Nat) : Bool :=
  w.source == source && w.size != 0 && decide (w.base ≤ addr) && decide (addr + size ≤ w.base + w.size)

/-- A fabric access that is let in acts on the live image; any other is refused and logged. -/
def fabricGate (s : State) (source addr size : Nat) (grants : PeerWindow → Bool) (act : State) : State :=
  let ws := (s.host.window.map (·.2)).filter (fun w => windowHolds w source addr size)
  if ws.any grants then act
  else
    let t := completed s 4 0
    match ws, memoryTenant s addr with
    | w :: _, _ => logViolation t (BitVec.ofNat 16 w.asid) (BitVec.ofNat 64 addr) source 6 2 0
    | [], some asid => logViolation t asid (BitVec.ofNat 64 addr) source 6 1 0
    | [], none => { t with host := { t.host with refused := t.host.refused + 1 } }

/-- PEER_FABRIC_ACCESS of 1 to 8 bytes; others come as turns of their own. -/
def execPeerFabricAccess (source addr : Nat) (write : Bool) (size : Nat) (data : Word) (s : State) : Out :=
  .next (if size = 0 ∨ 8 < size then s
    else fabricGate s source addr size (fun w => if write then w.canWrite else w.canRead)
      (performOutside s [(addr, size)] write (bytesOfNat size data.toNat)))

/-- An atomic of a peer at the home or bank: the old value is its answer. -/
def fabricUpdate (s : State) (addr : Nat) (u : AmoUpdate) (n : Nat) : State :=
  if (poisonAt s addr n).isSome then completedWith s (poisonedBytes s n)
  else
    let r := atomicStep s addr n u
    completedWith r.1 r.2

/-- A fabric access of any kind: reads and writes of any length, atomics and PUBWM (R409, R410). -/
def fabricAccess (s : State) (source addr : Nat) (a : FabricAccess) : State :=
  match a with
  | .read n =>
    if n = 0 then s else fabricGate s source addr n (·.canRead) (performOutside s [(addr, n)] false [])
  | .write bytes =>
    if bytes.isEmpty then s
    else fabricGate s source addr bytes.length (·.canWrite) (performOutside s [(addr, bytes.length)] true bytes)
  | .update u n =>
    if (n ≠ 4 ∧ n ≠ 8) ∨ addr % n ≠ 0 then s
    else fabricGate s source addr n (fun w => w.canRead && w.canWrite) (fabricUpdate s addr u n)

end Sys2Proof.Machine
end

