-- ==== Sys2Proof/Machine/RvDecode.lean ====
section
/-! DEFINITION. The instructions of a Greenhouse core, RV64GC with Zba, Zbb and Zicond, machine and user mode (22 R379), and
their decoding. PRESUMED: the reference names these extensions and the RISC-V standard defines them (log 54). -/
namespace Sys2Proof.Machine

/-! ## Instructions -/

/-- Operations on the x registers: of I, M, Zba, Zbb and Zicond. -/
inductive RvOp
  | add | sub | sll | slt | sltu | xor | srl | sra | or | and
  | mul | mulh | mulhsu | mulhu | div | divu | rem | remu
  /-- Zba: the first operand shifted left by 1 to 3, then added. -/
  | shadd (k : Nat)
  | andn | orn | xnor | min | minu | max | maxu | rol | ror
  | clz | ctz | cpop | sextb | sexth | zexth | orcb | rev8
  | czeroEqz | czeroNez
  deriving DecidableEq, Repr

/-- How an operation takes its first operand and leaves its result: as 64 bits; on the low 32 bits with a sign-extended
result (W); with the first operand's low 32 bits zero-extended (UW). -/
inductive RvWidth
  | full | word | unsignedWord
  deriving DecidableEq, Repr

/-- A second operand: a register or an immediate. -/
inductive RvSrc
  | reg (n : Nat) | imm (v : Word)
  deriving DecidableEq, Repr

/-- Conditions of branches. -/
inductive RvCond
  | eq | ne | lt | ge | ltu | geu
  deriving DecidableEq, Repr

/-- What an instruction of Zicsr does with its operand. -/
inductive RvCsrOp
  | write | set | clear
  deriving DecidableEq, Repr

/-- Operations of F and D that round. -/
inductive RvArith
  | add | sub | mul | div | sqrt
  deriving DecidableEq, Repr

/-- Instructions of F and D that reach no memory: `d` for double precision, `rm` the rounding field. -/
inductive RvFp
  | arith (o : RvArith) (d : Bool) (rd rs1 rs2 rm : Nat)
  /-- ±(rs1 × rs2) ± rs3. -/
  | fma (negProduct negAddend : Bool) (d : Bool) (rd rs1 rs2 rs3 rm : Nat)
  /-- Sign injection: 0 the sign, 1 its complement, 2 the exclusive or. -/
  | sgnj (how : Nat) (d : Bool) (rd rs1 rs2 : Nat)
  | minmax (max : Bool) (d : Bool) (rd rs1 rs2 : Nat)
  /-- Comparison: 0 FLE, 1 FLT, 2 FEQ. -/
  | cmp (how : Nat) (d : Bool) (rd rs1 rs2 : Nat)
  | classify (d : Bool) (rd rs1 : Nat)
  /-- To an integer and from one: 0 W, 1 WU, 2 L, 3 LU. -/
  | toInt (kind : Nat) (d : Bool) (rd rs1 rm : Nat)
  | ofInt (kind : Nat) (d : Bool) (rd rs1 rm : Nat)
  /-- To double precision from single, or the other way. -/
  | convert (toD : Bool) (rd rs1 rm : Nat)
  | moveToX (d : Bool) (rd rs1 : Nat)
  | moveFromX (d : Bool) (rd rs1 : Nat)
  deriving DecidableEq, Repr

/-- An instruction of a core. Immediates stand as the 64-bit values they add; sizes are in bytes. -/
inductive Rv
  | lui (rd : Nat) (v : Word)
  | auipc (rd : Nat) (v : Word)
  | jal (rd : Nat) (off : Word)
  | jalr (rd rs1 : Nat) (off : Word)
  | branch (c : RvCond) (rs1 rs2 : Nat) (off : Word)
  | load (n : Nat) (signed : Bool) (rd rs1 : Nat) (off : Word)
  | store (n : Nat) (rs2 rs1 : Nat) (off : Word)
  | loadFp (n : Nat) (rd rs1 : Nat) (off : Word)
  | storeFp (n : Nat) (rs2 rs1 : Nat) (off : Word)
  | op (o : RvOp) (w : RvWidth) (rd rs1 : Nat) (b : RvSrc)
  /-- An atomic, by the codes of 09 R173, 11 for an exclusive or. -/
  | amo (code n rd rs1 rs2 : Nat)
  | lr (n rd rs1 : Nat)
  | sc (n rd rs1 rs2 : Nat)
  | csr (how : RvCsrOp) (rd number : Nat) (src : RvSrc)
  | fence | fenceI | ecall | ebreak | mret | wfi
  | fp (x : RvFp)
  deriving DecidableEq, Repr

/-! ## Fields -/

/-- Bits hi to lo of an encoding. -/
def rvBits (w hi lo : Nat) : Nat := w / 2 ^ lo % 2 ^ (hi - lo + 1)

/-- A field of n bits as a signed 64-bit value. -/
def rvSigned (n v : Nat) : Word := BitVec.signExtend 64 (BitVec.ofNat n v)

/-- Immediates of the formats I, S, B, U and J. -/
def immI (w : Nat) : Word := rvSigned 12 (rvBits w 31 20)
def immS (w : Nat) : Word := rvSigned 12 (rvBits w 31 25 * 32 + rvBits w 11 7)
def immB (w : Nat) : Word :=
  rvSigned 13 (rvBits w 31 31 * 4096 + rvBits w 7 7 * 2048 + rvBits w 30 25 * 32 + rvBits w 11 8 * 2)
def immU (w : Nat) : Word := rvSigned 32 (rvBits w 31 12 * 4096)
def immJ (w : Nat) : Word :=
  rvSigned 21 (rvBits w 31 31 * 1048576 + rvBits w 19 12 * 4096 + rvBits w 20 20 * 2048 + rvBits w 30 21 * 2)

/-! ## 32-bit encodings -/

def decodeBranch (w : Nat) : Option Rv :=
  let go (c : RvCond) := some (Rv.branch c (rvBits w 19 15) (rvBits w 24 20) (immB w))
  match rvBits w 14 12 with
  | 0 => go .eq
  | 1 => go .ne
  | 4 => go .lt
  | 5 => go .ge
  | 6 => go .ltu
  | 7 => go .geu
  | _ => none

def decodeLoad (w : Nat) : Option Rv :=
  let go (n : Nat) (signed : Bool) := some (Rv.load n signed (rvBits w 11 7) (rvBits w 19 15) (immI w))
  match rvBits w 14 12 with
  | 0 => go 1 true
  | 1 => go 2 true
  | 2 => go 4 true
  | 3 => go 8 true
  | 4 => go 1 false
  | 5 => go 2 false
  | 6 => go 4 false
  | _ => none

def decodeStore (w : Nat) : Option Rv :=
  if rvBits w 14 12 < 4 then some (.store (2 ^ rvBits w 14 12) (rvBits w 24 20) (rvBits w 19 15) (immS w)) else none

/-- OP-IMM. -/
def decodeOpImm (w : Nat) : Option Rv :=
  let go (o : RvOp) (v : Word) := some (Rv.op o .full (rvBits w 11 7) (rvBits w 19 15) (.imm v))
  let shamt : Word := BitVec.ofNat 64 (rvBits w 25 20)
  let top := rvBits w 31 26
  match rvBits w 14 12 with
  | 0 => go .add (immI w)
  | 1 =>
    if top = 0 then go .sll shamt
    else if top = 0x18 then
      match rvBits w 25 20 with
      | 0 => go .clz 0
      | 1 => go .ctz 0
      | 2 => go .cpop 0
      | 4 => go .sextb 0
      | 5 => go .sexth 0
      | _ => none
    else none
  | 2 => go .slt (immI w)
  | 3 => go .sltu (immI w)
  | 4 => go .xor (immI w)
  | 5 =>
    if rvBits w 31 20 = 0x287 then go .orcb 0
    else if rvBits w 31 20 = 0x6B8 then go .rev8 0
    else if top = 0 then go .srl shamt
    else if top = 0x10 then go .sra shamt
    else if top = 0x18 then go .ror shamt
    else none
  | 6 => go .or (immI w)
  | _ => go .and (immI w)

/-- OP-IMM-32. -/
def decodeOpImm32 (w : Nat) : Option Rv :=
  let go (o : RvOp) (k : RvWidth) (v : Word) := some (Rv.op o k (rvBits w 11 7) (rvBits w 19 15) (.imm v))
  let shamt : Word := BitVec.ofNat 64 (rvBits w 24 20)
  let top := rvBits w 31 25
  match rvBits w 14 12 with
  | 0 => go .add .word (immI w)
  | 1 =>
    if top = 0 then go .sll .word shamt
    else if rvBits w 31 26 = 2 then go .sll .unsignedWord (BitVec.ofNat 64 (rvBits w 25 20))
    else if top = 0x30 then
      match rvBits w 24 20 with
      | 0 => go .clz .word 0
      | 1 => go .ctz .word 0
      | 2 => go .cpop .word 0
      | _ => none
    else none
  | 5 =>
    if top = 0 then go .srl .word shamt
    else if top = 0x20 then go .sra .word shamt
    else if top = 0x30 then go .ror .word shamt
    else none
  | _ => none

/-- The operation of OP and the width it has, by funct7 and funct3. -/
def opOf (f7 f3 : Nat) : Option RvOp :=
  match f7, f3 with
  | 0, 0 => some .add
  | 0, 1 => some .sll
  | 0, 2 => some .slt
  | 0, 3 => some .sltu
  | 0, 4 => some .xor
  | 0, 5 => some .srl
  | 0, 6 => some .or
  | 0, 7 => some .and
  | 0x20, 0 => some .sub
  | 0x20, 4 => some .xnor
  | 0x20, 5 => some .sra
  | 0x20, 6 => some .orn
  | 0x20, 7 => some .andn
  | 1, 0 => some .mul
  | 1, 1 => some .mulh
  | 1, 2 => some .mulhsu
  | 1, 3 => some .mulhu
  | 1, 4 => some .div
  | 1, 5 => some .divu
  | 1, 6 => some .rem
  | 1, 7 => some .remu
  | 5, 4 => some .min
  | 5, 5 => some .minu
  | 5, 6 => some .max
  | 5, 7 => some .maxu
  | 7, 5 => some .czeroEqz
  | 7, 7 => some .czeroNez
  | 0x10, 2 => some (.shadd 1)
  | 0x10, 4 => some (.shadd 2)
  | 0x10, 6 => some (.shadd 3)
  | 0x30, 1 => some .rol
  | 0x30, 5 => some .ror
  | _, _ => none

/-- The operation of OP-32 and its width, by funct7 and funct3. -/
def op32Of (f7 f3 rs2 : Nat) : Option (RvOp × RvWidth) :=
  match f7, f3 with
  | 0, 0 => some (.add, .word)
  | 0, 1 => some (.sll, .word)
  | 0, 5 => some (.srl, .word)
  | 0x20, 0 => some (.sub, .word)
  | 0x20, 5 => some (.sra, .word)
  | 1, 0 => some (.mul, .word)
  | 1, 4 => some (.div, .word)
  | 1, 5 => some (.divu, .word)
  | 1, 6 => some (.rem, .word)
  | 1, 7 => some (.remu, .word)
  | 4, 0 => some (.add, .unsignedWord)
  | 4, 4 => if rs2 = 0 then some (.zexth, .full) else none
  | 0x10, 2 => some (.shadd 1, .unsignedWord)
  | 0x10, 4 => some (.shadd 2, .unsignedWord)
  | 0x10, 6 => some (.shadd 3, .unsignedWord)
  | 0x30, 1 => some (.rol, .word)
  | 0x30, 5 => some (.ror, .word)
  | _, _ => none

def decodeOp (w : Nat) : Option Rv :=
  (opOf (rvBits w 31 25) (rvBits w 14 12)).map fun o => .op o .full (rvBits w 11 7) (rvBits w 19 15) (.reg (rvBits w 24 20))

def decodeOp32 (w : Nat) : Option Rv :=
  (op32Of (rvBits w 31 25) (rvBits w 14 12) (rvBits w 24 20)).map fun o =>
    .op o.1 o.2 (rvBits w 11 7) (rvBits w 19 15) (.reg (rvBits w 24 20))

/-- AMO: words and doublewords. -/
def decodeAmo (w : Nat) : Option Rv :=
  let n := 2 ^ rvBits w 14 12
  let rd := rvBits w 11 7
  let rs1 := rvBits w 19 15
  let rs2 := rvBits w 24 20
  let go (code : Nat) := some (Rv.amo code n rd rs1 rs2)
  if n ≠ 4 ∧ n ≠ 8 then none
  else match rvBits w 31 27 with
    | 0 => go 2
    | 1 => go 3
    | 2 => if rs2 = 0 then some (.lr n rd rs1) else none
    | 3 => some (.sc n rd rs1 rs2)
    | 4 => go 11
    | 8 => go 9
    | 12 => go 10
    | 16 => go 5
    | 20 => go 6
    | 24 => go 7
    | 28 => go 8
    | _ => none

/-- SYSTEM: Zicsr, and the instructions without operands. -/
def decodeSystem (w : Nat) : Option Rv :=
  let go (how : RvCsrOp) (src : RvSrc) := some (Rv.csr how (rvBits w 11 7) (rvBits w 31 20) src)
  let rs1 := rvBits w 19 15
  match rvBits w 14 12 with
  | 0 =>
    if rvBits w 11 7 ≠ 0 ∨ rs1 ≠ 0 then none
    else match rvBits w 31 20 with
      | 0 => some .ecall
      | 1 => some .ebreak
      | 0x105 => some .wfi
      | 0x302 => some .mret
      | _ => none
  | 1 => go .write (.reg rs1)
  | 2 => go .set (.reg rs1)
  | 3 => go .clear (.reg rs1)
  | 5 => go .write (.imm (BitVec.ofNat 64 rs1))
  | 6 => go .set (.imm (BitVec.ofNat 64 rs1))
  | 7 => go .clear (.imm (BitVec.ofNat 64 rs1))
  | _ => none

/-- OP-FP. -/
def decodeFp (w : Nat) : Option RvFp :=
  let rd := rvBits w 11 7
  let rs1 := rvBits w 19 15
  let rs2 := rvBits w 24 20
  let rm := rvBits w 14 12
  let d := rvBits w 26 25 == 1
  if 1 < rvBits w 26 25 then none
  else match rvBits w 31 27 with
    | 0 => some (.arith .add d rd rs1 rs2 rm)
    | 1 => some (.arith .sub d rd rs1 rs2 rm)
    | 2 => some (.arith .mul d rd rs1 rs2 rm)
    | 3 => some (.arith .div d rd rs1 rs2 rm)
    | 0xB => if rs2 = 0 then some (.arith .sqrt d rd rs1 rs1 rm) else none
    | 4 => if rm < 3 then some (.sgnj rm d rd rs1 rs2) else none
    | 5 => if rm < 2 then some (.minmax (rm == 1) d rd rs1 rs2) else none
    | 8 => if (d && rs2 == 0) || (!d && rs2 == 1) then some (.convert d rd rs1 rm) else none
    | 0x14 => if rm < 3 then some (.cmp rm d rd rs1 rs2) else none
    | 0x18 => if rs2 < 4 then some (.toInt rs2 d rd rs1 rm) else none
    | 0x1A => if rs2 < 4 then some (.ofInt rs2 d rd rs1 rm) else none
    | 0x1C =>
      if rs2 ≠ 0 then none
      else if rm = 0 then some (.moveToX d rd rs1)
      else if rm = 1 then some (.classify d rd rs1)
      else none
    | 0x1E => if rs2 = 0 ∧ rm = 0 then some (.moveFromX d rd rs1) else none
    | _ => none

/-- The fused multiply-adds, FMADD, FMSUB, FNMSUB and FNMADD. -/
def decodeFma (negProduct negAddend : Bool) (w : Nat) : Option Rv :=
  if 1 < rvBits w 26 25 then none
  else some (.fp (.fma negProduct negAddend (rvBits w 26 25 == 1) (rvBits w 11 7) (rvBits w 19 15) (rvBits w 24 20)
    (rvBits w 31 27) (rvBits w 14 12)))

/-- An instruction of 32 bits; none where it is illegal. -/
def decodeRv32 (w : Nat) : Option Rv :=
  let rd := rvBits w 11 7
  let rs1 := rvBits w 19 15
  let f3 := rvBits w 14 12
  match rvBits w 6 0 with
  | 0x37 => some (.lui rd (immU w))
  | 0x17 => some (.auipc rd (immU w))
  | 0x6F => some (.jal rd (immJ w))
  | 0x67 => if f3 = 0 then some (.jalr rd rs1 (immI w)) else none
  | 0x63 => decodeBranch w
  | 0x03 => decodeLoad w
  | 0x23 => decodeStore w
  | 0x13 => decodeOpImm w
  | 0x1B => decodeOpImm32 w
  | 0x33 => decodeOp w
  | 0x3B => decodeOp32 w
  | 0x0F => if f3 = 0 then some .fence else if f3 = 1 then some .fenceI else none
  | 0x2F => decodeAmo w
  | 0x73 => decodeSystem w
  | 0x07 => if f3 = 2 ∨ f3 = 3 then some (.loadFp (2 ^ f3) rd rs1 (immI w)) else none
  | 0x27 => if f3 = 2 ∨ f3 = 3 then some (.storeFp (2 ^ f3) (rvBits w 24 20) rs1 (immS w)) else none
  | 0x43 => decodeFma false false w
  | 0x47 => decodeFma false true w
  | 0x4B => decodeFma true false w
  | 0x4F => decodeFma true true w
  | 0x53 => (decodeFp w).map .fp
  | _ => none

/-! ## 16-bit encodings -/

/-- The registers x8 to x15 of three bits. -/
def rvShort (n : Nat) : Nat := 8 + n

/-- Unsigned offsets of the compressed loads and stores: of doublewords and words, by a register and by the stack
pointer. -/
def offD (w : Nat) : Word := BitVec.ofNat 64 (rvBits w 12 10 * 8 + rvBits w 6 5 * 64)
def offW (w : Nat) : Word := BitVec.ofNat 64 (rvBits w 12 10 * 8 + rvBits w 6 6 * 4 + rvBits w 5 5 * 64)
def offLdsp (w : Nat) : Word := BitVec.ofNat 64 (rvBits w 12 12 * 32 + rvBits w 6 5 * 8 + rvBits w 4 2 * 64)
def offLwsp (w : Nat) : Word := BitVec.ofNat 64 (rvBits w 12 12 * 32 + rvBits w 6 4 * 4 + rvBits w 3 2 * 64)
def offSdsp (w : Nat) : Word := BitVec.ofNat 64 (rvBits w 12 10 * 8 + rvBits w 9 7 * 64)
def offSwsp (w : Nat) : Word := BitVec.ofNat 64 (rvBits w 12 9 * 4 + rvBits w 8 7 * 64)

/-- The six-bit immediate of the compressed formats. -/
def immC (w : Nat) : Nat := rvBits w 12 12 * 32 + rvBits w 6 2

/-- The offsets of C.J and of C.BEQZ and C.BNEZ. -/
def immCJ (w : Nat) : Word :=
  rvSigned 12 (rvBits w 12 12 * 2048 + rvBits w 11 11 * 16 + rvBits w 10 9 * 256 + rvBits w 8 8 * 1024 + rvBits w 7 7 * 64
    + rvBits w 6 6 * 128 + rvBits w 5 3 * 2 + rvBits w 2 2 * 32)
def immCB (w : Nat) : Word :=
  rvSigned 9 (rvBits w 12 12 * 256 + rvBits w 11 10 * 8 + rvBits w 6 5 * 64 + rvBits w 4 3 * 2 + rvBits w 2 2 * 32)

/-- Quadrant 0: stack addresses, loads and stores. -/
def decodeC0 (w : Nat) : Option Rv :=
  let rd := rvShort (rvBits w 4 2)
  let rs1 := rvShort (rvBits w 9 7)
  match rvBits w 15 13 with
  | 0 =>
    let v := rvBits w 12 11 * 16 + rvBits w 10 7 * 64 + rvBits w 6 6 * 4 + rvBits w 5 5 * 8
    if v = 0 then none else some (.op .add .full rd 2 (.imm (BitVec.ofNat 64 v)))
  | 1 => some (.loadFp 8 rd rs1 (offD w))
  | 2 => some (.load 4 true rd rs1 (offW w))
  | 3 => some (.load 8 true rd rs1 (offD w))
  | 5 => some (.storeFp 8 rd rs1 (offD w))
  | 6 => some (.store 4 rd rs1 (offW w))
  | 7 => some (.store 8 rd rs1 (offD w))
  | _ => none

/-- The arithmetic of quadrant 1 on the registers of three bits. -/
def decodeC1Alu (w : Nat) : Option Rv :=
  let rd := rvShort (rvBits w 9 7)
  let b : RvSrc := .reg (rvShort (rvBits w 4 2))
  let shamt : RvSrc := .imm (BitVec.ofNat 64 (immC w))
  match rvBits w 11 10 with
  | 0 => some (.op .srl .full rd rd shamt)
  | 1 => some (.op .sra .full rd rd shamt)
  | 2 => some (.op .and .full rd rd (.imm (rvSigned 6 (immC w))))
  | _ =>
    match rvBits w 12 12, rvBits w 6 5 with
    | 0, 0 => some (.op .sub .full rd rd b)
    | 0, 1 => some (.op .xor .full rd rd b)
    | 0, 2 => some (.op .or .full rd rd b)
    | 0, 3 => some (.op .and .full rd rd b)
    | 1, 0 => some (.op .sub .word rd rd b)
    | 1, 1 => some (.op .add .word rd rd b)
    | _, _ => none

/-- Quadrant 1. -/
def decodeC1 (w : Nat) : Option Rv :=
  let rd := rvBits w 11 7
  let v : RvSrc := .imm (rvSigned 6 (immC w))
  match rvBits w 15 13 with
  | 0 => some (.op .add .full rd rd v)
  | 1 => if rd = 0 then none else some (.op .add .word rd rd v)
  | 2 => some (.op .add .full rd 0 v)
  | 3 =>
    if immC w = 0 then none
    else if rd = 2 then
      some (.op .add .full 2 2 (.imm (rvSigned 10 (rvBits w 12 12 * 512 + rvBits w 6 6 * 16 + rvBits w 5 5 * 64
        + rvBits w 4 3 * 128 + rvBits w 2 2 * 32))))
    else some (.lui rd (rvSigned 18 (immC w * 4096)))
  | 4 => decodeC1Alu w
  | 5 => some (.jal 0 (immCJ w))
  | 6 => some (.branch .eq (rvShort (rvBits w 9 7)) 0 (immCB w))
  | _ => some (.branch .ne (rvShort (rvBits w 9 7)) 0 (immCB w))

/-- Quadrant 2. -/
def decodeC2 (w : Nat) : Option Rv :=
  let rd := rvBits w 11 7
  let rs2 := rvBits w 6 2
  match rvBits w 15 13 with
  | 0 => some (.op .sll .full rd rd (.imm (BitVec.ofNat 64 (immC w))))
  | 1 => some (.loadFp 8 rd 2 (offLdsp w))
  | 2 => if rd = 0 then none else some (.load 4 true rd 2 (offLwsp w))
  | 3 => if rd = 0 then none else some (.load 8 true rd 2 (offLdsp w))
  | 4 =>
    if rvBits w 12 12 = 0 then
      if rs2 ≠ 0 then some (.op .add .full rd 0 (.reg rs2)) else if rd = 0 then none else some (.jalr 0 rd 0)
    else if rs2 ≠ 0 then some (.op .add .full rd rd (.reg rs2))
    else if rd = 0 then some .ebreak
    else some (.jalr 1 rd 0)
  | 5 => some (.storeFp 8 rs2 2 (offSdsp w))
  | 6 => some (.store 4 rs2 2 (offSwsp w))
  | _ => some (.store 8 rs2 2 (offSdsp w))

/-- The instruction of an encoding: 32 bits where its two low bits are 11, else 16. -/
def decodeRv (w : Nat) : Option Rv :=
  match w % 4 with
  | 0 => decodeC0 w
  | 1 => decodeC1 w
  | 2 => decodeC2 w
  | _ => decodeRv32 w

end Sys2Proof.Machine
end

