-- ==== Sys2Proof/Machine/RvAlu.lean ====
section
/-! DEFINITION. What the integer operations of a Greenhouse core compute: I, M, Zba, Zbb and Zicond of the RISC-V standard
(22 R379; PRESUMED, log 54). -/
namespace Sys2Proof.Machine

/-- How many leading zeros a value of w bits has, and how many trailing ones of its complement. -/
def leadingZeros (w v : Nat) : Nat := if v = 0 then w else w - 1 - Nat.log2 v
def trailingZeros (w v : Nat) : Nat := ((List.range w).find? (fun i => v.testBit i)).getD w
def onesCount (w v : Nat) : Nat := ((List.range w).filter (fun i => v.testBit i)).length

/-- The bytes of a doubleword, mapped, or in the other order. -/
def orBytes (v : Word) : Word :=
  (List.range 8).foldl (fun x i => if (v.extractLsb' (8 * i) 8) = 0 then x else x ||| ((0xFF : Word) <<< (8 * i))) 0
def reverseBytes (v : Word) : Word :=
  (List.range 8).foldl (fun x i => x ||| ((v.extractLsb' (8 * i) 8).setWidth 64 <<< (56 - 8 * i))) 0

/-- Signed division and remainder as the standard completes them: by zero, all ones and the dividend. -/
def rvDiv {w : Nat} (a b : BitVec w) : BitVec w := if b = 0 then BitVec.allOnes w else BitVec.ofInt w (a.toInt.tdiv b.toInt)
def rvRem {w : Nat} (a b : BitVec w) : BitVec w := if b = 0 then a else BitVec.ofInt w (a.toInt.tmod b.toInt)
def rvDivu {w : Nat} (a b : BitVec w) : BitVec w := if b = 0 then BitVec.allOnes w else BitVec.ofNat w (a.toNat / b.toNat)
def rvRemu {w : Nat} (a b : BitVec w) : BitVec w := if b = 0 then a else BitVec.ofNat w (a.toNat % b.toNat)

/-- The high half of a product. -/
def highHalf (x : Int) : Word := BitVec.ofInt 64 (x / 2 ^ 64)

/-- An operation on operands of w bits. -/
def rvOp {w : Nat} (o : RvOp) (a b : BitVec w) : BitVec w :=
  let k := b.toNat % w
  match o with
  | .add => a + b
  | .sub => a - b
  | .sll => a <<< k
  | .slt => if a.toInt < b.toInt then 1 else 0
  | .sltu => if a.toNat < b.toNat then 1 else 0
  | .xor => a ^^^ b
  | .srl => a >>> k
  | .sra => a.sshiftRight k
  | .or => a ||| b
  | .and => a &&& b
  | .mul => a * b
  | .mulh => (highHalf (a.toInt * b.toInt)).setWidth w
  | .mulhsu => (highHalf (a.toInt * b.toNat)).setWidth w
  | .mulhu => (highHalf (a.toNat * b.toNat : Nat)).setWidth w
  | .div => rvDiv a b
  | .divu => rvDivu a b
  | .rem => rvRem a b
  | .remu => rvRemu a b
  | .shadd k => (a <<< k) + b
  | .andn => a &&& ~~~b
  | .orn => a ||| ~~~b
  | .xnor => ~~~(a ^^^ b)
  | .min => if a.toInt < b.toInt then a else b
  | .minu => if a.toNat < b.toNat then a else b
  | .max => if a.toInt < b.toInt then b else a
  | .maxu => if a.toNat < b.toNat then b else a
  | .rol => a.rotateLeft k
  | .ror => a.rotateRight k
  | .clz => BitVec.ofNat w (leadingZeros w a.toNat)
  | .ctz => BitVec.ofNat w (trailingZeros w a.toNat)
  | .cpop => BitVec.ofNat w (onesCount w a.toNat)
  | .sextb => (a.setWidth 8).signExtend w
  | .sexth => (a.setWidth 16).signExtend w
  | .zexth => (a.setWidth 16).setWidth w
  | .orcb => (orBytes (a.setWidth 64)).setWidth w
  | .rev8 => (reverseBytes (a.setWidth 64)).setWidth w
  | .czeroEqz => if b = 0 then 0 else a
  | .czeroNez => if b = 0 then a else 0

/-- An operation of a width on two registers or a register and an immediate. -/
def rvCompute (o : RvOp) (k : RvWidth) (a b : Word) : Word :=
  match k with
  | .full => rvOp o a b
  | .word => (rvOp o (a.setWidth 32 : BitVec 32) (b.setWidth 32)).signExtend 64
  | .unsignedWord => rvOp o ((a.setWidth 32 : BitVec 32).setWidth 64) b

/-- A branch is taken. -/
def rvTaken (c : RvCond) (a b : Word) : Bool :=
  match c with
  | .eq => a == b
  | .ne => a != b
  | .lt => decide (a.toInt < b.toInt)
  | .ge => decide (b.toInt ≤ a.toInt)
  | .ltu => decide (a.toNat < b.toNat)
  | .geu => decide (b.toNat ≤ a.toNat)

end Sys2Proof.Machine
end

