-- ==== Sys2Proof/Machine/RvFloat.lean ====
section
/-! DEFINITION. What the floating-point instructions of a Greenhouse core compute: F and D of the RISC-V standard (22 R379;
PRESUMED, log 54), as exact values rounded once. -/
namespace Sys2Proof.Machine

/-- Double precision. -/
def fp64 : Fmt := ⟨64, 11, 52, 1023, true, true, 0x7FEFFFFFFFFFFFFF, 0x7FF8000000000000, false⟩

/-- The format of an instruction: single or double precision. -/
def rvFmt (d : Bool) : Fmt := if d then fp64 else fp32

/-- The bits of an operand: a single value stands in an f register under ones, else it reads as the canonical NaN. -/
def unboxed (d : Bool) (v : Word) : Nat :=
  if d then v.toNat else if v.toNat / 2 ^ 32 = 2 ^ 32 - 1 then v.toNat % 2 ^ 32 else fp32.nan

/-- A result as an f register holds it. -/
def boxed (d : Bool) (bits : Nat) : Word := if d then BitVec.ofNat 64 bits else BitVec.ofNat 64 ((2 ^ 32 - 1) * 2 ^ 32 + bits)

/-- A NaN whose quiet bit is clear. -/
def signaling (f : Fmt) (bits : Nat) : Bool := (decodeF f bits).isNan && bits / 2 ^ (f.manBits - 1) % 2 == 0

/-- NV where one of the operands is a signaling NaN. -/
def signalsNv (f : Fmt) (l : List Nat) : FFlags := flagIf (l.any (signaling f)) flagNV

/-! ## Rounding -/

/-- The magnitude rounds up; mode 4 rounds ties away from zero. -/
def rvRoundsUp (rm : Nat) (neg : Bool) (kept rem shift : Nat) : Bool :=
  if rm = 4 then decide (2 ^ shift ≤ 2 * rem) else roundsUp (rndOf rm) neg kept rem shift

/-- m × 2^e as a multiple of 2^q: the rounded multiple and whether it is inexact. -/
def rvRoundAt (rm : Nat) (neg : Bool) (m : Nat) (e q : Int) : Nat × Bool :=
  if q ≤ e then (m <<< (e - q).toNat, false)
  else
    let shift := (q - e).toNat
    (if rvRoundsUp rm neg (m >>> shift) (m % 2 ^ shift) shift then (m >>> shift) + 1 else m >>> shift, m % 2 ^ shift != 0)

/-- The result overflows to an infinity rather than to the largest finite value. -/
def rvToInf (rm : Nat) (neg : Bool) : Bool :=
  match rm with
  | 1 => false
  | 2 => neg
  | 3 => !neg
  | _ => true

/-- A finite nonzero value rounded: tininess is found after rounding. -/
def rvRoundFin (f : Fmt) (rm : Nat) (neg : Bool) (m : Nat) (e : Int) : Nat × FFlags :=
  let qmin : Int := 1 - (f.bias : Int) - f.manBits
  let free : Int := e + Nat.log2 m - f.manBits
  let q := max free qmin
  let x := rvRoundAt rm neg m e q
  let code := (q - qmin).toNat * 2 ^ f.manBits + x.1
  let tiny := decide (free < qmin) && decide ((rvRoundAt rm neg m e free).1 < 2 ^ (f.manBits + (qmin - free).toNat))
  if f.maxCode < code then (if rvToInf rm neg then infBits f neg else signBits f neg + f.maxCode, flagsOverflow)
  else (signBits f neg + code, flagsRounded tiny x.2)

/-- A value rounded to a format: its bits and its flags. -/
def rvRound (f : Fmt) (rm : Nat) : FVal → Nat × FFlags
  | .nan => (f.nan, 0)
  | .inf n => (infBits f n, 0)
  | .fin n m e => if m = 0 then (signBits f n, 0) else rvRoundFin f rm n m e

/-! ## Operations on bit patterns -/

/-- An operation of F or D on two operands. -/
def rvArith (o : RvArith) (f : Fmt) (rm a b : Nat) : Nat × FFlags :=
  let x := decodeF f a
  let y := decodeF f b
  let r : FVal × FFlags := match o with
    | .add => let s := fadd (rm == 2) x y; (s.1, flagIf s.2 flagNV)
    | .sub => let s := fadd (rm == 2) x (fneg y); (s.1, flagIf s.2 flagNV)
    | .mul => let s := fmul x y; (s.1, flagIf s.2 flagNV)
    | .div => fdiv x y
    | .sqrt => fsqrt x
  let z := rvRound f rm r.1
  (z.1, z.2 ||| r.2 ||| signalsNv f [a, b])

/-- A fused multiply-add: ±(a × b) ± c. An infinity times zero is invalid whatever c is. -/
def rvFma (negProduct negAddend : Bool) (f : Fmt) (rm a b c : Nat) : Nat × FFlags :=
  let p := fmul (decodeF f a) (decodeF f b)
  let x := if negProduct then fneg p.1 else p.1
  let y := if negAddend then fneg (decodeF f c) else decodeF f c
  let s := fadd (rm == 2) x y
  let z := rvRound f rm s.1
  (z.1, z.2 ||| flagIf (p.2 || s.2) flagNV ||| signalsNv f [a, b, c])

/-- Sign injection. -/
def rvSgnj (how : Nat) (f : Fmt) (a b : Nat) : Nat :=
  let top := 2 ^ (f.width - 1)
  let sa := a / top % 2
  let sb := b / top % 2
  let s := match how with
    | 0 => sb
    | 1 => 1 - sb
    | _ => (sa + sb) % 2
  s * top + a % top

/-- The lesser or the greater; −0 is less than +0, and a NaN gives way to a number. -/
def rvMinMax (max : Bool) (f : Fmt) (a b : Nat) : Nat × FFlags :=
  let x := decodeF f a
  let y := decodeF f b
  let less : Bool := decide (fcmp x y < 0) || (decide (fcmp x y = 0) && x.neg && !y.neg)
  let r := if x.isNan && y.isNan then f.nan else if x.isNan then b else if y.isNan then a
    else if less != max then a else b
  (r, signalsNv f [a, b])

/-- A comparison: FEQ is invalid for a signaling NaN, FLT and FLE for any. -/
def rvCmp (how : Nat) (f : Fmt) (a b : Nat) : Bool × FFlags :=
  let x := decodeF f a
  let y := decodeF f b
  if x.isNan || y.isNan then (false, if how = 2 then signalsNv f [a, b] else flagNV)
  else
    let k := fcmp x y
    (match how with
      | 0 => decide (k ≤ 0)
      | 1 => decide (k < 0)
      | _ => decide (k = 0), 0)

/-- The class of a value, as the bit the standard gives it. -/
def rvClass (f : Fmt) (a : Nat) : Nat :=
  match decodeF f a with
  | .nan => if signaling f a then 2 ^ 8 else 2 ^ 9
  | .inf n => if n then 1 else 2 ^ 7
  | .fin n m _ =>
    if m = 0 then if n then 2 ^ 3 else 2 ^ 4
    else if isSubnormal f a then if n then 2 ^ 2 else 2 ^ 5
    else if n then 2 else 2 ^ 6

/-- To an integer, 0 W, 1 WU, 2 L, 3 LU: out of range it is the nearest bound and invalid, a NaN the upper one. -/
def rvToInt (kind : Nat) (f : Fmt) (rm a : Nat) : Word × FFlags :=
  let w := if kind < 2 then 32 else 64
  let signed := kind % 2 == 0
  let out (v : Int) : Word := if w = 32 then (BitVec.ofInt 32 v).signExtend 64 else BitVec.ofInt 64 v
  match decodeF f a with
  | .nan => (out (intHi signed w), flagNV)
  | .inf n => (out (if n then intLo signed w else intHi signed w), flagNV)
  | .fin n m e =>
    let x := rvRoundAt rm n m e 0
    let v : Int := if n then -(x.1 : Int) else x.1
    if v < intLo signed w then (out (intLo signed w), flagNV)
    else if intHi signed w < v then (out (intHi signed w), flagNV)
    else (out v, flagIf x.2 flagNX)

/-- The integer of a register as a kind of conversion reads it. -/
def rvIntValue (kind : Nat) (v : Word) : Int :=
  match kind with
  | 0 => (v.setWidth 32).toInt
  | 1 => (v.setWidth 32).toNat
  | 2 => v.toInt
  | _ => v.toNat

/-- From an integer. -/
def rvOfInt (kind : Nat) (f : Fmt) (rm : Nat) (v : Word) : Nat × FFlags :=
  let x := rvIntValue kind v
  rvRound f rm (.fin (decide (x < 0)) x.natAbs 0)

/-- Between the two precisions. -/
def rvConvert (src dst : Fmt) (rm a : Nat) : Nat × FFlags :=
  let z := rvRound dst rm (decodeF src a)
  (z.1, z.2 ||| signalsNv src [a])

/-! ## Instructions -/

/-- What a floating-point instruction leaves: in an x or an f register, and the flags it sets. -/
structure FpResult where
  toX : Bool
  rd : Nat
  value : Word
  flags : FFlags
  deriving DecidableEq, Repr

/-- The rounding field of an instruction that rounds; none where it has none. -/
def rmField : RvFp → Option Nat
  | .arith _ _ _ _ _ rm => some rm
  | .fma _ _ _ _ _ _ _ rm => some rm
  | .toInt _ _ _ _ rm => some rm
  | .ofInt _ _ _ _ rm => some rm
  | .convert _ _ _ rm => some rm
  | _ => none

/-- The rounding mode in force: the field, or FRM where it says 7; none where the mode is reserved. -/
def modeOf (frm : Nat) (x : RvFp) : Option Nat :=
  match rmField x with
  | none => some 0
  | some rm => let m := if rm = 7 then frm else rm
    if m ≤ 4 then some m else none

/-- A floating-point instruction in a rounding mode, on the x registers and the f registers. -/
def rvFp (x : RvFp) (rm : Nat) (gx gf : Nat → Word) : FpResult :=
  let rd (d : Bool) (n : Nat) : Nat := unboxed d (gf n)
  let f (d : Bool) (n : Nat) (r : Nat × FFlags) : FpResult := ⟨false, n, boxed d r.1, r.2⟩
  match x with
  | .arith o d r a b _ => f d r (rvArith o (rvFmt d) rm (rd d a) (rd d b))
  | .fma np na d r a b c _ => f d r (rvFma np na (rvFmt d) rm (rd d a) (rd d b) (rd d c))
  | .sgnj how d r a b => f d r (rvSgnj how (rvFmt d) (rd d a) (rd d b), 0)
  | .minmax m d r a b => f d r (rvMinMax m (rvFmt d) (rd d a) (rd d b))
  | .cmp how d r a b => let k := rvCmp how (rvFmt d) (rd d a) (rd d b)
    ⟨true, r, if k.1 then 1 else 0, k.2⟩
  | .classify d r a => ⟨true, r, BitVec.ofNat 64 (rvClass (rvFmt d) (rd d a)), 0⟩
  | .toInt kind d r a _ => let k := rvToInt kind (rvFmt d) rm (rd d a)
    ⟨true, r, k.1, k.2⟩
  | .ofInt kind d r a _ => f d r (rvOfInt kind (rvFmt d) rm (gx a))
  | .convert toD r a _ => f toD r (rvConvert (rvFmt (!toD)) (rvFmt toD) rm (rd (!toD) a))
  | .moveToX d r a => ⟨true, r, if d then gf a else ((gf a).setWidth 32).signExtend 64, 0⟩
  | .moveFromX d r a => ⟨false, r, boxed d (if d then (gx a).toNat else (gx a).toNat % 2 ^ 32), 0⟩

end Sys2Proof.Machine
end

