-- ==== Sys2Proof/Machine/RvCore.lean ====
section
/-! DEFINITION. A Greenhouse core executes an instruction (22 R379): control registers, traps, fetch, loads and stores
through the checks of its accesses (R380 to R386), and the rest of RV64GC with Zba, Zbb and Zicond. PRESUMED: where the
reference says nothing of its own, as the RISC-V standard has it (logs 54, 59). -/
namespace Sys2Proof.Machine

/-! ## Control registers -/

/-- A control register of those that `csr` holds, by its number. -/
def csrHeld (c : GCore) (n : Nat) : Word := mapGet c.csr n 0
def setCsr (n : Nat) (v : Word) (c : GCore) : GCore := { c with csr := mapSet c.csr n v }

/-- mstatus: MIE 3, MPIE 7, MPP 12:11, FS 14:13, MPRV 17, TW 21, UXL 33:32 = 2, SD 63. The bits FS, MPRV and TW stand under
its number in `csr`. -/
def mstatusKept : Word := 0x226000
def mstatusOf (c : GCore) : Word :=
  let kept := csrHeld c 0x300 &&& mstatusKept
  let bit (p : Bool) (k : Nat) : Word := if p then 1 <<< k else 0
  kept ||| bit c.mie 3 ||| bit c.mpie 7 ||| (if c.mppUser then 0 else 3 <<< 11) ||| 2 <<< 32
    ||| bit (kept.extractLsb' 13 2 == 3) 63

/-- FS is not off: floating-point instructions may execute. -/
def fpOn (c : GCore) : Bool := (csrHeld c 0x300).extractLsb' 13 2 != 0

/-- The floating-point state is dirty. -/
def fpDirty (c : GCore) : GCore := setCsr 0x300 (csrHeld c 0x300 ||| 0x6000) c

/-- FFLAGS and FRM. -/
def fcsrOf (c : GCore) : Word := csrHeld c 3 &&& 0xFF

/-- misa: RV64 with A, C, D, F, I, M and user mode. -/
def misaValue : Word := 0x800000000010112D

/-- Eight PMP configurations from entry i. -/
def pmpcfgOf (c : GCore) (i : Nat) : Word :=
  (List.range 8).foldl (fun w k => w ||| ((c.pmp.getD (i + k) (0, 0)).1.setWidth 64 <<< (8 * k))) 0

/-- A counter that has moved on by the cycles that passed, unless mcountinhibit holds it; those of cycles and of time do. -/
def counterOn (s : State) (n : Nat) (c : GCore) : GCore :=
  if (n = 0xB00 ∧ (csrHeld c 0x320).getLsbD 0 = false) ∨ n = 0xC01 then
    setCsr n (csrHeld c n + BitVec.ofNat 64 (Config.elapsed s.tick)) c
  else c

/-- The counter that a number names, of the machine or as user mode reads it. -/
def counterNumber (n : Nat) : Option Nat :=
  if n = 0xC01 then some n
  else if 0xC00 ≤ n ∧ n < 0xC20 then some (n - 0x100)
  else if (0xB00 ≤ n ∧ n < 0xB20) ∧ n ≠ 0xB01 then some n
  else none

/-- The value of a control register of core g; none where there is none of that number. -/
def csrValue (s : State) (g n : Nat) (c : GCore) : Option Word :=
  match n with
  | 0x001 => some (fcsrOf c &&& 0x1F)
  | 0x002 => some (fcsrOf c >>> 5)
  | 0x003 => some (fcsrOf c)
  | 0x300 => some (mstatusOf c)
  | 0x301 => some misaValue
  | 0x304 => some (csrHeld c n)
  | 0x305 => some c.mtvec
  | 0x306 => some (csrHeld c n)
  | 0x30A => some (csrHeld c n)
  | 0x320 => some (csrHeld c n)
  | 0x340 => some (csrHeld c n)
  | 0x341 => some c.mepc
  | 0x342 => some c.mcause
  | 0x343 => some c.mtval
  | 0x344 => some 0
  | 0x3A0 => some (pmpcfgOf c 0)
  | 0x3A2 => some (pmpcfgOf c 8)
  | 0xF11 => some (Config.freeBits 0 2011 0)
  | 0xF12 => some (Config.freeBits 0 2011 1)
  | 0xF13 => some (Config.freeBits 0 2011 2)
  | 0xF14 => some (BitVec.ofNat 64 g)
  | 0xF15 => some 0
  | n =>
    if 0x3B0 ≤ n ∧ n < 0x3C0 then some ((c.pmp.getD (n - 0x3B0) (0, 0)).2)
    else if 0x323 ≤ n ∧ n < 0x340 then some 0
    else match counterNumber n with
      | some k => some (if k = 0xB00 ∨ k = 0xB02 ∨ k = 0xC01 then csrHeld (counterOn s k c) k else 0)
      | none => none

/-- An access of a control register is legal: its privilege, its writability, the floating-point unit, and what
mcounteren lets user mode read. -/
def csrLegal (c : GCore) (n : Nat) (writes : Bool) : Bool :=
  (c.machine || n / 256 % 4 == 0) && !(writes && n / 1024 == 3) && (fpOn c || decide (3 < n))
  && (c.machine || n / 32 != 0x60 || (csrHeld c 0x306).getLsbD (n % 32))

/-- A PMP configuration as it is written: the reserved bits read 0, and a grant of stores without loads is none. -/
def pmpcfgLegal (b : BitVec 8) : BitVec 8 := if b.getLsbD 1 && !b.getLsbD 0 then b &&& 0x9D else b &&& 0x9F

/-- Write eight PMP configurations from entry i; locked entries stay. -/
def writePmpcfg (i : Nat) (v : Word) (c : GCore) : GCore :=
  { c with pmp := (List.range 8).foldl (fun p k =>
      let e := p.getD (i + k) (0, 0)
      if e.1.getLsbD 7 then p else p.setIfInBounds (i + k) (pmpcfgLegal (v.extractLsb' (8 * k) 8), e.2)) c.pmp }

/-- Write a PMP address; that of a locked entry, or below a locked TOR entry, stays. -/
def writePmpaddr (i : Nat) (v : Word) (c : GCore) : GCore :=
  let e := c.pmp.getD i (0, 0)
  let up := (c.pmp.getD (i + 1) (0, 0)).1
  if e.1.getLsbD 7 || (up.getLsbD 7 && up.extractLsb' 3 2 == 1) then c
  else { c with pmp := c.pmp.setIfInBounds i (e.1, v &&& 0x3FFFFFFFFFFFFF) }

/-- Write mstatus; MPP takes machine and user. -/
def writeMstatus (v : Word) (c : GCore) : GCore :=
  let c := setCsr 0x300 (v &&& mstatusKept) c
  { c with
    mie := v.getLsbD 3, mpie := v.getLsbD 7
    mppUser := if v.extractLsb' 11 2 = 0 then true else if v.extractLsb' 11 2 = 3 then false else c.mppUser }

/-- Write a control register of core g; what is read-only or hard-wired stays. -/
def csrWrite (n : Nat) (v : Word) (c : GCore) : GCore :=
  match n with
  | 0x001 => fpDirty (setCsr 3 (fcsrOf c &&& 0xE0 ||| v &&& 0x1F) c)
  | 0x002 => fpDirty (setCsr 3 (fcsrOf c &&& 0x1F ||| (v &&& 7) <<< 5) c)
  | 0x003 => fpDirty (setCsr 3 (v &&& 0xFF) c)
  | 0x300 => writeMstatus v c
  | 0x304 => setCsr n (v &&& 0x888) c
  | 0x305 => { c with mtvec := v &&& ~~~(2 : Word) }
  | 0x306 => setCsr n (v &&& 0xFFFFFFFF) c
  | 0x30A => setCsr n (v &&& 1) c
  | 0x320 => setCsr n (v &&& 5) c
  | 0x340 => setCsr n v c
  | 0x341 => { c with mepc := v &&& ~~~(1 : Word) }
  | 0x342 => { c with mcause := v }
  | 0x343 => { c with mtval := v }
  | 0x3A0 => writePmpcfg 0 v c
  | 0x3A2 => writePmpcfg 8 v c
  | 0xB00 => setCsr n v c
  | 0xB02 => setCsr n v c
  | n => if 0x3B0 ≤ n ∧ n < 0x3C0 then writePmpaddr (n - 0x3B0) v c else c

/-! ## Traps and jumps -/

/-- An exception of core g into machine mode, at the base of mtvec. -/
def coreTrap (s : State) (g : Nat) (cause tval : Word) : State :=
  let c := gcoreOf s g
  setGCore s g (machineEntry cause tval (c.mtvec &&& ~~~(3 : Word)) c)

/-- Illegal instruction. -/
def rvIllegal (s : State) (g w : Nat) : State := coreTrap s g 2 (BitVec.ofNat 64 w)

/-- An instruction that only changes its core, which is then past it. -/
def rvNext (s : State) (g len : Nat) (f : GCore → GCore) : State := setGCore s g (f (corePast len (gcoreOf s g)))

/-- A jump to an address, with the address past the instruction in a register. -/
def rvJump (s : State) (g len rd : Nat) (target : Word) : State :=
  let c := gcoreOf s g
  setGCore s g { setReg rd (c.pc + BitVec.ofNat 64 len) (retire c) with pc := target }

/-- MRET: to MPP at mepc; MIE comes back from MPIE, MPP becomes user, and MPRV ends where user mode is entered. -/
def mretTo (c : GCore) : GCore :=
  let c := if c.mppUser then setCsr 0x300 (csrHeld c 0x300 &&& ~~~(0x20000 : Word)) c else c
  { retire c with machine := !c.mppUser, pc := c.mepc, mie := c.mpie, mpie := true, mppUser := true }

/-! ## Accesses of instructions -/

/-- The access of an instruction at an address. -/
def rvAccess (c : GCore) (g n : Nat) (k : AccessKind) (a data : Word) (rd len : Nat) : CoreAccess :=
  ⟨g, a.toNat, n, k, data, accessUser c k, rd, len⟩

/-- The answer of a load as its register takes it. -/
def mapReply (f : Word → Word) (r : State × CoreReply) : State × CoreReply :=
  match r.2 with
  | .value v => (r.1, .value (f v))
  | _ => r

/-- The f registers change: the floating-point state is dirty, unless the core has trapped. -/
def fpLoaded (g : Nat) (r : State × CoreReply) : State × CoreReply :=
  match r.2 with
  | .value _ => (setGCore r.1 g (fpDirty (gcoreOf r.1 g)), r.2)
  | _ => r

/-! ## Instructions -/

/-- An x register. -/
def xReg (c : GCore) (n : Nat) : Word := c.x.getD n 0
/-- An f register. -/
def fReg (c : GCore) (n : Nat) : Word := c.f.getD n 0

def rvSrc (c : GCore) : RvSrc → Word
  | .reg n => xReg c n
  | .imm v => v

/-- An instruction of Zicsr: the old value in rd; a set or clear of nothing (x0, or 0 immediately) writes nothing. -/
def rvCsr (s : State) (g w len : Nat) (how : RvCsrOp) (rd n : Nat) (src : RvSrc) : State :=
  let c := gcoreOf s g
  let v := rvSrc c src
  let writes := match how, src with
    | .write, _ => true
    | _, .reg k => k != 0
    | _, .imm x => x != 0
  match csrValue s g n c with
  | none => rvIllegal s g w
  | some old =>
    if !csrLegal c n writes then rvIllegal s g w
    else
      let new := match how with
        | .write => v
        | .set => old ||| v
        | .clear => old &&& ~~~v
      rvNext s g len fun c =>
        let c := match counterNumber n with
          | some k => counterOn s k c
          | none => c
        setReg rd old (if writes then csrWrite n new c else c)

/-- A floating-point instruction that reaches no memory. -/
def rvFloat (s : State) (g w len : Nat) (x : RvFp) : State :=
  let c := gcoreOf s g
  match modeOf ((fcsrOf c).toNat / 32) x with
  | none => rvIllegal s g w
  | some rm =>
    if !fpOn c then rvIllegal s g w
    else
      let r := rvFp x rm (xReg c) (fReg c)
      rvNext s g len fun c =>
        let c := setReg (if r.toX then r.rd else 32 + r.rd) r.value c
        if !r.toX || r.flags != 0 then fpDirty (setCsr 3 (fcsrOf c ||| (r.flags &&& 0x1F).setWidth 64) c) else c

/-- Core g executes an instruction, whose encoding is w and len bytes long. -/
def rvExec (s : State) (g w len : Nat) (i : Rv) : State :=
  let c := gcoreOf s g
  let reach (rd n : Nat) (k : AccessKind) (a data : Word) (f : Word → Word) : State :=
    coreFinish g rd len (mapReply f (coreReach s (rvAccess c g n k a data rd len)))
  match i with
  | .lui rd v => rvNext s g len (setReg rd v)
  | .auipc rd v => rvNext s g len (setReg rd (c.pc + v))
  | .jal rd off => rvJump s g len rd (c.pc + off)
  | .jalr rd rs1 off => rvJump s g len rd ((xReg c rs1 + off) &&& ~~~(1 : Word))
  | .branch k rs1 rs2 off => if rvTaken k (xReg c rs1) (xReg c rs2) then rvJump s g len 0 (c.pc + off) else rvNext s g len id
  | .load n signed rd rs1 off =>
    reach rd n .load (xReg c rs1 + off) 0 (fun v => if signed then coreSigned n v.toNat else v)
  | .store n rs2 rs1 off => reach 0 n .store (xReg c rs1 + off) (xReg c rs2) id
  | .loadFp n rd rs1 off =>
    if !fpOn c then rvIllegal s g w
    else coreFinish g (32 + rd) len (fpLoaded g (mapReply (fun v => boxed (n == 8) v.toNat)
      (coreReach s (rvAccess c g n .load (xReg c rs1 + off) 0 (32 + rd) len))))
  | .storeFp n rs2 rs1 off =>
    if !fpOn c then rvIllegal s g w else reach 0 n .store (xReg c rs1 + off) (fReg c rs2) id
  | .op o k rd rs1 b => rvNext s g len (setReg rd (rvCompute o k (xReg c rs1) (rvSrc c b)))
  | .amo code n rd rs1 rs2 => reach rd n (.amo code) (xReg c rs1) (xReg c rs2) id
  | .lr n rd rs1 => reach rd n .lr (xReg c rs1) 0 id
  | .sc n rd rs1 rs2 => reach rd n .sc (xReg c rs1) (xReg c rs2) id
  | .csr how rd n src => rvCsr s g w len how rd n src
  | .fence => rvNext s g len id
  | .fenceI => rvNext s g len cacheEmptied
  | .ecall => coreTrap s g (if c.machine then 11 else 8) 0
  | .ebreak => coreTrap s g 3 0
  | .mret => if c.machine then setGCore s g (mretTo c) else rvIllegal s g w
  | .wfi =>
    if !c.machine && (csrHeld c 0x300).getLsbD 21 then rvIllegal s g w else rvNext s g len (fun c => { c with asleep := true })
  | .fp x => rvFloat s g w len x

/-! ## Fetch -/

/-- Two bytes are fetched at an address; none where the core has trapped. -/
def fetchParcel (s : State) (g : Nat) (a : Word) : State × Option Nat :=
  let c := gcoreOf s g
  let r := coreReach s (rvAccess c g 2 .fetch a 0 0 0)
  match r.2 with
  | .bytes l => (r.1, some (natOfBytes l))
  | _ => (r.1, none)

/-- The encoding at the pc and its length. -/
def fetchRv (s : State) (g : Nat) : State × Option (Nat × Nat) :=
  let pc := (gcoreOf s g).pc
  match fetchParcel s g pc with
  | (s, none) => (s, none)
  | (s, some lo) =>
    if lo % 4 ≠ 3 then (s, some (lo, 2))
    else match fetchParcel s g (pc + 2) with
      | (s, none) => (s, none)
      | (s, some hi) => (s, some (lo + 65536 * hi, 4))

/-- Core g executes the instruction at its pc; one that is due to be pruned prunes, and one that waits at WFI waits on
(R391, R392). -/
def coreRun (s : State) (g : Nat) : State :=
  let c := gcoreOf s g
  if 256 ≤ g ∨ !c.inService then s
  else if pruneDue c then pruneCore s g
  else if c.asleep then s
  else match fetchRv s g with
    | (s, none) => s
    | (s, some (w, len)) =>
      let s := setGCore s g { gcoreOf s g with fetched := bytesOfNat len w }
      match decodeRv w with
      | none => rvIllegal s g w
      | some i => rvExec s g w len i

/-- A WFI ends: the standard lets it at any time. -/
def coreWake (s : State) (g : Nat) : State :=
  if (gcoreOf s g).asleep then setGCore s g { gcoreOf s g with asleep := false } else s

end Sys2Proof.Machine
end

