-- ==== Sys2Proof/Machine/Fetch.lean ====
section
/-! DEFINITION. What a step does around `exec`: whose turn it is, fetch (04 R75, R90), interrupts before an instruction
(19 R356, R357), the BREAK after a single step (19 R355). -/
namespace Sys2Proof.Machine

/-! ## Fetch -/

/-- What the fetch checks answer at the PC of the current hart: a trap, or where the word is (04 R75, R90; 05 R110). -/
def fetchCheck (s : State) : Except TrapInfo Phys :=
  if s.hart.pc.toNat % 4 ≠ 0 then .error (accessTrap causeMisalign s.hart.pc .fetch)
  else match resolve s s.hart.pc .fetch with
    | .error t => .error t
    | .ok p => if readPoison s p.pa 4 then .error (accessTrap causePoison s.hart.pc .fetch) else .ok p

/-- The word at a physical address, as the hart's loads see it (log 16). -/
def wordAt (s : State) (pa : Nat) : IWord := BitVec.ofNat 32 (natOfBytes (readBytes s pa 4))

/-- What a word is to a hart: its instruction, or a word that is none (04 R89). -/
def instrOf (w : IWord) : Instr :=
  match decodeWord w with
  | .ok i => i
  | .error _ => .illegalWord w

/-- FETCH_FAULT: the fetch at the PC fails; nothing is executed. -/
def execFetchFault (s : State) : Out :=
  match fetchCheck s with
  | .error t => raise s t
  | .ok _ => .next s

/-- ILLEGAL_WORD: a word that is no instruction. -/
def execIllegalWord (w : IWord) (s : State) : Out := raise s (illegal w)

/-- The instruction at the PC of the current hart, and the state after its fetch. -/
def fetched (s : State) : Instr × State :=
  match fetchCheck s with
  | .error _ => (.fetchFault, s)
  | .ok p => (instrOf (wordAt s p.pa), touch s p false)

/-! ## Turns -/

/-- What a turn asks for: nothing further, or an instruction or event to perform. -/
inductive Action
  | idle
  | perform (i : Instr)
  deriving DecidableEq, Repr

/-- The hart as it moves: the flat index at which an interrupt is to cut its instruction. -/
def moving (stop : Option Nat) (h : Hart) : Hart := { h with stopAt := stop, fresh := stop.isNone && h.fresh }

/-- The current hart moves. A pending interrupt comes first, unless it became pending since the hart last moved and the
turn names the flat index at which it is to cut the instruction; a hart that waits asks again for what it waits at. Where
the fetch needs a sector from a bank in use, the fill waits there and the hart stays where it stands (14 R320). -/
def hartAction (s : State) (stop : Option Nat) : Action × State :=
  if s.hart.run != .running then (.idle, s)
  else if (stop.isNone || !s.hart.fresh) && interruptDue s.hart then (.idle, interruptHere s)
  else
    let s := { s with hart := moving stop s.hart }
    match s.hart.wait with
    | some i => (.perform i, s)
    | none =>
      let t := (fetched s).2
      if (busyFills s t).isEmpty then (.perform (fetched s).1, t) else (.idle, waitFills s (busyFills s t))

/-- A peer's memory or the host window: what agents outside the device may write (24 R400, R408). -/
def outsideOwns (a : Nat) : Bool := isHost a || isPeer a || decide (2 ^ 62 ≤ a)

/-- Write bytes that belong to an outside agent. -/
def writeOutside (s : State) (a : Nat) (bytes : List Byte) : State :=
  if outsideOwns a && outsideOwns (a + bytes.length) then setBytes s a bytes else s

/-- The data of some bytes is undefined: a range of such data holds them, or their page as its mappings stand (13 R297,
R305). -/
def undefinedAt (s : State) (a n : Nat) : Bool :=
  s.ms.undef.any (fun r => decide (r.1 ≤ a) && decide (a + n ≤ r.1 + r.2))
  || (isCached a && a / 65536 == (a + n - 1) / 65536 && marksBroken s (a / 65536))

/-- Bytes that a core's L1 holds of a sector, replaced where others are given. -/
def disturbL1 (sec : Nat) (xs : List (Option Byte)) (c : CoreState) : CoreState :=
  let put (b : CacheByte) (x : Option Byte) : CacheByte :=
    match b, x with
    | .clean _, some y => .clean y
    | .dirty _, some y => .dirty y
    | b, _ => b
  match mapGet? c.l1 sec with
  | some l => { c with l1 := mapSet c.l1 sec { l with bytes := overlay put .absent none 128 l.bytes xs } }
  | none => c

/-- Undefined data becomes other data, in the arrays, at its home and in every L1 (13 R297, R305). -/
def disturb (s : State) (a : Nat) (bytes : List Byte) : State :=
  if !undefinedAt s a bytes.length then s
  else
    let sec := a / 128
    let xs := maskedSector (a % 128) bytes
    let put (bs : List Byte) : List Byte := mergeBytes bs xs
    let s := writeArray s sec (put (settledSector s sec)) (s.ms.poison.contains sec)
    let s := { s with core := disturbL1 sec xs s.core, cores := s.cores.map (fun p => (p.1, disturbL1 sec xs p.2)) }
    match mapGet? s.ms.l2 sec with
    | some h => putHome s sec { h with bytes := put h.bytes }
    | none => s

/-- What a turn does that is neither a hart's nor a row of the opcode table. -/
def outsideTurn (s : State) : Turn → State
  | .outside a bytes => writeOutside s a bytes
  | .refuse asid => refuseLater s asid
  | .drainPart h sec mask => drainPart s h sec mask
  | .stepReads cmd piece n => stepReads s cmd piece n
  | .disturb a bytes => disturb s a bytes
  | .walkError asid => failSpace s asid
  | .peerRefuses h => peerRefuses s h
  | .barRead func off size => bar0Read s func off size
  | .bar2 func off write size => longBar2 s func off write size
  | .fabric source addr a => fabricAccess s source addr a
  | .coreRun g => coreRun s g
  | .coreWake g => coreWake s g
  | .run .. => s
  | .event _ => s

/-- The turn at the head of the agenda; with none, the current hart moves (log 2). -/
def nextTurn (s : State) : Action × State :=
  match s.agenda with
  | [] => hartAction s none
  | .run h stop :: rest => hartAction (focus { s with agenda := rest } h) stop
  | .event i :: rest => (.perform i, { s with agenda := rest })
  | t :: rest => (.idle, outsideTurn { s with agenda := rest } t)

/-- What the next step performs, and the state in which it does; every step is a new one for the free values. -/
def nextAction (s : State) : Action × State := nextTurn { s with tick := s.tick + 1 }

/-- Whose turn it is: a hart's, a bank's or an engine's, another agent's. -/
inductive TurnOf
  | hart | bank | other
  deriving DecidableEq, Repr

/-- An event in which an engine acts or a bank serves what waits at it. -/
def bankEvent : Instr → Bool
  | .engineRowStep .. => true
  | .engineWriteBack .. => true
  | .inPlaceComplete .. => true
  | .ordinaryRequest .. => true
  | .refreshEnd .. => true
  | _ => false

/-- Whose turn is at the head of the agenda. -/
def turnOf (s : State) : TurnOf :=
  match s.agenda with
  | [] => .hart
  | .run .. :: _ => .hart
  | .stepReads .. :: _ => .bank
  | .event i :: _ => if bankEvent i then .bank else .other
  | _ => .other

/-- A single step is over at this point: the instruction completed or stopped part-way, or it waits at itself, which is
its stop point; WAITADDR and PARK have none before they complete (19 R355, R357; log 17). -/
def stepOver (h : Hart) : Bool :=
  match h.wait with
  | none => true
  | some .park => false
  | some (.waitaddr ..) => false
  | some _ => true

/-- A turn that needs a sector from a bank that is in use does not take place: its fills wait at the bank, and it may come
again (14 R320; log 33). What engines and banks do themselves is not held back. -/
def unlessBusy (who : TurnOf) (before after : State) : State :=
  if who == .bank || (busyFills before after).isEmpty then after else waitFills before (busyFills before after)

/-- After an instruction of a hart or an event: the wait for a bank; else a single step ends with BREAK, TPC at the next
position (19 R355). -/
def afterExec (who : TurnOf) (before : State) (o : Out) : Out :=
  match o with
  | .next t =>
    if who == .hart && before.hart.stepping && stepOver t.hart && (busyFills before t).isEmpty then .next (singleStepBreak t)
    else .next (unlessBusy who before t)
  | r => r

/-- The state of a turn that performs nothing further: the agenda has moved on, and the wait for a bank. -/
def afterIdle (s t : State) : State := unlessBusy (turnOf s) { s with tick := s.tick + 1, agenda := s.agenda.tail } t

/-! ## Placing a word where the next step fetches (log 2) -/

/-- Bytes put into the arrays, with no cached copy and no poison of their sector left. -/
def plantBytes (s : State) (a : Nat) (bytes : List Byte) : State :=
  let sec := a / 128
  let s := { s with
    hart := { s.hart with sb := mapErase s.hart.sb sec }
    core := { s.core with l1 := mapErase s.core.l1 sec }
    ms := { s.ms with l2 := mapErase s.ms.l2 sec, poison := s.ms.poison.filter (fun n => n != sec) } }
  setBytes s a bytes

/-- A page-table entry that points to the page at `pa`: V alone, or a leaf of kind DRAM that user code may fetch from,
with A set (13 R289). -/
def pointerEntry (pa : Nat) : Nat := pa / 65536 * 2 ^ 28 + 1
def codeEntry (pa : Nat) : Nat := pa / 65536 * 2 ^ 28 + 0x77

/-- The address a fetch is to be made from: the PC, or 0 where nothing can be fetched at it. -/
def plantPc (s : State) : Word := if canonical s.hart.pc && decide (s.hart.pc.toNat % 4 = 0) then s.hart.pc else 0

/-- The word `w` stands where the current hart fetches next: the hart runs in its mode, nothing waits or is pending, no
turn comes before its own, and three levels of tables from 0x100000 map the page of its PC to the page at 0x130000. -/
def plantWord (s : State) (w : Nat) : State :=
  let pc := plantPc s
  let s := plantBytes s (0x100000 + 8 * (pc.extractLsb' 42 13).toNat) (bytesOfNat 8 (pointerEntry 0x110000))
  let s := plantBytes s (0x110000 + 8 * (pc.extractLsb' 29 13).toNat) (bytesOfNat 8 (pointerEntry 0x120000))
  let s := plantBytes s (0x120000 + 8 * (pc.extractLsb' 16 13).toNat) (bytesOfNat 8 (codeEntry 0x130000))
  let s := plantBytes s (0x130000 + (pc.setWidth 16).toNat) (bytesOfNat 4 w)
  { s with
    agenda := []
    core := { s.core with tlb := [] }
    ms := { s.ms with dieTlb := Vector.replicate 4 [], upper := Vector.replicate 4 [] }
    hart := { s.hart with
      pc := pc, run := .running, ptbase := 0x100000, wait := none, stepping := false
      tstatus := putField s.hart.tstatus 4 3 0 } }

end Sys2Proof.Machine
end

