-- ==== Sys2Proof/Machine/Management.lean ====
section
/-! DEFINITION. Management (24 R409 to R418): boot and firmware, attestation, tenants and their teardown, peers, power,
errors, failures and the health word. -/
namespace Sys2Proof.Machine

/-! ## The health word (R417) -/

/-- Host and Cerman ports that run narrower than built. -/
def narrowPorts (s : State) : Nat :=
  (s.host.link.toList.filter (fun x => decide (x.lanes < 16))).length + (s.host.port.toList.filter (fun x => decide (x.lanes < 8))).length

def healthWord (s : State) : Word :=
  let h := s.host.health
  BitVec.ofNat 64 (h.softerr * 2 ^ 48 + h.colfail % 256 * 2 ^ 40 + h.pagefail % 256 * 2 ^ 32 + narrowPorts s % 256 * 2 ^ 24
    + (if h.teardown then 4 else 0) + (if h.throttle then 2 else 0) + (if h.replace then 1 else 0))

def modHealth (s : State) (f : Health → Health) : State := { s with host := { s.host with health := f s.host.health } }

/-- A HEALTH entry in every enabled ring (R405, R416). -/
def healthEntries (s : State) : State :=
  let entry := bytesOfNat 8 (healthWord s).toNat ++ bytesOfNat 3 0 ++ bytesOfNat 1 2 ++ bytesOfNat 20 0
  (s.host.func.map (·.1)).foldl (fun s f => ringAppend s f entry) s

/-- An answer of a management path. -/
def answerWords (s : State) (ws : List Word) : State := { s with host := { s.host with replyWords := ws } }

/-- HEALTH_WORD_READ: TEARDOWN clears when read. -/
def execHealthWordRead (s : State) : Out :=
  .next (modHealth (answerWords s [healthWord s]) (fun h => { h with teardown := false }))

/-- SOFTERR_CLEAR. -/
def execSofterrClear (s : State) : Out := .next (modHealth s (fun h => { h with softerr := 0 }))

/-- POWER_LIMIT_THROTTLE and THROTTLE_END: clocks change times only (R414). -/
def execPowerLimitThrottle (s : State) : Out := .next (modHealth s (fun h => { h with throttle := true }))
def execThrottleEnd (s : State) : Out := .next (modHealth s (fun h => { h with throttle := false }))

/-- TELEMETRY_READ: power, temperatures, the health word, and the count of refused fabric accesses. -/
def execTelemetryRead (s : State) : Out :=
  .next (modHealth (answerWords s (Config.telemetry s.tick ++ [healthWord s, BitVec.ofNat 64 s.host.refused]))
    (fun h => { h with teardown := false }))

/-- No firmware takes commands after a boot that stopped (R411). -/
def whenBooted (s : State) (k : Out) : Out := if s.host.bootFail.isSome then .next (refuseCommand s) else k

/-- SET_POWER_MODE. -/
def execSetPowerMode (m : PowerMode) (s : State) : Out := whenBooted s (.next { s with host := { s.host with power := m } })

/-! ## Commands that touch tenants (R418) -/

/-- A command that touches a tenant in teardown does nothing now, and is refused once that completes. -/
def whileTearing (s : State) (asid : Nat) (k : Out) : Out :=
  whenBooted s (if tearingDown s (BitVec.ofNat 16 asid) then .next (refuseLater s asid) else k)

/-- SET_DEVICE_NUMBER, SET_ROUTE_TABLE (R409). -/
def execSetDeviceNumber (n : BitVec 12) (s : State) : Out := whenBooted s (.next { s with host := { s.host with devNum := n } })
def execSetRouteTable (rows : List (Nat × Nat)) (s : State) : Out :=
  whenBooted s (.next { s with host := { s.host with routes := rows } })

/-- A range a peer window may expose (R410). -/
def peerRange (base size : Nat) : Bool :=
  base % 0x10000 == 0 && size % 0x10000 == 0
  && (size == 0 || decide (base + size ≤ dramSize) || (decide (capBase ≤ base) && decide (base + size ≤ capEnd))
    || (isVault base && isVault (base + size - 1) && columnOf base == columnOf (base + size - 1)))

/-- SET_PEER_WINDOW touches the tenant of the window that it sets and that of the window that it replaces. -/
def execSetPeerWindow (i : Nat) (w : PeerWindow) (s : State) : Out :=
  whileTearing s w.asid <| whileTearing s (((mapGet? s.host.window i).map (·.asid)).getD w.asid)
    (if i < 64 ∧ peerRange w.base w.size then .next { s with host := { s.host with window := mapSet s.host.window i w } }
     else .next (refuseCommand s))

/-! ## Tenants (R413) -/

/-- Two tenants share nothing that belongs to one at a time. -/
def sharesNothing (a b : TenantSpec) : Bool :=
  let apart (x y : List Nat) : Bool := x.all (fun i => !y.contains i)
  a.asid != b.asid && apart a.columns b.columns && apart a.granules b.granules && apart a.blocks b.blocks
  && apart a.queues b.queues && apart a.slots b.slots && apart a.mailboxes b.mailboxes && apart a.functions b.functions

/-- What management may assign. -/
def specOk (s : State) (t : TenantSpec) : Bool :=
  decide (t.asid < 2 ^ 16) && t.columns.all (fun c => decide (c < 128) && (getCore s c).inService)
  && t.granules.all (fun g => decide (g < 2048)) && t.blocks.all (fun b => decide (b < 32))
  && t.queues.all (fun q => decide (q < 256)) && decide (t.queues.length ≤ 64) && t.slots.all (fun n => decide (n < 16384))
  && t.mailboxes.all (fun b => decide (b < 4096)) && decide (64 ≤ t.quota) && decide (t.quota ≤ 16384)
  && t.functions.all (fun f => decide (f < 128))
  && s.sched.tenant.all (fun p => sharesNothing t p.2.spec)

/-- A mask of columns. -/
def columnMask (cols : List Nat) : BitVec 128 := cols.foldl (fun m c => m ||| BitVec.ofNat 128 (2 ^ c)) 0

/-- Mailboxes, slots and functions carry the tenant. -/
def assignBox (asid : BitVec 16) (s : State) (b : Nat) : State := setBox s b { boxOf s b with ownerV := true, owner := asid }
def assignSlot (asid : BitVec 16) (s : State) (n : Nat) : State := setSlot s n { slotOf s n with valid := true, asid := asid }
def assignFunc (asid : BitVec 16) (s : State) (f : Nat) : State := modFunc s f (fun x => { x with tenant := some asid })

/-- The home masks of granules. -/
def setMasks (s : State) (granules : List Nat) (m : BitVec 128) : State :=
  { s with ms := { s.ms with granule := granules.foldl (fun g n => mapSet g n m) s.ms.granule } }

/-- TENANT_CREATE. -/
def execTenantCreate (t : TenantSpec) (s : State) : Out :=
  whileTearing s t.asid
    (if specOk s t then
       let asid := BitVec.ofNat 16 t.asid
       let x : Tenant :=
         { spec := t, qage := 0, lost := 0, next := 0, logColumn := (sortNat t.columns).head?, gone := none, tearing := false }
       let s := { s with sched := { s.sched with tenant := mapSet s.sched.tenant t.asid x } }
       let s := setMasks s t.granules (columnMask t.columns)
       let s := t.mailboxes.foldl (assignBox asid) s
       let s := t.slots.foldl (assignSlot asid) s
       .next (t.functions.foldl (assignFunc asid) s)
     else .next (refuseCommand s))

/-- TRAP_VECTOR_CHANGE (01 R33). -/
def execTrapVectorChange (asid : Nat) (vector scratch : Word) (s : State) : Out :=
  whileTearing s asid
    (match mapGet? s.sched.tenant asid with
     | some _ => .next (modTenant s (BitVec.ofNat 16 asid) fun t =>
         { t with spec := { t.spec with vector := vector, scratch := scratch } })
     | none => .next (refuseCommand s))

/-- The log stands in a column anew: NEXT restarts, and its first entry names the column it left (19 R360). -/
def moveLog (s : State) (asid : BitVec 16) (col old : Nat) : State :=
  logViolation (modTenant s asid (fun t => { t with logColumn := some col, next := 0, gone := none })) asid
    (BitVec.ofNat 64 old) 0 3 3 0

/-- COLUMN_ASSIGNMENT: a tenant without a column in service has its log again. -/
def execColumnAssignment (asid col : Nat) (s : State) : Out :=
  let a := BitVec.ofNat 16 asid
  whileTearing s asid
    (match mapGet? s.sched.tenant asid with
     | none => .next (refuseCommand s)
     | some t =>
       if 128 ≤ col ∨ !(getCore s col).inService ∨ s.sched.tenant.any (fun p => p.2.spec.columns.contains col) then
         .next (refuseCommand s)
       else
         let s := modTenant s a fun t => { t with spec := { t.spec with columns := t.spec.columns ++ [col] } }
         .next (match t.logColumn, t.gone with
           | none, some old => moveLog s a col old
           | none, none => modTenant s a fun t => { t with logColumn := some col }
           | some _, _ => s))

/-! ## Teardown (R413) -/

/-- A piece in progress completes whole. -/
def finishOps (c : Command) (i : Nat) : List MicroOp → State → State
  | [], s => s
  | op :: rest, s =>
    match findCommand s c.id with
    | none => s
    | some c => match c.pieces[i]? with
      | none => s
      | some p => finishOps c i rest (performOp s c i p op rest)

/-- The pieces of a command that are in progress run to their write-backs; then the command is abandoned. -/
def abandonCommand (s : State) (c : Command) : State :=
  let s := c.pieces.zipIdx.foldl (fun s p =>
    if (bankState s p.1.bank).engine = some c.id ∧ !p.1.ops.isEmpty
      ∧ (c.pieces.take p.2).all (fun q => q.bank != p.1.bank || q.ops.isEmpty) then finishOps c p.2 p.1.ops s
    else s) s
  let s := { s with eng := { s.eng with cmd := s.eng.cmd.filter (fun x => x.id != c.id) } }
  freeBanks (letGo s c.id)

/-- The copy commands of a tenant leave the channels of every core. -/
def abandonCopies (asid : BitVec 16) (c : CoreState) : CoreState :=
  { c with chan := c.chan.map fun x => { x with queue := x.queue.filter (fun cmd => cmd.asid != asid) } }

/-- A plot of a tenant that is torn down (22 R397). -/
def closePlot (s : State) (b : Nat) : State :=
  let s := stopCount s b
  let m := boxOf s b
  setBox s b { m with
    sealed_ := true, estate := if m.estate = .opened then .closed else m.estate, xpend := false, up := [], dn := []
    waiting := [], ownerV := false, owner := 0 }

/-- The Greenhouse cores of a block are reset. -/
def resetBlock (s : State) (block : Nat) : State :=
  (List.range 8).foldl (fun s i =>
    let g := 8 * block + i
    let c := gcoreOf s g
    setGCore s g { GCore.reset with sram := c.sram, bad := c.bad, inService := c.inService }) s

/-- The mailboxes that carry a tenant. -/
def boxesOf (s : State) (asid : BitVec 16) : List Nat :=
  (s.green.box.filter (fun p => p.2.ownerV && p.2.owner == asid)).map (·.1)

/-- TENANT_TEARDOWN: steps 1 to 4. The mailboxes that the tenant has from its supervisor are cleared with its own. -/
def execTenantTeardown (asid : Nat) (s : State) : Out :=
  let a := BitVec.ofNat 16 asid
  whileTearing s asid
    (match mapGet? s.sched.tenant asid with
     | none => .next (refuseCommand s)
     | some t =>
       let boxes := boxesOf s a
       let s : State := modTenant s a (fun t => { t with
         tearing := true, spec := { t.spec with mailboxes := t.spec.mailboxes ++ boxes } })
       let queue := s.sched.queue.map (fun p => (p.1, p.2.filter (fun q => q.asid != a)))
       let s : State := { s with sched := { s.sched with
         queue := queue, replay := s.sched.replay.filter (fun r => r.asid != a), owed := s.sched.owed.filter (fun o => o.asid != a) } }
       let s : State := (s.sched.gang.filter (fun g => g.asid == a)).foldl (fun (s : State) (g : Gang) =>
         let s : State := { s with sched := { s.sched with gang := s.sched.gang.filter (fun x => x.id != g.id) } }
         stopGang s g) s
       let s : State := (s.eng.cmd.filter (fun c => c.asid == a)).foldl abandonCommand s
       let s : State := { s with
         eng := { s.eng with sweep := s.eng.sweep.filter (fun w => (slotOf s w.slot).asid != a) }
         core := abandonCopies a s.core
         cores := s.cores.map (fun p => (p.1, abandonCopies a p.2)) }
       let s := (boxesOf s a).foldl closePlot s
       .next (t.spec.blocks.foldl resetBlock s))

/-- An address of a tenant's memory: its columns' channels and vaults, its granules. -/
def ownedBy (t : TenantSpec) (a : Nat) : Bool :=
  ((isDram a || isVault a) && t.columns.contains (columnOf a)) || (isCap a && t.granules.contains ((a - capBase) / 2 ^ 30))

/-- The blocks of a granule elided with 0 (13 R304). -/
def elideGranule (m : Map Word) (g : Nat) : Map Word :=
  let lo := capBase / 4096 + g * 262144
  m.filter (fun p => decide (p.1 < lo)) ++ (List.range 262144).map (fun i => (lo + i, 0))
    ++ m.filter (fun p => decide (lo + 262144 ≤ p.1))

/-- Steps 5 and 6: caches of the tenant's addresses are invalidated; its memories read 0. -/
def scrub (t : TenantSpec) (s : State) : State :=
  let clean (c : CoreState) : CoreState := { c with l1 := c.l1.filter (fun p => !ownedBy t (p.1 * 128)) }
  let drop (h : Hart) : Hart :=
    { h with
      sb := h.sb.filter (fun p => !ownedBy t (p.1 * 128))
      sbGrain := h.sbGrain.filter (fun p => !ownedBy t (p.1 * 128)) }
  let s := { s with
    hart := drop s.hart
    harts := s.harts.map (fun p => (p.1, drop p.2))
    core := clean s.core
    cores := s.cores.map (fun p => (p.1, clean p.2))
    ms := { s.ms with
      l2 := s.ms.l2.filter (fun p => !ownedBy t (p.1 * 128))
      poison := s.ms.poison.filter (fun n => !ownedBy t (n * 128))
      mem := s.ms.mem.filter (fun p => !(ownedBy t p.1 && !isCap p.1))
      compressed := s.ms.compressed.filter (fun p => !ownedBy t (p.1 * 65536))
      filled := s.ms.filled.filter (fun p => !ownedBy t (p.1 * 65536))
      undef := s.ms.undef.filter (fun r => !ownedBy t r.1)
      posted := s.ms.posted.map (fun p => (p.1, p.2.filter (fun q => !ownedBy t (q.1 * 128))))
      elided := t.granules.foldl elideGranule s.ms.elided } }
  t.blocks.foldl (fun s b => (List.range 8).foldl (fun s i =>
    setGCore s (8 * b + i) { gcoreOf s (8 * b + i) with sram := [], bad := [] }) s) s

/-- TEARDOWN_COMPLETE: steps 5 to 8. -/
def execTeardownComplete (asid : Nat) (s : State) : Out :=
  let a := BitVec.ofNat 16 asid
  match mapGet? s.sched.tenant asid with
  | none => .next s
  | some t =>
    if !t.tearing then .next s
    else
      let s := scrub t.spec s
      let s := { s with
        eng := { s.eng with slot := s.eng.slot.filter (fun p =>
          if p.2.valid then p.2.asid != a else !t.spec.slots.contains p.1) }
        green := { s.green with box := s.green.box.filter (fun p => p.2.ownerV || !t.spec.mailboxes.contains p.1) }
        sched := { s.sched with
          tenant := mapErase s.sched.tenant asid
          lastId := s.sched.lastId.filter (fun p => !t.spec.queues.contains p.1)
          graph := s.sched.graph.filter (fun p => p.1 / 64 != asid) }
        host := { s.host with
          window := s.host.window.filter (fun p => p.2.asid != asid)
          func := s.host.func.map (fun p => (p.1, if p.2.tenant = some a then { p.2 with tenant := none } else p.2)) } }
      let s := setMasks s t.spec.granules 0
      .next (healthEntries (modHealth s (fun h => { h with teardown := true })))

/-! ## Failures (R415, R416) -/

/-- The gangs with a member on some columns fail without a trap (19 R359). -/
def failColumns (s : State) (cols : List Nat) : State :=
  (s.sched.gang.filter (fun g => g.members.any (fun m => cols.contains (colOf m)))).foldl (fun s g =>
    failGang s g ((g.members.find? (fun m => cols.contains (colOf m))).getD 0) causePoison 0) s

/-- VALID entries of a log. -/
def validEntries (s : State) (col : Nat) : Nat :=
  ((List.range 64).filter (fun i => (settledByte s (logBase col + 16 * i + 13)).getLsbD 0)).length

/-- The log of a tenant leaves a retired column (19 R360). -/
def retireLog (col : Nat) (s : State) (p : Nat × Tenant) : State :=
  if p.2.logColumn ≠ some col then s
  else
    let a := BitVec.ofNat 16 p.1
    let lost := min (p.2.lost + validEntries s col) (2 ^ 32 - 1)
    let s := modTenant s a (fun t => { t with lost := lost, next := 0, logColumn := none, gone := some col })
    match serviceColumns s p.2 with
    | c :: _ => moveLog s a c col
    | [] => s

/-- A column leaves the schedulable set. -/
def retireColumn (s : State) (col : Nat) : State :=
  let s := modCore s col fun c => { c with inService := false }
  let s := s.sched.tenant.foldl (retireLog col) s
  let s := failColumns s [col]
  let s := modCore s col fun c => { CoreState.reset with cycle := c.cycle, inService := false }
  { s with ms := { s.ms with l2 := s.ms.l2.filter (fun p => homeOf s (p.1 * 128) != some col) } }

/-- What a failed unit leaves behind. -/
def retireUnit (s : State) (u : FailedUnit) : State :=
  match u with
  | .column c => modHealth (retireColumn s c) (fun h => { h with colfail := h.colfail + 1 })
  | .bank .. => modHealth s (fun h => { h with pagefail := h.pagefail + 1 })
  | .package _ => modHealth s (fun h => { h with pagefail := h.pagefail + 1 })
  | .link n down =>
    match s.host.link.toList[n]? with
    | some x =>
      let y : Link := if down then { x with up := false } else { x with lanes := max 1 (x.lanes / 2) }
      { s with host := { s.host with link := s.host.link.setIfInBounds n y } }
    | none => s
  | .lane p lanes => setPort s p { up := false, lanes := min (portOf s p).lanes lanes, replays := 0, lost := false }
  | .gcore g =>
    let s := if (gcoreOf s g).installed then prunePlot (setGCore s g (countOn s (gcoreOf s g))) g else s
    setGCore s g { gcoreOf s g with inService := false }

/-- A failure of a unit the device has. -/
def unitExists (u : FailedUnit) : Bool :=
  match u with
  | .column c => decide (c < 128)
  | .bank ch b => decide (ch < 128) && decide (b < 32)
  | .package n => decide (n < 32)
  | .link n _ => decide (n < 2)
  | .lane p l => decide (p < 16) && (l == 4 || l == 2 || l == 1)
  | .gcore g => decide (g < 256)

/-- MSI-X vector 1 of every function (R402, R416). -/
def signalHealth (s : State) : State :=
  (List.range 128).foldl (fun s f => modFunc s f (fun x => { x with msi1 := x.msi1 + 1 })) s

/-- A unit that fails once; a link or a port may fail again, narrower than before (R402, R408). -/
def failsOnce (u : FailedUnit) : Bool :=
  match u with
  | .link .. => false
  | .lane .. => false
  | _ => true

/-- UNIT_FAILURE. -/
def execUnitFailure (u : FailedUnit) (s : State) : Out :=
  if !unitExists u ∨ (failsOnce u ∧ s.host.retired.contains u) then .next s
  else
    let s := { s with host := { s.host with
      retired := if s.host.retired.contains u then s.host.retired else s.host.retired ++ [u] } }
    let s := modHealth (retireUnit s u) (fun h => { h with replace := true })
    let s := { s with host := { s.host with events := s.host.events + 1 } }
    .next (signalHealth (healthEntries s))

/-- The store whose count a corrected error raises. -/
def eccClass (e : EccStore) : Nat :=
  match e with
  | .register .. => 0
  | .accumulator .. => 0
  | .weights .. => 0
  | .l1 .. => 0
  | .sector n => if isDram (n * 128) then 1 else if isCap (n * 128) then 2 else 0
  | .home _ => 0
  | .gsram .. => 3
  | .gcache .. => 3
  | .structural _ => 0

/-- A granule of a vector register of a hart is uncorrectable, until it is written; the hart meets it where it reads it. -/
def badRegister (reg pos : Nat) (h : Hart) : Hart :=
  let r := h.v.getD reg VReg.reset
  { h with v := h.v.setIfInBounds reg { r with bad := if r.bad.contains pos then r.bad else pos :: r.bad } }

/-- The bytes of a stream in a weight buffer are uncorrectable. -/
def badStream (n : Nat) (h : Hart) : Hart :=
  { h with fifo := h.fifo.zipIdx.map (fun p => if p.2 = n then { p.1 with bad := true } else p.1) }

/-- The bytes of an L1 sector are uncorrectable: the dirty ones are lost, the clean ones read as poisoned (13 R298). -/
def badL1 (n : Nat) (c : CoreState) : CoreState :=
  match mapGet? c.l1 n with
  | some x =>
    let lose (b : CacheByte) : CacheByte := match b with
      | .dirty y => .lost y
      | y => y
    { c with l1 := mapSet c.l1 n { bytes := x.bytes.map lose, poison := true } }
  | none => c

/-- What an uncorrectable error does (R415, 13 R298). -/
def uncorrectable (s : State) (e : EccStore) : State :=
  match e with
  | .register h r p => modHart s h (badRegister r p)
  | .accumulator col k => modCore s col fun c => { c with accBad := if c.accBad.contains k then c.accBad else k :: c.accBad }
  | .weights h n => modHart s h (badStream n)
  | .l1 col n => modCore s col (badL1 n)
  | .sector n => if s.ms.poison.contains n then s else { s with ms := { s.ms with poison := n :: s.ms.poison } }
  | .home n => match mapGet? s.ms.l2 n with
    | some x => putHome s n { x with poison := true }
    | none => s
  | .gsram g k =>
    let c := gcoreOf s g
    setGCore s g { c with bad := if c.bad.contains k then c.bad else k :: c.bad }
  | .gcache g k =>
    let c := gcoreOf s g
    setGCore s g { c with ibad := if c.ibad.contains k then c.ibad else k :: c.ibad }
  | .structural cols => failColumns s cols

/-- SOFT_ERROR: corrected in place and counted, or found uncorrectable. -/
def execSoftError (e : EccStore) (corrected : Bool) (s : State) : Out :=
  if corrected then
    let k := eccClass e
    let s := { s with host := { s.host with corrected := s.host.corrected.setIfInBounds k (s.host.corrected.getD k 0 + 1) } }
    .next (modHealth s (fun h => { h with softerr := min (h.softerr + 1) 0xFFFF }))
  else .next (uncorrectable s e)

/-- PATROL_SCRUB reads every sector of the arrays; what it finds is a SOFT_ERROR of its own. -/
def execPatrolScrub (s : State) : Out := .next s

/-! ## Boot and firmware (R411) -/

/-- FIRMWARE_UPDATE: image 0 management firmware, 1 device supervisor, 2 Greenhouse monitor, for the next reset. -/
def execFirmwareUpdate (stage : Nat) (image : BootImage) (s : State) : Out :=
  whenBooted s <| .next (if stage < 3 then { s with host := { s.host with staged := mapSet s.host.staged stage image } } else refuseCommand s)

/-- A signature over the image's digest verifies against the key of a fused digest. -/
def signatureOk (fused : BitVec 384) (x : ImageSignature) (b : BootImage) : Bool := x.key == fused && x.signs == b.digest

/-- An image passes its stage: both signatures and its security version. -/
def imageOk (s : State) (k : Nat) (b : BootImage) : Bool :=
  signatureOk s.host.fusedKeys.1 b.ecdsa b && signatureOk s.host.fusedKeys.2 b.lms b
  && decide (s.host.minVersion.getD k 0 ≤ b.version)

/-- The device configuration as it is measured: device number, power mode, tenant map, peer windows. -/
def configContent (s : State) : List Nat :=
  let lists (l : List Nat) : List Nat := l.length :: l
  let power := match s.host.power with
    | .balanced => [0]
    | .matrix => [1]
    | .memory => [2]
    | .latency cols => 3 :: lists cols
  let tenant (p : Nat × Tenant) : List Nat :=
    let t := p.2.spec
    [p.1] ++ lists t.columns ++ lists t.granules ++ lists t.blocks ++ lists t.queues ++ lists t.slots ++ lists t.mailboxes
    ++ [t.quota, t.vector.toNat, t.scratch.toNat, t.ptbase.toNat] ++ lists t.functions
  let window (p : Nat × PeerWindow) : List Nat :=
    [p.1, p.2.source, p.2.base, p.2.size, if p.2.canRead then 1 else 0, if p.2.canWrite then 1 else 0, p.2.asid]
  s.host.devNum.toNat :: power ++ [s.sched.tenant.length] ++ s.sched.tenant.flatMap tenant ++ s.host.window.flatMap window

/-- The measurements 1 to 5 (R412); the fifth follows what it measures. -/
def measurements (s : State) : List (Nat × BitVec 384) :=
  [(1, Config.bootRomDigest), (2, s.host.image.getD 0 0), (3, s.host.image.getD 1 0), (4, s.host.image.getD 2 0),
   (5, Config.sha384 (configContent s))]

/-- The device identity key, of the fused secret; the alias key, derived at a boot from its measurements (R412). -/
def identityKey : BitVec 384 := Config.deriveKey Config.fusedSecret []
def aliasOf (s : State) : BitVec 384 := Config.deriveKey identityKey ((measurements s).map (·.2))

/-- The chain of slot 0 (R412). -/
def certChain (s : State) : List Cert := [⟨Config.rootKey, identityKey⟩, ⟨identityKey, s.host.aliasKey⟩]

/-- What a reset leaves: reset values, with the fuses, memory outside the device and inputs to come (log 40). -/
def afterReset (s : State) : State :=
  { State.reset with
    ms := { MemSys.reset with mem := s.ms.mem.filter (fun p => decide (hostBase ≤ p.1)) }
    host := { HostState.reset with minVersion := s.host.minVersion, version := s.host.version, fusedKeys := s.host.fusedKeys }
    agenda := s.agenda
    tick := s.tick }

/-- BOOT: the images in their stages, those staged for this reset in place of the given ones. -/
def execBoot (images : BootImages) (s : State) : Out :=
  let pick (k : Nat) (b : BootImage) : BootImage := mapGet s.host.staged k b
  let m := pick 0 images.management
  let v := pick 1 images.supervisor
  let g := pick 2 images.monitor
  let t := afterReset s
  if !imageOk s 0 m then .next { t with host := { t.host with bootStage := 1, bootFail := some 1 } }
  else if !imageOk s 1 v ∨ !imageOk s 2 g then .next { t with host := { t.host with bootStage := 2, bootFail := some 2 } }
  else
    let t := { t with host := { t.host with
      bootStage := 3, version := #v[m.version, v.version, g.version], image := #v[m.digest, v.digest, g.digest] } }
    .next { t with host := { t.host with aliasKey := aliasOf t } }

/-! ## Attestation (R412; the order of requests is that of SPDM 1.3, log 41) -/

/-- An SPDM request: answered where the session has come to one of some phases, which it moves on; else an error. -/
def spdm (s : State) (kind : Nat) (phases : List SpdmPhase) (next : SpdmPhase) (r : SpdmReply) : Out :=
  if phases.contains s.host.spdm then
    .next { s with host := { s.host with spdm := next, spdmReply := r, replyBytes := Config.spdmBytes s.tick kind } }
  else .next { s with host := { s.host with spdmReply := .error, replyBytes := Config.spdmBytes s.tick 0 } }

def spdmAll : List SpdmPhase := [.idle, .version, .capabilities, .algorithms, .keyExchanged, .session]
def spdmReady : List SpdmPhase := [.algorithms, .session]

/-- A certificate as the numbers that its digest covers. -/
def certNumbers (c : Cert) : List Nat := [c.issuer.toNat, c.subject.toNat]

def execGetVersion (s : State) : Out := spdm s 1 spdmAll .version .version
def execGetCapabilities (s : State) : Out := spdm s 2 [.version] .capabilities .capabilities
def execNegotiateAlgorithms (s : State) : Out :=
  spdm s 3 [.capabilities] .algorithms (.algorithms [.ecdsaP384, .sha384, .ecdheP384, .aes256Gcm])
def execGetDigests (s : State) : Out :=
  spdm s 4 spdmReady s.host.spdm (.digests [Config.sha384 ((certChain s).flatMap certNumbers)])
def execGetCertificate (s : State) : Out := spdm s 5 spdmReady s.host.spdm (.certificate (certChain s))
def execChallenge (s : State) : Out := spdm s 6 [.algorithms] .algorithms (.challenge s.host.aliasKey (measurements s))
def execGetMeasurements (s : State) : Out := spdm s 7 spdmReady s.host.spdm (.measurements (measurements s))
def execKeyExchange (s : State) : Out := spdm s 8 [.algorithms] .keyExchanged (.keyExchange s.host.aliasKey)
def execFinish (s : State) : Out := spdm s 9 [.keyExchanged] .session .finish
def execHeartbeat (s : State) : Out := spdm s 10 [.session] .session .heartbeat
def execEndSession (s : State) : Out := spdm s 11 [.session] .algorithms .endSession

end Sys2Proof.Machine
end

