-- ==== Sys2Proof/Machine/Streams.lean ====
section
/-! DEFINITION. Weight streams (10 R201, R202): band headers, the three kinds of payload, and the rows of a stream. -/
namespace Sys2Proof.Machine

/-- One k-row of a band: the value codes of its columns, the E3M5 scales of its block, and the stream offset of the
first byte of it that is malformed (R207). -/
structure BandRow where
  vals : List Nat
  scales : Option (List Nat)
  bad : Option Nat
  deriving DecidableEq, Repr

/-- A band: the stream offset of its header, its fields, the offset at which it ends, its rows. -/
structure Band where
  off : Nat
  fmt : Nat
  kind : Nat
  n : Nat
  bscale : Nat
  fin : Nat
  rows : List BandRow
  deriving DecidableEq, Repr

/-- Width of a weight format: INT8, E2M1, E4M3, E5M2, BF16. -/
def weightWidth (fmt : Nat) : Nat := if fmt = 1 then 4 else if fmt = 4 then 16 else 8

/-- Values packed as they are in memory (03 R51). -/
def unpackVals (w cnt : Nat) (bs : List Byte) : List Nat :=
  (List.range cnt).map fun i =>
    if w = 4 then (bs.getD (i / 2) 0).toNat / 16 ^ (i % 2) % 16 else field bs (i * (w / 8)) (w / 8)

/-- A section of `cnt` values of width w at an offset: the values and the offset past it; none past the end. -/
def takeVals (bs : List Byte) (off cnt w : Nat) : Option (List Nat × Nat) :=
  let nb := (cnt * w + 7) / 8
  if bs.length < off + nb then none else some (unpackVals w cnt ((bs.drop off).take nb), off + nb)

/-- The scales of a block where the format has them, and the offset of the first reserved one. -/
def takeScales (bs : List Byte) (off n : Nat) (scaled : Bool) : Option (Option (List Nat) × Option Nat × Nat) :=
  if scaled then
    (takeVals bs off n 8).map fun p =>
      (some p.1, if p.1.contains 0xFF then some (off + p.1.idxOf 0xFF) else none, p.2)
  else some (none, none, off)

/-- Dense rows, `cnt` of them. -/
def denseRows (bs : List Byte) (n w : Nat) (sc : Option (List Nat)) (bad : Option Nat) :
    Nat → Nat → Option (List BandRow × Nat)
  | 0, off => some ([], off)
  | cnt + 1, off => do
    let v ← takeVals bs off n w
    let r ← denseRows bs n w sc bad cnt v.2
    pure (⟨v.1, sc, bad⟩ :: r.1, r.2)

/-- A dense unit: one row, or an 8-row block of E2M1. -/
def denseUnit (bs : List Byte) (n w : Nat) (scaled : Bool) (off : Nat) : Option (List BandRow × Nat) := do
  let s ← takeScales bs off n scaled
  denseRows bs n w s.1 s.2.1 (if scaled then 8 else 1) s.2.2

/-- The rows that an S24 group of four stores. -/
def s24Row (n r : Nat) (vals pos : List Nat) : List Nat :=
  (List.range n).map fun c =>
    let p := pos.getD c 0
    if p % 4 = r then vals.getD (2 * c) 0 else if p / 4 = r then vals.getD (2 * c + 1) 0 else 0

/-- An S24 group with the scales that apply to it. -/
def s24Group (bs : List Byte) (n w : Nat) (sc : Option (List Nat)) (bad : Option Nat) (off : Nat) :
    Option (List BandRow × Nat) := do
  let v ← takeVals bs off (2 * n) w
  let p ← takeVals bs v.2 n 4
  let wrong := ((List.range n).find? (fun c => decide (p.1.getD c 0 / 4 ≤ p.1.getD c 0 % 4))).map (fun c => v.2 + c / 2)
  pure ((List.range 4).map (fun r => ⟨s24Row n r v.1 p.1, sc, bad <|> wrong⟩), p.2)

/-- An S24 unit: one group, or the two groups of an E2M1 block. -/
def s24Unit (bs : List Byte) (n w : Nat) (scaled : Bool) (off : Nat) : Option (List BandRow × Nat) := do
  let s ← takeScales bs off n scaled
  let a ← s24Group bs n w s.1 s.2.1 s.2.2
  if scaled then
    let b ← s24Group bs n w s.1 s.2.1 a.2
    pure (a.1 ++ b.1, b.2)
  else pure a

/-- Marked columns take the repeated values, the others those of the row. -/
def spread : List Bool → List Nat → List Nat → List Nat
  | [], _, _ => []
  | true :: ms, reps, rest => reps.headD 0 :: spread ms reps.tail rest
  | false :: ms, reps, rest => rest.headD 0 :: spread ms reps rest.tail

/-- The rows of a CBLK block after its shared sections. -/
def cblkRows (bs : List Byte) (w : Nat) (marks : List Bool) (reps : List Nat) (sc : Option (List Nat))
    (bad : Option Nat) : Nat → Nat → Option (List BandRow × Nat)
  | 0, off => some ([], off)
  | cnt + 1, off => do
    let v ← takeVals bs off (marks.countP (fun m => !m)) w
    let r ← cblkRows bs w marks reps sc bad cnt v.2
    pure (⟨spread marks reps v.1, sc, bad⟩ :: r.1, r.2)

/-- A CBLK block of eight rows. -/
def cblkUnit (bs : List Byte) (n w : Nat) (scaled : Bool) (off : Nat) : Option (List BandRow × Nat) := do
  let bm ← takeVals bs off ((n + 7) / 8) 8
  let marks := (List.range n).map (fun c => (bm.1.getD (c / 8) 0).testBit (c % 8))
  let s ← takeScales bs bm.2 n scaled
  let reps ← takeVals bs s.2.2 (marks.countP id) w
  cblkRows bs w marks reps.1 s.1 s.2.1 8 reps.2

/-- Some units in sequence. -/
def bandUnits (unit : Nat → Option (List BandRow × Nat)) : Nat → Nat → Option (List BandRow × Nat)
  | 0, off => some ([], off)
  | cnt + 1, off => do
    let u ← unit off
    let r ← bandUnits unit cnt u.2
    pure (u.1 ++ r.1, r.2)

/-- A header breaks no row of R201. -/
def headerOk (hd : Nat) : Bool :=
  let fmt := hd % 16
  let kind := hd / 2 ^ 4 % 4
  let n := hd / 2 ^ 8 % 512
  let rows := hd / 2 ^ 17 % 128
  let bscale := hd / 2 ^ 32 % 2 ^ 16
  hd / 2 ^ 48 == 0 && hd / 2 ^ 24 % 256 == 0 && hd / 2 ^ 6 % 4 == 0 && decide (fmt < 5) && decide (kind < 3)
  && decide (1 ≤ n) && decide (n ≤ 384) && decide (1 ≤ rows) && decide (rows ≤ 64)
  && !((fmt == 1 || kind == 2) && rows % 8 != 0) && !(kind == 1 && rows % 4 != 0)
  && (if fmt = 1 then bandScaleOk bscale else bscale == 0)

/-- The band whose header stands at an offset; none where it is malformed or runs past the end (R203). -/
def parseBand (bs : List Byte) (off : Nat) : Option Band := do
  if bs.length < off + 8 then none
  else
    let hd := field bs off 8
    if !headerOk hd then none
    else
      let fmt := hd % 16
      let kind := hd / 2 ^ 4 % 4
      let n := hd / 2 ^ 8 % 512
      let rows := hd / 2 ^ 17 % 128
      let w := weightWidth fmt
      let scaled := fmt == 1
      let r ← match kind with
        | 0 => bandUnits (denseUnit bs n w scaled) (if scaled then rows / 8 else rows) (off + 8)
        | 1 => bandUnits (s24Unit bs n w scaled) (if scaled then rows / 8 else rows / 4) (off + 8)
        | _ => bandUnits (cblkUnit bs n w scaled) (rows / 8) (off + 8)
      let fin := off + (r.2 - off + 7) / 8 * 8
      if bs.length < fin then none else some ⟨off, fmt, kind, n, hd / 2 ^ 32 % 2 ^ 16, fin, r.1⟩

/-- The bands from an offset to the end; the offset of a header that is wrong. -/
def parseBands (bs : List Byte) : Nat → Nat → Except Nat (List Band)
  | 0, _ => .ok []
  | fuel + 1, off =>
    if bs.length ≤ off then .ok []
    else match parseBand bs off with
      | none => .error off
      | some b => match parseBands bs fuel b.fin with
        | .error e => .error e
        | .ok l => .ok (b :: l)

/-- The bands of some bytes from an offset. -/
def bandsOf (bs : List Byte) (off : Nat) : Except Nat (List Band) := parseBands bs (bs.length / 8 + 1) off

/-! ## Rows of the FIFO -/

/-- A row about to be popped: which stream it comes from, its band, the row. -/
structure PopRow where
  stream : Nat
  band : Band
  row : BandRow
  deriving DecidableEq, Repr

/-- The rows a stream still holds. -/
def streamRows (i : Nat) (st : Stream) : Except Nat (List PopRow) :=
  match bandsOf st.bytes st.band with
  | .error e => .error e
  | .ok [] => .ok []
  | .ok (b :: bs) =>
    .ok ((b.rows.drop st.rows).map (PopRow.mk i b) ++ bs.flatMap (fun b => b.rows.map (PopRow.mk i b)))

/-- The next rows of the FIFO, at most `need`. -/
def nextRows : Nat → Nat → List Stream → Except Nat (List PopRow)
  | _, _, [] => .ok []
  | i, need, st :: rest =>
    if need = 0 then .ok []
    else match streamRows i st with
      | .error e => .error e
      | .ok l => match nextRows (i + 1) (need - l.length) rest with
        | .error e => .error e
        | .ok r => .ok (l.take need ++ r)

/-- The place k rows further: the band and the rows popped from it; none at the end. -/
def advanceIn : List Band → Nat → Nat → Option (Nat × Nat)
  | [], _, _ => none
  | b :: bs, rows, k =>
    if b.rows.length - rows ≤ k then advanceIn bs 0 (k - (b.rows.length - rows)) else some (b.off, rows + k)

/-- The FIFO after k rows were popped. A stream whose reissued read failed has none of them, and stays (R224). -/
def popRows : List Stream → Nat → List Stream
  | [], _ => []
  | st :: rest, k =>
    if st.missing then st :: rest
    else match bandsOf st.bytes st.band with
    | .error _ => st :: rest
    | .ok bands =>
      match advanceIn bands st.rows k with
      | some p => { st with band := p.1, rows := p.2 } :: rest
      | none => popRows rest (k - ((bands.map (fun b => b.rows.length)).foldl (· + ·) 0 - st.rows))

end Sys2Proof.Machine
end

