-- ==== Sys2Proof/Machine/Matrix.lean ====
section
/-! DEFINITION. Matrix mode (10 R190 to R211): WBLD, WBDROP, MMA, ACCZ, ACCI, ACCX. -/
namespace Sys2Proof.Machine

/-! ## Rules shared by the array instructions -/

/-- What an instruction of opcodes 0x1F and 0x20 names, before its operands (R190, R193). -/
def arrayReq (i : Instr) (cls : PipeClass) (c : Bool) (accept : Option (EType → Bool)) : VReq :=
  { vreq (wordOf i) cls c with accept := accept, array := true }

/-- Every legal VTYPE. -/
def acceptLegal (_ : EType) : Bool := true

/-- An array instruction that runs whole: the checks of R90; nothing at zero length (R192); VSTART ignored (R194). -/
def arrayWhole (s : State) (q : VReq) (k : Out) : Out :=
  withCheck s (checkVector s q) (if tileSize s = 0 then .next (finishV (joinConvoy s q)) else k)

/-- An array instruction completes. -/
def arrayDone (s : State) (q : VReq) : Out := .next (finishV (joinConvoy s q))

/-- One that changed the matrix context (R191). -/
def arrayChanged (s : State) (q : VReq) : Out := arrayDone (contextChanged s) q

/-- M_p: the rows of the tile that the hart owns (R197). -/
def localRows (s : State) : Nat := min (rowCount s) (s.hart.tilem - tsRank s.hart.tileset * rowCount s)

/-- The scales of an E2M1 operand are read, and its tile meets their limits (03 R57). -/
def scaledReq (s : State) (q : VReq) : VReq :=
  let e2 := (etype? s.hart).any isScaled
  { q with scales := e2, typeOk := !e2 || scaleLimits s }

/-- The trap of the first of some elements whose scales fail, with VSTART at it (R194). -/
def firstScaleTrap (s : State) (es : List Nat) : Option (Nat × TrapInfo) :=
  if isScaled (etypeD s) then es.findSome? (fun e => (scaleTrap s e).map (fun t => (e, t))) else none

/-- The elements of vector v that a tile of `rows` rows and `cols` columns reads; none where the hart's tile is too small
for it. -/
def tileNeeds (s : State) (v rows cols : Nat) : List (Nat × Nat) :=
  if s.hart.vr < rows ∨ s.hart.vl < cols then []
  else ((List.range rows).flatMap (fun m => (List.range cols).map (fun c => m * s.hart.vl + c))).map (fun e => (v, e))

/-- The scales of v1 that elements of a tile are read under. -/
def scaleNeeds (s : State) (l : List (Nat × Nat)) : List (Nat × Nat) :=
  if (etype? s.hart).any isScaled then l.map (fun p => (1, scaleIndex s p.2)) else []

/-! ## WBLD (R203, R204) and WBDROP (R205) -/

/-- Capacity of a hart's weight-buffer share. -/
def fifoCapacity (s : State) (h : Nat) : Nat := 65536 * (heldGroups (getCore s (colOf h)) (h % 4)).length

/-- The FIFO of a hart has room for n bytes: bands consumed whole no longer count, one consumed in part counts whole
(DESIGN CHOICE beside R203, log 82). -/
def fifoRoom (s : State) (n h : Nat) : Bool :=
  let f := (getHart s h).fifo
  decide ((f.map (fun st => st.count - st.band)).foldl (· + ·) 0 + n ≤ fifoCapacity s h) && decide (f.length < 16)

/-- The harts whose FIFOs a WBLD feeds. -/
def wbldTargets (s : State) (multi : Bool) : List Nat :=
  if multi then ((List.range (tsSize s.hart.tileset)).map (fun k => 4 * tsMember s.hart.tileset k + s.idx))
  else [s.cur]

/-- A WBLD that the set of its hart does not admit (R204). -/
def wbldIllegal (s : State) (multi : Bool) : Bool :=
  tsRank s.hart.tileset != 0 || (multi && decide (tsSize s.hart.tileset < 2))

/-- The stream joins the FIFO of a hart. -/
def appendStream (st : Stream) (s : State) (h : Nat) : State :=
  modHart s h fun x => { x with fifo := x.fifo ++ [st], mdirty := true }

def execWbld (c : Bool) (gs1 gs2 : Reg) (multi : Bool) (s : State) : Out :=
  let i := Instr.wbld c gs1 gs2 multi
  let q := arrayReq i .eng c (some acceptLegal)
  arrayWhole s q
    (let a := readG s gs1
     let n := (readG s gs2).toNat
     if wbldIllegal s multi then raise s (illegal (wordOf i))
     else if n = 0 then arrayDone s q
     else if a.toNat % 8 ≠ 0 ∨ n % 8 ≠ 0 then raise s (accessTrap causeMisalign a .load)
     else if fifoCapacity s s.cur < n then raise s (plainTrap causeFormat (BitVec.ofNat 64 n))
     else match loadRange s a n kindShared with
       | .error t => raise s t
       | .ok ps =>
         let bytes := spanBytes s ps
         match bandsOf bytes 0 with
         | .error off => raise s (plainTrap causeFormat (BitVec.ofNat 64 off))
         | .ok _ =>
           if (wbldTargets s multi).all (fifoRoom s n) then
             let t := fillSpans (touchSpans s ps false) ps
             arrayDone ((wbldTargets s multi).foldl (appendStream ⟨a, n, bytes, 0, 0, false, false⟩) t) q
           else .next (waitAt s i))

/-- Room in the FIFOs: a waiting WBLD is asked again. -/
def execWbldRoom (h : Nat) (s : State) : Out :=
  goOn s h fun t i => match i with
    | .wbld c a b m => execWbld c a b m t
    | _ => .next t

def execWbdrop (c : Bool) (s : State) : Out :=
  let q := arrayReq (.wbdrop c) .mtx c (some acceptLegal)
  arrayWhole s q (arrayChanged { s with hart := { s.hart with fifo := [] } } q)

/-! ## MMA (R206, R207; 03 R70) -/

/-- INT8, E2M1, E4M3, E5M2, BF16. -/
def acceptMma : EType → Bool
  | .int w => w == 8
  | .uint _ => false
  | .fp f => f == e2m1 || f == e4m3 || f == e5m2 || f == bf16

/-- Read a stream whose reissued read failed, again (R224): its trap, or the stream. Uncorrectable bytes trap as an
uncorrectable register does (24 R415; log 58). -/
def retryStream (s : State) (st : Stream) : Except TrapInfo Stream :=
  if st.bad then .error (plainTrap causePoison 0)
  else if !st.missing then .ok st
  else
    match loadRange s (st.addr + BitVec.ofNat 64 st.band) (st.count - st.band) kindShared with
    | .error t => .error t
    | .ok ps => .ok { st with bytes := List.replicate st.band 0 ++ spanBytes s ps, missing := false }

/-- The pages through which a stream is read again, where that succeeds. -/
def streamSpans (s : State) (st : Stream) : List Span :=
  match loadRange s (st.addr + BitVec.ofNat 64 st.band) (st.count - st.band) kindShared with
  | .ok ps => if st.missing then ps else []
  | .error _ => []

/-- The streams of the FIFO that an MMA of `need` rows reaches, read where they were missing. -/
def retryFifo (s : State) : Nat → List Stream → Except TrapInfo (List Stream)
  | _, [] => .ok []
  | need, st :: rest =>
    if need = 0 then .ok (st :: rest)
    else match retryStream s st with
      | .error t => .error t
      | .ok st =>
        let n := match streamRows 0 st with
          | .ok l => l.length
          | .error _ => 0
        match retryFifo s (need - n) rest with
        | .error t => .error t
        | .ok r => .ok (st :: r)

/-- The pages through which `retryFifo` reads; the reads set their A bits (13 R292). -/
def retrySpans (s : State) : Nat → List Stream → List Span
  | _, [] => []
  | need, st :: rest =>
    if need = 0 then []
    else match retryStream s st with
      | .error _ => []
      | .ok x =>
        let n := match streamRows 0 x with
          | .ok l => l.length
          | .error _ => 0
        streamSpans s st ++ retrySpans s (need - n) rest

/-- The k-block of the wider of two widths (03 R70). -/
def kBlock (w : Nat) : Nat := if w ≤ 4 then 8 else if w ≤ 8 then 4 else 2

/-- The popped rows, each with its k, in blocks (R206). `cur` is the block being filled, newest first. -/
def splitBlocks (aw : Nat) : List (Nat × PopRow) → List (Nat × PopRow) → List (List (Nat × PopRow))
  | [], [] => []
  | cur, [] => [cur.reverse]
  | [], x :: xs => splitBlocks aw [x] xs
  | y :: cur, x :: xs =>
    if y.2.stream = x.2.stream ∧ y.2.band.off = x.2.band.off
        ∧ (y :: cur).length < kBlock (max aw (weightWidth y.2.band.fmt)) then
      splitBlocks aw (x :: y :: cur) xs
    else (y :: cur).reverse :: splitBlocks aw [x] xs

/-- The format of a floating-point weight. -/
def weightFmt (fmt : Nat) : Fmt := if fmt = 1 then e2m1 else if fmt = 2 then e4m3 else if fmt = 3 then e5m2 else bf16

/-- B(k, n) of a floating-point row, exactly, scales applied (R202). -/
def weightValue (p : PopRow) (n : Nat) : FVal :=
  let v := decodeF (weightFmt p.band.fmt) (p.row.vals.getD n 0)
  match p.row.scales with
  | some sc => (fmul v (fmul (e3m5 (sc.getD n 0)) (decodeF bf16 p.band.bscale)).1).1
  | none => v

/-- A block sum: products exact, summed exactly, rounded once to FP32 (03 R70). -/
def blockSum (ps : List (FVal × FVal)) : Written :=
  let prods := ps.map (fun p => (fmul p.1 p.2).1)
  let sum := match prods with
    | [] => .fin false 0 0
    | p :: rest => rest.foldl (fun a b => (fadd false a b).1) p
  let w := rne32 sum
  { w with flags := w.flags ||| flagIf sum.isNan flagNV }

/-- One accumulator word after the blocks of its column, floating point: bits and flags. -/
def mmaFloat (a : Nat → FVal) (n : Nat) (blocks : List (List (Nat × PopRow))) (acc : Nat) : Nat × FFlags :=
  blocks.foldl (fun r blk =>
    let b := blockSum (blk.map (fun p => (a p.1, weightValue p.2 n)))
    let w := add32 r.1 b.bits
    (w.bits, r.2 ||| b.flags ||| w.flags)) (acc, 0)

/-- One accumulator word after the rows of its column, INT8: exact in INT32, wrapping. -/
def mmaInt (a : Nat → Int) (n : Nat) (rows : List (Nat × PopRow)) (acc : Nat) : Nat :=
  ofInt 32 (rows.foldl (fun r p => r + a p.1 * toInt 8 (p.2.row.vals.getD n 0)) (acc : Int))

/-- The words of a tile of `rows` rows and `cols` columns. -/
def tileWords (rows cols : Nat) : List (Nat × Nat) :=
  (List.range rows).flatMap (fun m => (List.range cols).map (fun n => (m, n)))

/-- The element of A at (m, k) as its exact value under its scales; subnormals are kept. -/
def mmaA (s : State) (vs2 m k : Nat) : FVal :=
  let e := m * s.hart.vl + k
  operandValue s (etypeD s) false (elem s 2 vs2 (sew s) e) e

/-- The effect of an MMA on the accumulators and flags. -/
def mmaApply (s : State) (vs2 : Nat) (rows : List PopRow) : State :=
  let isInt := match etypeD s with
    | .int _ => true
    | _ => false
  let numbered := rows.zipIdx.map (fun p => (p.2, p.1))
  let blocks := splitBlocks (sew s) [] numbered
  if rows.isEmpty then s
  else (tileWords (localRows s) s.hart.tilen).foldl (fun t p =>
    let col := s.hart.tilenoff + p.2
    let acc := (accWord s p.1 col).toNat
    if isInt then
      setAcc t p.1 col (BitVec.ofNat 32
        (mmaInt (fun k => toInt 8 (elem s 2 vs2 8 (p.1 * s.hart.vl + k))) p.2 numbered acc))
    else
      let r := mmaFloat (mmaA s vs2 p.1) p.2 blocks acc
      raiseFlags (setAcc t p.1 col (BitVec.ofNat 32 r.1)) r.2) s

/-- The own traps of MMA over the rows it pops (R207). -/
def mmaTrap (s : State) (word : IWord) (need : Nat) (rows : List PopRow) : Option TrapInfo :=
  let isInt := match etypeD s with
    | .int _ => true
    | _ => false
  if rows.length < need then some (illegal word)
  else match rows.find? (fun r => r.band.n != s.hart.tilen) with
    | some r => some (plainTrap causeFormat (BitVec.ofNat 64 r.band.off))
    | none => match rows.findSome? (·.row.bad) with
      | some off => some (plainTrap causeFormat (BitVec.ofNat 64 off))
      | none =>
        if rows.any (fun r => (r.band.fmt == 0) != isInt) then
          some (plainTrap causeVtype (s.hart.vtype.setWidth 64))
        else none

/-- What an MMA names: the words of the tile that it adds into among them. -/
def mmaReq (c : Bool) (vs2 : Reg) (s : State) : VReq :=
  let needs := tileNeeds s vs2.toNat (localRows s) s.hart.tilek
  scaledReq s { arrayReq (.mma c vs2) .mtx c (some acceptMma) with
    groupReads := [vs2.toNat], accs := badAccs s (localRows s) s.hart.tilenoff s.hart.tilen
    needs := some (needs ++ scaleNeeds s needs) }

def execMma (c : Bool) (vs2 : Reg) (s : State) : Out :=
  let i := Instr.mma c vs2
  let q := mmaReq c vs2 s
  arrayWhole s q
    (let h := s.hart
     let mp := localRows s
     if h.vr < mp ∨ h.vl < h.tilek ∨ 384 < h.tilenoff + h.tilen then raise s (illegal (wordOf i))
     else match retryFifo s h.tilek h.fifo with
       | .error t => raise s t
       | .ok fifo => match nextRows 0 h.tilek fifo with
         | .error off => raise s (plainTrap causeFormat (BitVec.ofNat 64 off))
         | .ok rows => match mmaTrap s (wordOf i) h.tilek rows with
           | some t => raise s t
           | none =>
             match firstScaleTrap s ((tileWords mp h.tilek).map (fun p => p.1 * h.vl + p.2)) with
             | some (e, t) => .next (trapAt s e t)
             | none =>
               let t := mmaApply (touchSpans s (retrySpans s h.tilek h.fifo) false) vs2.toNat rows
               arrayChanged { t with hart := { t.hart with fifo := popRows fifo h.tilek } } q)

/-! ## Accumulators (R208 to R211) -/

def execAccz (c : Bool) (s : State) : Out :=
  let q := arrayReq (.accz c) .mtx c (some acceptLegal)
  arrayWhole s q
    (arrayChanged ((tileWords (localRows s) s.hart.tilen).foldl
      (fun t p => clearAcc t p.1 (s.hart.tilenoff + p.2)) s) q)

/-- INT and UINT at SEW 4 to 32, and every floating-point format. -/
def acceptAcc : EType → Bool
  | .int w => decide (w ≤ 32)
  | .uint w => decide (w ≤ 32)
  | .fp _ => true

/-- The tile lies within the accumulators from a first column on. -/
def accFits (s : State) (c0 : Nat) : Bool := decide (s.hart.vr ≤ rowCount s) && decide (c0 + s.hart.vl ≤ 384)

/-- An element as an accumulator word (R210). -/
def acciWord (s : State) (vs2 e : Nat) : BitVec 32 × FFlags :=
  let t := etypeD s
  let bits := elem s 2 vs2 t.width e
  match t with
  | .int w => (BitVec.ofInt 32 (toInt w bits), 0)
  | .uint _ => (BitVec.ofNat 32 bits, 0)
  | .fp _ =>
    let w := rne32 (operandValue s t false bits e)
    (BitVec.ofNat 32 w.bits, w.flags)

def execAcci (c : Bool) (gs1 vs2 : Reg) (s : State) : Out :=
  let i := Instr.acci c gs1 vs2
  let q := scaledReq s { arrayReq i .mtx c (some acceptAcc) with groupReads := [vs2.toNat] }
  arrayWhole s q
    (let c0 := (readG s gs1).toNat
     if !accFits s c0 then raise s (illegal (wordOf i))
     else match firstScaleTrap s (List.range (tileSize s)) with
       | some (e, t) => .next (trapAt s e t)
       | none =>
         arrayChanged ((List.range (tileSize s)).foldl (fun t e =>
           let w := acciWord s vs2.toNat e
           raiseFlags (setAcc t (e / s.hart.vl) (c0 + e % s.hart.vl) w.1) w.2) s) q)

/-- A word as ACCX reads it. -/
def accxValue (s : State) (e c0 : Nat) : FVal :=
  let bits := (accWord s (e / s.hart.vl) (c0 + e % s.hart.vl)).toNat
  match etypeD s with
  | .fp _ => readF fp32 (ftzOf s.hart) bits
  | _ => fvalOfInt (toInt 32 bits)

/-- An element whose accumulator word is uncorrectable traps (24 R415). -/
def accGuard (s : State) (e c0 : Nat) (r : ElemRes) : ElemRes :=
  if s.core.accBad.contains (physRow s (e / s.hart.vl) * 384 + (c0 + e % s.hart.vl)) then .trap (plainTrap causePoison 0)
  else r

/-- The words cleared under CLR once the elements below `hi` are complete. -/
def accxClear (s : State) (m clr : Bool) (c0 hi : Nat) (t : State) : State :=
  let es := (elemRange s.hart.vstart.toNat hi).filter (active s m)
  if !clr || (es.isEmpty && decide (hi < tileSize s)) then t
  else contextChanged (es.foldl (fun t e => clearAcc t (e / s.hart.vl) (c0 + e % s.hart.vl)) t)

/-- What ACCX names; it goes element by element (R194). -/
def accxReq (s : State) (c : Bool) (vd gs1 : Reg) (m clr : Bool) : VReq :=
  scaledReq s { arrayReq (.accx c vd gs1 m clr) .mtx c (some acceptAcc) with
    groupWrites := [vd.toNat], masked := m, steps := true }

def execAccx (c : Bool) (vd gs1 : Reg) (m clr : Bool) (s : State) : Out :=
  let i := Instr.accx c vd gs1 m clr
  let q := accxReq s c vd gs1 m clr
  withCheck s (checkVector s q)
    (let c0 := (readG s gs1).toNat
     let t := etypeD s
     let runs := decide (s.hart.vstart.toNat < tileSize s)
     if runs && (!accFits s c0 || (isScaled t && (groupRegs s vd.toNat).contains 1)) then raise s (illegal (wordOf i))
     else
       elementRun s q true vd.toNat t.width t.width (drawsNow s)
         (maskedRes s m fun e => accGuard s e c0 <| scaledRes s (isScaled t) e (convertTo s t e (accxValue s e c0)))
         (accxClear s m clr c0) (fun _ => none))

end Sys2Proof.Machine
end

