-- ==== Sys2Proof/Machine/Trellis.lean ====
section
/-! DEFINITION. Trellis mode (10 R212 to R222): knot registers, coefficients, the basis unit, SPL, SPLBWD, SPLGRAD,
SPLGX, SPLREF. -/
namespace Sys2Proof.Machine

/-! ## Knot registers (R212, R213) -/

/-- Knot register kj of the hart. -/
def knotOf (s : State) (j : Nat) : Knot := s.core.knot.getD (physRow s j) Knot.reset
def setKnot (s : State) (j : Nat) (k : Knot) : State :=
  { s with core := { s.core with knot := s.core.knot.setIfInBounds (physRow s j) k } }

/-- An FP32 pattern is positive, finite and normal; is finite. -/
def normalPos (b : BitVec 32) : Bool := !b.getLsbD 31 && b.extractLsb' 23 8 != 0 && b.extractLsb' 23 8 != 0xFF
def finite32 (b : BitVec 32) : Bool := b.extractLsb' 23 8 != 0xFF

/-- The grid fields of a knot register are admitted (R212). -/
def gridOk (g d clamp : Nat) : Bool :=
  decide (1 ≤ g) && decide (g ≤ 15) && decide (1 ≤ d) && decide (d ≤ 3) && decide (clamp ≤ 2) && decide (g + d ≤ 16)

/-- 1/h rounded to FP32. -/
def inverse32 (h : BitVec 32) : Written := rne32 (fdiv (.fin false 1 0) (val32 h.toNat)).1

def execKnotset (c : Bool) (j : BitVec 6) (gs1 gs2 : Reg) (s : State) : Out :=
  let q := { arrayReq (.knotset c j gs1 gs2) .mtx c (some acceptLegal) with clash := decide (rowCount s ≤ j.toNat) }
  arrayWhole s q
    (let a := readG s gs1
     let b := readG s gs2
     let lo := a.extractLsb' 0 32
     let h := a.extractLsb' 32 32
     let g := (b.extractLsb' 0 4).toNat
     let d := (b.extractLsb' 4 2).toNat
     let clamp := (b.extractLsb' 6 2).toNat
     if !normalPos h || !finite32 lo then raise s (plainTrap causeFormat a)
     else if !gridOk g d clamp || b >>> 9 != 0 then raise s (plainTrap causeFormat b)
     else
       let inv := inverse32 h
       let k : Knot :=
         { lo := lo, h := h, invh := BitVec.ofNat 32 inv.bits, g := g, d := d, clamp := clamp
           count := if b.getLsbD 8 then (knotOf s j.toNat).count else 0 }
       arrayChanged (raiseFlags (setKnot s j.toNat k) inv.flags) q)

/-- The word that KNOTRD reads. -/
def knotWord (k : Knot) (sel : Nat) : Word :=
  match sel with
  | 0 => BitVec.ofNat 64 (k.h.toNat * 2 ^ 32 + k.lo.toNat)
  | 1 => BitVec.ofNat 64 (k.invh.toNat + k.g * 2 ^ 32 + k.d * 2 ^ 36 + k.clamp * 2 ^ 38)
  | _ => BitVec.ofNat 64 k.count

def execKnotrd (c : Bool) (gd : Reg) (j : BitVec 6) (sel : Reg) (s : State) : Out :=
  let q := { arrayReq (.knotrd c gd j sel) .mtx c (some acceptLegal) with clash := decide (rowCount s ≤ j.toNat) }
  arrayWhole s q (arrayDone (writeG s gd (knotWord (knotOf s j.toNat) sel.toNat)) q)

/-! ## Cells (R216, R217, R221) -/

/-- The tile is within the cells. -/
def cellsFit (s : State) : Bool := decide (s.hart.tilek ≤ rowCount s) && decide (s.hart.tilen ≤ 64)

/-- The cells of the tile in the order of memory: n, then j. -/
def tileCells (k n : Nat) : List (Nat × Nat) := (List.range n).flatMap (fun n => (List.range k).map (fun j => (j, n)))

def cellKey (s : State) (j n : Nat) : Nat := physRow s j * 64 + n

/-- The 16 coefficients of a cell; an unloaded one has +0. -/
def coefsOf (s : State) (j n : Nat) : List (BitVec 16) := mapGet s.core.cells (cellKey s j n) (List.replicate 16 0)

/-- A gradient slot. -/
def gradOf (s : State) (j n k : Nat) : BitVec 32 := mapGet s.core.grad (cellKey s j n * 16 + k) 0
def setGrad (s : State) (j n k : Nat) (x : BitVec 32) : State :=
  { s with core := { s.core with grad := mapSet s.core.grad (cellKey s j n * 16 + k) x } }

/-- Every cell of the hart becomes unloaded. -/
def unloadCells (s : State) : State :=
  let rows := heldRows s.core s.idx
  { s with core := { s.core with cells := s.core.cells.filter (fun p => !rows.contains (p.1 / 64)) } }

/-- 16 BF16 values of 32 bytes. -/
def coefWords (bs : List Byte) : List (BitVec 16) := (List.range 16).map (fun q => BitVec.ofNat 16 (field bs (2 * q) 2))

/-- Load cells from the bytes of a coefficient set. -/
def loadCells (s : State) (k n : Nat) (bs : List Byte) : State :=
  ((tileCells k n).filter (fun p => decide (p.1 < rowCount s))).foldl (fun s p =>
    { s with core := { s.core with
        cells := mapSet s.core.cells (cellKey s p.1 p.2) (coefWords (bs.drop ((p.2 * k + p.1) * 32))) } })
    (unloadCells s)

/-- An instruction on the cells: its limits, then its effect. -/
def cellOp (s : State) (i : Instr) (q : VReq) (k : Out) : Out :=
  arrayWhole s q (if !cellsFit s then raise s (illegal (wordOf i)) else k)

def execSplld (c : Bool) (gs1 : Reg) (s : State) : Out :=
  let i := Instr.splld c gs1
  let q := arrayReq i .mtx c (some acceptLegal)
  cellOp s i q
    (let a := readG s gs1
     let k := s.hart.tilek
     let n := s.hart.tilen
     if a.toNat % 32 ≠ 0 then raise s (accessTrap causeMisalign a .load)
     else loadBlock s a (32 * (k * n)) kindShared fun t bs =>
       let t := loadCells t k n bs
       arrayChanged { t with hart := { t.hart with coef := some ⟨a, k, n, false⟩ } } q)

/-- A coefficient set whose reissued read failed is read again by an instruction that uses a cell of it (R224); `rows` says
that it uses cells of the tile at all. -/
def withCoefs (s : State) (rows : Bool) (k : State → Out) : Out :=
  match s.hart.coef with
  | some f =>
    if f.missing && rows && min f.k s.hart.tilek != 0 && min f.n s.hart.tilen != 0 then
      loadBlock s f.addr (32 * (f.k * f.n)) kindShared fun t bs =>
        let t := loadCells t f.k f.n bs
        k { t with hart := { t.hart with coef := some { f with missing := false } } }
    else k s
  | none => k s

def execSplst (c : Bool) (gs1 : Reg) (s : State) : Out :=
  let i := Instr.splst c gs1
  let q := arrayReq i .mtx c (some acceptLegal)
  cellOp s i q
    (let a := readG s gs1
     if a.toNat % 32 ≠ 0 then raise s (accessTrap causeMisalign a .store)
     else withCoefs s true fun t =>
       storeBlock t a ((tileCells t.hart.tilek t.hart.tilen).flatMap (fun p =>
         (coefsOf t p.1 p.2).flatMap (fun w => bytesOfNat 2 w.toNat))) kindShared fun t => arrayDone t q)

def execSplgx (c : Bool) (gs1 : Reg) (clr : Bool) (s : State) : Out :=
  let i := Instr.splgx c gs1 clr
  let q := arrayReq i .mtx c (some acceptLegal)
  cellOp s i q
    (let a := readG s gs1
     let cells := tileCells s.hart.tilek s.hart.tilen
     if a.toNat % 64 ≠ 0 then raise s (accessTrap causeMisalign a .store)
     else
       storeBlock s a (cells.flatMap (fun p =>
         (List.range 16).flatMap (fun k => bytesOfNat 4 (gradOf s p.1 p.2 k).toNat))) kindShared fun t =>
         if clr then
           let keys := cells.map (fun p => cellKey t p.1 p.2)
           arrayChanged { t with core := { t.core with grad := t.core.grad.filter (fun p => !keys.contains (p.1 / 16)) } } q
         else arrayDone t q)

/-! ## The basis unit (R214, R215) -/

/-- An FP32 word with the flags of the roundings that gave it. -/
abbrev FW := Nat × FFlags

def fwOf (b : Nat) : FW := (b, 0)
def fwAdd (a b : FW) : FW :=
  let w := add32 a.1 b.1
  (w.bits, a.2 ||| b.2 ||| w.flags)
def fwMul (a b : FW) : FW :=
  let w := mul32 a.1 b.1
  (w.bits, a.2 ||| b.2 ||| w.flags)
/-- The sign inverted; a NaN stays canonical. -/
def fwNeg (a : FW) : FW := if (val32 a.1).isNan then a else (a.1 ^^^ 0x80000000, a.2)
def fwSub (a b : FW) : FW := fwAdd a (fwNeg b)
/-- A division by 6, rounded once. -/
def fwSixth (a : FW) : FW :=
  let w := rne32 (fdiv (val32 a.1) (.fin false 6 0)).1
  (w.bits, a.2 ||| w.flags)

def f1 : FW := fwOf 0x3F800000
def f2 : FW := fwOf 0x40000000
def f3 : FW := fwOf 0x40400000
def f4 : FW := fwOf 0x40800000
def f6 : FW := fwOf 0x40C00000
def fHalf : FW := fwOf 0x3F000000
def fNan : FW := (0x7FC00000, flagNF)

/-- b0 to bd (R215). -/
def basisValues (d : Nat) (u w : FW) : List FW :=
  match d with
  | 1 => [w, u]
  | 2 => [fwMul (fwMul w w) fHalf, fwAdd (fwMul u w) fHalf, fwMul (fwMul u u) fHalf]
  | _ =>
    [fwSixth (fwMul (fwMul w w) w),
     fwSixth (fwAdd (fwMul (fwMul (fwSub (fwMul f3 u) f6) u) u) f4),
     fwSixth (fwAdd (fwMul (fwAdd (fwMul (fwAdd (fwMul (fwNeg f3) u) f3) u) f3) u) f1),
     fwSixth (fwMul (fwMul u u) u)]

/-- b0′ to bd′ (R215). -/
def basisSlopes (d : Nat) (u w : FW) : List FW :=
  match d with
  | 1 => [fwNeg f1, f1]
  | 2 => [fwNeg w, fwSub f1 (fwMul f2 u), u]
  | _ =>
    [fwNeg (fwMul (fwMul w w) fHalf),
     fwMul (fwMul (fwSub (fwMul f3 u) f4) u) fHalf,
     fwMul (fwAdd (fwMul (fwAdd (fwMul (fwNeg f3) u) f2) u) f1) fHalf,
     fwMul (fwMul u u) fHalf]

/-- What the basis unit gives for one input: whether it is outside, whether it uses no slot, whether t is NaN, the
interval, the basis values, the flags of all its roundings. -/
structure Basis where
  outside : Bool
  unused : Bool
  nan : Bool
  i : Nat
  b : List FW
  flags : FFlags

/-- The floor of a finite value. -/
def floorOf (neg : Bool) (m : Nat) (e : Int) : Int :=
  let v : Int := if neg then -(m : Int) else m
  if 0 ≤ e then v * (2 ^ e.toNat : Nat) else v / (2 ^ (-e).toNat : Nat)

/-- A small number as an FP32 word. -/
def fwNat (n : Nat) : FW := fwOf (rne32 (.fin false n 0)).bits

/-- The basis unit of a knot register for an input x; `slopes` asks for the derivatives. -/
def basisOf (k : Knot) (slopes : Bool) (x : Nat) : Basis :=
  let t := fwMul (fwSub (fwOf x) (fwOf k.lo.toNat)) (fwOf k.invh.toNat)
  let v := val32 t.1
  let g : FVal := .fin false k.g 0
  let outside := v.isNan || decide (fcmp v (.fin false 0 0) < 0)
    || (if k.clamp = 2 then decide (0 ≤ fcmp v g) else decide (0 < fcmp v g))
  if k.clamp = 2 ∧ outside then ⟨true, true, v.isNan, 0, [], t.2⟩
  else if v.isNan then ⟨true, false, true, 0, List.replicate (k.d + 1) fNan, t.2 ||| flagNF⟩
  else
    let fl : Int := match v with
      | .fin n m e => floorOf n m e
      | .inf n => if n then -1 else k.g
      | .nan => 0
    let i := min fl.toNat (k.g - 1)
    let tc : FW :=
      if k.clamp = 0 then (if v.neg then fwOf 0 else if outside then fwNat k.g else (t.1, 0)) else (t.1, 0)
    let u := fwSub tc (fwNat i)
    let w := fwSub f1 u
    let b := if slopes then basisSlopes k.d u w else basisValues k.d u w
    ⟨outside, false, false, i, b, t.2 ||| u.2 ||| w.2⟩

/-- The terms summed in the pairing of R215. -/
def pairSum : List FW → FW
  | [a, b] => fwAdd a b
  | [a, b, c] => fwAdd (fwAdd a b) c
  | [a, b, c, d] => fwAdd (fwAdd a b) (fwAdd c d)
  | _ => fwOf 0

/-- The products of basis values with the coefficients they meet, taken exactly from BF16. -/
def basisTerms (bs : Basis) (coefs : List (BitVec 16)) : List FW :=
  bs.b.zipIdx.map (fun p => fwMul p.1 (fwOf ((coefs.getD (bs.i + p.2) 0).toNat * 65536)))

/-- φ of a cell. -/
def phiOf (bs : Basis) (coefs : List (BitVec 16)) : FW :=
  if bs.unused then fwOf 0 else pairSum (basisTerms bs coefs)

/-- φ′ of a cell. -/
def slopeOf (k : Knot) (bs : Basis) (coefs : List (BitVec 16)) : FW :=
  if bs.unused || (k.clamp == 0 && bs.outside && !bs.nan) then fwOf 0
  else fwMul (fwOf k.invh.toNat) (pairSum (basisTerms bs coefs))

/-! ## SPL, SPLBWD, SPLGRAD (R216, R218 to R220) -/

/-- FP32 and BF16. -/
def acceptTrellis : EType → Bool
  | .fp f => f == fp32 || f == bf16
  | _ => false

/-- An element of a vector tile widened exactly to FP32. -/
def tileElem (s : State) (slot v m c : Nat) : Nat :=
  let x := elem s slot v (sew s) (m * s.hart.vl + c)
  if sew s = 16 then x * 65536 else x

/-- The basis of A(m, j) for every row and column of the tile. -/
def tileBases (s : State) (slopes : Bool) (va : Nat) : List ((Nat × Nat) × Basis) :=
  (tileWords (localRows s) s.hart.tilek).map (fun p => (p, basisOf (knotOf s p.2) slopes (tileElem s 1 va p.1 p.2)))

/-- Out-of-grid counts rise, once for each evaluation of a value (R214). -/
def countOutside (s : State) (bases : List ((Nat × Nat) × Basis)) : State :=
  bases.foldl (fun s p =>
    let s := raiseFlags s p.2.flags
    if p.2.outside then
      let k := knotOf s p.1.2
      setKnot s p.1.2 { k with count := min (k.count + 1) (2 ^ 32 - 1) }
    else s) s

/-- A basis of the list, by row and column. -/
def basisAt (bases : List ((Nat × Nat) × Basis)) (m j : Nat) : Basis :=
  ((bases.find? (fun p => p.1 == (m, j))).map (·.2)).getD ⟨false, true, false, 0, [], 0⟩

/-- A sum in order, each addition rounded; none of no terms. -/
def runningSum : List FW → Option FW
  | [] => none
  | x :: xs => some (xs.foldl fwAdd x)

/-- Add a sum into an accumulator word. -/
def addAcc (s : State) (m n : Nat) (x : Option FW) : State :=
  match x with
  | some x =>
    let r := fwAdd (fwOf (accWord s m n).toNat) x
    raiseFlags (setAcc s m n (BitVec.ofNat 32 r.1)) r.2
  | none => s

/-- The limits of R216 on the vector tiles. -/
def trellisFits (s : State) (need : Nat) : Bool :=
  cellsFit s && decide (localRows s ≤ s.hart.vr) && decide (need ≤ s.hart.vl)

/-- The elements of a vector tile that an instruction of the trellis reads: the columns of its operand, where the other
dimension of the tile is not 0. -/
def trellisNeeds (s : State) (v cols other : Nat) : List (Nat × Nat) :=
  if other = 0 then [] else tileNeeds s v (localRows s) cols

/-- What SPL, SPLBWD and SPLGRAD name. -/
def splReq (s : State) (c : Bool) (vs2 : Reg) : VReq :=
  { arrayReq (.spl c vs2) .mtx c (some acceptTrellis) with
    groupReads := [vs2.toNat], accs := badAccs s (localRows s) s.hart.tilenoff s.hart.tilen
    needs := some (trellisNeeds s vs2.toNat s.hart.tilek s.hart.tilen) }
def pairReq (s : State) (i : Instr) (c : Bool) (vs1 vs2 : Reg) (accs : List Nat) : VReq :=
  { arrayReq i .mtx c (some acceptTrellis) with
    groupReads := [vs1.toNat, vs2.toNat], accs := accs
    needs := some (trellisNeeds s vs1.toNat s.hart.tilek s.hart.tilen
      ++ trellisNeeds s vs2.toNat s.hart.tilen s.hart.tilek) }
def splbwdReq (s : State) (c : Bool) (vs1 vs2 : Reg) : VReq :=
  pairReq s (.splbwd c vs1 vs2) c vs1 vs2 (badAccs s (localRows s) s.hart.tilenoff s.hart.tilek)
def splgradReq (s : State) (c : Bool) (vs1 vs2 : Reg) : VReq := pairReq s (.splgrad c vs1 vs2) c vs1 vs2 []

def execSpl (c : Bool) (vs2 : Reg) (s : State) : Out :=
  let i := Instr.spl c vs2
  let q := splReq s c vs2
  arrayWhole s q
    (let k := s.hart.tilek
     let n := s.hart.tilen
     if !trellisFits s k || decide (384 < s.hart.tilenoff + n) then raise s (illegal (wordOf i))
     else withCoefs s (localRows s != 0) fun t =>
       let bases := if n = 0 then [] else tileBases t false vs2.toNat
       arrayChanged ((tileWords (localRows t) n).foldl (fun t p =>
         addAcc t p.1 (t.hart.tilenoff + p.2)
           (runningSum ((List.range k).map (fun j => phiOf (basisAt bases p.1 j) (coefsOf t j p.2)))))
         (countOutside t bases)) q)

def execSplbwd (c : Bool) (vs1 vs2 : Reg) (s : State) : Out :=
  let i := Instr.splbwd c vs1 vs2
  let q := splbwdReq s c vs1 vs2
  arrayWhole s q
    (let k := s.hart.tilek
     let n := s.hart.tilen
     if !trellisFits s (max k n) || decide (384 < s.hart.tilenoff + k) then raise s (illegal (wordOf i))
     else withCoefs s (localRows s != 0) fun t =>
       let bases := if n = 0 then [] else tileBases t true vs1.toNat
       arrayChanged ((tileWords (localRows t) k).foldl (fun t p =>
         addAcc t p.1 (t.hart.tilenoff + p.2)
           (runningSum ((List.range n).map (fun n =>
             fwMul (fwOf (tileElem t 2 vs2.toNat p.1 n))
               (slopeOf (knotOf t p.2) (basisAt bases p.1 p.2) (coefsOf t p.2 n))))))
         (countOutside t bases)) q)

/-- One row's addition into the slots of a cell (R220). -/
def gradRow (j n : Nat) (bs : Basis) (g : Nat) (s : State) : State :=
  if bs.unused then s
  else bs.b.zipIdx.foldl (fun s p =>
    let r := fwAdd (fwOf (gradOf s j n (bs.i + p.2)).toNat) (fwMul p.1 (fwOf g))
    raiseFlags (setGrad s j n (bs.i + p.2) (BitVec.ofNat 32 r.1)) r.2) s

def execSplgrad (c : Bool) (vs1 vs2 : Reg) (s : State) : Out :=
  let i := Instr.splgrad c vs1 vs2
  let q := splgradReq s c vs1 vs2
  arrayWhole s q
    (let k := s.hart.tilek
     let n := s.hart.tilen
     if !trellisFits s (max k n) then raise s (illegal (wordOf i))
     else
       let bases := if n = 0 then [] else tileBases s false vs1.toNat
       arrayChanged ((tileCells k n).foldl (fun t p =>
         (List.range (localRows s)).foldl (fun t m =>
           gradRow p.1 p.2 (basisAt bases m p.1) (tileElem s 2 vs2.toNat m p.2) t) t)
         (countOutside s bases)) q)

/-! ## SPLREF (R222) -/

/-- BF16. -/
def acceptBf16 : EType → Bool
  | .fp f => f == bf16
  | _ => false

/-- The weights of output column q: coefficient offsets and numerators, and the power of two they are over. -/
def refineTerms (d q : Nat) : List (Nat × Nat) × Nat :=
  match d, q % 2 with
  | 1, 0 => ([(0, 1)], 0)
  | 1, _ => ([(0, 1), (1, 1)], 1)
  | 2, 0 => ([(0, 3), (1, 1)], 2)
  | 2, _ => ([(0, 1), (1, 3)], 2)
  | _, 0 => ([(0, 1), (1, 1)], 1)
  | _, _ => ([(0, 1), (1, 6), (2, 1)], 3)

/-- One refined coefficient: an exact sum rounded once to BF16 by RNE. -/
def refined (c : Nat → Nat) (d q : Nat) : Written :=
  let p := refineTerms d q
  let terms := p.1.map (fun t => (fmul (decodeF bf16 (c (q / 2 + t.1))) (.fin false t.2 (-(p.2 : Int)))).1)
  let sum : FVal × Bool := match terms with
    | [] => (.fin false 0 0, false)
    | x :: xs => xs.foldl (fun a b =>
        let r := fadd false a.1 b
        (r.1, a.2 || r.2)) (x, false)
  let w := roundTo bf16 .rne false sum.1
  { w with flags := w.flags ||| flagIf sum.2 flagNV }

/-- What SPLREF names: of each row it reads the coefficients of the coarse grid. -/
def splrefReq (s : State) (c : Bool) (vd gs1 vs2 : Reg) (deg : BitVec 2) : VReq :=
  { arrayReq (.splref c vd gs1 vs2 deg) .perm c (some acceptBf16) with
    groupReads := [vs2.toNat], groupWrites := [vd.toNat]
    needs := some (tileNeeds s vs2.toNat s.hart.vr ((readG s gs1).toNat + deg.toNat)) }

def execSplref (c : Bool) (vd gs1 vs2 : Reg) (deg : BitVec 2) (s : State) : Out :=
  let i := Instr.splref c vd gs1 vs2 deg
  let q := splrefReq s c vd gs1 vs2 deg
  arrayWhole s q
    (let g := (readG s gs1).toNat
     let d := deg.toNat
     let vl := s.hart.vl
     if g < 1 ∨ 16 < 2 * g + d ∨ vl < 2 * g + d ∨ groupClash s vd vs2 then raise s (illegal (wordOf i))
     else
       let res := (List.range (tileSize s)).map fun e =>
         if e % vl < 2 * g + d then
           let w := refined (fun k => elem s 2 vs2.toNat 16 (e / vl * vl + k)) d (e % vl)
           (e, w.bits, w.flags)
         else (e, 0, 0)
       let t := writeElems s vd.toNat 16 (res.map (fun r => (r.1, r.2.1)) ++ tailZeros s)
       arrayDone (raiseFlags t (res.foldl (fun f r => f ||| r.2.2) 0)) q)

end Sys2Proof.Machine
end

