-- ==== Sys2Proof/Machine/MatrixContext.lean ====
section
/-! DEFINITION. Matrix context images (10 R223, R224): MSAVE and MREST. -/
namespace Sys2Proof.Machine

/-! ## The image (R223) -/

/-- Block b of accumulator row m. -/
def accBlock (s : State) (m b : Nat) : List (BitVec 32) := (List.range 64).map (fun c => accWord s m (64 * b + c))

/-- The accumulator blocks stored, in order. -/
def accBlocks (s : State) : List (Nat × Nat) :=
  (tileWords (rowCount s) 6).filter (fun p => (accBlock s p.1 p.2).any (· != 0))

/-- The gradient slots of a cell. -/
def gradCell (s : State) (j n : Nat) : List (BitVec 32) := (List.range 16).map (gradOf s j n)

/-- The gradient cells stored, in order of (j, n). -/
def gradCells (s : State) : List (Nat × Nat) :=
  (tileWords (rowCount s) 64).filter (fun p => (gradCell s p.1 p.2).any (· != 0))

/-- A map of set bits as bytes. -/
def mapBytes (n : Nat) (bits : List Nat) : List Byte := bytesOfNat n ((bits.map (2 ^ ·)).foldl (· + ·) 0)

/-- FP32 words as bytes. -/
def wordsBytes (ws : List (BitVec 32)) : List Byte := ws.flatMap (fun w => bytesOfNat 4 w.toNat)

/-- The record of a knot register. -/
def knotBytes (k : Knot) : List Byte :=
  bytesOfNat 4 k.lo.toNat ++ bytesOfNat 4 k.h.toNat ++ bytesOfNat 4 k.count
  ++ bytesOfNat 1 (k.g + k.d * 16 + k.clamp * 64) ++ bytesOfNat 3 0

/-- A weight descriptor. -/
def streamBytes (st : Stream) : List Byte :=
  bytesOfNat 8 st.addr.toNat ++ bytesOfNat 4 st.count ++ bytesOfNat 3 st.band ++ bytesOfNat 1 st.rows

/-- The size of an image before its padding, from its counts. -/
def contextBytes (rows nwb za zg : Nat) : Nat := 624 + 16 * rows + 16 * nwb + 256 * za + 64 * zg

/-- Rounded up to a multiple of 64. -/
def padded64 (n : Nat) : Nat := (n + 63) / 64 * 64

/-- The whole image. -/
def contextImage (s : State) : List Byte :=
  let h := s.hart
  let accs := accBlocks s
  let grads := gradCells s
  let n := contextBytes (rowCount s) h.fifo.length accs.length grads.length
  bytesOfNat 1 1 ++ bytesOfNat 1 (heldCount s) ++ bytesOfNat 1 (if h.coef.isSome then 1 else 0)
  ++ bytesOfNat 1 h.fifo.length ++ bytesOfNat 4 (padded64 n) ++ bytesOfNat 8 (accLive s).toNat
  ++ bytesOfNat 2 h.tilem ++ bytesOfNat 2 h.tilen ++ bytesOfNat 2 h.tilek ++ bytesOfNat 2 h.tilenoff
  ++ bytesOfNat 4 accs.length ++ bytesOfNat 4 grads.length ++ bytesOfNat 8 h.tileset.toNat
  ++ bytesOfNat 8 ((h.coef.map (·.addr.toNat)).getD 0)
  ++ bytesOfNat 2 ((h.coef.map (·.k)).getD 0) ++ bytesOfNat 2 ((h.coef.map (·.n)).getD 0)
  ++ List.replicate 12 0
  ++ mapBytes 48 (accs.map (fun p => 6 * p.1 + p.2)) ++ mapBytes 512 (grads.map (fun p => 64 * p.1 + p.2))
  ++ (List.range (rowCount s)).flatMap (fun j => knotBytes (knotOf s j))
  ++ h.fifo.flatMap streamBytes
  ++ accs.flatMap (fun p => wordsBytes (accBlock s p.1 p.2))
  ++ grads.flatMap (fun p => wordsBytes (gradCell s p.1 p.2))
  ++ List.replicate (padded64 n - n) 0

/-- Supervisor instructions of opcode 0x1F: ILLEGAL in user mode, then the checks of R90. -/
def contextOp (s : State) (i : Instr) (q : VReq) (k : Out) : Out :=
  withCheck s (supervisorOnly s (wordOf i)) (withCheck s (checkVector s q) k)

/-- What MSAVE and MREST name: nothing; VTYPE is not read. -/
def contextReq (i : Instr) (c : Bool) : VReq := arrayReq i .mtx c none

/-- The matrix context is saved or restored: MSTATE reads CLEAN (R191). -/
def contextClean (s : State) : State := { s with hart := { s.hart with mdirty := false } }

def execMsave (c : Bool) (gd gs1 : Reg) (s : State) : Out :=
  let i := Instr.msave c gd gs1
  let q := { contextReq i c with accs := badAccs s (rowCount s) 0 384 }
  contextOp s i q
    (if tileSize s = 0 then arrayDone (writeG s gd 0) q
     else
       let a := readG s gs1
       let img := contextImage s
       if a.toNat % 64 ≠ 0 then raise s (accessTrap causeMisalign a .store)
       else storeBlock s a img kindShared fun t =>
         arrayDone (writeG (contextClean t) gd (BitVec.ofNat 64 img.length)) q)

/-! ## MREST (R224) -/

/-- The offset of the first field of the first 64 bytes that fails, up to SIZE. -/
def contextHeadFault (s : State) (hd : List Byte) : Option Nat :=
  if field hd 0 1 ≠ 1 then some 0
  else if field hd 1 1 ≠ heldCount s then some 1
  else if 2 ≤ field hd 2 1 then some 2
  else if 16 < field hd 3 1 then some 3
  else if field hd 4 4 ≠ padded64 (contextBytes (rowCount s) (field hd 3 1) (field hd 24 4) (field hd 28 4)) then some 4
  else none

/-- Offset of the record of knot register kj. -/
def knotOffset (j : Nat) : Nat := 624 + 16 * j

/-- The offset of the first field of a knot record that fails the checks of KNOTSET. -/
def knotFault (img : List Byte) (j : Nat) : Option Nat :=
  let o := knotOffset j
  let x := field img (o + 12) 1
  if !finite32 (BitVec.ofNat 32 (field img o 4)) then some o
  else if !normalPos (BitVec.ofNat 32 (field img (o + 4) 4)) then some (o + 4)
  else if !gridOk (x % 16) (x / 16 % 4) (x / 64) then some (o + 12)
  else if field img (o + 13) 3 ≠ 0 then some (o + 13)
  else none

/-- The offset of the first further field that fails. -/
def contextFault (s : State) (img : List Byte) : Option Nat :=
  if field img 24 4 ≠ (setBits 384 (field img 64 48)).length then some 24
  else if field img 28 4 ≠ (setBits 4096 (field img 112 512)).length then some 28
  else if field img 52 12 ≠ 0 then some 52
  else (List.range (rowCount s)).findSome? (knotFault img)

/-- The knot register of a record; its inverse is that of KNOTSET. -/
def knotFrom (img : List Byte) (j : Nat) : Knot :=
  let o := knotOffset j
  let h := BitVec.ofNat 32 (field img (o + 4) 4)
  let x := field img (o + 12) 1
  { lo := BitVec.ofNat 32 (field img o 4), h := h, invh := BitVec.ofNat 32 (inverse32 h).bits
    g := x % 16, d := x / 16 % 4, clamp := x / 64, count := field img (o + 8) 4 }

/-- A weight descriptor as a stream whose bytes are still to be read. -/
def streamFrom (bs : List Byte) : Stream :=
  ⟨BitVec.ofNat 64 (field bs 0 8), field bs 8 4, [], field bs 12 3, field bs 15 1, true, false⟩

/-- A reissued descriptor: the stream as memory now has it, or missing (R224). -/
def reissue (s : State) (st : Stream) : Stream :=
  match retryStream s st with
  | .ok st => st
  | .error _ => st

/-- The 32-bit words of some bytes. -/
def bytesWords (n : Nat) (bs : List Byte) : List (BitVec 32) :=
  (List.range n).map (fun i => BitVec.ofNat 32 (field bs (4 * i) 4))

/-- Write one accumulator word with its live bit as the image gives it. -/
def restoreAcc (s : State) (live : Bool) (m n : Nat) (x : BitVec 32) : State :=
  if live || x != 0 then
    { s with core := { s.core with acc := mapSet s.core.acc (physRow s m * 384 + n) ⟨x, live⟩ } }
  else s

/-- The accumulators of the image: the words of every held row. -/
def restoreAccs (s : State) (live : Nat) (keys : List Nat) (bs : List Byte) : State :=
  (List.range (rowCount s)).foldl (fun s m =>
    (List.range 6).foldl (fun s b =>
      let ws := match keys.idxOf? (6 * m + b) with
        | some i => bytesWords 64 (bs.drop (256 * i))
        | none => []
      if ws.isEmpty && !live.testBit m then s
      else (List.range 64).foldl (fun s c => restoreAcc s (live.testBit m) m (64 * b + c) (ws.getD c 0)) s) s) s

/-- The gradients of the image. -/
def restoreGrads (s : State) (keys : List Nat) (bs : List Byte) : State :=
  keys.zipIdx.foldl (fun s p =>
    if p.1 / 64 < rowCount s then
      (bytesWords 16 (bs.drop (64 * p.2))).zipIdx.foldl (fun s w => setGrad s (p.1 / 64) (p.1 % 64) w.2 w.1) s
    else s) s

/-- The SPLLD descriptor is reissued (R224). -/
def reissueCoefs (s : State) (f : CoefLoad) : State :=
  let missing := { s with hart := { s.hart with coef := some { f with missing := true } } }
  match loadRange s f.addr (32 * (f.k * f.n)) kindShared with
  | .error _ => missing
  | .ok ps =>
    let t := loadCells (touchSpans s ps false) f.k f.n (spanBytes s ps)
    { t with hart := { t.hart with coef := some { f with missing := false } } }

/-- What a good image restores. -/
def restoreContext (s : State) (img : List Byte) : State :=
  let rows := rowCount s
  let nwb := field img 3 1
  let descs := (List.range nwb).map (fun i => streamFrom (img.drop (624 + 16 * rows + 16 * i)))
  let accKeys := setBits 384 (field img 64 48)
  let accOff := 624 + 16 * rows + 16 * nwb
  let h := { s.hart with
    tilem := field img 16 2, tilen := field img 18 2, tilek := field img 20 2, tilenoff := field img 22 2
    tileset := BitVec.ofNat 64 (field img 32 8), fifo := [], coef := none }
  let t := { s with core := clearRows s.core (heldRows s.core s.idx), hart := h }
  let t := (List.range rows).foldl (fun t j => setKnot t j (knotFrom img j)) t
  let t := restoreAccs t (field img 8 8) accKeys (img.drop accOff)
  let t := restoreGrads t (setBits 4096 (field img 112 512)) (img.drop (accOff + 256 * field img 24 4))
  let t := touchSpans { t with hart := { t.hart with fifo := descs.map (reissue t) } } (descs.flatMap (streamSpans t)) false
  if field img 2 1 = 1 then
    reissueCoefs t ⟨BitVec.ofNat 64 (field img 40 8), field img 48 2, field img 50 2, true⟩
  else t

def execMrest (c : Bool) (gs1 : Reg) (s : State) : Out :=
  let i := Instr.mrest c gs1
  let q := contextReq i c
  let bad (t : State) (off : Nat) : Out := raise t (plainTrap causeFormat (BitVec.ofNat 64 off))
  contextOp s i q
    (if tileSize s = 0 then arrayDone s q
     else
       let a := readG s gs1
       if a.toNat % 64 ≠ 0 then raise s (accessTrap causeMisalign a .load)
       else loadBlock s a 64 kindShared fun t hd =>
         match contextHeadFault t hd with
         | some off => bad t off
         | none => loadBlock t a (field hd 4 4) kindShared fun t img =>
           match contextFault t img with
           | some off => bad t off
           | none => arrayDone (contextClean (restoreContext t img)) q)

end Sys2Proof.Machine
end

