-- ==== Sys2Proof/Machine/Post.lean ====
section
/-! DEFINITION. MBPOST, MBTAKE and MBPOLL (11 R249 to R251, 22 R393): opcode 0x22. -/
namespace Sys2Proof.Machine

/-- The mailbox checks (R249): a number of 0 to 4,095 that is assigned to the tenant. -/
def boxTrap (s : State) (n : Word) : Option TrapInfo :=
  if n.toNat < 4096 ∧ boxOwner s n.toNat = some s.hart.asid then none else some (plainTrap causeMailbox n)

/-- What MBPOST and MBTAKE name: a post reads its whole tile. -/
def boxReq (s : State) (i : Instr) (c : Bool) (reads writes : List Nat) : VReq :=
  { vreq (wordOf i) .eng c with
    groupReads := reads, groupWrites := writes, accept := some acceptLegal
    needs := needed s (reads.flatMap (fun v => (List.range (tileSize s)).map (fun e => (v, e)))) }

/-- Bytes of the tile packed at SEW (02 R51). -/
def payloadLength (s : State) : Nat := (tileSize s * sew s + 7) / 8

/-- Elements from `e` upward packed at width w, as a number. -/
def packElems (s : State) (v w : Nat) : List Nat → Nat
  | [] => 0
  | e :: es => elem s 1 v w e + 2 ^ w * packElems s v w es

/-- The payload of MBPOST. -/
def payloadOf (s : State) (v : Nat) : List Byte :=
  bytesOfNat (payloadLength s) (packElems s v (sew s) (List.range (tileSize s)))

/-- An instruction that acts on whole records: one that starts past its tile has no effect (01 R7). -/
def pastTile (s : State) : Bool := decide (0 < tileSize s) && decide (tileSize s ≤ s.hart.vstart.toNat)

def execMbpost (c : Bool) (vs3 gs1 gd : Reg) (s : State) : Out :=
  let i := Instr.mbpost c vs3 gs1 gd
  let q := boxReq s i c [vs3.toNat] []
  let n := readG s gs1
  let b := n.toNat
  withCheck s (checkVector s q)
    (if pastTile s then .next (finishV (joinConvoy s q))
     else withCheck s (boxTrap s n)
      (if 480 < payloadLength s then raise s (plainTrap causeMailbox (BitVec.ofNat 64 (payloadLength s)))
       else
         let finish (t : State) (r : PostCheck) : Out :=
           .next (finishV (joinConvoy (writeG t gd (BitVec.ofNat 64 r.code)) q))
         match postCheck (boxOf s b) s.hart.pgen with
         | .deliver =>
           if 8 ≤ (boxOf s b).dn.length then .next (waitAt s i)
           else afterRelease s i 1 fun t => finish (deliver t b t.hart.pgen (payloadOf s vs3.toNat)) .deliver
         | r => finish s r))

/-- Element e of a payload at width w; bytes past its end read 0 (R250). -/
def payloadElem (payload : List Byte) (w e : Nat) : Nat := natOfBytes payload / 2 ^ (e * w) % 2 ^ w

def execMbtake (c : Bool) (vd gs1 gd : Reg) (s : State) : Out :=
  let i := Instr.mbtake c vd gs1 gd
  let q := boxReq s i c [] [vd.toNat]
  let n := readG s gs1
  withCheck s (checkVector s q)
    (if pastTile s then .next (finishV (joinConvoy s q))
     else withCheck s (boxTrap s n)
      (match takeUp s n.toNat with
       | none => .next (waitAt s i)
       | some (t, r) =>
         let t := acquire t 1
         let w := sew s
         let ups := (List.range (tileSize s)).map (fun e => (e, payloadElem r.payload w e))
         let t := writeElems t vd.toNat w (ups ++ (if tileSize s = 0 then [] else tailZeros s))
         .next (finishV (joinConvoy (writeG t gd (summary r)) q))))

/-- A post that waits for room is asked again: it makes its checks again in full (R249). -/
def execMbpostSlotFreed (h : Nat) (s : State) : Out :=
  goOn s h fun t i => match i with
    | .mbpost c v a g => execMbpost c v a g t
    | _ => .next t

/-- A take that waits for a record is asked again. -/
def execMbtakeRecordArrived (h : Nat) (s : State) : Out :=
  goOn s h fun t i => match i with
    | .mbtake c v a g => execMbtake c v a g t
    | _ => .next t

/-- MBPOLL. -/
def execMbpoll (gd gs1 : Reg) (s : State) : Out :=
  let s := drained s
  let n := readG s gs1
  withCheck s (boxTrap s n)
    (let m := boxOf s n.toNat
     done (writeG s gd (BitVec.ofNat 64 (m.up.length + 16 * m.dn.length + 2 ^ 32 * m.episode.toNat))))

end Sys2Proof.Machine
end

