-- ==== Sys2Proof/Machine/Scalar.lean ====
section
/-! DEFINITION. Scalar arithmetic, branches, jumps and hardware loops (05 R98 to R113): opcodes 0x01 to 0x0A and 0x0E to
0x11. -/
namespace Sys2Proof.Machine

/-! ## Results (05 R100, R101) -/

def boolWord (p : Bool) : Word := if p then 1 else 0
def shiftOf (b : Word) : Nat := b.toNat % 64
def sltWord (a b : Word) : Word := boolWord (a.slt b)
def sltuWord (a b : Word) : Word := boolWord (a.ult b)
def minWord (a b : Word) : Word := if a.slt b then a else b
def maxWord (a b : Word) : Word := if a.slt b then b else a
def minuWord (a b : Word) : Word := if a.ult b then a else b
def maxuWord (a b : Word) : Word := if a.ult b then b else a
/-- Bits 127:64 of the signed product. -/
def mulhWord (a b : Word) : Word := BitVec.ofInt 64 (a.toInt * b.toInt / 2 ^ 64)
/-- Bits 127:64 of the unsigned product. -/
def mulhuWord (a b : Word) : Word := BitVec.ofNat 64 (a.toNat * b.toNat / 2 ^ 64)
/-- Division truncates toward zero; by zero it gives −1 (R101). -/
def divWord (a b : Word) : Word := if b = 0 then -1 else BitVec.ofInt 64 (a.toInt.tdiv b.toInt)
def remWord (a b : Word) : Word := if b = 0 then a else BitVec.ofInt 64 (a.toInt.tmod b.toInt)
def divuWord (a b : Word) : Word := if b = 0 then -1 else BitVec.ofNat 64 (a.toNat / b.toNat)
def remuWord (a b : Word) : Word := if b = 0 then a else BitVec.ofNat 64 (a.toNat % b.toNat)
def clzWord (a : Word) : Word := if a = 0 then 64 else BitVec.ofNat 64 (63 - Nat.log2 a.toNat)
def ctzWord (a : Word) : Word := BitVec.ofNat 64 (((List.range 64).find? (fun i => a.getLsbD i)).getD 64)
def popcWord (a : Word) : Word := BitVec.ofNat 64 ((List.range 64).countP (fun i => a.getLsbD i))
/-- The width of a width code: 1 for 8 bits, 2 for 16, 3 for 32 (04 R80). -/
def codeWidth (code : BitVec 5) : Nat := if code = 1 then 8 else if code = 2 then 16 else 32
def sextWord (code : BitVec 5) (a : Word) : Word := (a.setWidth (codeWidth code)).signExtend 64
def zextWord (code : BitVec 5) (a : Word) : Word := (a.setWidth (codeWidth code)).setWidth 64

/-- Read two registers, write one. -/
def alu (f : Word → Word → Word) (gd a b : Reg) (s : State) : Out := done (writeG s gd (f (readG s a) (readG s b)))
/-- Read one register, write one. -/
def alu1 (f : Word → Word) (gd a : Reg) (s : State) : Out := done (writeG s gd (f (readG s a)))

def execAdd (gd a b : Reg) (s : State) : Out := alu (· + ·) gd a b s
def execSub (gd a b : Reg) (s : State) : Out := alu (· - ·) gd a b s
def execAnd (gd a b : Reg) (s : State) : Out := alu (· &&& ·) gd a b s
def execOr (gd a b : Reg) (s : State) : Out := alu (· ||| ·) gd a b s
def execXor (gd a b : Reg) (s : State) : Out := alu (· ^^^ ·) gd a b s
def execAndn (gd a b : Reg) (s : State) : Out := alu (fun x y => x &&& ~~~y) gd a b s
def execSll (gd a b : Reg) (s : State) : Out := alu (fun x y => x <<< shiftOf y) gd a b s
def execSrl (gd a b : Reg) (s : State) : Out := alu (fun x y => x >>> shiftOf y) gd a b s
def execSra (gd a b : Reg) (s : State) : Out := alu (fun x y => x.sshiftRight (shiftOf y)) gd a b s
def execSlt (gd a b : Reg) (s : State) : Out := alu sltWord gd a b s
def execSltu (gd a b : Reg) (s : State) : Out := alu sltuWord gd a b s
def execMin (gd a b : Reg) (s : State) : Out := alu minWord gd a b s
def execMax (gd a b : Reg) (s : State) : Out := alu maxWord gd a b s
def execMinu (gd a b : Reg) (s : State) : Out := alu minuWord gd a b s
def execMaxu (gd a b : Reg) (s : State) : Out := alu maxuWord gd a b s
def execMul (gd a b : Reg) (s : State) : Out := alu (· * ·) gd a b s
def execMulh (gd a b : Reg) (s : State) : Out := alu mulhWord gd a b s
def execMulhu (gd a b : Reg) (s : State) : Out := alu mulhuWord gd a b s
def execDiv (gd a b : Reg) (s : State) : Out := alu divWord gd a b s
def execDivu (gd a b : Reg) (s : State) : Out := alu divuWord gd a b s
def execRem (gd a b : Reg) (s : State) : Out := alu remWord gd a b s
def execRemu (gd a b : Reg) (s : State) : Out := alu remuWord gd a b s
def execClz (gd a : Reg) (s : State) : Out := alu1 clzWord gd a s
def execCtz (gd a : Reg) (s : State) : Out := alu1 ctzWord gd a s
def execPopc (gd a : Reg) (s : State) : Out := alu1 popcWord gd a s
def execSext (gd a : Reg) (code : BitVec 5) (s : State) : Out := alu1 (sextWord code) gd a s
def execZext (gd a : Reg) (code : BitVec 5) (s : State) : Out := alu1 (zextWord code) gd a s

/-! ## Immediates, LUI and AUIPC (05 R102 to R104) -/

/-- sext(imm15) (04 R77). -/
def imm15 (i : BitVec 15) : Word := i.signExtend 64
/-- imm20 in bits 31:12, sign-extended (04 R77). -/
def imm20 (i : BitVec 20) : Word := (i ++ (0 : BitVec 12)).signExtend 64

def execAddi (gd a : Reg) (i : BitVec 15) (s : State) : Out := alu1 (· + imm15 i) gd a s
def execAndi (gd a : Reg) (i : BitVec 15) (s : State) : Out := alu1 (· &&& imm15 i) gd a s
def execOri (gd a : Reg) (i : BitVec 15) (s : State) : Out := alu1 (· ||| imm15 i) gd a s
def execXori (gd a : Reg) (i : BitVec 15) (s : State) : Out := alu1 (· ^^^ imm15 i) gd a s
def execSlti (gd a : Reg) (i : BitVec 15) (s : State) : Out := alu1 (fun x => sltWord x (imm15 i)) gd a s
def execSltiu (gd a : Reg) (i : BitVec 15) (s : State) : Out := alu1 (fun x => sltuWord x (imm15 i)) gd a s
def execSlli (gd a : Reg) (sh : BitVec 6) (s : State) : Out := alu1 (· <<< sh.toNat) gd a s
def execSrli (gd a : Reg) (sh : BitVec 6) (s : State) : Out := alu1 (· >>> sh.toNat) gd a s
def execSrai (gd a : Reg) (sh : BitVec 6) (s : State) : Out := alu1 (fun x => x.sshiftRight sh.toNat) gd a s
def execLui (gd : Reg) (i : BitVec 20) (s : State) : Out := done (writeG s gd (imm20 i))
def execAuipc (gd : Reg) (i : BitVec 20) (s : State) : Out := done (writeG s gd (s.hart.pc + imm20 i))

/-! ## Branches and jumps (05 R108 to R110) -/

/-- A branch: taken it writes the PC; not taken it completes in sequence (R108, R112). -/
def branch (p : Word → Word → Bool) (a b : Reg) (off : BitVec 12) (s : State) : Out :=
  if p (readG s a) (readG s b) then .next (jumpTo s (s.hart.pc + off.signExtend 64 * 4)) else done s

def execBeq (a b : Reg) (off : BitVec 12) (s : State) : Out := branch (· == ·) a b off s
def execBne (a b : Reg) (off : BitVec 12) (s : State) : Out := branch (· != ·) a b off s
def execBlt (a b : Reg) (off : BitVec 12) (s : State) : Out := branch (fun x y => x.slt y) a b off s
def execBge (a b : Reg) (off : BitVec 12) (s : State) : Out := branch (fun x y => !x.slt y) a b off s
def execBltu (a b : Reg) (off : BitVec 12) (s : State) : Out := branch (fun x y => x.ult y) a b off s
def execBgeu (a b : Reg) (off : BitVec 12) (s : State) : Out := branch (fun x y => !x.ult y) a b off s

def execJal (gd : Reg) (off : BitVec 20) (s : State) : Out :=
  .next (jumpTo (writeG s gd (s.hart.pc + 4)) (s.hart.pc + off.signExtend 64 * 4))

/-- The target of JALR, from gs1 as it was before gd is written (R109). -/
def jalrTarget (a : Reg) (i : BitVec 15) (s : State) : Word := readG s a + imm15 i

def execJalr (gd a : Reg) (i : BitVec 15) (s : State) : Out :=
  let t := jalrTarget a i s
  if t.toNat % 4 ≠ 0 then raise s (plainTrap causeMisalign t)
  else .next (jumpTo (writeG s gd (s.hart.pc + 4)) t)

/-! ## LOOP (05 R111) -/

/-- The loop registers of a level as LOOP writes them. -/
def setLoop (lvl : Bool) (n b e : Word) (h : Hart) : Hart :=
  if lvl then { h with lc1 := n, lb1 := b, le1 := e } else { h with lc0 := n, lb0 := b, le0 := e }

def execLoop (lvl : Bool) (a : Reg) (i : BitVec 15) (s : State) : Out :=
  let n := readG s a
  let last := s.hart.pc + (i.setWidth 64) * 4
  let t := { s with hart := setLoop lvl n (s.hart.pc + 4) last s.hart }
  if n = 0 then .next (jumpTo t (last + 4)) else done t

end Sys2Proof.Machine
end

