-- ==== Sys2Proof/Machine/SysRegs.lean ====
section
/-! DEFINITION. System registers (01 R27 to R33, 05 R115 to R117): their values, what a write leaves, and SRR, SRW, SRSET,
SRCLR. -/
namespace Sys2Proof.Machine

/-! ## Access (01 R27, R28) -/

/-- Registers that only supervisor mode may access. -/
def srSupervisor (n : Nat) : Bool := decide (0x100 ≤ n) && decide (n ≤ 0x10D)

/-- Registers listed in R28. -/
def srListed (n : Nat) : Bool :=
  decide (n ≤ 0x008) || (decide (0x00A ≤ n) && decide (n ≤ 0x00C)) || (decide (0x010 ≤ n) && decide (n ≤ 0x016))
  || n == 0x018 || (decide (0x020 ≤ n) && decide (n ≤ 0x025)) || n == 0x028 || n == 0x029
  || (decide (0x030 ≤ n) && decide (n ≤ 0x032)) || (decide (0x038 ≤ n) && decide (n ≤ 0x03D)) || srSupervisor n

/-- Registers that user mode may write; VDIRTY only in supervisor mode. -/
def srWritable (m : Mode) (n : Nat) : Bool :=
  n == 0x003 || n == 0x006 || n == 0x007 || (n == 0x008 && m == .supervisor)
  || (decide (0x00A ≤ n) && decide (n ≤ 0x00C)) || (decide (0x030 ≤ n) && decide (n ≤ 0x032))
  || (decide (0x038 ≤ n) && decide (n ≤ 0x03D)) || srSupervisor n

/-- Registers whose access raises VOFF while VSTATE is OFF (01 R31). -/
def srVector (n : Nat) : Bool := decide (n ≤ 0x00C) || n == 0x015 || n == 0x018

/-! ## Values -/

def boolNat (b : Bool) : Nat := if b then 1 else 0

/-- LGRANT (01 R28). -/
def lgrant (s : State) : Word := BitVec.ofNat 64 (((heldGroups s.core s.idx).map (2 ^ ·)).foldl (· + ·) 0)

/-- VIOPTR of the tenant that ASID names (19 R361); without a tenant it reads 0. -/
def vioptr (s : State) : Word :=
  match tenantOf s s.hart.asid with
  | some t => BitVec.ofNat 64 (t.lost * 2 ^ 32 + t.next)
  | none => 0

/-- QAGE of the tenant that ASID names; without a tenant it reads 0. -/
def qage (s : State) : Word :=
  match tenantOf s s.hart.asid with
  | some t => BitVec.ofNat 64 t.qage
  | none => 0

/-- The value of a listed register. -/
def srRead (s : State) (n : Nat) : Word :=
  let h := s.hart
  match n with
  | 0x000 => BitVec.ofNat 64 h.vl
  | 0x001 => BitVec.ofNat 64 h.vr
  | 0x002 => h.vtype.setWidth 64
  | 0x003 => h.vstart.setWidth 64
  | 0x004 => BitVec.ofNat 64 (vlmax s)
  | 0x005 => BitVec.ofNat 64 (h.count + 256 * h.maxsew)
  | 0x006 => h.vsparse.setWidth 64
  | 0x007 => h.vlive.setWidth 64
  | 0x008 => h.vdirty.setWidth 64
  | 0x00A => h.fflags.setWidth 64
  | 0x00B => h.fctl.setWidth 64
  | 0x00C => h.vbscale.setWidth 64
  | 0x010 => BitVec.ofNat 64 h.tilem
  | 0x011 => BitVec.ofNat 64 h.tilen
  | 0x012 => BitVec.ofNat 64 h.tilek
  | 0x013 => BitVec.ofNat 64 h.tilenoff
  | 0x014 => h.tileset
  | 0x015 => accLive s
  | 0x016 => BitVec.ofNat 64 (mstate s)
  | 0x018 => lgrant s
  | 0x020 => BitVec.ofNat 64 s.idx
  | 0x021 => BitVec.ofNat 64 s.col
  | 0x022 => h.gangid
  | 0x023 => h.gangsize
  | 0x024 => h.gangrank
  | 0x025 => h.taskarg
  | 0x028 => s.core.cycle
  | 0x029 => h.instret
  | 0x030 => h.rngkey
  | 0x031 => h.rngctr
  | 0x032 => h.pgen.setWidth 64
  | 0x038 => h.lc0
  | 0x039 => h.lb0
  | 0x03A => h.le0
  | 0x03B => h.lc1
  | 0x03C => h.lb1
  | 0x03D => h.le1
  | 0x100 => h.tstatus
  | 0x101 => h.tcause
  | 0x102 => h.tpc
  | 0x103 => h.tval
  | 0x104 => h.tvec
  | 0x105 => h.tscratch
  | 0x106 => h.vstate.setWidth 64
  | 0x107 => h.slice
  | 0x108 => h.ptbase
  | 0x109 => h.asid.setWidth 64
  | 0x10A => s.core.lpart
  | 0x10B => BitVec.ofNat 64 (boolNat h.mstateen)
  | 0x10C => qage s
  | 0x10D => vioptr s
  | _ => 0

/-- CYCLE and SLICE move with time: an access to them looks at them (00 R2, 01 R32; log 9). A nonzero SLICE that has
not expired stays nonzero. -/
def lookAtTime (s : State) (n : Nat) : State :=
  if n ≠ 0x028 ∧ n ≠ 0x107 then s else
  let e := Config.elapsed s.tick
  let slice := s.hart.slice.toNat
  { s with
    core := { s.core with cycle := s.core.cycle + BitVec.ofNat 64 e }
    hart := { s.hart with slice := if slice = 0 then 0 else BitVec.ofNat 64 (slice - e % slice) } }

/-! ## Writes -/

/-- Every reserved bit of LPART is 0 (01 R21). -/
def lpartReservedOk (v : Word) : Bool := v &&& 0x70F070F070F070F0 == 0

/-- A write to LPART takes effect (01 R22). -/
def lpartOk (s : State) (v : Word) : Bool :=
  (List.range 4).all (fun h => decide (lpFloor v h ≤ lpCeil v h) && decide (lpCeil v h ≤ 8))
  && decide ((((List.range 4).filter (lpEn v)).map (lpFloor v)).foldl (· + ·) 0 ≤ 8)
  && (List.range 4).all (fun h =>
      !(lpEn s.core.lpart h && !lpEn v h && isContending (getHart s (4 * s.col + h))))
  && lpartReservedOk v

/-- What the other contending harts of the core hold reserved or as floors (19 R362). -/
def othersShare (s : State) : Nat :=
  (((contenders s s.col).filter (· != s.idx)).map fun i =>
    let r := resvOf (getHart s (4 * s.col + i))
    if r = 0 then lpFloor s.core.lpart i else r).foldl (· + ·) 0

/-- RESV of a value written to TSTATUS. -/
def resvField (v : Word) : Nat := (v.extractLsb' 20 4).toNat

/-- A write to TSTATUS takes effect (19 R354, R362). -/
def tstatusOk (s : State) (v : Word) : Bool :=
  decide (resvField v ≤ 8) && decide (resvField v + othersShare s ≤ 8)

/-- TSTATUS with its writable fields STEP, YIELD, RESV written, and PEND cleared where a 0 is written (19 R354). -/
def tstatusWrite (old v : Word) : Word :=
  (old &&& ~~~(0x00F00003 : Word)) &&& (v ||| ~~~(0x00004000 : Word)) ||| (v &&& 0x00F00003)

/-- FCTL after a write (01 R30). -/
def fctlWrite (old : BitVec 4) (v : Word) : BitVec 4 :=
  if 4 < (v.extractLsb' 0 3).toNat then (v.extractLsb' 3 1) ++ old.extractLsb' 0 3 else v.setWidth 4

/-- A write to a register that may be written. -/
def srWrite (s : State) (n : Nat) (v : Word) : State :=
  let h := s.hart
  let put (h : Hart) : State := { s with hart := h }
  match n with
  | 0x003 => put { h with vstart := v.setWidth 32 }
  | 0x006 => put { h with vsparse := v.setWidth 32 }
  | 0x007 => put { h with vlive := v.setWidth 32 }
  | 0x008 => put { h with vdirty := v.setWidth 32 }
  | 0x00A => put { h with fflags := v.setWidth 6 }
  | 0x00B => put { h with fctl := fctlWrite h.fctl v }
  | 0x00C => put { h with vbscale := v.setWidth 16 }
  | 0x030 => put { h with rngkey := v }
  | 0x031 => put { h with rngctr := v }
  | 0x032 => put { h with pgen := v.setWidth 32 }
  | 0x038 => put { h with lc0 := v }
  | 0x039 => put { h with lb0 := v }
  | 0x03A => put { h with le0 := v }
  | 0x03B => put { h with lc1 := v }
  | 0x03C => put { h with lb1 := v }
  | 0x03D => put { h with le1 := v }
  | 0x100 =>
    -- a 0 written to PEND gives the held response up (19 R354, R364)
    if tstatusOk s v then
      put { h with tstatus := tstatusWrite h.tstatus v, held := if v.getLsbD 14 then h.held else none }
    else put { h with tval := v }
  | 0x101 => put { h with tcause := v &&& 0x3F }
  | 0x102 => put { h with tpc := v }
  | 0x103 => put { h with tval := v }
  | 0x104 => put { h with tvec := v &&& ~~~(3 : Word) }
  | 0x105 => put { h with tscratch := v }
  | 0x106 => if (v.setWidth 2 : BitVec 2) = 3 then s else put { h with vstate := v.setWidth 2 }
  | 0x107 => put { h with slice := v }
  | 0x108 => put { h with ptbase := v }
  | 0x109 => put { h with asid := v.setWidth 16 }
  | 0x10A => if lpartOk s v then { s with core := { s.core with lpart := v } } else put { h with tval := v }
  | 0x10B => put { h with mstateen := v.getLsbD 0 }
  | 0x10C => modTenant s h.asid (fun t => { t with qage := v.toNat })
  | 0x10D => modTenant s h.asid (fun t => { t with lost := 0, next := v.toNat % 64 })
  | _ => s

/-! ## SRR, SRW, SRSET, SRCLR (05 R115, R116) -/

/-- The checks of an access: R27, then VOFF (R31, R90). -/
def srCheck (s : State) (word : IWord) (n : Nat) (writes : Bool) : Option TrapInfo :=
  if !srListed n || (srSupervisor n && s.hart.mode == .user) || (writes && !srWritable s.hart.mode n) then
    some (illegal word)
  else if s.hart.vstate == 0 && srVector n then some (plainTrap causeVoff (word.setWidth 64))
  else none

/-- The access itself: g[gd] takes the value before the write. -/
def srAccess (i : Instr) (gd : Reg) (sr : BitVec 12) (f : Option (Word → Word)) (s : State) : Out :=
  withCheck s (srCheck s (wordOf i) sr.toNat f.isSome)
    (let t := lookAtTime (drained s) sr.toNat
     let x := srRead t sr.toNat
     match f with
     | none => done (writeG t gd x)
     | some f => done (writeG (srWrite t sr.toNat (f x)) gd x))

def execSrr (gd : Reg) (sr : BitVec 12) (s : State) : Out := srAccess (.srr gd sr) gd sr none s
def execSrw (gd gs : Reg) (sr : BitVec 12) (s : State) : Out :=
  srAccess (.srw gd gs sr) gd sr (some (fun _ => readG s gs)) s
def execSrset (gd gs : Reg) (sr : BitVec 12) (s : State) : Out :=
  srAccess (.srset gd gs sr) gd sr (some (fun x => x ||| readG s gs)) s
def execSrclr (gd gs : Reg) (sr : BitVec 12) (s : State) : Out :=
  srAccess (.srclr gd gs sr) gd sr (some (fun x => x &&& ~~~readG s gs)) s

end Sys2Proof.Machine
end

