-- ==== Sys2Proof/Machine/System.lean ====
section
/-! DEFINITION. System instructions (11 R241, R246 to R248, R252 to R255): opcode 0x00 beside the accesses to system
registers. -/
namespace Sys2Proof.Machine

/-! ## Traps and return (R253, R254) -/

def execTrap (imm : BitVec 12) (s : State) : Out := raise (drained s) (plainTrap causeTrapi (imm.setWidth 64))
def execBrk (s : State) : Out := raise (drained s) (plainTrap causeBreak 0)

/-- RETT; a return with YIELD first waits for the release of R363. -/
def execRett (s : State) : Out :=
  withCheck s (supervisorOnly s (wordOf .rett))
    (if tsYield s.hart && mayYield s.hart && tlbiPending s then .next (waitAt (drained s) .rett)
     else .next (returnFromTrap (drained s) (wordOf .rett)))

/-! ## PARK (R255) -/

/-- What makes PARK illegal. -/
def parkIllegal (s : State) : Bool :=
  s.hart.mode == .supervisor
  || (s.hart.mstateen && (!matrixEmpty s || (s.hart.tileset.extractLsb' 2 2).toNat != 1))

/-- The hart gives up its lanes and its vector state; it stops contending, so a reservation ends (19 R362; log 73). -/
def parked (s : State) : State :=
  let s := discardMatrix s
  let h := s.hart
  { s with
    core := freeGroups s.core (heldGroups s.core s.idx)
    hart := { h with
      contending := false, tstatus := putField h.tstatus 20 4 0, count := 0, maxsew := 0, vl := 0, vr := 0
      v := Vector.replicate 32 VReg.reset, vsat := []
      tilem := 0, tilen := 0, tilek := 0, tilenoff := 0 } }

/-- PARK: a hart that sleeps has taken the first two steps already. -/
def execPark (s : State) : Out :=
  let asleep := s.hart.wait == some .park
  if !asleep && parkIllegal s then raise (drained s) (illegal (wordOf .park))
  else
    let t := if asleep then s else parked (drained s)
    if interruptDue t.hart then .next (interruptAfter (complete t)) else .next (waitAt t .park)

/-! ## The ends of tasks (R247, R248) -/

/-- The hart leaves its gang; the last one retires it (17 R339). -/
def endHart (s : State) (h : Nat) : State :=
  match gangOf s h with
  | none => freeHart s h
  | some g =>
    let s := modGang (freeHart s h) g.id (fun g => { g with ended := h :: g.ended })
    match s.sched.gang.find? (fun x => x.id == g.id) with
    | some g => if g.members.all (fun m => g.ended.contains m) then retireGang s g else s
    | none => s

def execExit (s : State) : Out := afterRelease (drained s) .exit 1 fun t => .next (endHart t t.cur)

/-- The hart has executed TRIGGER. -/
def triggered (s : State) : State :=
  let s := { s with hart := { s.hart with triggered := true } }
  match gangOf s s.cur with
  | some g => modGang s g.id fun g =>
      { g with triggered := if g.triggered.contains s.cur then g.triggered else s.cur :: g.triggered }
  | none => s

def execTrigger (s : State) : Out := afterRelease (drained s) .trigger 1 fun t => done (triggered t)

/-! ## FENCE (R241) -/

/-- The stores of the before-set are pushed as far as the scope requires. Loads of the before-set may have read what
other harts of the core wrote, which a later store, post or command must not overtake (12 R265): the core's dirty bytes
are pushed for them as well. Loads of the after-set, and the reads of its engine commands, find no clean bytes in the
L1. Mailbox operations and engine commands are performed when they complete. -/
def execFence (scope : BitVec 2) (before after : BitVec 4) (s : State) : Out :=
  let finish (t : State) : Out := done (if after.getLsbD 0 || after.getLsbD 2 then acquire t scope.toNat else t)
  if before.getLsbD 1 then afterRelease (drained s) (.fence scope before after) scope.toNat finish
  else finish (if before.getLsbD 0 && after.extractLsb' 1 3 != 0 then release (drained s) scope.toNat else drained s)

/-! ## LAUNCH (R246) -/

/-- Submit the record read, tagged with the hart's ASID. -/
def launchRecord (gd : Reg) (s : State) (bs : List Byte) : Out :=
  let p := submit s s.hart.asid bs
  done (writeG p.1 gd (BitVec.ofNat 64 p.2.code))

def execLaunch (gd gs : Reg) (s : State) : Out :=
  let i := Instr.launch gd gs
  let s := drained s
  let a := readG s gs
  match s.hart.request with
  | some q => afterRelease s i 1 fun t => followUp t i q (launchRecord gd)
  | none =>
    if a.toNat % 128 ≠ 0 then raise s (accessTrap causeMisalign a .load)
    else match resolveKind s a .load kindMemory with
      | .error t => raise s t
      | .ok p =>
        let span : List Span := [⟨a, p, 128⟩]
        match spanPoison s span with
        | some va => raise s (accessTrap causePoison va .load)
        | none =>
          afterRelease s i 1 fun t =>
            if kindLocal (pteKind p.pte) then
              let t := touch t p false
              launchRecord gd (fillSpans t span) (spanBytes t span)
            else sendRequest t i p a 128 none

/-! ## Generators (R252, 03 R73, R74) -/

/-- The 64-byte image of the generators of a core. -/
def rngImage (s : State) : List Byte :=
  (hartsOf s.col).flatMap fun h => bytesOfNat 8 (getHart s h).rngkey.toNat ++ bytesOfNat 8 (getHart s h).rngctr.toNat

/-- The generators of the core as an image sets them; a generating instruction that stands stopped goes on with undefined
results (03 R74). -/
def rngRestore (s : State) (bs : List Byte) : State :=
  (hartsOf s.col).foldl (fun s h => modHart s h fun x =>
    { x with
      partRuns := x.partRuns.map (fun p => { p with reloaded := p.reloaded || p.draws })
      rngkey := BitVec.ofNat 64 (field bs (16 * (h % 4)) 8)
      rngctr := BitVec.ofNat 64 (field bs (16 * (h % 4) + 8) 8) }) s

def execRngsnap (gs : Reg) (s : State) : Out :=
  let s := drained s
  let a := readG s gs
  if a.toNat % 64 ≠ 0 then raise s (accessTrap causeMisalign a .store)
  else storeBlock s a (rngImage s) kindLocal done

def execRngload (gs : Reg) (s : State) : Out :=
  let s := drained s
  let a := readG s gs
  if a.toNat % 64 ≠ 0 then raise s (accessTrap causeMisalign a .load)
  else loadBlock s a 64 kindLocal fun t bs => done (rngRestore t bs)

end Sys2Proof.Machine
end

