-- ==== Sys2Proof/Machine/VImage.lean ====
section
/-! DEFINITION. Whole-register images (09 R181 to R184): VSTWR and VLDWR. -/
namespace Sys2Proof.Machine

/-! ## Positions (R181; log 10) -/

/-- The mask bits that lie in position q, by the register's own order; an undefined one is a free value. -/
def maskPosition (s : State) (r : VReg) (q : Nat) : Nat :=
  ((List.range 8).map fun k =>
    let e := q + k * vlmax s
    let b := ((mapGet? r.data e).map (· != 0)).getD (freeBit s 5 e)
    if b then 2 ^ k else 0).foldl (· + ·) 0

/-- The bits of one position under one layout of a register, where it is defined. -/
def partImage (s : State) (q : Nat) (p : RegTag × Map (BitVec 64)) : Option Nat :=
  match p.1 with
  | .elems w => (mapGet? p.2 q).map (fun x => (elemImage s.hart.maxsew w x.toNat (freeWord s 6 q)).toNat)
  | .image => (mapGet? p.2 q).map (·.toNat)
  | _ => none

/-- The bits of one position of a register as its image holds them. -/
def posImage (s : State) (v q : Nat) : Nat :=
  let r := s.hart.v.getD v VReg.reset
  let ms := s.hart.maxsew
  let free := (freeWord s 5 q).toNat % 2 ^ ms
  if r.tag = .bits then ((Config.arrange ms 0) (BitVec.ofNat ms (maskPosition s r q))).toNat
  else (r.parts.findSome? (partImage s q)).getD free % 2 ^ ms

/-- The bits of the first n positions, position 0 lowest. -/
def imageBits (s : State) (v n : Nat) : Nat :=
  (List.range n).reverse.foldl (fun acc q => acc * 2 ^ s.hart.maxsew + posImage s v q) 0

/-- Block b of some bits. -/
def blockBits (bits b : Nat) : Nat := bits / 2 ^ (1024 * b) % 2 ^ 1024

/-- BLOCKS for n positions. -/
def blockCount (n maxsew : Nat) : Nat := (n * maxsew + 1023) / 1024

/-- The positions of the current tile that a register holds (R182). -/
def tileShare (s : State) (v : Nat) : Nat := min (vlmax s) (tileSize s - v % groupOf s.hart * vlmax s)

/-- The image of a register (R181, R182). -/
def imageOf (s : State) (v : Nat) : List Byte :=
  let n := tileShare s v
  let bits := imageBits s v n
  let b := blockCount n s.hart.maxsew
  let stored := (List.range b).filter (fun i => blockBits bits i != 0)
  bytesOfNat 4 n ++ bytesOfNat 1 s.hart.maxsew ++ bytesOfNat 1 s.hart.count ++ bytesOfNat 1 (heldCount s)
  ++ bytesOfNat 1 1 ++ bytesOfNat 4 b ++ bytesOfNat 4 stored.length
  ++ bytesOfNat 1 (if (s.hart.v.getD v VReg.reset).mark then 1 else 0) ++ List.replicate 47 0
  ++ bytesOfNat 64 ((stored.map (2 ^ ·)).foldl (· + ·) 0)
  ++ stored.flatMap (fun i => bytesOfNat 128 (blockBits bits i))

/-! ## VSTWR (R182, R184) -/

/-- What VSTWR names: it reads the positions that its image holds, wherever VSTART stands. -/
def vstwrReq (s : State) (c : Bool) (vs3 base gd : Reg) : VReq :=
  { vreq (wordOf (.vstwr c vs3 base gd)) .store c with
    singleReads := [vs3.toNat], accept := none
    needs := some (if tileSize s = 0 then []
      else (List.range (tileShare s vs3.toNat)).map (fun p => (vs3.toNat, p))) }

def execVstwr (c : Bool) (vs3 base gd : Reg) (s : State) : Out :=
  let q := vstwrReq s c vs3 base gd
  withCheck s (checkVector s q)
    (if tileSize s = 0 then done (writeG (joinConvoy s q) gd 0)
     else
       let a := readG s base
       let img := imageOf s vs3.toNat
       if a.toNat % 64 ≠ 0 then raise s (accessTrap causeMisalign a .store)
       else storeBlock s a img kindLocal fun t =>
         done (writeG (joinConvoy t q) gd (BitVec.ofNat 64 img.length)))

/-! ## VLDWR (R183, R184) -/

/-- The offset of the first header field that fails, in the order of R181. -/
def headerFault (s : State) (bs : List Byte) : Option Nat :=
  let n := field bs 0 4
  let b := field bs 8 4
  let map := field bs 64 64
  if field bs 4 1 ≠ s.hart.maxsew then some 4
  else if field bs 7 1 ≠ 1 then some 7
  else if b ≠ blockCount n (field bs 4 1) then some 8
  else if field bs 12 4 ≠ ((List.range 512).filter (fun i => map.testBit i)).length then some 12
  else if field bs 16 1 / 2 ≠ 0 then some 16
  else if field bs 17 47 ≠ 0 then some 17
  else if (List.range 512).any (fun i => map.testBit i && decide (b ≤ i)) then some 64
  else none

/-- The bits of an image from its map and its stored blocks. -/
def unpackBlocks : List Nat → List Byte → Nat
  | [], _ => 0
  | i :: is, bs => natOfBytes (bs.take 128) * 2 ^ (1024 * i) + unpackBlocks is (bs.drop 128)

/-- The register that an image restores. -/
def imageReg (s : State) (hdr blocks : List Byte) : VReg :=
  let ms := s.hart.maxsew
  let bits := unpackBlocks (setBits 512 (field hdr 64 64)) blocks
  { tag := .image, mark := (field hdr 16 1) % 2 == 1
    data := (List.range (min (field hdr 0 4) (vlmax s))).map
      (fun q => (q, BitVec.ofNat 64 (bits / 2 ^ (q * ms) % 2 ^ ms)))
    rest := [], bad := [] }

def execVldwr (c : Bool) (vd base gd : Reg) (s : State) : Out :=
  let q := { vreq (wordOf (.vldwr c vd base gd)) .load c with singleWrites := [vd.toNat], accept := none }
  withCheck s (checkVector s q)
    (if tileSize s = 0 then done (writeG (joinConvoy s q) gd 0)
     else
       let a := readG s base
       if a.toNat % 64 ≠ 0 then raise s (accessTrap causeMisalign a .load)
       else loadBlock s a 128 kindLocal fun t hdr =>
         match headerFault t hdr with
         | some off => raise t (plainTrap causeFormat (BitVec.ofNat 64 off))
         | none =>
           let z := field hdr 12 4
           loadBlock t (a + 128) (128 * z) kindLocal fun t blocks =>
             let h := markDirty [vd.toNat] (setV t.hart (t.hart.v.setIfInBounds vd.toNat (imageReg t hdr blocks)))
             done (writeG (joinConvoy { t with hart := h } q) gd (BitVec.ofNat 64 (128 + 128 * z))))

end Sys2Proof.Machine
end

