-- ==== Sys2Proof/Machine/VMask.lean ====
section
/-! DEFINITION. Masks, index vectors, compression and expansion (08 R151 to R160): opcode 0x18. -/
namespace Sys2Proof.Machine

/-- Every legal VTYPE (08 R155). -/
def acceptAll (_ : EType) : Bool := true

/-- What an instruction of this chapter names, before its operands are filled in. -/
def maskReq (i : Instr) (cls : PipeClass) (c m : Bool) (accept : Option (EType → Bool)) : VReq :=
  { vreq (wordOf i) cls c with masked := m, accept := accept }

/-! ## VMLOG and VMVSAT (R156, R157) -/

/-- The operations of VMLOG: and, or, xor, andn, nand, nor, xnor, orn. -/
def maskLogic (op : BitVec 3) (a b : Bool) : Bool :=
  match op.toNat with
  | 0 => a && b
  | 1 => a || b
  | 2 => a != b
  | 3 => a && !b
  | 4 => !(a && b)
  | 5 => !(a || b)
  | 6 => a == b
  | _ => a || !b

/-- What VMLOG names. -/
def vmlogReq (s : State) (c : Bool) (vd vs1 vs2 : Reg) (op : BitVec 3) : VReq :=
  { maskReq (.vmlog c vd vs1 vs2 op) .alu c false (some acceptAll) with
    singleReads := [vs1.toNat, vs2.toNat], singleWrites := [vd.toNat]
    needs := needed s ([vs1.toNat, vs2.toNat].flatMap (fun v => (List.range (tileSize s)).map (maskAt s v))) }

def execVmlog (c : Bool) (vd vs1 vs2 : Reg) (op : BitVec 3) (s : State) : Out :=
  let q := vmlogReq s c vd vs1 vs2 op
  withCheck s (checkVector s q)
    (maskRun s q true false vd.toNat 8 fun e =>
      maskLogic op (maskBit s 1 vs1.toNat e) (maskBit s (if vs1 = vs2 then 1 else 2) vs2.toNat e))

/-- VMVSAT reads no VTYPE format, but for TZ. -/
def execVmvsat (c : Bool) (vd : Reg) (s : State) : Out :=
  let q := { maskReq (.vmvsat c vd) .alu c false none with singleWrites := [vd.toNat] }
  withCheck s (checkVector s q) (maskRun s q true false vd.toNat 8 (satBit s))

/-! ## VMPOPC and VMFIRST (R158) -/

/-- The active set bits of a mask over the whole tile. -/
def setActive (s : State) (m : Bool) (vs2 : Nat) : List Nat :=
  (List.range (tileSize s)).filter (fun e => active s m e && maskBit s 1 vs2 e)

/-- What VMPOPC and VMFIRST name: they read the bits of the whole tile wherever VSTART stands (R153). -/
def maskScalarReq (s : State) (i : Instr) (c : Bool) (vs2 : Reg) (m : Bool) : VReq :=
  { maskReq i .perm c m (some acceptAll) with
    singleReads := [vs2.toNat]
    needs := some (maskNeeds s m ++ (List.range (tileSize s)).map (maskAt s vs2.toNat)) }

/-- A scalar result of a mask. -/
def maskScalar (i : Instr) (c : Bool) (gd vs2 : Reg) (m : Bool) (f : List Nat → Word) (s : State) : Out :=
  let q := maskScalarReq s i c vs2 m
  withCheck s (checkVector s q) (.next (finishV (joinConvoy (writeG s gd (f (setActive s m vs2.toNat))) q)))

def execVmpopc (c : Bool) (gd vs2 : Reg) (m : Bool) (s : State) : Out :=
  maskScalar (.vmpopc c gd vs2 m) c gd vs2 m (fun es => BitVec.ofNat 64 es.length) s

def execVmfirst (c : Bool) (gd vs2 : Reg) (m : Bool) (s : State) : Out :=
  maskScalar (.vmfirst c gd vs2 m) c gd vs2 m
    (fun es => match es with
      | [] => -1
      | e :: _ => BitVec.ofNat 64 e) s

/-! ## VIOTA, VCOMPRESS, VEXPAND (R154, R159, R160) -/

/-- The running count of VIOTA over some indices: what each gets. -/
def iotaFrom (s : State) (m : Bool) (vs2 w : Nat) : Nat → List Nat → List (Nat × Nat)
  | _, [] => []
  | n, e :: es =>
    if active s m e then (e, n % 2 ^ w) :: iotaFrom s m vs2 w (if maskBit s 1 vs2 e then n + 1 else n) es
    else if vtMZ s.hart then (e, 0) :: iotaFrom s m vs2 w n es
    else iotaFrom s m vs2 w n es

/-- What VIOTA names. -/
def viotaReq (s : State) (c : Bool) (vd vs2 : Reg) (m : Bool) : VReq :=
  { maskReq (.viota c vd vs2 m) .perm c m (some acceptInt) with
    singleReads := [vs2.toNat], groupWrites := [vd.toNat], clash := (groupRegs s vd.toNat).contains vs2.toNat
    needs := needed s (maskNeeds s m ++ (activeTile s m).map (maskAt s vs2.toNat)) }

def execViota (c : Bool) (vd vs2 : Reg) (m : Bool) (s : State) : Out :=
  let q := viotaReq s c vd vs2 m
  withCheck s (checkVector s q)
    (wholeRun s q vd.toNat (sew s) 0
      (iotaFrom s m vs2.toNat (sew s) 0 (List.range (tileSize s)) ++ tailFrom s (tileSize s)))

/-- The indices whose mask bit is set, in order. -/
def selected (s : State) : List Nat := (List.range (tileSize s)).filter (fun e => maskBit s 0 0 e)

/-- What VCOMPRESS and VEXPAND name; m is 1, and they read the elements `es` of vs2. -/
def packReq (s : State) (i : Instr) (c : Bool) (vd vs2 : Reg) (es : List Nat) : VReq :=
  { maskReq i .perm c true (some acceptAll) with
    groupReads := [vs2.toNat], groupWrites := [vd.toNat], clash := groupClash s vd vs2
    needs := needed s (maskNeeds s true ++ es.map (fun e => (vs2.toNat, e))) }
def vcompressReq (s : State) (c : Bool) (vd vs2 : Reg) : VReq :=
  packReq s (.vcompress c vd vs2) c vd vs2 (selected s)
def vexpandReq (s : State) (c : Bool) (vd vs2 : Reg) : VReq :=
  packReq s (.vexpand c vd vs2) c vd vs2 (List.range (selected s).length)

def execVcompress (c : Bool) (vd vs2 : Reg) (s : State) : Out :=
  let q := vcompressReq s c vd vs2
  withCheck s (checkVector s q)
    (let es := selected s
     wholeRun s q vd.toNat (sew s) 0
       (es.zipIdx.map (fun p => (p.2, elem s 2 vs2.toNat (sew s) p.1)) ++ tailFrom s es.length))

def execVexpand (c : Bool) (vd vs2 : Reg) (s : State) : Out :=
  let q := vexpandReq s c vd vs2
  withCheck s (checkVector s q)
    (let es := selected s
     let off := if vtMZ s.hart then
         ((List.range (tileSize s)).filter (fun e => !maskBit s 0 0 e)).map (fun e => (e, 0))
       else []
     wholeRun s q vd.toNat (sew s) 0
       (es.zipIdx.map (fun p => (p.1, elem s 2 vs2.toNat (sew s) p.2)) ++ off ++ tailFrom s (tileSize s)))

end Sys2Proof.Machine
end

