-- ==== Sys2Proof/Machine/VPermute.lean ====
section
/-! DEFINITION. Slides, gathers, broadcasts and moves (08 R164 to R169): opcode 0x1A. -/
namespace Sys2Proof.Machine

/-- An instruction that gives every element of the tile a value by its index; none leaves it as it is. Masked-off
elements follow MZ, tail elements TZ. -/
def permuted (s : State) (q : VReq) (m : Bool) (vd : Nat) (f : Nat → Option Nat) : Out :=
  wholeRun s q vd (sew s) 0
    ((List.range (tileSize s)).filterMap (fun e =>
      if active s m e then (f e).map (fun x => (e, x)) else if vtMZ s.hart then some (e, 0) else none)
     ++ tailFrom s (tileSize s))

/-- The amount of a slide: g[gs], or imm5 zero-extended (R164). -/
def slideAmount (s : State) (form : BitVec 2) (s1 : Reg) : Nat := if form = 1 then (readG s s1).toNat else s1.toNat

/-- What a slide names; its active elements read the elements `es` of vs2. -/
def slideReq (s : State) (i : Instr) (c : Bool) (vd vs2 : Reg) (m : Bool) (es : List Nat) : VReq :=
  { maskReq i .perm c m (some acceptAll) with
    groupReads := [vs2.toNat], groupWrites := [vd.toNat], clash := groupClash s vd vs2
    needs := needed s (maskNeeds s m ++ es.map (fun e => (vs2.toNat, e))) }
def slideupReq (s : State) (c : Bool) (vd s1 vs2 : Reg) (m : Bool) (form : BitVec 2) : VReq :=
  slideReq s (.vslideup c vd s1 vs2 m form) c vd vs2 m
    (((activeTile s m).filter (fun e => decide (slideAmount s form s1 ≤ e))).map (· - slideAmount s form s1))
def slidednReq (s : State) (c : Bool) (vd s1 vs2 : Reg) (m : Bool) (form : BitVec 2) : VReq :=
  slideReq s (.vslidedn c vd s1 vs2 m form) c vd vs2 m
    (((activeTile s m).map (· + slideAmount s form s1)).filter (fun e => decide (e < tileSize s)))

def execVslideup (c : Bool) (vd s1 vs2 : Reg) (m : Bool) (form : BitVec 2) (s : State) : Out :=
  let q := slideupReq s c vd s1 vs2 m form
  withCheck s (checkVector s q)
    (permuted s q m vd.toNat fun e =>
      let k := slideAmount s form s1
      if e < k then none else some (elem s 2 vs2.toNat (sew s) (e - k)))

def execVslidedn (c : Bool) (vd s1 vs2 : Reg) (m : Bool) (form : BitVec 2) (s : State) : Out :=
  let q := slidednReq s c vd s1 vs2 m form
  withCheck s (checkVector s q)
    (permuted s q m vd.toNat fun e =>
      let i := e + slideAmount s form s1
      some (if i < tileSize s then elem s 2 vs2.toNat (sew s) i else 0))

/-- What VGATHERV names: the indices of its active elements, and the elements that these choose. -/
def vgathervReq (s : State) (c : Bool) (vd vs1 vs2 : Reg) (m : Bool) : VReq :=
  let es := activeTile s m
  { maskReq (.vgatherv c vd vs1 vs2 m) .perm c m (some acceptAll) with
    groupReads := [vs1.toNat, vs2.toNat], groupWrites := [vd.toNat]
    clash := groupClash s vd vs1 || groupClash s vd vs2
    needs := needed s (maskNeeds s m ++ es.map (fun e => (vs1.toNat, e))
      ++ ((es.map (elem s 1 vs1.toNat (sew s))).filter (fun i => decide (i < tileSize s))).map (fun i => (vs2.toNat, i))) }

def execVgatherv (c : Bool) (vd vs1 vs2 : Reg) (m : Bool) (s : State) : Out :=
  let q := vgathervReq s c vd vs1 vs2 m
  withCheck s (checkVector s q)
    (permuted s q m vd.toNat fun e =>
      let i := elem s 1 vs1.toNat (sew s) e
      some (if i < tileSize s then elem s 2 vs2.toNat (sew s) i else 0))

/-- What VBCAST names. -/
def vbcastReq (s : State) (c : Bool) (vd s1 : Reg) (m : Bool) (form : BitVec 2) : VReq :=
  { maskReq (.vbcast c vd s1 m form) .perm c m (some acceptAll) with
    groupWrites := [vd.toNat], needs := needed s (maskNeeds s m) }

def execVbcast (c : Bool) (vd s1 : Reg) (m : Bool) (form : BitVec 2) (s : State) : Out :=
  let q := vbcastReq s c vd s1 m form
  withCheck s (checkVector s q)
    (permuted s q m vd.toNat fun _ =>
      some (if form = 1 then (readG s s1).toNat % 2 ^ sew s else imm5 false (sew s) s1))

def execVmv (c : Bool) (vd vs2 : Reg) (m : Bool) (s : State) : Out :=
  let q := { maskReq (.vmv c vd vs2 m) .alu c m (some acceptAll) with
    groupReads := [vs2.toNat], groupWrites := [vd.toNat] }
  withCheck s (checkVector s q)
    (elementwise s q m false vd.toNat (sew s) (sew s) false fun e => .write (elem s 2 vs2.toNat (sew s) e) 0 none)

/-- Element 0 as a scalar: sign-extended under INT (R168). -/
def scalarOf (t : EType) (bits : Nat) : Word :=
  match t with
  | .int w => BitVec.ofInt 64 (toInt w bits)
  | _ => BitVec.ofNat 64 bits

/-- What VMVXS names: element 0 alone, whatever VL, VR and VSTART hold (R168). -/
def vmvxsReq (c : Bool) (gd vs2 : Reg) : VReq :=
  { maskReq (.vmvxs c gd vs2) .perm c false (some acceptAll) with
    groupReads := [vs2.toNat], needs := some [(vs2.toNat, 0)] }

def execVmvxs (c : Bool) (gd vs2 : Reg) (s : State) : Out :=
  let q := vmvxsReq c gd vs2
  withCheck s (checkVector s q)
    (.next (finishV (joinConvoy (writeG s gd (scalarOf (etypeD s) (elem s 2 vs2.toNat (sew s) 0))) q)))

def execVmvsx (c : Bool) (vd gs : Reg) (s : State) : Out :=
  let q := { maskReq (.vmvsx c vd gs) .perm c false (some acceptAll) with groupWrites := [vd.toNat], needs := some [] }
  withCheck s (checkVector s q)
    (wholeRun s q vd.toNat (sew s) 0 ((0, (readG s gs).toNat % 2 ^ sew s) :: tailFrom s 1))

end Sys2Proof.Machine
end

