-- ==== Sys2Proof/Machine/VReduce.lean ====
section
/-! DEFINITION. Reductions (03 R69, 08 R161 to R163): opcode 0x19. -/
namespace Sys2Proof.Machine

/-- What a reduction names: it reads the active elements of vs2 and the seed of each row. -/
def redReq (s : State) (i : Instr) (x : VRed) (accept : EType → Bool) : VReq :=
  { vreq (wordOf i) .perm x.c with
    groupReads := [x.vs1.toNat, x.vs2.toNat], groupWrites := [x.vd.toNat], masked := x.m, accept := some accept
    needs := needed s (maskNeeds s x.m ++ (activeTile s x.m).map (fun e => (x.vs2.toNat, e))
      ++ (List.range (if x.tile then 1 else s.hart.vr)).map (fun r => (x.vs1.toNat, r))) }

/-- The rows: each with its number and the active flat indices of its positions, in order. Under TILE the tile is one
row (R162). A position that is masked off is none. -/
def redRows (s : State) (x : VRed) : List (Nat × List (Option Nat)) :=
  let pos (e : Nat) : Option Nat := if active s x.m e then some e else none
  if x.tile then [(0, (List.range (tileSize s)).map pos)]
  else (List.range s.hart.vr).map fun r => (r, (List.range s.hart.vl).map (fun c => pos (r * s.hart.vl + c)))

/-- A reduction: `f` combines the seed of a row with its positions, in bits, and gives flags. A row whose destination lies
below VSTART raises its flags although it is not written again (DESIGN CHOICE beside 08 R153 and R163, log 70). -/
def reduction (i : Instr) (x : VRed) (accept : EType → Bool) (f : Nat → List (Option Nat) → Nat × FFlags) (s : State) :
    Out :=
  let q := redReq s i x accept
  withCheck s (checkVector s q)
    (let w := sew s
     let rows := redRows s x
     let rs := rows.map fun row =>
       (row.1, f (elem s 1 x.vs1.toNat w row.1) (row.2.map (fun p => p.map (elem s 2 x.vs2.toNat w))))
     wholeRun s q x.vd.toNat w (rs.foldl (fun fl r => fl ||| r.2.2) 0)
       (rs.map (fun r => (r.1, r.2.1)) ++ tailFrom s rows.length))

/-- An integer reduction: the seed and the active positions combined; no flag. -/
def intReduction (i : Instr) (x : VRed) (g : Nat → Nat → Nat → Nat) (s : State) : Out :=
  reduction i x acceptInt (fun seed ps => ((ps.filterMap id).foldl (fun a b => g (sew s) a b % 2 ^ sew s) seed, 0)) s

def execVredsum (x : VRed) (s : State) : Out := intReduction (.vredsum x) x vAdd s
def execVredmin (x : VRed) (s : State) : Out := intReduction (.vredmin x) x vMin s
def execVredmax (x : VRed) (s : State) : Out := intReduction (.vredmax x) x vMax s
def execVredminu (x : VRed) (s : State) : Out := intReduction (.vredminu x) x vMinu s
def execVredmaxu (x : VRed) (s : State) : Out := intReduction (.vredmaxu x) x vMaxu s
def execVredand (x : VRed) (s : State) : Out := intReduction (.vredand x) x vAnd s
def execVredor (x : VRed) (s : State) : Out := intReduction (.vredor x) x vOr s

/-! ## VFREDSUM (03 R69, R163) -/

/-- One addition of the tree: bits and flags. -/
def treeAdd (s : State) (f : Fmt) (a b : Nat) : Nat × FFlags :=
  let v := fadd (isRdn s) (decodeF f a) (decodeF f b)
  let w := roundTo f (rndMode s.hart) (ftzOf s.hart) v.1
  (w.bits, w.flags ||| flagIf v.2 flagNV)

/-- One level of the tree: slots 2i and 2i + 1 become slot i. -/
def treeLevel (s : State) (f : Fmt) : List (Option Nat) → List (Option Nat) × FFlags
  | a :: b :: rest =>
    let r := treeLevel s f rest
    match a, b with
    | some x, some y =>
      let p := treeAdd s f x y
      (some p.1 :: r.1, p.2 ||| r.2)
    | some x, none => (some x :: r.1, r.2)
    | none, y => (y :: r.1, r.2)
  | l => (l, 0)

/-- The root of the tree; `fuel` bounds its levels. -/
def treeRoot (s : State) (f : Fmt) : Nat → List (Option Nat) → Option Nat × FFlags
  | _, [] => (none, 0)
  | _, [x] => (x, 0)
  | 0, _ => (none, 0)
  | fuel + 1, l =>
    let p := treeLevel s f l
    let r := treeRoot s f fuel p.1
    (r.1, p.2 ||| r.2)

/-- A floating-point seed as it is written where no position is active (R162). -/
def seedBits (s : State) (f : Fmt) (seed : Nat) : Nat :=
  if (decodeF f seed).isNan then f.nan else flushIn f (ftzOf s.hart) seed

/-- The sum of a row. -/
def sumRow (s : State) (f : Fmt) (seed : Nat) (ps : List (Option Nat)) : Nat × FFlags :=
  let flush := flushIn f (ftzOf s.hart)
  match treeRoot s f 40 (ps.map (fun p => p.map flush)) with
  | (none, fl) => (seedBits s f seed, fl ||| nfOf f (seedBits s f seed))
  | (some root, fl) =>
    let r := treeAdd s f (flush seed) root
    (r.1, fl ||| r.2)

def execVfredsum (x : VRed) (s : State) : Out := reduction (.vfredsum x) x acceptFloat (sumRow s (fmtD s)) s

/-! ## VFREDMIN and VFREDMAX (R163) -/

def selectRow (s : State) (wantMax : Bool) (seed : Nat) (ps : List (Option Nat)) : Nat × FFlags :=
  let f := fmtD s
  let r := (ps.filterMap id).foldl (fun a b => selectBits f (ftzOf s.hart) wantMax a b) (seedBits s f seed)
  (r, nfOf f r)

def execVfredmin (x : VRed) (s : State) : Out := reduction (.vfredmin x) x acceptFloat8 (selectRow s false) s
def execVfredmax (x : VRed) (s : State) : Out := reduction (.vfredmax x) x acceptFloat8 (selectRow s true) s

end Sys2Proof.Machine
end

