-- ==== Sys2Proof/Machine/Dispatch.lean ====
section
/-! DEFINITION. One arm per constructor of `Instr`. -/
namespace Sys2Proof.Machine

def exec (i : Instr) (s : State) : Host.Outcome State Fault Refusal :=
  match i with
  | .srr gd sr => Sys2Proof.Machine.execSrr gd sr s
  | .srw gd gs sr => Sys2Proof.Machine.execSrw gd gs sr s
  | .srset gd gs sr => Sys2Proof.Machine.execSrset gd gs sr s
  | .srclr gd gs sr => Sys2Proof.Machine.execSrclr gd gs sr s
  | .trap imm => Sys2Proof.Machine.execTrap imm s
  | .fence scope before after => Sys2Proof.Machine.execFence scope before after s
  | .rett => Sys2Proof.Machine.execRett s
  | .park => Sys2Proof.Machine.execPark s
  | .brk => Sys2Proof.Machine.execBrk s
  | .exit => Sys2Proof.Machine.execExit s
  | .trigger => Sys2Proof.Machine.execTrigger s
  | .launch gd gs => Sys2Proof.Machine.execLaunch gd gs s
  | .rngsnap gs => Sys2Proof.Machine.execRngsnap gs s
  | .rngload gs => Sys2Proof.Machine.execRngload gs s
  | .add gd gs1 gs2 => Sys2Proof.Machine.execAdd gd gs1 gs2 s
  | .sub gd gs1 gs2 => Sys2Proof.Machine.execSub gd gs1 gs2 s
  | .and gd gs1 gs2 => Sys2Proof.Machine.execAnd gd gs1 gs2 s
  | .or gd gs1 gs2 => Sys2Proof.Machine.execOr gd gs1 gs2 s
  | .xor gd gs1 gs2 => Sys2Proof.Machine.execXor gd gs1 gs2 s
  | .andn gd gs1 gs2 => Sys2Proof.Machine.execAndn gd gs1 gs2 s
  | .sll gd gs1 gs2 => Sys2Proof.Machine.execSll gd gs1 gs2 s
  | .srl gd gs1 gs2 => Sys2Proof.Machine.execSrl gd gs1 gs2 s
  | .sra gd gs1 gs2 => Sys2Proof.Machine.execSra gd gs1 gs2 s
  | .slt gd gs1 gs2 => Sys2Proof.Machine.execSlt gd gs1 gs2 s
  | .sltu gd gs1 gs2 => Sys2Proof.Machine.execSltu gd gs1 gs2 s
  | .min gd gs1 gs2 => Sys2Proof.Machine.execMin gd gs1 gs2 s
  | .max gd gs1 gs2 => Sys2Proof.Machine.execMax gd gs1 gs2 s
  | .minu gd gs1 gs2 => Sys2Proof.Machine.execMinu gd gs1 gs2 s
  | .maxu gd gs1 gs2 => Sys2Proof.Machine.execMaxu gd gs1 gs2 s
  | .mul gd gs1 gs2 => Sys2Proof.Machine.execMul gd gs1 gs2 s
  | .mulh gd gs1 gs2 => Sys2Proof.Machine.execMulh gd gs1 gs2 s
  | .mulhu gd gs1 gs2 => Sys2Proof.Machine.execMulhu gd gs1 gs2 s
  | .div gd gs1 gs2 => Sys2Proof.Machine.execDiv gd gs1 gs2 s
  | .divu gd gs1 gs2 => Sys2Proof.Machine.execDivu gd gs1 gs2 s
  | .rem gd gs1 gs2 => Sys2Proof.Machine.execRem gd gs1 gs2 s
  | .remu gd gs1 gs2 => Sys2Proof.Machine.execRemu gd gs1 gs2 s
  | .clz gd gs1 => Sys2Proof.Machine.execClz gd gs1 s
  | .ctz gd gs1 => Sys2Proof.Machine.execCtz gd gs1 s
  | .popc gd gs1 => Sys2Proof.Machine.execPopc gd gs1 s
  | .sext gd gs1 code => Sys2Proof.Machine.execSext gd gs1 code s
  | .zext gd gs1 code => Sys2Proof.Machine.execZext gd gs1 code s
  | .addi gd gs1 imm => Sys2Proof.Machine.execAddi gd gs1 imm s
  | .andi gd gs1 imm => Sys2Proof.Machine.execAndi gd gs1 imm s
  | .ori gd gs1 imm => Sys2Proof.Machine.execOri gd gs1 imm s
  | .xori gd gs1 imm => Sys2Proof.Machine.execXori gd gs1 imm s
  | .slti gd gs1 imm => Sys2Proof.Machine.execSlti gd gs1 imm s
  | .sltiu gd gs1 imm => Sys2Proof.Machine.execSltiu gd gs1 imm s
  | .slli gd gs1 sh => Sys2Proof.Machine.execSlli gd gs1 sh s
  | .srli gd gs1 sh => Sys2Proof.Machine.execSrli gd gs1 sh s
  | .srai gd gs1 sh => Sys2Proof.Machine.execSrai gd gs1 sh s
  | .lui gd imm => Sys2Proof.Machine.execLui gd imm s
  | .auipc gd imm => Sys2Proof.Machine.execAuipc gd imm s
  | .ldb gd base off => Sys2Proof.Machine.execLdb gd base off s
  | .ldbu gd base off => Sys2Proof.Machine.execLdbu gd base off s
  | .ldh gd base off => Sys2Proof.Machine.execLdh gd base off s
  | .ldhu gd base off => Sys2Proof.Machine.execLdhu gd base off s
  | .ldw gd base off => Sys2Proof.Machine.execLdw gd base off s
  | .ldwu gd base off => Sys2Proof.Machine.execLdwu gd base off s
  | .ldd gd base off => Sys2Proof.Machine.execLdd gd base off s
  | .stb gs base off => Sys2Proof.Machine.execStb gs base off s
  | .sth gs base off => Sys2Proof.Machine.execSth gs base off s
  | .stw gs base off => Sys2Proof.Machine.execStw gs base off s
  | .std gs base off => Sys2Proof.Machine.execStd gs base off s
  | .ldacq gd base scope width => Sys2Proof.Machine.execLdacq gd base scope width s
  | .strel base gs scope width => Sys2Proof.Machine.execStrel base gs scope width s
  | .amoadd x => Sys2Proof.Machine.execAmoadd x s
  | .amoswap x => Sys2Proof.Machine.execAmoswap x s
  | .amocas x => Sys2Proof.Machine.execAmocas x s
  | .amomin x => Sys2Proof.Machine.execAmomin x s
  | .amomax x => Sys2Proof.Machine.execAmomax x s
  | .amominu x => Sys2Proof.Machine.execAmominu x s
  | .amomaxu x => Sys2Proof.Machine.execAmomaxu x s
  | .amoor x => Sys2Proof.Machine.execAmoor x s
  | .amoand x => Sys2Proof.Machine.execAmoand x s
  | .beq gs1 gs2 off => Sys2Proof.Machine.execBeq gs1 gs2 off s
  | .bne gs1 gs2 off => Sys2Proof.Machine.execBne gs1 gs2 off s
  | .blt gs1 gs2 off => Sys2Proof.Machine.execBlt gs1 gs2 off s
  | .bge gs1 gs2 off => Sys2Proof.Machine.execBge gs1 gs2 off s
  | .bltu gs1 gs2 off => Sys2Proof.Machine.execBltu gs1 gs2 off s
  | .bgeu gs1 gs2 off => Sys2Proof.Machine.execBgeu gs1 gs2 off s
  | .jal gd off => Sys2Proof.Machine.execJal gd off s
  | .jalr gd gs1 imm => Sys2Proof.Machine.execJalr gd gs1 imm s
  | .loop lvl gs1 imm => Sys2Proof.Machine.execLoop lvl gs1 imm s
  | .bar => Sys2Proof.Machine.execBar s
  | .barRelease h => Sys2Proof.Machine.execBarRelease h s
  | .waitaddr gd gs1 gs2 => Sys2Proof.Machine.execWaitaddr gd gs1 gs2 s
  | .waitaddrWake h reason => Sys2Proof.Machine.execWaitaddrWake h reason s
  | .waitaddrTimeout h => Sys2Proof.Machine.execWaitaddrTimeout h s
  | .claim gd gs1 gs2 => Sys2Proof.Machine.execClaim gd gs1 gs2 s
  | .pubwm gs1 gs2 => Sys2Proof.Machine.execPubwm gs1 gs2 s
  | .waitwm gs1 gs2 => Sys2Proof.Machine.execWaitwm gs1 gs2 s
  | .waitwmSatisfied h => Sys2Proof.Machine.execWaitwmSatisfied h s
  | .setregs gd maxsew count => Sys2Proof.Machine.execSetregs gd maxsew count s
  | .stripBoundaryStallEnd h => Sys2Proof.Machine.execStripBoundaryStallEnd h s
  | .settypeReg gd gs1 => Sys2Proof.Machine.execSettypeReg gd gs1 s
  | .settypeImm gd imm => Sys2Proof.Machine.execSettypeImm gd imm s
  | .setlen gd gs1 => Sys2Proof.Machine.execSetlen gd gs1 s
  | .setlen2 gd gs1 gs2 => Sys2Proof.Machine.execSetlen2 gd gs1 gs2 s
  | .settile gd gs1 gs2 => Sys2Proof.Machine.execSettile gd gs1 gs2 s
  | .tilebind gd gs1 => Sys2Proof.Machine.execTilebind gd gs1 s
  | .tilebindPartnersMet h => Sys2Proof.Machine.execTilebindPartnersMet h s
  | .vadd x => Sys2Proof.Machine.execVadd x s
  | .vsub x => Sys2Proof.Machine.execVsub x s
  | .vrsub x => Sys2Proof.Machine.execVrsub x s
  | .vmul x => Sys2Proof.Machine.execVmul x s
  | .vmulh x => Sys2Proof.Machine.execVmulh x s
  | .vmulhu x => Sys2Proof.Machine.execVmulhu x s
  | .vand x => Sys2Proof.Machine.execVand x s
  | .vor x => Sys2Proof.Machine.execVor x s
  | .vxor x => Sys2Proof.Machine.execVxor x s
  | .vsll x => Sys2Proof.Machine.execVsll x s
  | .vsrl x => Sys2Proof.Machine.execVsrl x s
  | .vsra x => Sys2Proof.Machine.execVsra x s
  | .vmin x => Sys2Proof.Machine.execVmin x s
  | .vmax x => Sys2Proof.Machine.execVmax x s
  | .vminu x => Sys2Proof.Machine.execVminu x s
  | .vmaxu x => Sys2Proof.Machine.execVmaxu x s
  | .vsadd x => Sys2Proof.Machine.execVsadd x s
  | .vssub x => Sys2Proof.Machine.execVssub x s
  | .vmerge x => Sys2Proof.Machine.execVmerge x s
  | .vcmp x cond => Sys2Proof.Machine.execVcmp x cond s
  | .vfadd x => Sys2Proof.Machine.execVfadd x s
  | .vfsub x => Sys2Proof.Machine.execVfsub x s
  | .vfmul x => Sys2Proof.Machine.execVfmul x s
  | .vfdiv x => Sys2Proof.Machine.execVfdiv x s
  | .vfsqrt x => Sys2Proof.Machine.execVfsqrt x s
  | .vfma x => Sys2Proof.Machine.execVfma x s
  | .vfnma x => Sys2Proof.Machine.execVfnma x s
  | .vfms x => Sys2Proof.Machine.execVfms x s
  | .vfmin x => Sys2Proof.Machine.execVfmin x s
  | .vfmax x => Sys2Proof.Machine.execVfmax x s
  | .vfsgnCopy x => Sys2Proof.Machine.execVfsgnCopy x s
  | .vfsgnNeg x => Sys2Proof.Machine.execVfsgnNeg x s
  | .vfsgnXor x => Sys2Proof.Machine.execVfsgnXor x s
  | .vfclass x => Sys2Proof.Machine.execVfclass x s
  | .vfcmp x cond => Sys2Proof.Machine.execVfcmp x cond s
  | .vfexp2 x => Sys2Proof.Machine.execVfexp2 x s
  | .vflog2 x => Sys2Proof.Machine.execVflog2 x s
  | .vfrcp x => Sys2Proof.Machine.execVfrcp x s
  | .vfrsq x => Sys2Proof.Machine.execVfrsq x s
  | .vftanh x => Sys2Proof.Machine.execVftanh x s
  | .vfsigm x => Sys2Proof.Machine.execVfsigm x s
  | .vcvt x src => Sys2Proof.Machine.execVcvt x src s
  | .vquant x src => Sys2Proof.Machine.execVquant x src s
  | .vdeq x src => Sys2Proof.Machine.execVdeq x src s
  | .vrand c vd m d => Sys2Proof.Machine.execVrand c vd m d s
  | .vmlog c vd vs1 vs2 op => Sys2Proof.Machine.execVmlog c vd vs1 vs2 op s
  | .vmpopc c gd vs2 m => Sys2Proof.Machine.execVmpopc c gd vs2 m s
  | .vmfirst c gd vs2 m => Sys2Proof.Machine.execVmfirst c gd vs2 m s
  | .viota c vd vs2 m => Sys2Proof.Machine.execViota c vd vs2 m s
  | .vcompress c vd vs2 => Sys2Proof.Machine.execVcompress c vd vs2 s
  | .vexpand c vd vs2 => Sys2Proof.Machine.execVexpand c vd vs2 s
  | .vmvsat c vd => Sys2Proof.Machine.execVmvsat c vd s
  | .vredsum x => Sys2Proof.Machine.execVredsum x s
  | .vredmin x => Sys2Proof.Machine.execVredmin x s
  | .vredmax x => Sys2Proof.Machine.execVredmax x s
  | .vredminu x => Sys2Proof.Machine.execVredminu x s
  | .vredmaxu x => Sys2Proof.Machine.execVredmaxu x s
  | .vredand x => Sys2Proof.Machine.execVredand x s
  | .vredor x => Sys2Proof.Machine.execVredor x s
  | .vfredsum x => Sys2Proof.Machine.execVfredsum x s
  | .vfredmin x => Sys2Proof.Machine.execVfredmin x s
  | .vfredmax x => Sys2Proof.Machine.execVfredmax x s
  | .vslideup c vd s1 vs2 m form => Sys2Proof.Machine.execVslideup c vd s1 vs2 m form s
  | .vslidedn c vd s1 vs2 m form => Sys2Proof.Machine.execVslidedn c vd s1 vs2 m form s
  | .vgatherv c vd vs1 vs2 m => Sys2Proof.Machine.execVgatherv c vd vs1 vs2 m s
  | .vbcast c vd s1 m form => Sys2Proof.Machine.execVbcast c vd s1 m form s
  | .vmv c vd vs2 m => Sys2Proof.Machine.execVmv c vd vs2 m s
  | .vmvxs c gd vs2 => Sys2Proof.Machine.execVmvxs c gd vs2 s
  | .vmvsx c vd gs => Sys2Proof.Machine.execVmvsx c vd gs s
  | .vld x => Sys2Proof.Machine.execVld x s
  | .vlds x => Sys2Proof.Machine.execVlds x s
  | .vld2d x => Sys2Proof.Machine.execVld2d x s
  | .vldx x => Sys2Proof.Machine.execVldx x s
  | .vldwr c vd base gd => Sys2Proof.Machine.execVldwr c vd base gd s
  | .vst x => Sys2Proof.Machine.execVst x s
  | .vsts x => Sys2Proof.Machine.execVsts x s
  | .vstx x => Sys2Proof.Machine.execVstx x s
  | .vstwr c vs3 base gd => Sys2Proof.Machine.execVstwr c vs3 base gd s
  | .vscatadd x => Sys2Proof.Machine.execVscatadd x s
  | .stripset h gs1 gs2 chan => Sys2Proof.Machine.execStripset h gs1 gs2 chan s
  | .sld c vd h => Sys2Proof.Machine.execSld c vd h s
  | .sst c vs3 h => Sys2Proof.Machine.execSst c vs3 h s
  | .stripFlowRelease h => Sys2Proof.Machine.execStripFlowRelease h s
  | .strippos gd h => Sys2Proof.Machine.execStrippos gd h s
  | .wbld c gs1 gs2 multi => Sys2Proof.Machine.execWbld c gs1 gs2 multi s
  | .wbldRoom h => Sys2Proof.Machine.execWbldRoom h s
  | .wbdrop c => Sys2Proof.Machine.execWbdrop c s
  | .mma c vs2 => Sys2Proof.Machine.execMma c vs2 s
  | .accz c => Sys2Proof.Machine.execAccz c s
  | .acci c gs1 vs2 => Sys2Proof.Machine.execAcci c gs1 vs2 s
  | .accx c vd gs1 m clr => Sys2Proof.Machine.execAccx c vd gs1 m clr s
  | .msave c gd gs1 => Sys2Proof.Machine.execMsave c gd gs1 s
  | .mrest c gs1 => Sys2Proof.Machine.execMrest c gs1 s
  | .knotset c j gs1 gs2 => Sys2Proof.Machine.execKnotset c j gs1 gs2 s
  | .knotrd c gd j sel => Sys2Proof.Machine.execKnotrd c gd j sel s
  | .splld c gs1 => Sys2Proof.Machine.execSplld c gs1 s
  | .splst c gs1 => Sys2Proof.Machine.execSplst c gs1 s
  | .spl c vs2 => Sys2Proof.Machine.execSpl c vs2 s
  | .splbwd c vs1 vs2 => Sys2Proof.Machine.execSplbwd c vs1 vs2 s
  | .splgrad c vs1 vs2 => Sys2Proof.Machine.execSplgrad c vs1 vs2 s
  | .splgx c gs1 clr => Sys2Proof.Machine.execSplgx c gs1 clr s
  | .splref c vd gs1 vs2 deg => Sys2Proof.Machine.execSplref c vd gs1 vs2 deg s
  | .copyb c gd vs2 m => Sys2Proof.Machine.execCopyb c gd vs2 m s
  | .bankb c gd vs2 m => Sys2Proof.Machine.execBankb c gd vs2 m s
  | .batchQueueRoom h => Sys2Proof.Machine.execBatchQueueRoom h s
  | .copywp gd gs1 => Sys2Proof.Machine.execCopywp gd gs1 s
  | .settle c gs0 gs1 gs2 => Sys2Proof.Machine.execSettle c gs0 gs1 gs2 s
  | .renew c gs0 gs1 gs2 => Sys2Proof.Machine.execRenew c gs0 gs1 gs2 s
  | .rgncnt gd gs1 which => Sys2Proof.Machine.execRgncnt gd gs1 which s
  | .mbpost c vs3 gs1 gd => Sys2Proof.Machine.execMbpost c vs3 gs1 gd s
  | .mbpostSlotFreed h => Sys2Proof.Machine.execMbpostSlotFreed h s
  | .mbtake c vd gs1 gd => Sys2Proof.Machine.execMbtake c vd gs1 gd s
  | .mbtakeRecordArrived h => Sys2Proof.Machine.execMbtakeRecordArrived h s
  | .mbpoll gd gs1 => Sys2Proof.Machine.execMbpoll gd gs1 s
  | .tenantCreate t => Sys2Proof.Machine.execTenantCreate t s
  | .tenantTeardown asid => Sys2Proof.Machine.execTenantTeardown asid s
  | .setDeviceNumber n => Sys2Proof.Machine.execSetDeviceNumber n s
  | .setRouteTable rows => Sys2Proof.Machine.execSetRouteTable rows s
  | .setPeerWindow n w => Sys2Proof.Machine.execSetPeerWindow n w s
  | .illegalWord w => Sys2Proof.Machine.execIllegalWord w s
  | .trapVectorChange asid vector scratch => Sys2Proof.Machine.execTrapVectorChange asid vector scratch s
  | .columnAssignment asid col => Sys2Proof.Machine.execColumnAssignment asid col s
  | .parkWake h => Sys2Proof.Machine.execParkWake h s
  | .interruptTaken h => Sys2Proof.Machine.execInterruptTaken h s
  | .sliceExpiry h => Sys2Proof.Machine.execSliceExpiry h s
  | .preemptTimeout h => Sys2Proof.Machine.execPreemptTimeout h s
  | .resume gang => Sys2Proof.Machine.execResume gang s
  | .queuePortEnqueue func record => Sys2Proof.Machine.execQueuePortEnqueue func record s
  | .dispatch cols preempt => Sys2Proof.Machine.execDispatch cols preempt s
  | .aging queue => Sys2Proof.Machine.execAging queue s
  | .graphRegisterWrite func g off v => Sys2Proof.Machine.execGraphRegisterWrite func g off v s
  | .publish func g => Sys2Proof.Machine.execPublish func g s
  | .storeBufferDrain h sector => Sys2Proof.Machine.execStoreBufferDrain h sector s
  | .l1Eviction col sector => Sys2Proof.Machine.execL1Eviction col sector s
  | .eviction sector drop => Sys2Proof.Machine.execEviction sector drop s
  | .tlbiAll h => Sys2Proof.Machine.execTlbiAll h s
  | .tlbiAsid h asid => Sys2Proof.Machine.execTlbiAsid h asid s
  | .tlbiPage h asid va => Sys2Proof.Machine.execTlbiPage h asid va s
  | .tlbiComplete n => Sys2Proof.Machine.execTlbiComplete n s
  | .slotBaseWrite slot v => Sys2Proof.Machine.execSlotBaseWrite slot v s
  | .slotSizeWrite slot v => Sys2Proof.Machine.execSlotSizeWrite slot v s
  | .slotAttrWrite slot v => Sys2Proof.Machine.execSlotAttrWrite slot v s
  | .slotStatusWrite slot v => Sys2Proof.Machine.execSlotStatusWrite slot v s
  | .arbitrationRegisterWrite ch v => Sys2Proof.Machine.execArbitrationRegisterWrite ch v s
  | .engineRowStep cmd piece => Sys2Proof.Machine.execEngineRowStep cmd piece s
  | .engineWriteBack cmd piece => Sys2Proof.Machine.execEngineWriteBack cmd piece s
  | .inPlaceComplete cmd => Sys2Proof.Machine.execInPlaceComplete cmd s
  | .ordinaryRequest r => Sys2Proof.Machine.execOrdinaryRequest r s
  | .arbitrationWindowExpiry bank => Sys2Proof.Machine.execArbitrationWindowExpiry bank s
  | .refresh bank => Sys2Proof.Machine.execRefresh bank s
  | .refreshEnd bank => Sys2Proof.Machine.execRefreshEnd bank s
  | .settleSweepComplete id => Sys2Proof.Machine.execSettleSweepComplete id s
  | .renewComplete id => Sys2Proof.Machine.execRenewComplete id s
  | .copyUnit col ch => Sys2Proof.Machine.execCopyUnit col ch s
  | .copyCommandComplete col ch => Sys2Proof.Machine.execCopyCommandComplete col ch s
  | .patrolScrub => Sys2Proof.Machine.execPatrolScrub s
  | .greenhouseCoreAccess a => Sys2Proof.Machine.execGreenhouseCoreAccess a s
  | .post core => Sys2Proof.Machine.execPost core s
  | .take core => Sys2Proof.Machine.execTake core s
  | .openEp b sgen follow => Sys2Proof.Machine.execOpenEp b sgen follow s
  | .closeEp b => Sys2Proof.Machine.execCloseEp b s
  | .genfloorStore b v => Sys2Proof.Machine.execGenfloorStore b v s
  | .ownerWrite b v => Sys2Proof.Machine.execOwnerWrite b v s
  | .windowWrite b n v => Sys2Proof.Machine.execWindowWrite b n v s
  | .plotInstall core plot => Sys2Proof.Machine.execPlotInstall core plot s
  | .plotUninstall core => Sys2Proof.Machine.execPlotUninstall core s
  | .pruneRecordClear core => Sys2Proof.Machine.execPruneRecordClear core s
  | .prune core => Sys2Proof.Machine.execPrune core s
  | .terminalRecordEntry b => Sys2Proof.Machine.execTerminalRecordEntry b s
  | .hostBar2Access func off write size data => Sys2Proof.Machine.execHostBar2Access func off write size data s
  | .hostResponse h => Sys2Proof.Machine.execHostResponse h s
  | .hostAccessTimeout h => Sys2Proof.Machine.execHostAccessTimeout h s
  | .answerWrite func v => Sys2Proof.Machine.execAnswerWrite func v s
  | .rlostClear func => Sys2Proof.Machine.execRlostClear func s
  | .push func => Sys2Proof.Machine.execPush func s
  | .takeans func => Sys2Proof.Machine.execTakeans func s
  | .peerFabricAccess source addr write size data => Sys2Proof.Machine.execPeerFabricAccess source addr write size data s
  | .flitReplay port => Sys2Proof.Machine.execFlitReplay port s
  | .retrainTimeout port => Sys2Proof.Machine.execRetrainTimeout port s
  | .unitFailure u => Sys2Proof.Machine.execUnitFailure u s
  | .powerLimitThrottle => Sys2Proof.Machine.execPowerLimitThrottle s
  | .healthWordRead => Sys2Proof.Machine.execHealthWordRead s
  | .boot images => Sys2Proof.Machine.execBoot images s
  | .teardownComplete asid => Sys2Proof.Machine.execTeardownComplete asid s
  | .setPowerMode m => Sys2Proof.Machine.execSetPowerMode m s
  | .telemetryRead => Sys2Proof.Machine.execTelemetryRead s
  | .firmwareUpdate stage image => Sys2Proof.Machine.execFirmwareUpdate stage image s
  | .getVersion => Sys2Proof.Machine.execGetVersion s
  | .getCapabilities => Sys2Proof.Machine.execGetCapabilities s
  | .negotiateAlgorithms => Sys2Proof.Machine.execNegotiateAlgorithms s
  | .getDigests => Sys2Proof.Machine.execGetDigests s
  | .getCertificate => Sys2Proof.Machine.execGetCertificate s
  | .challenge => Sys2Proof.Machine.execChallenge s
  | .getMeasurements => Sys2Proof.Machine.execGetMeasurements s
  | .keyExchange => Sys2Proof.Machine.execKeyExchange s
  | .finish => Sys2Proof.Machine.execFinish s
  | .heartbeat => Sys2Proof.Machine.execHeartbeat s
  | .endSession => Sys2Proof.Machine.execEndSession s
  | .mmioRegisterWrite h addr v => Sys2Proof.Machine.execMmioRegisterWrite h addr v s
  | .fetchFault => Sys2Proof.Machine.execFetchFault s
  | .softError store corrected => Sys2Proof.Machine.execSoftError store corrected s
  | .portRetrainComplete port => Sys2Proof.Machine.execPortRetrainComplete port s
  | .hostLinkUp link => Sys2Proof.Machine.execHostLinkUp link s
  | .throttleEnd => Sys2Proof.Machine.execThrottleEnd s
  | .softerrClear => Sys2Proof.Machine.execSofterrClear s

end Sys2Proof.Machine
end

