-- ==== Sys2Proof/Machine/Step.lean ====
section
/-! DEFINITION. One step: the turn at the head of the agenda, or the current hart's (log 2). -/
namespace Sys2Proof.Machine

/-- One step of the device. -/
def step (s : State) : Host.Outcome State Fault Refusal :=
  match nextAction s with
  | (.idle, t) => .next (afterIdle s t)
  | (.perform i, t) => afterExec (turnOf s) t (exec i t)

/-- The state with the instruction of `nbits` bits `w` (bits above 0) where the current hart fetches next. -/
def State.withFetchWord (s : State) (nbits w : Nat) : State := plantWord s (w % 2 ^ nbits)

end Sys2Proof.Machine
end

