-- ==== Sys2Proof/Safety.lean ====
section
/-! DEFINITION. The terms in which statements speak of a step: what a step writes and what it leaves as it was, the tables of
results that rules give, and the invariants of the machine. -/
namespace Sys2Proof.Machine

/-! ## Scalar registers and the program counter -/

/-- g[gd] holds x and every other scalar register what it held; a write to g0 is discarded (01 R8). -/
def GWritten (s t : State) (gd : Reg) (x : Word) : Prop :=
  readG t gd = (if gd = 0 then 0 else x) ∧ ∀ r, r ≠ gd → readG t r = readG s r

/-- Every scalar register holds what it held. -/
def GKept (s t : State) : Prop := ∀ r, readG t r = readG s r

/-- The hart is past an instruction in sequence: the PC and the loop counts are those of the loop-end action (05 R112), and
INSTRET counts it once (05 R117). -/
def InSequence (s t : State) : Prop :=
  t.hart.pc = (loopEnd s.hart.pc s.hart).pc ∧ t.hart.lc0 = (loopEnd s.hart.pc s.hart).lc0
  ∧ t.hart.lc1 = (loopEnd s.hart.pc s.hart).lc1 ∧ t.hart.instret = s.hart.instret + 1 ∧ t.hart.wait = none

/-- The hart is past an instruction that wrote the PC: no loop-end action (05 R113). -/
def JumpedTo (s t : State) (target : Word) : Prop :=
  t.hart.pc = target ∧ t.hart.lc0 = s.hart.lc0 ∧ t.hart.lc1 = s.hart.lc1 ∧ t.hart.instret = s.hart.instret + 1
  ∧ t.hart.wait = none

/-! ## Frames: what a step may change at all -/

/-- Only scalar registers, the PC, loop counts, INSTRET and what the model keeps of waits and convoys of the current hart
may differ: memory, flags, vector state and every other register are as they were. -/
def ScalarFrame (s t : State) : Prop :=
  t = { s with hart := { s.hart with
    g := t.hart.g, pc := t.hart.pc, lc0 := t.hart.lc0, lc1 := t.hart.lc1, instret := t.hart.instret, wait := t.hart.wait
    request := t.hart.request, stopAt := t.hart.stopAt, convoy := t.hart.convoy } }

/-- The other harts hold what they held, but for their monitors (11 R243). -/
def OthersKept (s t : State) : Prop :=
  ∀ h, h ≠ s.cur → ∃ m, getHart t h = { getHart s h with monitor := m }

/-- Besides what `ScalarFrame` names, only the hart's store buffer and monitor, its core's L1 and TLB, the home L2, the
translation caches of the dies, the notes on compressed pages and undefined data, the stores still on their way, the arrays
with their poison and the monitors of other harts may differ. -/
def AccessFrame (s t : State) : Prop :=
  t = { s with
    hart := { s.hart with
      g := t.hart.g, pc := t.hart.pc, lc0 := t.hart.lc0, lc1 := t.hart.lc1, instret := t.hart.instret, wait := t.hart.wait
      request := t.hart.request, stopAt := t.hart.stopAt, convoy := t.hart.convoy, sb := t.hart.sb
      sbGrain := t.hart.sbGrain, monitor := t.hart.monitor }
    harts := t.harts
    core := { s.core with l1 := t.core.l1, tlb := t.core.tlb }
    ms := { s.ms with
      mem := t.ms.mem, l2 := t.ms.l2, poison := t.ms.poison, dieTlb := t.ms.dieTlb, upper := t.ms.upper
      compressed := t.ms.compressed, filled := t.ms.filled, undef := t.ms.undef, posted := t.ms.posted } }
  ∧ OthersKept s t

/-- Every byte of memory reads as it did. -/
def SameMemory (s t : State) : Prop := ∀ a, readByte t a = readByte s a

/-- The byte of a page-table entry with its A bit, or its A and D bits, set besides, or as it was (13 R292). -/
def AccessedBits (old new : Byte) : Prop := new = old ∨ new = old ||| 0x40 ∨ new = old ||| 0xC0

/-- Every byte outside n bytes from an address reads as it did, but for the A and D bits of the page-table entry at `slot`
that the access sets (13 R292). -/
def MemoryBut (s t : State) (pa n slot : Nat) : Prop :=
  ∀ a, (a < pa ∨ pa + n ≤ a) →
    (a ≠ slot → readByte t a = readByte s a) ∧ (a = slot → AccessedBits (readByte s a) (readByte t a))

/-! ## Results of scalar instructions (05 R100 to R105) -/

/-- The low byte position rule of shifts: bits 5:0. -/
def shiftBits (b : Word) : Nat := (b.extractLsb' 0 6).toNat

/-- 1 or 0. -/
def truth (p : Bool) : Word := if p then 1#64 else 0#64

/-- Register-register instructions of opcode 0x01 with their results (R100). -/
def registerResults : List ((Reg → Reg → Reg → Instr) × (Word → Word → Word)) :=
  [(.add, fun a b => a + b), (.sub, fun a b => a - b),
   (.and, fun a b => a &&& b), (.or, fun a b => a ||| b), (.xor, fun a b => a ^^^ b), (.andn, fun a b => a &&& ~~~b),
   (.sll, fun a b => a <<< shiftBits b), (.srl, fun a b => a >>> shiftBits b),
   (.sra, fun a b => a.sshiftRight (shiftBits b)),
   (.slt, fun a b => truth (decide (a.toInt < b.toInt))), (.sltu, fun a b => truth (decide (a.toNat < b.toNat))),
   (.min, fun a b => if a.toInt < b.toInt then a else b), (.max, fun a b => if a.toInt < b.toInt then b else a),
   (.minu, fun a b => if a.toNat < b.toNat then a else b), (.maxu, fun a b => if a.toNat < b.toNat then b else a),
   (.mul, fun a b => BitVec.ofNat 64 (a.toNat * b.toNat)),
   (.mulh, fun a b => (a.signExtend 128 * b.signExtend 128).extractLsb' 64 64),
   (.mulhu, fun a b => (a.setWidth 128 * b.setWidth 128).extractLsb' 64 64)]

/-- The divisions with their results (R101): by zero, else truncated toward zero, the remainder with the sign of a. -/
def divisionResults : List ((Reg → Reg → Reg → Instr) × (Word → Word → Word)) :=
  [(.div, fun a b => if b = 0 then BitVec.allOnes 64 else BitVec.ofInt 64 (a.toInt.tdiv b.toInt)),
   (.rem, fun a b => if b = 0 then a else BitVec.ofInt 64 (a.toInt - b.toInt * a.toInt.tdiv b.toInt)),
   (.divu, fun a b => if b = 0 then BitVec.allOnes 64 else BitVec.ofNat 64 (a.toNat / b.toNat)),
   (.remu, fun a b => if b = 0 then a else BitVec.ofNat 64 (a.toNat % b.toNat))]

/-- n is the number of leading zero bits of a. -/
def LeadingZeros (a : Word) (n : Nat) : Prop :=
  n ≤ 64 ∧ (∀ i, 64 - n ≤ i → a.getLsbD i = false) ∧ (n < 64 → a.getLsbD (63 - n) = true)

/-- n is the number of trailing zero bits of a. -/
def TrailingZeros (a : Word) (n : Nat) : Prop :=
  n ≤ 64 ∧ (∀ i, i < n → a.getLsbD i = false) ∧ (n < 64 → a.getLsbD n = true)

/-- The number of one bits of a. -/
def oneBits (a : Word) : Nat := ((Finset.range 64).filter (fun i => a.getLsbD i = true)).card

/-- Immediate instructions of opcodes 0x02 to 0x07 with their results from a = g[gs1] and i = sext(imm15) (R102). -/
def immediateResults : List ((Reg → Reg → BitVec 15 → Instr) × (Word → Word → Word)) :=
  [(.addi, fun a i => a + i), (.andi, fun a i => a &&& i), (.ori, fun a i => a ||| i), (.xori, fun a i => a ^^^ i),
   (.slti, fun a i => truth (decide (a.toInt < i.toInt))), (.sltiu, fun a i => truth (decide (a.toNat < i.toNat)))]

/-- Shifts of opcode 0x08 with their results (R103). -/
def shiftResults : List ((Reg → Reg → BitVec 6 → Instr) × (Word → Nat → Word)) :=
  [(.slli, fun a s => a <<< s), (.srli, fun a s => a >>> s), (.srai, fun a s => a.sshiftRight s)]

/-- The branches with their conditions (R108). -/
def branchConditions : List ((Reg → Reg → BitVec 12 → Instr) × (Word → Word → Bool)) :=
  [(.beq, fun a b => decide (a = b)), (.bne, fun a b => decide (a ≠ b)),
   (.blt, fun a b => decide (a.toInt < b.toInt)), (.bge, fun a b => decide (b.toInt ≤ a.toInt)),
   (.bltu, fun a b => decide (a.toNat < b.toNat)), (.bgeu, fun a b => decide (b.toNat ≤ a.toNat))]

/-- Scalar loads: bytes, and whether the value is sign-extended (R105). -/
def loadForms : List ((Reg → Reg → BitVec 12 → Instr) × Nat × Bool) :=
  [(.ldb, 1, true), (.ldbu, 1, false), (.ldh, 2, true), (.ldhu, 2, false), (.ldw, 4, true), (.ldwu, 4, false),
   (.ldd, 8, false)]

/-- Scalar stores: bytes (R105). -/
def storeForms : List ((Reg → Reg → BitVec 12 → Instr) × Nat) := [(.stb, 1), (.sth, 2), (.stw, 4), (.std, 8)]

/-- The value of n bytes, little-endian, extended to 64 bits. -/
def loadedValue (n : Nat) (signed : Bool) (bytes : List Byte) : Word :=
  let x : BitVec (8 * n) := BitVec.ofNat (8 * n) (natOfBytes bytes)
  if signed then x.signExtend 64 else x.setWidth 64

/-! ## The live image, releases and acquires (01 R35, 09 R174) -/

/-- A byte of the hart's own stores that has not reached its home: in the store buffer, else dirty in the core's L1. -/
def ownByte (s : State) (a : Nat) : Option Byte :=
  match sbByte s a with
  | some b => some b
  | none => match mapGet? s.core.l1 (a / 128) with
    | some x => match x.bytes.getD (a % 128) .absent with
      | .dirty b => some b
      | .lost b => some b
      | _ => none
    | none => none

/-- A byte of memory without regard to clean copies, which may be old: the hart's own, else what its home or bank holds. -/
def liveByte (s : State) (a : Nat) : Byte :=
  if isCached a then (ownByte s a).getD (homeByte s a) else (postedByte s a).getD (settledByte s a)

/-- Every byte of memory is, clean copies aside, what it was. -/
def SameLive (s t : State) : Prop := ∀ a, liveByte t a = liveByte s a

/-- Every byte outside n bytes from an address is what it was, but for the A and D bits of a page-table entry. -/
def LiveBut (s t : State) (pa n slot : Nat) : Prop :=
  ∀ a, (a < pa ∨ pa + n ≤ a) →
    (a ≠ slot → liveByte t a = liveByte s a) ∧ (a = slot → AccessedBits (liveByte s a) (liveByte t a))

/-- A byte that the hart had stored where no cache holds it stands there. -/
def PerformedAt (s t : State) (a : Nat) : Prop :=
  postedByte t a = none ∧ ∀ b, postedByte s a = some b → settledByte t a = b

/-- What a release at a scope has done: the store buffer is empty and the hart's vault stores are performed; beyond core
scope no byte of the core's L1 is dirty, so every byte the hart had stored is at its home; at system scope its stores to
the host and to peers are performed where their path is up. -/
def ReleasedAt (s t : State) (scope : Nat) : Prop :=
  t.hart.sb = [] ∧ (∀ a, isVault a = true → PerformedAt s t a)
  ∧ (scope ≠ 0 → (∀ a, ownByte t a = none) ∧ ∀ a b, ownByte s a = some b → homeByte t a = b)
  ∧ (scope = 2 → ∀ a, isCached a = false → pathUp s a = true → PerformedAt s t a)

/-- What an acquire beyond core scope has done: no clean byte is left in the core's L1, so loads see the homes. -/
def AcquiredAt (t : State) (scope : Nat) : Prop :=
  scope ≠ 0 → ∀ a, isCached a = true → ownByte t a = none → readByte t a = homeByte t a

/-- Every byte the hart had stored, but for those of n bytes from an address and of a page-table entry, is at its home
after a release beyond core scope; they left the store buffer. -/
def PushedBut (s t : State) (scope pa n slot : Nat) : Prop :=
  scope ≠ 0 → ∀ a b, a ≠ slot → (a < pa ∨ pa + n ≤ a) → ownByte s a = some b → homeByte t a = b

/-- The store buffer has room: no entry drains to make some, so the clean bytes that the L1 holds of its line stay
(13 R296). -/
def BufferRoom (s : State) : Prop := s.hart.sb.length < 16

/-- No clean copy that the core holds is older than what its home holds. -/
def NoStale (s : State) : Prop := ∀ a, readByte s a = liveByte s a

/-- A page that is ORDERED is one of the host (13 R290): what the checks of an entry leave of every translation. -/
def OrderedOnHost (p : Phys) : Prop := pteOrdered p.pte = true → isHost p.pa = true

/-! ## Accesses -/

/-- The bytes of a width code of opcode 0x0D (04 R82). -/
def orderedBytes (width : BitVec 2) : Nat := if width = 2 then 4 else 8

/-- A read-modify-write on w bits: what it writes from the old value, the operand and the compared value; none where it
writes nothing (09 R173). -/
abbrev Update := Nat → Nat → Nat → Nat → Option Nat

/-- A w-bit value read as a signed number. -/
def signedOf (w x : Nat) : Int := if 2 * x < 2 ^ w then (x : Int) else (x : Int) - 2 ^ w

/-- The atomics with what they write (R173). -/
def atomicResults : List ((Amo → Instr) × Update) :=
  [(.amoadd, fun w old v _ => some ((old + v) % 2 ^ w)), (.amoswap, fun _ _ v _ => some v),
   (.amocas, fun _ old v c => if old = c then some v else none),
   (.amomin, fun w old v _ => some (if signedOf w v < signedOf w old then v else old)),
   (.amomax, fun w old v _ => some (if signedOf w old < signedOf w v then v else old)),
   (.amominu, fun _ old v _ => some (min old v)), (.amomaxu, fun _ old v _ => some (max old v)),
   (.amoor, fun _ old v _ => some (old ||| v)), (.amoand, fun _ old v _ => some (old &&& v))]

/-- The n bytes at an address, clean copies aside. -/
def liveBytes (s : State) (a n : Nat) : List Byte := (List.range n).map (fun i => liveByte s (a + i))

/-! ## System registers (01 R28, R30; 05 R115, R116) -/

/-- The instructions that write a system register, with what they write from its value and the scalar operand (R115). -/
def registerUpdates : List ((Reg → Reg → BitVec 12 → Instr) × (Word → Word → Word)) :=
  [(.srw, fun _ x => x), (.srset, fun old x => old ||| x), (.srclr, fun old x => old &&& ~~~x)]

/-- Registers of R28. -/
def listedRegisters : List Nat :=
  [0x000, 0x001, 0x002, 0x003, 0x004, 0x005, 0x006, 0x007, 0x008, 0x00A, 0x00B, 0x00C, 0x010, 0x011, 0x012, 0x013, 0x014,
   0x015, 0x016, 0x018, 0x020, 0x021, 0x022, 0x023, 0x024, 0x025, 0x028, 0x029, 0x030, 0x031, 0x032, 0x038, 0x039, 0x03A,
   0x03B, 0x03C, 0x03D, 0x100, 0x101, 0x102, 0x103, 0x104, 0x105, 0x106, 0x107, 0x108, 0x109, 0x10A, 0x10B, 0x10C, 0x10D]

/-- Registers that VSTATE OFF closes (R31). -/
def vectorRegisters : List Nat :=
  [0x000, 0x001, 0x002, 0x003, 0x004, 0x005, 0x006, 0x007, 0x008, 0x00A, 0x00B, 0x00C, 0x015, 0x018]

/-- Registers of R28 that are read-only in both modes. -/
def readOnlyRegisters : List Nat :=
  [0x000, 0x001, 0x002, 0x004, 0x005, 0x010, 0x011, 0x012, 0x013, 0x014, 0x015, 0x016, 0x018, 0x020, 0x021, 0x022, 0x023,
   0x024, 0x025, 0x028, 0x029]

/-- Registers that user mode may write, loop registers aside, with what they keep of a value written over another: a
write of RM above 4 leaves RM (R30). -/
def userRegisters : List (Nat × (Word → Word → Word)) :=
  [(0x003, fun _ v => v &&& 0xFFFFFFFF), (0x006, fun _ v => v &&& 0xFFFFFFFF), (0x007, fun _ v => v &&& 0xFFFFFFFF),
   (0x00A, fun _ v => v &&& 0x3F),
   (0x00B, fun old v => if 4 < (v &&& 7).toNat then (v &&& 8) ||| (old &&& 7) else v &&& 0xF),
   (0x00C, fun _ v => v &&& 0xFFFF), (0x030, fun _ v => v), (0x031, fun _ v => v), (0x032, fun _ v => v &&& 0xFFFFFFFF)]

/-- The loop registers (R16) with what a write leaves of a hart. -/
def loopRegisters : List (Nat × (Hart → Word → Hart)) :=
  [(0x038, fun h v => { h with lc0 := v }), (0x039, fun h v => { h with lb0 := v }), (0x03A, fun h v => { h with le0 := v }),
   (0x03B, fun h v => { h with lc1 := v }), (0x03C, fun h v => { h with lb1 := v }), (0x03D, fun h v => { h with le1 := v })]

/-- Registers that supervisor mode writes, but for TSTATUS, SLICE, LPART, QAGE and VIOPTR, with what they keep of a
value: a write of 3 leaves VSTATE (R30). -/
def supervisorRegisters : List (Nat × (Word → Word → Word)) :=
  [(0x008, fun _ v => v &&& 0xFFFFFFFF), (0x101, fun _ v => v &&& 0x3F), (0x102, fun _ v => v), (0x103, fun _ v => v),
   (0x104, fun _ v => v &&& ~~~(3 : Word)), (0x105, fun _ v => v),
   (0x106, fun old v => if v &&& 3 = 3 then old else v &&& 3), (0x108, fun _ v => v), (0x109, fun _ v => v &&& 0xFFFF),
   (0x10B, fun _ v => v &&& 1)]

/-- Only registers that an access to a system register may write, scalar registers, the PC and the loop counts may
differ. -/
def RegisterFrame (s t : State) : Prop :=
  t = { s with
    core := { s.core with lpart := t.core.lpart }
    hart := { s.hart with
      g := t.hart.g, pc := t.hart.pc, lc0 := t.hart.lc0, lc1 := t.hart.lc1, instret := t.hart.instret, wait := t.hart.wait
      request := t.hart.request, stopAt := t.hart.stopAt, convoy := t.hart.convoy
      vstart := t.hart.vstart, vsparse := t.hart.vsparse, vlive := t.hart.vlive, vdirty := t.hart.vdirty
      fflags := t.hart.fflags, fctl := t.hart.fctl, vbscale := t.hart.vbscale, rngkey := t.hart.rngkey
      rngctr := t.hart.rngctr, pgen := t.hart.pgen, tstatus := t.hart.tstatus, tcause := t.hart.tcause, tpc := t.hart.tpc
      tval := t.hart.tval, tvec := t.hart.tvec, tscratch := t.hart.tscratch, vstate := t.hart.vstate
      held := t.hart.held, fresh := t.hart.fresh
      ptbase := t.hart.ptbase, asid := t.hart.asid, mstateen := t.hart.mstateen } }

/-- A value that LPART takes (R22): every floor at most its ceiling, every ceiling at most 8, the floors of enabled
fields at most 8 together, no contending hart disabled, reserved bits 0. -/
def LpartLegal (s : State) (v : Word) : Prop :=
  (∀ h, h < 4 → lpFloor v h ≤ lpCeil v h ∧ lpCeil v h ≤ 8
    ∧ ¬(lpEn s.core.lpart h = true ∧ lpEn v h = false ∧ isContending (getHart s (4 * s.col + h)) = true))
  ∧ ((if lpEn v 0 then lpFloor v 0 else 0) + (if lpEn v 1 then lpFloor v 1 else 0) + (if lpEn v 2 then lpFloor v 2 else 0)
      + (if lpEn v 3 then lpFloor v 3 else 0) ≤ 8)
  ∧ v &&& 0x70F070F070F070F0 = 0

/-! ## Configuration (06 R118 to R124) -/

/-- The state after the arbiter has acted at a strip boundary (R118, R119; 19 R362): the hart's convoys have drained,
and in user mode its reservation is cleared. -/
def afterArbiter (s : State) : State := arbitrate { s with hart := clearResv { s.hart with convoy := none } }

/-- Only what configuration writes may differ: lengths, types, tile registers, the lanes and the matrix state, streams and
knots of released groups, and the vector registers that a strip boundary moves. -/
def SetupFrame (s t : State) : Prop :=
  t = { s with
    core := { s.core with owner := t.core.owner, acc := t.core.acc, accBad := t.core.accBad, cells := t.core.cells
                          grad := t.core.grad, knot := t.core.knot }
    hart := { s.hart with
      g := t.hart.g, pc := t.hart.pc, lc0 := t.hart.lc0, lc1 := t.hart.lc1, instret := t.hart.instret, wait := t.hart.wait
      request := t.hart.request, stopAt := t.hart.stopAt, convoy := t.hart.convoy, vl := t.hart.vl, vr := t.hart.vr
      vtype := t.hart.vtype, vstart := t.hart.vstart, vstate := t.hart.vstate, count := t.hart.count
      maxsew := t.hart.maxsew, contending := t.hart.contending, v := t.hart.v, vsat := t.hart.vsat
      mdirty := t.hart.mdirty, fifo := t.hart.fifo, coef := t.hart.coef, tstatus := t.hart.tstatus, tilem := t.hart.tilem, tilen := t.hart.tilen
      tilek := t.hart.tilek, tilenoff := t.hart.tilenoff, tileset := t.hart.tileset } }

/-! ## Vector instructions (01 R7, R10 to R14, R31; 06 R125 to R128) -/

/-- The flat index e is reached by a run over the tile: from VSTART to the end. -/
def InTile (s : State) (e : Nat) : Prop := s.hart.vstart.toNat ≤ e ∧ e < tileSize s

/-- The register that holds element e of an operand v (R10). -/
def regOf (s : State) (v e : Nat) : Nat := v + e / vlmax s

/-- No granule of the hart's vector registers or of its core's accumulators is uncorrectable (24 R415). -/
def NoneBad (s : State) : Prop := (∀ r, r < 32 → (s.hart.v.getD r VReg.reset).bad = []) ∧ s.core.accBad = []

/-- Nothing stops a vector instruction part-way: neither a single step nor an interrupt due at an index, nor an
uncorrectable granule. -/
def NoStop (s : State) : Prop :=
  ¬(s.hart.stepping = true ∧ s.hart.mode = .user) ∧ (interruptDue s.hart = true → s.hart.stopAt = none) ∧ NoneBad s

/-- Elements that no active element gives a value: below VSTART and, as the policies say, masked off or in the tail
(06 R126); with VSTART past the tile no register changes (01 R7). -/
def PoliciesApplied (s t : State) (vd w : Nat) (m : Bool) : Prop :=
  (∀ e, regOf s vd e < 32 →
    (e < s.hart.vstart.toNat → e < tileSize s → elem? t vd w e = elem? s vd w e)
    ∧ (InTile s e → active s m e = false → elem? t vd w e = if vtMZ s.hart then some 0 else elem? s vd w e)
    ∧ (s.hart.vstart.toNat < tileSize s → tileSize s ≤ e → e < vlmaxG s →
      elem? t vd w e = if vtTZ s.hart then some 0 else elem? s vd w e))
  ∧ (tileSize s ≤ s.hart.vstart.toNat → t.hart.v = s.hart.v)

/-- Registers that hold no element of the destination are as they were; a register that changed is marked in VDIRTY, and
VSTATE is DIRTY (01 R31). -/
def RegistersTracked (s t : State) (vd : Nat) : Prop :=
  (∀ r, r < 32 → (∀ e, e < tileSize s ∨ e < vlmaxG s → r ≠ regOf s vd e) →
    t.hart.v.getD r VReg.reset = s.hart.v.getD r VReg.reset)
  ∧ (∀ r, r < 32 → t.hart.v.getD r VReg.reset ≠ s.hart.v.getD r VReg.reset →
    t.hart.vdirty.getLsbD r = true ∧ t.hart.vstate = 2)
  ∧ ∀ r, s.hart.vdirty.getLsbD r = true → t.hart.vdirty.getLsbD r = true

/-- Only vector registers with VDIRTY and VSTATE, VSTART, scalar registers, the PC, the loop counts and INSTRET may differ,
and what the model keeps of waits and convoys. -/
def VectorFrame (s t : State) : Prop :=
  t = { s with hart := { s.hart with
    g := t.hart.g, pc := t.hart.pc, lc0 := t.hart.lc0, lc1 := t.hart.lc1, instret := t.hart.instret, wait := t.hart.wait
    request := t.hart.request, stopAt := t.hart.stopAt, convoy := t.hart.convoy, v := t.hart.v, vstart := t.hart.vstart
    vstate := t.hart.vstate, vdirty := t.hart.vdirty, partRuns := t.hart.partRuns } }

/-- A vector instruction has completed: VSTART is 0, the hart goes on in sequence, no scalar register and no byte changed,
and nothing else but what `VectorFrame` names. -/
def VectorDone (s t : State) : Prop :=
  t.hart.vstart = 0 ∧ InSequence s t ∧ GKept s t ∧ SameMemory s t ∧ VectorFrame s t

/-- The operands a and b of element e by form: VV, VX, VI, an immediate sign- or zero-extended to the width (07 R129). -/
def OperandsAre (s : State) (x : VOp) (zeroExt : Bool) (w e a b : Nat) : Prop :=
  a < 2 ^ w ∧ b < 2 ^ w
  ∧ (x.form = 0 → elem? s x.s1.toNat w e = some a ∧ elem? s x.vs2.toNat w e = some b)
  ∧ (x.form = 1 → elem? s x.vs2.toNat w e = some a ∧ b = (readG s x.s1).toNat % 2 ^ w)
  ∧ (x.form ≠ 0 → x.form ≠ 1 → elem? s x.vs2.toNat w e = some a
    ∧ b = (if zeroExt then x.s1.toNat else (x.s1.signExtend 64).toNat) % 2 ^ w)

/-- A signed number modulo 2^w. -/
def wrapped (w : Nat) (x : Int) : Nat := (x % (2 ^ w : Nat)).toNat

/-- Integer vector instructions: constructor, class, whether an immediate is zero-extended, and the result on w-bit
elements (07 R132). -/
def integerResults : List ((VOp → Instr) × PipeClass × Bool × (Nat → Nat → Nat → Nat)) :=
  [(.vadd, .alu, false, fun w a b => (a + b) % 2 ^ w), (.vsub, .alu, false, fun w a b => wrapped w ((a : Int) - b)),
   (.vrsub, .alu, false, fun w a b => wrapped w ((b : Int) - a)), (.vmul, .fma, false, fun w a b => a * b % 2 ^ w),
   (.vmulh, .fma, false, fun w a b => wrapped w (signedOf w a * signedOf w b / (2 ^ w : Nat))),
   (.vmulhu, .fma, false, fun w a b => a * b / 2 ^ w),
   (.vand, .alu, false, fun _ a b => a &&& b), (.vor, .alu, false, fun _ a b => a ||| b),
   (.vxor, .alu, false, fun _ a b => a ^^^ b),
   (.vsll, .alu, true, fun w a b => a * 2 ^ (b % w) % 2 ^ w), (.vsrl, .alu, true, fun w a b => a / 2 ^ (b % w)),
   (.vsra, .alu, true, fun w a b => wrapped w (signedOf w a / (2 ^ (b % w) : Nat))),
   (.vmin, .alu, false, fun w a b => if signedOf w a < signedOf w b then a else b),
   (.vmax, .alu, false, fun w a b => if signedOf w a < signedOf w b then b else a),
   (.vminu, .alu, false, fun _ a b => min a b), (.vmaxu, .alu, false, fun _ a b => max a b)]

/-- The conditions of VCMP on w-bit elements (07 R135). -/
def compareResults : List (BitVec 3 × (Nat → Nat → Nat → Bool)) :=
  [(0, fun _ a b => decide (a = b)), (1, fun _ a b => decide (a ≠ b)),
   (2, fun w a b => decide (signedOf w a < signedOf w b)), (3, fun w a b => decide (signedOf w a ≤ signedOf w b)),
   (4, fun w a b => decide (signedOf w b < signedOf w a)), (5, fun _ a b => decide (a < b)),
   (6, fun _ a b => decide (a ≤ b)), (7, fun _ a b => decide (b < a))]

/-- Mask bits that no active element gives a value, and the registers beside the one written (07 R135, 08 R151). -/
def MaskPolicies (s t : State) (vd : Nat) (m : Bool) : Prop :=
  (∀ e, e < 8 * vlmax s →
    (e < s.hart.vstart.toNat → e < tileSize s → maskBit? t vd e = maskBit? s vd e)
    ∧ (InTile s e → active s m e = false → maskBit? t vd e = if vtMZ s.hart then some false else maskBit? s vd e)
    ∧ (s.hart.vstart.toNat < tileSize s → tileSize s ≤ e → e < vlmaxG s →
      maskBit? t vd e = if vtTZ s.hart then some false else maskBit? s vd e))
  ∧ (tileSize s ≤ s.hart.vstart.toNat → t.hart.v = s.hart.v)
  ∧ ∀ r, r < 32 → r ≠ vd → t.hart.v.getD r VReg.reset = s.hart.v.getD r VReg.reset

/-- The flags of the active elements of a run, gathered (03 R64). -/
def gatheredFlags (s : State) (m : Bool) (f : Nat → FFlags) : FFlags :=
  ((elemRange s.hart.vstart.toNat (tileSize s)).filter (active s m)).foldl (fun acc e => acc ||| f e) 0

/-- An exact value rounded under the hart's mode, with its flags (03 R61, R64). -/
def roundedBits (s : State) (f : Fmt) (v : FVal × FFlags) : Nat × FFlags :=
  let w := roundTo f (rndMode s.hart) (ftzOf s.hart) v.1
  (w.bits, w.flags ||| v.2)

/-- Floating-point instructions of two operands: constructor, what it names, and bits and flags from the operands a and
b and the old element c (07 R137 to R139). -/
def floatResults : List ((VOp → Instr) × (VOp → VReq) × (State → Fmt → Nat → Nat → Nat → Nat × FFlags)) :=
  let rd (s : State) (f : Fmt) (x : Nat) : FVal := readF f (ftzOf s.hart) x
  let fused (i : VOp → Instr) (x : VOp) : VReq :=
    { vopReq (i x) .fma x acceptFloat with groupReads := x.vd.toNat :: vopSources x }
  let chosen (g : Fmt → Nat → Nat → Bool → Nat) (s : State) (f : Fmt) (a b : Nat) : Nat × FFlags :=
    (g f a b (ftzOf s.hart), nfOf f (g f a b (ftzOf s.hart)))
  [(.vfadd, fun x => vopReq (.vfadd x) .fma x acceptFloat,
     fun s f a b _ => roundedBits s f (withNV (fadd (isRdn s) (rd s f a) (rd s f b)))),
   (.vfsub, fun x => vopReq (.vfsub x) .fma x acceptFloat,
     fun s f a b _ => roundedBits s f (withNV (fadd (isRdn s) (rd s f a) (fneg (rd s f b))))),
   (.vfmul, fun x => vopReq (.vfmul x) .fma x acceptFloat,
     fun s f a b _ => roundedBits s f (withNV (fmul (rd s f a) (rd s f b)))),
   (.vfdiv, fun x => vopReq (.vfdiv x) .fma x acceptFloat, fun s f a b _ => roundedBits s f (fdiv (rd s f a) (rd s f b))),
   (.vfma, fused .vfma, fun s f a b c => roundedBits s f (fusedOf s false false (rd s f a) (rd s f b) (rd s f c))),
   (.vfnma, fused .vfnma, fun s f a b c => roundedBits s f (fusedOf s true false (rd s f a) (rd s f b) (rd s f c))),
   (.vfms, fused .vfms, fun s f a b c => roundedBits s f (fusedOf s false true (rd s f a) (rd s f b) (rd s f c))),
   (.vfmin, fun x => vopReq (.vfmin x) .fma x acceptFloat8,
     fun s f a b _ => chosen (fun f a b z => selectBits f z false a b) s f a b),
   (.vfmax, fun x => vopReq (.vfmax x) .fma x acceptFloat8,
     fun s f a b _ => chosen (fun f a b z => selectBits f z true a b) s f a b),
   (.vfsgnCopy, fun x => vopReq (.vfsgnCopy x) .fma x acceptFloat8,
     fun s f a b _ => chosen (fun f a b _ => signed f a (signOf f b)) s f a b),
   (.vfsgnNeg, fun x => vopReq (.vfsgnNeg x) .fma x acceptFloat8,
     fun s f a b _ => chosen (fun f a b _ => signed f a (!signOf f b)) s f a b),
   (.vfsgnXor, fun x => vopReq (.vfsgnXor x) .fma x acceptFloat8,
     fun s f a b _ => chosen (fun f a b _ => signed f a (signOf f a != signOf f b)) s f a b)]

/-- Floating-point instructions of one operand: constructor, accepted types, bits and flags (07 R138, R141 to R143). -/
def unaryResults : List ((VUn → Instr) × (EType → Bool) × (State → Fmt → Nat → Nat × FFlags)) :=
  let special (k : Special) (f : Fmt) (a : Nat) : Nat × FFlags := ((specialTo f k a).bits, (specialTo f k a).flags)
  [(.vfsqrt, acceptFloat, fun s f a => roundedBits s f (fsqrt (readF f (ftzOf s.hart) a))),
   (.vfclass, acceptFloat8, fun _ f a => (classCode f a, 0)),
   (.vfexp2, acceptSpecial, fun _ => special .exp2), (.vflog2, acceptSpecial, fun _ => special .log2),
   (.vfrcp, acceptSpecial, fun _ => special .rcp), (.vfrsq, acceptSpecial, fun _ => special .rsq),
   (.vftanh, acceptSpecial, fun _ => special .tanh), (.vfsigm, acceptSpecial, fun _ => special .sigm)]

/-- The state with another flag register. -/
def withFlags (s : State) (f : FFlags) : State := { s with hart := { s.hart with fflags := f } }

/-- Integer reductions with the operation that combines two w-bit values (08 R161). -/
def reductionResults : List ((VRed → Instr) × (Nat → Nat → Nat → Nat)) :=
  [(.vredsum, fun w a b => (a + b) % 2 ^ w),
   (.vredmin, fun w a b => if signedOf w a < signedOf w b then a else b),
   (.vredmax, fun w a b => if signedOf w a < signedOf w b then b else a),
   (.vredminu, fun _ a b => min a b), (.vredmaxu, fun _ a b => max a b),
   (.vredand, fun _ a b => a &&& b), (.vredor, fun _ a b => a ||| b)]

/-- Vector loads with what they name and their addresses (09 R175). -/
def vectorLoads : List ((VMem → Instr) × (State → VMem → VReq) × (State → VMem → Nat → Word)) :=
  [(.vld, fun s x => memReq s (.vld x) x true false acceptUnit,
     fun s x e => readG s x.base + BitVec.ofNat 64 (e * sew s / 8)),
   (.vlds, fun s x => memReq s (.vlds x) x true false acceptBytes,
     fun s x e => readG s x.base + BitVec.ofNat 64 e * readG s x.x),
   (.vld2d, fun s x => memReq s (.vld2d x) x true false acceptBytes,
     fun s x e => readG s x.base + BitVec.ofNat 64 (e / s.hart.vl) * readG s x.x
       + BitVec.ofNat 64 (e % s.hart.vl) * readG s (x.x + 1)),
   (.vldx, fun s x => memReq s (.vldx x) x true true acceptBytes,
     fun s x e => readG s x.base + BitVec.ofNat 64 (elem s 4 x.x.toNat (sew s) e))]

/-- Vector stores with what they name and their addresses (09 R175). -/
def vectorStores : List ((VMem → Instr) × (State → VMem → VReq) × (State → VMem → Nat → Word)) :=
  [(.vst, fun s x => memReq s (.vst x) x false false acceptUnit,
     fun s x e => readG s x.base + BitVec.ofNat 64 (e * sew s / 8)),
   (.vsts, fun s x => memReq s (.vsts x) x false false acceptBytes,
     fun s x e => readG s x.base + BitVec.ofNat 64 e * readG s x.x),
   (.vstx, fun s x => memReq s (.vstx x) x false true acceptBytes,
     fun s x e => readG s x.base + BitVec.ofNat 64 (elem s 4 x.x.toNat (sew s) e))]

/-- The states in which the active elements of a load are loaded, each with its index. -/
def loadPoints (addr : Nat → Word) (m : Bool) (w : Nat) : State → List Nat → List (Nat × State)
  | _, [] => []
  | s, e :: es =>
    if active s m e then
      match loadElem s (addr e) w e with
      | .ok (t, _) => (e, s) :: loadPoints addr m w t es
      | .error _ => []
    else loadPoints addr m w s es

/-- Where the active elements of a store land, in the order in which they are stored. -/
def storePlaces (addr : Nat → Word) (m : Bool) (vs3 w : Nat) : State → List Nat → List (Nat × Phys)
  | _, [] => []
  | s, e :: es =>
    if active s m e then
      match resolveElem s (addr e) (elemBytes w) .store kindMemory, storeElem s (addr e) w e (elem s 1 vs3 w e) with
      | .ok p, .ok t => (e, p) :: storePlaces addr m vs3 w t es
      | _, _ => []
    else storePlaces addr m vs3 w s es

/-- Where the elements of one window of VSCATADD are added. -/
def windowPlaces (s : State) (addr : Nat → Word) (b : Nat) (es : List Nat) : List (Nat × Phys) :=
  es.filterMap fun e => match resolveElem s (addr e) b .atomic kindShared with
    | .ok p => some (e, p)
    | .error _ => none

/-- Where the active elements of VSCATADD are added, window by window. -/
def scatterPlaces (addr : Nat → Word) (m : Bool) (vs3 w hi : Nat) : Nat → Nat → State → List (Nat × Phys)
  | 0, _, _ => []
  | fuel + 1, k, s =>
    let lo := max (256 * k) s.hart.vstart.toNat
    if hi ≤ lo then []
    else
      let es := (elemRange lo (min hi (256 * k + 256))).filter (active s m)
      windowPlaces s addr (w / 8) es ++
        (match scatterWindow s addr vs3 w es with
        | .ok t => scatterPlaces addr m vs3 w hi fuel (k + 1) t
        | .error _ => [])

/-- A byte of memory reads as it did, or with A bits of page-table entries set besides (13 R292). -/
def AccessedOnly (s t : State) : Prop := ∀ a, readByte t a = readByte s a ∨ readByte t a = readByte s a ||| 0x40

/-- The union of what `VectorFrame` and `AccessFrame` name. -/
def VectorAccessFrame (s t : State) : Prop :=
  t = { s with
    hart := { s.hart with
      g := t.hart.g, pc := t.hart.pc, lc0 := t.hart.lc0, lc1 := t.hart.lc1, instret := t.hart.instret, wait := t.hart.wait
      request := t.hart.request, stopAt := t.hart.stopAt, convoy := t.hart.convoy, v := t.hart.v, vstart := t.hart.vstart
      vstate := t.hart.vstate, vdirty := t.hart.vdirty, sb := t.hart.sb, sbGrain := t.hart.sbGrain
      monitor := t.hart.monitor }
    harts := t.harts
    core := { s.core with l1 := t.core.l1, tlb := t.core.tlb }
    ms := { s.ms with
      mem := t.ms.mem, l2 := t.ms.l2, poison := t.ms.poison, dieTlb := t.ms.dieTlb, upper := t.ms.upper
      compressed := t.ms.compressed, filled := t.ms.filled, undef := t.ms.undef, posted := t.ms.posted } }
  ∧ OthersKept s t

/-! ## Matrix and trellis mode (10) -/

/-- Only matrix state, knot registers, FFLAGS, VSTART and VSTATE, scalar registers, the PC, the loop counts and INSTRET may
differ, and what the model keeps of waits and convoys. -/
def MatrixFrame (s t : State) : Prop :=
  t = { s with
    core := { s.core with
      acc := t.core.acc, accBad := t.core.accBad, cells := t.core.cells, grad := t.core.grad, knot := t.core.knot }
    hart := { s.hart with
      g := t.hart.g, pc := t.hart.pc, lc0 := t.hart.lc0, lc1 := t.hart.lc1, instret := t.hart.instret, wait := t.hart.wait
      request := t.hart.request, stopAt := t.hart.stopAt, convoy := t.hart.convoy, vstart := t.hart.vstart
      vstate := t.hart.vstate, fflags := t.hart.fflags, fifo := t.hart.fifo, coef := t.hart.coef
      mdirty := t.hart.mdirty } }

/-- An array instruction has completed whole: VSTART is 0 (10 R194), the hart goes on in sequence, no scalar register
and no byte changed, and nothing else but what `MatrixFrame` names. -/
def MatrixDone (s t : State) : Prop :=
  t.hart.vstart = 0 ∧ InSequence s t ∧ GKept s t ∧ SameMemory s t ∧ MatrixFrame s t

/-- The live bit of an accumulator word (10 R208). -/
def liveWord (s : State) (m n : Nat) : Bool := (mapGet s.core.acc (physRow s m * 384 + n) ⟨0, false⟩).live

/-- Accumulator words of the hart that are not written, and those of rows it does not hold, are as they were. -/
def AccumulatorsBut (s t : State) (written : Nat → Nat → Prop) : Prop :=
  (∀ m n, m < rowCount s → n < 384 → ¬written m n → accWord t m n = accWord s m n ∧ liveWord t m n = liveWord s m n)
  ∧ ∀ k, k / 384 ∉ heldRows s.core s.idx → mapGet? t.core.acc k = mapGet? s.core.acc k

/-- The flags that some places raise, gathered in order. -/
def flagsOf {α : Type} (l : List α) (f : α → FFlags) : FFlags := l.foldl (fun a x => a ||| f x) 0

/-! ## Batches (11 R228, R229) -/

/-- The commands of a batch from VSTART on whose records are well formed, with their numbers, in ascending order. -/
def batchCommands {α : Type} (s : State) (m : Bool) (vs2 : Nat) (parse : List Byte → Option α) : List (Nat × α) :=
  ((elemRange (s.hart.vstart.toNat / 8) (tileSize s / 8)).filter (fun q => active s m (8 * q))).filterMap
    (fun q => (parse (commandBytes s vs2 q)).map (fun r => (q, r)))

/-- A batch has completed with some commands accepted: its mask, a release at device scope before the first, VSTART 0. -/
def BatchTaken (s t : State) (gd : Reg) (accepted : List Nat) : Prop :=
  GWritten s t gd ((if s.hart.vstart = 0 then 0 else readG s gd) ||| BitVec.ofNat 64 (accepted.map (2 ^ ·)).sum)
  ∧ t.hart.vstart = 0 ∧ InSequence s t ∧ ReleasedAt s t 1 ∧ SameLive s t

/-! ## Traps (19 R352 to R354) -/

/-- A violation is logged before its trap is entered (19 R360). -/
def logged (s : State) (cause : Nat) (tval : Word) : State :=
  if cause = causeAccess then logViolation s s.hart.asid tval (reqOfHart s.cur) 0 causeAccess 0 else s

/-- Only the registers that trap entry writes, and what the model keeps of waits, responses and convoys, may differ. -/
def TrapFrame (s t : State) : Prop :=
  t = { s with hart := { s.hart with
    tcause := t.hart.tcause, tval := t.hart.tval, tpc := t.hart.tpc, trapPc := t.hart.trapPc, tstatus := t.hart.tstatus
    mode := t.hart.mode, pc := t.hart.pc, convoy := t.hart.convoy, wait := t.hart.wait, request := t.hart.request
    held := t.hart.held, stepping := t.hart.stepping, fresh := t.hart.fresh, stopAt := t.hart.stopAt
    preempted := t.hart.preempted } }

/-- Trap entry at the instruction at the PC: cause, value, TPC, the access kind, supervisor mode at TVEC. STEP and YIELD
are 0; the bits of TSTATUS that entry does not name are as they were, but for those in `cleared` and PEND, which says
whether a response is outstanding. -/
def TrapTaken (s t : State) (cause : Nat) (tval : Word) (acc : Nat) (interrupt : Bool) (cleared : List Nat) : Prop :=
  t.hart.tcause = BitVec.ofNat 64 cause ∧ t.hart.tval = tval ∧ t.hart.tpc = s.hart.pc ∧ t.hart.mode = .supervisor
  ∧ t.hart.pc = s.hart.tvec ∧ (t.hart.tstatus.extractLsb' 12 2).toNat = acc ∧ t.hart.tstatus.getLsbD 15 = interrupt
  ∧ t.hart.tstatus.getLsbD 14 = (s.hart.request.isSome || s.hart.held.isSome)
  ∧ t.hart.tstatus.getLsbD 0 = false ∧ t.hart.tstatus.getLsbD 1 = false
  ∧ (∀ i, i < 64 → i ∉ [0, 1, 12, 13, 14, 15] ++ cleared → t.hart.tstatus.getLsbD i = s.hart.tstatus.getLsbD i)
  ∧ (∀ i ∈ cleared, t.hart.tstatus.getLsbD i = false) ∧ TrapFrame s t

/-- The hart has halted and its gang is failed: every member's slot is free, with its lanes and its LPART field, the hart's
registers are at their reset values, the gang is no longer resident (01 R38, 19 R359). -/
def Halted (s t : State) (g : Gang) : Prop :=
  (∀ x ∈ t.sched.gang, x.id ≠ g.id)
  ∧ (∀ m, inSlot g m = true → (getHart t m).run = .free ∧ heldGroups (getCore t (colOf m)) (m % 4) = []
    ∧ lpEn (getCore t (colOf m)).lpart (m % 4) = false)
  ∧ t.hart = Hart.reset s.col

/-- A word is no instruction, and in user mode takes the trap ILLEGAL with the word in TVAL (04 R89; 19 R353). -/
def RaisesIllegal (w : IWord) : Prop :=
  instrOf w = .illegalWord w
  ∧ ∀ s, s.hart.mode = .user → ∃ t, exec (instrOf w) s = .next t ∧ TrapTaken s t 0 (w.setWidth 64) 3 false []

/-- An instruction is refused with a trap that puts its word into TVAL: in user mode the trap is taken, in supervisor mode
the hart of a gang halts (01 R38; 04 R90). -/
def Refuses (s : State) (i : Instr) (cause : Nat) : Prop :=
  ∃ w, encode i = some w
  ∧ (s.hart.mode = .user → ∃ t, exec i s = .next t ∧ TrapTaken s t cause (w.setWidth 64) 3 false [])
  ∧ (s.hart.mode = .supervisor → ∀ g, gangOf s s.cur = some g → ∃ t, exec i s = .next t ∧ Halted s t g)

/-- The form raises ILLEGAL here (01 R27). -/
def IllegalHere (s : State) (i : Instr) : Prop := Refuses s i causeIllegal

/-! ## Invariants -/

/-- A hart's registers keep their reserved fields and legal values: VSTATE is not 3 and RM not above 4 (01 R30), VTYPE is
0x8000 or a legal request (03 R59), TCAUSE has six bits, and the bits that TSTATUS does not name read 0 (19 R354). -/
def HartLegal (h : Hart) : Prop :=
  h.vstate ≠ 3 ∧ (h.fctl.extractLsb' 0 3).toNat ≤ 4
  ∧ (h.vtype = 0x8000 ∨ (h.vtype.toNat < 1024 ∧ (etypeOf (h.vtype.toNat % 64)).isSome = true))
  ∧ h.tcause.toNat < 64 ∧ h.tstatus &&& ~~~(0x00F0F873 : Word) = 0

/-- Every hart's registers are legal: the current one, those in the other slots, and the records of harts that yielded. -/
def RegistersLegal (s : State) : Prop :=
  HartLegal s.hart ∧ (∀ p ∈ s.harts, HartLegal p.2) ∧ ∀ g ∈ s.sched.gang, ∀ p ∈ g.left, HartLegal p.2

end Sys2Proof.Machine
end

