-- ==== Sys2Proof/Certificates/Slice0/Obligations.lean ====
section
/-! DEFINITION. The statements for the provers. Each docstring names the rules of spec/ it formalises; OBLIGATIONS.json lists
them. -/
section Statements
open Sys2Proof Sys2Proof.Machine

/-! ## Words and steps -/

/-- Words of worked examples decode to the instructions they stand for (05 R101 to R115), and a word of the reserved
opcode 0x3F is refused (04 R89). -/
def Obligations.WorkedWordsDecode : Prop :=
  decodeWord 0x02531C00 = .ok (.add 5 6 7) ∧ decodeWord 0x10532003 = .ok (.srai 5 6 3)
  ∧ decodeWord 0x12500013 = .ok (.lui 5 0x13) ∧ decodeWord 0x1642E010 = .ok (.ldd 4 5 0x010)
  ∧ decodeWord 0x1C501FFD = .ok (.bne 5 0 0xFFD) ∧ decodeWord 0x22028002 = .ok (.loop false 5 2)
  ∧ decodeWord 0x22130001 = .ok (.loop true 6 1) ∧ decodeWord 0x00501000 = .ok (.srr 5 0)
  ∧ decodeWord 0x0003200B = .ok (.srw 0 6 0x00B) ∧ decodeWord 0x7E000000 = .error .reservedOpcode

/-- For every well-formed instruction of every opcode, with every operand at every value the encoding admits: it has a
word, and the decoder reads that word as that instruction (04 R75 to R88). A word that the decoder accepts is the word of
a well-formed instruction: no bit of an accepted word is ignored, so two different words never decode to one instruction
(04 R88, R89). -/
def Obligations.DecodeAndEncodeAgree : Prop :=
  (∀ i : Instr, i.wf = true → ∃ w, encode i = some w ∧ decodeWord w = .ok i)
  ∧ (∀ (w : IWord) (i : Instr), decodeWord w = .ok i → i.wf = true ∧ encode i = some w)

/-- When no turn waits, no interrupt is due and the hart waits at nothing, a step fetches the word at the PC: the
instruction it decodes to is performed on the state after the fetch, which has set the A bit of the page's entry; a word
that is no instruction and a fetch that fails are steps of their own. Under a single step the BREAK of 19 R355 may
follow (log 17). A sector that lies in a bank in use is waited for (14 R320): where the fetch needs one, the hart stays as
it is and the fill waits at its bank (log 33). That an empty agenda gives the turn to the current hart is the model's
(log 2), as is that the word is the one the hart's own loads see (log 16). -/
def Obligations.StepRunsTheDecodedInstruction : Prop :=
  ∀ s : State, s.agenda = [] → s.hart.run = .running → s.hart.wait = none → interruptDue s.hart = false →
    let u : State := { s with tick := s.tick + 1, hart := { s.hart with stopAt := none } }
    (∀ p i, fetchCheck u = .ok p → busyFills u (touch u p false) = [] → decodeWord (wordAt u p.pa) = .ok i →
      step s = afterExec .hart (touch u p false) (exec i (touch u p false))
      ∧ (s.hart.stepping = false → (∀ b, bankFree s b = true) → step s = exec i (touch u p false)))
    ∧ (∀ p e, fetchCheck u = .ok p → busyFills u (touch u p false) = [] → decodeWord (wordAt u p.pa) = .error e →
      step s = afterExec .hart (touch u p false) (exec (.illegalWord (wordAt u p.pa)) (touch u p false)))
    ∧ (∀ p, fetchCheck u = .ok p → busyFills u (touch u p false) ≠ [] → ∃ t, step s = .next t
      ∧ t = { u with eng := { u.eng with bank := t.eng.bank } })
    ∧ (∀ c, fetchCheck u = .error c → step s = afterExec .hart u (exec .fetchFault u))

/-- What the agenda asks for is done in its order: an event is performed as it stands, but that what an engine or a bank
does is not held back, and any other event that needs a sector from a bank in use waits there (14 R320; log 33); a write
of an outside agent reaches only its own memory, a named hart moves as the current one. The agenda is the model's own
(log 2). -/
def Obligations.StepPerformsTheAgenda : Prop :=
  ∀ (s : State) (rest : List Turn),
    (∀ i, s.agenda = .event i :: rest → let u : State := { s with tick := s.tick + 1, agenda := rest }
      ((bankEvent i = true ∨ ∀ b, bankFree s b = true) → step s = exec i u)
      ∧ (∀ t, bankEvent i = false → exec i u = .next t →
        step s = .next (if busyFills u t = [] then t else waitFills u (busyFills u t))))
    ∧ (∀ a bytes, s.agenda = .outside a bytes :: rest → ∃ t, step s = .next t
        ∧ ∀ b, b < hostBase → readByte t b = readByte s b)
    ∧ (∀ h stop, s.agenda = .run h stop :: rest →
        (getHart s h).run ≠ .running → step s = .next (focus { s with tick := s.tick + 1, agenda := rest } h))

/-! ## Reset and invariants -/

/-- After reset every system register that the reference gives a reset value reads it at hart 0 (01 R28), and the tile
set of every hart is its own column (01 R29). That no hart runs, and what else the state after reset holds, is the
model's (log 1, 2, 3). Both invariants hold after reset. -/
def Obligations.ResetLeavesTheGivenValues : Prop :=
  ((∀ n ∈ [0x000, 0x001, 0x003, 0x004, 0x005, 0x006, 0x008, 0x00A, 0x00B, 0x010, 0x011, 0x012, 0x013, 0x015, 0x016, 0x018,
        0x028, 0x029, 0x030, 0x031, 0x032, 0x038, 0x039, 0x03A, 0x03B, 0x03C, 0x03D, 0x101, 0x102, 0x103, 0x104, 0x105, 0x106,
        0x107, 0x108, 0x109, 0x10A, 0x10B, 0x10C, 0x10D], srRead State.reset n = 0)
    ∧ srRead State.reset 0x002 = 0x8000 ∧ srRead State.reset 0x007 = 0xFFFFFFFF ∧ srRead State.reset 0x00C = 0x3F80
    ∧ srRead State.reset 0x100 = 0x3000
    ∧ (∀ h, h < 512 → (getHart State.reset h).tileset = BitVec.ofNat 64 (4 + colOf h * 65536)
        ∧ (getHart State.reset h).run = .free))
  ∧ (Memory.wf State.reset.ms.mem = true ∧ RegistersLegal State.reset)

/-- The memory keeps its canonical form at every step: addresses rise and no cell holds what an unlisted address reads
as. -/
def Obligations.StepKeepsMemoryCanonical : Prop :=
  ∀ s t : State, Memory.wf s.ms.mem = true → step s = .next t → Memory.wf t.ms.mem = true

/-- Every hart's system registers keep their reserved fields and legal values at every step: VSTATE is never 3 and RM
never above 4 (01 R30), VTYPE is 0x8000 or a legal request (03 R59), and the bits of TSTATUS that 19 R354 does not name
read 0. That TCAUSE stays within six bits is the model's (log 21). -/
def Obligations.StepKeepsRegistersLegal : Prop :=
  ∀ s t : State, RegistersLegal s → step s = .next t → RegistersLegal t

/-! ## Scalar arithmetic and control flow -/

/-- The register-register instructions of opcode 0x01 but the divisions: each completes, writes g[gd] with the value of
its row from both sources as they were, and leaves every other register, every flag and all of memory (05 R98, R100). A
width code of SEXT or ZEXT that is 0 or above 3 raises ILLEGAL. -/
def Obligations.RegisterArithmeticCompletes : Prop :=
  (∀ p ∈ registerResults, ∀ gd gs1 gs2 s, ∃ t, exec (p.1 gd gs1 gs2) s = .next t
    ∧ GWritten s t gd (p.2 (readG s gs1) (readG s gs2)) ∧ InSequence s t ∧ ScalarFrame s t ∧ SameMemory s t)
  ∧ (∀ gd gs1 s, ∃ n, LeadingZeros (readG s gs1) n ∧ ∃ t, exec (.clz gd gs1) s = .next t
    ∧ GWritten s t gd (BitVec.ofNat 64 n) ∧ InSequence s t ∧ ScalarFrame s t ∧ SameMemory s t)
  ∧ (∀ gd gs1 s, ∃ n, TrailingZeros (readG s gs1) n ∧ ∃ t, exec (.ctz gd gs1) s = .next t
    ∧ GWritten s t gd (BitVec.ofNat 64 n) ∧ InSequence s t ∧ ScalarFrame s t ∧ SameMemory s t)
  ∧ (∀ gd gs1 s, ∃ t, exec (.popc gd gs1) s = .next t
    ∧ GWritten s t gd (BitVec.ofNat 64 (oneBits (readG s gs1))) ∧ InSequence s t ∧ ScalarFrame s t ∧ SameMemory s t)
  ∧ (∀ c ∈ [((1 : BitVec 5), 8), (2, 16), (3, 32)], ∀ gd gs1 s,
    (∃ t, exec (.sext gd gs1 c.1) s = .next t
      ∧ GWritten s t gd (((readG s gs1).setWidth c.2).signExtend 64) ∧ InSequence s t ∧ ScalarFrame s t ∧ SameMemory s t)
    ∧ (∃ t, exec (.zext gd gs1 c.1) s = .next t
      ∧ GWritten s t gd (((readG s gs1).setWidth c.2).setWidth 64) ∧ InSequence s t ∧ ScalarFrame s t ∧ SameMemory s t))
  ∧ (∀ w : IWord, w.extractLsb' 25 7 = 0x01 → (w.extractLsb' 0 10 = 0x01C ∨ w.extractLsb' 0 10 = 0x01D) →
    (w.extractLsb' 10 5 = 0 ∨ 4 ≤ (w.extractLsb' 10 5).toNat) → RaisesIllegal w)

/-- Division truncates toward zero and never traps: by zero it gives all ones and the dividend, and −2^63 by −1 gives
−2^63 and 0 (05 R101). -/
def Obligations.DivisionNeverTraps : Prop :=
  (∀ p ∈ divisionResults, ∀ gd gs1 gs2 s, ∃ t, exec (p.1 gd gs1 gs2) s = .next t
    ∧ GWritten s t gd (p.2 (readG s gs1) (readG s gs2)) ∧ InSequence s t ∧ ScalarFrame s t ∧ SameMemory s t)
  ∧ (∀ gd gs1 gs2 s, gd ≠ 0 → readG s gs1 = BitVec.ofInt 64 (-2 ^ 63) → readG s gs2 = BitVec.ofInt 64 (-1) →
    (∃ t, exec (.div gd gs1 gs2) s = .next t ∧ readG t gd = BitVec.ofInt 64 (-2 ^ 63))
    ∧ (∃ t, exec (.rem gd gs1 gs2) s = .next t ∧ readG t gd = 0))
  ∧ (∀ gd gs1 gs2 s, gd ≠ 0 → readG s gs2 ≠ 0 → ∃ t, exec (.rem gd gs1 gs2) s = .next t
    ∧ ((readG t gd).toInt = 0 ∨ ((readG t gd).toInt < 0 ↔ (readG s gs1).toInt < 0)))
  ∧ (∀ gd gs1 gs2 s, gd ≠ 0 → readG s gs1 = BitVec.ofInt 64 (-7) → readG s gs2 = 2 →
    (∃ t, exec (.div gd gs1 gs2) s = .next t ∧ readG t gd = BitVec.ofInt 64 (-3))
    ∧ (∃ t, exec (.rem gd gs1 gs2) s = .next t ∧ readG t gd = BitVec.ofInt 64 (-1))
    ∧ (∃ t, exec (.divu gd gs1 gs2) s = .next t ∧ readG t gd = 0x7FFFFFFFFFFFFFFC))

/-- The immediate instructions of opcodes 0x02 to 0x07 take i = sext(imm15) and write g[gd] with the value of their row;
SLTIU by 1 tests for zero and XORI by −1 complements (05 R102). SLLI, SRLI and SRAI shift by their six-bit amount; a word
of opcode 0x08 with bits 11:6 not zero or with bits 14:12 above 2 raises ILLEGAL; SRAI g5, g6, 3 is 0x10532003 (R103). -/
def Obligations.ImmediateArithmeticCompletes : Prop :=
  (∀ p ∈ immediateResults, ∀ gd gs1 imm s, ∃ t, exec (p.1 gd gs1 imm) s = .next t
    ∧ GWritten s t gd (p.2 (readG s gs1) (imm.signExtend 64)) ∧ InSequence s t ∧ ScalarFrame s t ∧ SameMemory s t)
  ∧ (∀ gd gs1 s, gd ≠ 0 → (∃ t, exec (.sltiu gd gs1 1) s = .next t ∧ (readG t gd = 1 ↔ readG s gs1 = 0))
    ∧ (∃ t, exec (.xori gd gs1 (BitVec.allOnes 15)) s = .next t ∧ readG t gd = ~~~(readG s gs1)))
  ∧ (∀ imm : BitVec 15, -16384 ≤ (imm.signExtend 64).toInt ∧ (imm.signExtend 64).toInt ≤ 16383)
  ∧ (∀ p ∈ shiftResults, ∀ gd gs1 sh s, ∃ t, exec (p.1 gd gs1 sh) s = .next t
    ∧ GWritten s t gd (p.2 (readG s gs1) sh.toNat) ∧ InSequence s t ∧ ScalarFrame s t ∧ SameMemory s t)
  ∧ (∀ w : IWord, w.extractLsb' 25 7 = 0x08 → (w.extractLsb' 6 6 ≠ 0 ∨ 2 < (w.extractLsb' 12 3).toNat) → RaisesIllegal w)
  ∧ encode (.srai 5 6 3) = some 0x10532003

/-- LUI writes sext(imm20 × 2^12, 32), AUIPC the same beside its own address; LUI g5, 0x13 is 0x12500013 and writes
0x13000, and LUI 0x80000 gives a negative result (05 R104). -/
def Obligations.UpperImmediatesComplete : Prop :=
  (∀ gd imm s, (∃ t, exec (.lui gd imm) s = .next t
      ∧ GWritten s t gd ((imm.setWidth 32 <<< 12).signExtend 64) ∧ InSequence s t ∧ ScalarFrame s t ∧ SameMemory s t)
    ∧ (∃ t, exec (.auipc gd imm) s = .next t
      ∧ GWritten s t gd (s.hart.pc + (imm.setWidth 32 <<< 12).signExtend 64) ∧ InSequence s t ∧ ScalarFrame s t
      ∧ SameMemory s t))
  ∧ encode (.lui 5 0x13) = some 0x12500013
  ∧ (∀ s, (∃ t, exec (.lui 5 0x13) s = .next t ∧ readG t 5 = 0x13000)
    ∧ (∃ t, exec (.lui 5 0x80000) s = .next t ∧ readG t 5 = 0xFFFFFFFF80000000))

/-- A branch whose condition holds sets the PC four times its offset from itself and takes no loop-end action; else it
completes in sequence. funct3 6 and 7 raise ILLEGAL. BNE g5, g0 three words back is 0x1C501FFD (05 R108). -/
def Obligations.BranchesComplete : Prop :=
  (∀ p ∈ branchConditions, ∀ gs1 gs2 off s, ∃ t, exec (p.1 gs1 gs2 off) s = .next t
    ∧ (if p.2 (readG s gs1) (readG s gs2) then JumpedTo s t (s.hart.pc + off.signExtend 64 * 4) else InSequence s t)
    ∧ GKept s t ∧ ScalarFrame s t ∧ SameMemory s t)
  ∧ (∀ w : IWord, w.extractLsb' 25 7 = 0x0E → 6 ≤ (w.extractLsb' 12 3).toNat → RaisesIllegal w)
  ∧ encode (.bne 5 0 0xFFD) = some 0x1C501FFD

/-- JAL and JALR write the return address PC + 4 and set the PC; JALR reads gs1 first, and a target that is no multiple
of 4 raises MISALIGN with the target in TVAL and leaves g[gd] as it was (05 R109). In supervisor mode a trap halts the
hart. -/
def Obligations.JumpsComplete : Prop :=
  ∀ gd gs1 imm off s,
    (∃ t, exec (.jal gd off) s = .next t ∧ GWritten s t gd (s.hart.pc + 4)
      ∧ JumpedTo s t (s.hart.pc + off.signExtend 64 * 4) ∧ ScalarFrame s t ∧ SameMemory s t)
    ∧ (let target := readG s gs1 + imm.signExtend 64
      (target.extractLsb' 0 2 = 0 → ∃ t, exec (.jalr gd gs1 imm) s = .next t ∧ GWritten s t gd (s.hart.pc + 4)
        ∧ JumpedTo s t target ∧ ScalarFrame s t ∧ SameMemory s t)
      ∧ (target.extractLsb' 0 2 ≠ 0 → s.hart.mode = .user → ∃ t, exec (.jalr gd gs1 imm) s = .next t
        ∧ t.hart.tcause = 4 ∧ t.hart.tval = target ∧ t.hart.tpc = s.hart.pc ∧ GKept s t ∧ SameMemory s t))

/-- LOOP, of an imm15 that is not 0, opens its level with the count, the next address and the end address, whatever the
level held; a count of 0 jumps past the body, another goes on in sequence under the registers just written (05 R111,
R113). -/
def Obligations.LoopOpensItsLevel : Prop :=
  (∀ lvl gs1 imm, (Instr.loop lvl gs1 imm).wf = true ↔ imm ≠ 0)
  ∧ ∀ gs1 (imm : BitVec 15) s, let n := readG s gs1; let last := s.hart.pc + imm.setWidth 64 * 4
    (∃ t, exec (.loop false gs1 imm) s = .next t ∧ t.hart.lb0 = s.hart.pc + 4 ∧ t.hart.le0 = last
      ∧ t.hart.lb1 = s.hart.lb1 ∧ t.hart.le1 = s.hart.le1 ∧ GKept s t ∧ SameMemory s t
      ∧ (n = 0 → t.hart.pc = last + 4 ∧ t.hart.lc0 = 0 ∧ t.hart.lc1 = s.hart.lc1)
      ∧ (n ≠ 0 → InSequence { s with hart := { s.hart with lc0 := n, lb0 := s.hart.pc + 4, le0 := last } } t)
      ∧ ScalarFrame { s with hart := { s.hart with lb0 := t.hart.lb0, le0 := t.hart.le0 } } t)
    ∧ (∃ t, exec (.loop true gs1 imm) s = .next t ∧ t.hart.lb1 = s.hart.pc + 4 ∧ t.hart.le1 = last
      ∧ t.hart.lb0 = s.hart.lb0 ∧ t.hart.le0 = s.hart.le0 ∧ GKept s t ∧ SameMemory s t
      ∧ (n = 0 → t.hart.pc = last + 4 ∧ t.hart.lc1 = 0 ∧ t.hart.lc0 = s.hart.lc0)
      ∧ (n ≠ 0 → InSequence { s with hart := { s.hart with lc1 := n, lb1 := s.hart.pc + 4, le1 := last } } t)
      ∧ ScalarFrame { s with hart := { s.hart with lb1 := t.hart.lb1, le1 := t.hart.le1 } } t)

/-- The loop-end action of an instruction at `a` (05 R112): level 1 first, level 0 only where level 1 does not go back;
each level that ends counts down by one, and the PC goes back where the count is not spent, else to a + 4. -/
def Obligations.LoopEndAction : Prop :=
  ∀ (a : Word) (h : Hart), let r := loopEnd a h
    let ends1 := h.lc1 ≠ 0 ∧ h.le1 = a
    let back1 := ends1 ∧ h.lc1 ≠ 1
    let ends0 := ¬back1 ∧ h.lc0 ≠ 0 ∧ h.le0 = a
    (ends1 → r.lc1 = h.lc1 - 1) ∧ (¬ends1 → r.lc1 = h.lc1) ∧ (ends0 → r.lc0 = h.lc0 - 1) ∧ (¬ends0 → r.lc0 = h.lc0)
    ∧ (back1 → r.pc = h.lb1) ∧ (¬back1 → ends0 ∧ h.lc0 ≠ 1 → r.pc = h.lb0)
    ∧ (¬back1 → ¬(ends0 ∧ h.lc0 ≠ 1) → r.pc = a + 4)
    ∧ r = { h with pc := r.pc, lc0 := r.lc0, lc1 := r.lc1 }

/-! ## Scalar accesses -/

/-- A scalar load whose checks pass, of DRAM, CAP or a vault: g[gd] takes the bytes, little-endian, sign- or
zero-extended as its row says; no byte of memory changes, but for the A bit of the page's entry (05 R105, R107; 13
R292). The monitor watches the sector (11 R243). A scalar store whose checks pass, and whose path to the host or a peer
is up, writes the low bytes of g[gs] at the address; every other byte of memory is as it was, but for the A and D bits
of the page's entry (05 R105; 13 R292), and reads so while the store buffer has room or the core holds no old copy. A
scalar load or store whose checks fail, or a load of poisoned bytes, has no effect but the trap: its cause, the address
in TVAL, the access in TSTATUS.ACC (02 R50, 19 R352 to R354); in supervisor mode it halts the hart (01 R38). An ACCESS
is logged (19 R360). The order of the hart's own stores to HOST and PEER, and their errors, are the model's (log 20). -/
def Obligations.ScalarAccessesCompleteOrTrap : Prop :=
  (∀ f ∈ loadForms, ∀ gd base off s p, let a := readG s base + off.signExtend 64
      s.hart.request = none → resolveAligned s a f.2.1 .load = .ok p → kindLocal (pteKind p.pte) = true →
      readPoison s p.pa f.2.1 = false →
      ∃ t, exec (f.1 gd base off) s = .next t
        ∧ GWritten s t gd (loadedValue f.2.1 f.2.2 (readBytes (touch s p false) p.pa f.2.1))
        ∧ InSequence s t ∧ t.hart.monitor = some ⟨p.pa / 128, none⟩ ∧ AccessFrame s t ∧ MemoryBut s t 0 0 p.slot)
  ∧ (∀ f ∈ storeForms, ∀ gs base off s p, let a := readG s base + off.signExtend 64
      resolveAligned s a f.2 .store = .ok p → pteKind p.pte ≠ kindMmio → OrderedOnHost p →
        remoteFault s p a .store = none →
      ∃ t, exec (f.1 gs base off) s = .next t ∧ readBytes t p.pa f.2 = bytesOfNat f.2 (readG s gs).toNat
        ∧ GKept s t ∧ InSequence s t ∧ AccessFrame s t ∧ LiveBut s t p.pa f.2 p.slot
        ∧ (BufferRoom s ∨ NoStale s → MemoryBut s t p.pa f.2 p.slot))
  ∧ ((∀ f ∈ loadForms, ∀ gd base off s c, let a := readG s base + off.signExtend 64
      s.hart.request = none → resolveAligned s a f.2.1 .load = .error c → c.cause < 64 →
      (s.hart.mode = .user → ∃ t, exec (f.1 gd base off) s = .next t
        ∧ TrapTaken (logged s c.cause a) t c.cause a 0 false [] ∧ GKept s t)
      ∧ (∀ g, s.hart.mode = .supervisor → gangOf s s.cur = some g →
        ∃ t, exec (f.1 gd base off) s = .next t ∧ Halted s t g))
    ∧ (∀ f ∈ loadForms, ∀ gd base off s p, let a := readG s base + off.signExtend 64
      s.hart.request = none → s.hart.mode = .user → resolveAligned s a f.2.1 .load = .ok p →
      kindLocal (pteKind p.pte) = true → readPoison s p.pa f.2.1 = true →
      ∃ t, exec (f.1 gd base off) s = .next t ∧ TrapTaken s t 14 a 0 false [] ∧ GKept s t)
    ∧ (∀ f ∈ storeForms, ∀ gs base off s c, let a := readG s base + off.signExtend 64
      resolveAligned s a f.2 .store = .error c → c.cause < 64 →
      (s.hart.mode = .user → ∃ t, exec (f.1 gs base off) s = .next t
        ∧ TrapTaken (logged s c.cause a) t c.cause a 1 false [] ∧ GKept s t)
      ∧ (∀ g, s.hart.mode = .supervisor → gangOf s s.cur = some g →
        ∃ t, exec (f.1 gs base off) s = .next t ∧ Halted s t g))
    ∧ (∀ s va n acc, va.toNat % n ≠ 0 →
      resolveAligned s va n acc = .error ⟨4, va, acc.code⟩)
    ∧ (∀ s va n acc, va.toNat % n = 0 → canonical va = false → resolveAligned s va n acc = .error ⟨5, va, acc.code⟩))

/-- Scalar loads and stores of pages whose kind is MMIO are of eight bytes, others raise ACCESS, before MIGRATE (05
R107, 13 R286; 02 R50); the page's registers answer. A store of a hart from outside its own instructions reaches the
same registers. A load of HOST or PEER is sent once and waits; its response completes it with the bytes there, after the
hart's earlier stores to the sector (log 20, 53); an error or an expired time-out raises ACCESS at its address (05 R107;
19 R355, R357; 24 R405). A store whose path is down waits with no effect, one that ends in an error raises ACCESS (24
R405, R408; log 20). -/
def Obligations.DeviceAndRemoteAccesses : Prop :=
  ((∀ gd base off s p u w, let a := readG s base + off.signExtend 64
      s.hart.request = none → resolveAligned s a 8 .load = .ok p → pteKind p.pte = kindMmio →
      mmioLoad (touch s p false) (s.hart.mode == .user) p.pa = some (u, w) →
      ∃ t, exec (.ldd gd base off) s = .next t ∧ GWritten s t gd w ∧ InSequence s t ∧ t.eng = u.eng ∧ t.green = u.green
        ∧ t.host = u.host ∧ t.ms = u.ms)
    ∧ (∀ gs base off s p u, let a := readG s base + off.signExtend 64
      resolveAligned s a 8 .store = .ok p → pteKind p.pte = kindMmio →
      (mmioStore s s.cur (s.hart.mode == .user) p.pa (readG s gs)).isSome = true →
      mmioStore (touch s p true) s.cur (s.hart.mode == .user) p.pa (readG s gs) = some u →
      ∃ t, exec (.std gs base off) s = .next t ∧ GKept s t ∧ InSequence s t ∧ t.eng = u.eng ∧ t.green = u.green
        ∧ t.host = u.host ∧ t.ms = u.ms)
    ∧ (∀ f ∈ loadForms, ∀ gd base off s p, let a := readG s base + off.signExtend 64
      s.hart.request = none → f.2.1 ≠ 8 → resolveAligned s a f.2.1 .load = .ok p → pteKind p.pte = kindMmio →
      s.hart.mode = .user →
      ∃ t, exec (f.1 gd base off) s = .next t ∧ TrapTaken (logged s 6 a) t 6 a 0 false [])
    ∧ (∀ f ∈ storeForms, ∀ gs base off s p, let a := readG s base + off.signExtend 64
      f.2 ≠ 8 → resolveAligned s a f.2 .store = .ok p → pteKind p.pte = kindMmio → s.hart.mode = .user →
      ∃ t, exec (f.1 gs base off) s = .next t ∧ TrapTaken (logged s 6 a) t 6 a 1 false [])
    ∧ (∀ s va n acc pte slot frame block, leafFor s va = .leaf pte slot frame block → va.toNat % n = 0 → n ≠ 8 →
      resolve s va acc = .error ⟨7, va, acc.code⟩ → pteKind pte = kindMmio →
      resolveAligned s va n acc = .error ⟨6, va, acc.code⟩)
    ∧ (∀ h addr v s u, h < 512 → (getHart s h).run = .running → isMmio addr = true → addr % 8 = 0 →
      mmioStore s h ((getHart s h).mode == .user) addr v = some u → exec (.mmioRegisterWrite h addr v) s = .next u))
  ∧ ((∀ f ∈ loadForms, ∀ gd base off s, let i := f.1 gd base off; let a := readG s base + off.signExtend 64
      (∀ p, s.hart.request = none → resolveAligned s a f.2.1 .load = .ok p →
        (pteKind p.pte = kindHost ∨ pteKind p.pte = kindPeer) →
        ∃ t, exec i s = .next t ∧ t.hart.request = some ⟨s.hart.pc, s.hart.asid, a, p, f.2.1, none, none⟩
          ∧ t.hart.wait = some i ∧ t.hart.pc = s.hart.pc ∧ GKept s t ∧ SameMemory s t)
      ∧ (∀ q bytes, s.hart.request = some q → q.answer = some (some bytes) → bytes.length = f.2.1 →
        ∃ t, exec i s = .next t ∧ GWritten s t gd (loadedValue f.2.1 f.2.2 bytes)
          ∧ InSequence s t ∧ SameMemory s t)
      ∧ (∀ q, s.hart.request = some q → q.answer = some none → q.update = none → s.hart.mode = .user →
        ∃ t, exec i s = .next t
          ∧ TrapTaken (logged { s with hart := { s.hart with request := none } } 6 q.va) t 6 q.va 0 false []))
    ∧ (∀ h s q, (getHart s h).request = some q → q.answer = none → q.update = none →
      (answerable s q = true → let u := markUsed (performPosted s h (q.addr / 128)) q.phys false
        ∃ t, exec (.hostResponse h) s = .next t ∧ (getHart t h).request = some { q with
          answer := some (some ((List.range q.size).map (fun i => settledByte u (q.addr + i)))) }
        ∧ (h = s.cur → MemoryBut s t 0 0 q.phys.slot)
        ∧ ∀ a, a / 128 ≠ q.addr / 128 → a ≠ q.phys.slot → readByte t a = readByte s a)
      ∧ (isHost q.addr = true → ∃ t, exec (.hostAccessTimeout h) s = .next t
        ∧ (getHart t h).request = some { q with answer := some none } ∧ SameMemory s t))
    ∧ (∀ h sec s, isCached (sec * 128) = false → let u := performPosted s h sec
      (∀ a, settledByte u a = if a / 128 = sec then ((mapGet? (postedOf s h) sec).bind (·.getD (a % 128) none)).getD
        (settledByte s a) else settledByte s a)
      ∧ mapGet? (postedOf u h) sec = none ∧ ∀ k, k ≠ sec → mapGet? (postedOf u h) k = mapGet? (postedOf s h) k)
    ∧ (∀ f ∈ storeForms, ∀ gs base off s p c, let a := readG s base + off.signExtend 64
      resolveAligned s a f.2 .store = .ok p → pteKind p.pte ≠ kindMmio → remoteFault s p a .store = some c →
      (c.cause = causeWaits → exec (f.1 gs base off) s = .next s)
      ∧ (c.cause < 64 → s.hart.mode = .user →
        ∃ t, exec (f.1 gs base off) s = .next t ∧ TrapTaken (logged s 6 a) t 6 a 1 false [])))

/-- LDACQ loads and acquires; STREL releases, then stores. Both take four or eight bytes, sign-extended (09 R171, R172,
R174). A store that releases waits while an invalidation of the hart is under way (13 R295), and at system scope while a
store of the hart to the host or a peer cannot reach it (09 R174; 24 R408). -/
def Obligations.OrderedAccessesComplete : Prop :=
  (∀ gd base scope width s p, let n := orderedBytes width
    s.hart.request = none → resolveAligned s (readG s base) n .load = .ok p → kindLocal (pteKind p.pte) = true →
    readPoison s p.pa n = false →
    ∃ t, exec (.ldacq gd base scope width) s = .next t
      ∧ GWritten s t gd (loadedValue n true (readBytes (touch s p false) p.pa n)) ∧ InSequence s t
      ∧ AcquiredAt t scope.toNat ∧ AccessFrame s t ∧ LiveBut s t 0 0 p.slot)
  ∧ (∀ base gs scope width s p, let n := orderedBytes width
    resolveAligned s (readG s base) n .store = .ok p → pteKind p.pte ≠ kindMmio → OrderedOnHost p →
    remoteFault s p (readG s base) .store = none → releaseWaits s scope.toNat = false →
    ∃ t, exec (.strel base gs scope width) s = .next t ∧ liveBytes t p.pa n = bytesOfNat n (readG s gs).toNat
      ∧ GKept s t ∧ InSequence s t ∧ PushedBut s t scope.toNat p.pa n p.slot ∧ AccessFrame s t
      ∧ LiveBut s t p.pa n p.slot)
  ∧ (∀ base gs scope width s p,
    resolveAligned s (readG s base) (orderedBytes width) .store = .ok p → pteKind p.pte ≠ kindMmio →
    remoteFault s p (readG s base) .store = none → releaseWaits s scope.toNat = true →
    exec (.strel base gs scope width) s = .next { s with hart := { s.hart with
      wait := some (.strel base gs scope width) } })

/-- An atomic whose checks pass, at a home or a bank: g[gd] takes the old value, sign-extended, memory the value of its
row, in one step; AMOCAS without a match writes nothing. An order that releases pushes the hart's stores first, one that
acquires discards clean copies (09 R171 to R174). -/
def Obligations.AtomicsComplete : Prop :=
  ∀ f ∈ atomicResults, ∀ (x : Amo) s p, let n := orderedBytes x.width
    s.hart.request = none → (readG s x.base).toNat % n = 0 → resolveKind s (readG s x.base) .atomic kindShared = .ok p →
    pteKind p.pte ≠ kindPeer → atomicPoison s p.pa n = false →
    (x.order.getLsbD 1 = true → releaseWaits s x.scope.toNat = false) →
    ∃ t old, exec (f.1 x) s = .next t ∧ old.length = n
      ∧ (∀ i, i < n → p.pa + i ≠ p.slot → old[i]? = some (liveByte s (p.pa + i)))
      ∧ GWritten s t x.gd (loadedValue n true old)
      ∧ liveBytes t p.pa n = (match f.2 (8 * n) (natOfBytes old) ((readG s x.gs).toNat % 2 ^ (8 * n))
            ((readG s x.gd).toNat % 2 ^ (8 * n)) with
          | some v => bytesOfNat n v
          | none => old)
      ∧ LiveBut s t p.pa n p.slot ∧ InSequence s t ∧ AccessFrame s t
      ∧ (x.order.getLsbD 1 = true → PushedBut s t x.scope.toNat p.pa n p.slot)
      ∧ (x.order.getLsbD 0 = true → AcquiredAt t x.scope.toNat)

/-! ## System registers, traps, tasks -/

/-- SRR reads a listed register that the mode and VSTATE open; SRW, SRSET and SRCLR write one that user mode may write,
with g[gd] taking the value before the write and no other register changing (01 R27, R28, R30; 05 R115). A write of a
loop register counts in the loop-end action that follows (05 R112). In supervisor mode the registers from 0x100 and
VDIRTY are written with what each keeps (01 R28, R30); MSTATEEN opens MSTATE, which reads 0 while it is clear (01 R31,
10 R191). SLICE takes the value. QAGE and VIOPTR belong to the tenant; a write of VIOPTR clears LOST (19 R361); that for a
hart without a tenant both read 0 and a write is discarded is the model's choice (DEDUCED, log 26). A write
to LPART takes effect whole where it is legal; else LPART stays and TVAL takes the rejected value (01 R22). A write to
TSTATUS changes STEP, YIELD and RESV and can clear PEND, which gives a held response up; where the reservations and
floors of the core would exceed eight it is discarded, and TVAL takes the value (19 R354, R362). In user mode an access to
a register number that is not listed, or a write to a register that is read-only, raises ILLEGAL with the word, and an
access to a vector register while VSTATE is OFF raises VOFF (01 R27, R31); in supervisor mode each halts the hart (01
R38). That a nonzero SLICE reads nonzero is the model's (log 9), as are the six bits of TCAUSE (log 21). -/
def Obligations.SystemRegistersAreAccessed : Prop :=
  ((∀ n ∈ listedRegisters, ∀ gd s, (0x100 ≤ n → s.hart.mode = .supervisor) → (n ∈ vectorRegisters → s.hart.vstate ≠ 0) →
      n ≠ 0x028 → n ≠ 0x107 →
      ∃ t, exec (.srr gd (BitVec.ofNat 12 n)) s = .next t ∧ GWritten s t gd (srRead s n) ∧ InSequence s t
        ∧ ScalarFrame s t ∧ SameMemory s t)
    ∧ (∀ gd s, (∃ t, exec (.srr gd 0x028) s = .next t ∧ GWritten s t gd t.core.cycle ∧ InSequence s t
          ∧ (t.hart.slice = 0 ↔ s.hart.slice = 0) ∧ t.hart.slice.toNat ≤ s.hart.slice.toNat)
        ∧ (s.hart.mode = .supervisor → ∃ t, exec (.srr gd 0x107) s = .next t ∧ GWritten s t gd t.hart.slice
          ∧ InSequence s t
          ∧ (t.hart.slice = 0 ↔ s.hart.slice = 0) ∧ t.hart.slice.toNat ≤ s.hart.slice.toNat))
    ∧ (∀ u ∈ registerUpdates, ∀ p ∈ userRegisters, ∀ gd gs s, (p.1 ∈ vectorRegisters → s.hart.vstate ≠ 0) →
      let old := srRead s p.1
      ∃ t, exec (u.1 gd gs (BitVec.ofNat 12 p.1)) s = .next t ∧ GWritten s t gd old
        ∧ srRead t p.1 = p.2 old (u.2 old (readG s gs))
        ∧ (∀ m, m ∉ [p.1, 0x029, 0x038, 0x03B] → srRead t m = srRead s m)
        ∧ InSequence s t ∧ RegisterFrame s t ∧ SameMemory s t)
    ∧ (∀ u ∈ registerUpdates, ∀ p ∈ loopRegisters, ∀ gd gs s,
      let old := srRead s p.1
      let v := { s with hart := p.2 s.hart (u.2 old (readG s gs)) }
      ∃ t, exec (u.1 gd gs (BitVec.ofNat 12 p.1)) s = .next t ∧ GWritten s t gd old ∧ InSequence v t ∧ ScalarFrame v t
        ∧ SameMemory s t))
  ∧ ((∀ u ∈ registerUpdates, ∀ p ∈ supervisorRegisters, ∀ gd gs s, s.hart.mode = .supervisor →
      (p.1 ∈ vectorRegisters → s.hart.vstate ≠ 0) →
      let old := srRead s p.1
      ∃ t, exec (u.1 gd gs (BitVec.ofNat 12 p.1)) s = .next t ∧ GWritten s t gd old
        ∧ srRead t p.1 = p.2 old (u.2 old (readG s gs))
        ∧ (∀ m, m ∉ [p.1, 0x029, 0x038, 0x03B] → (p.1 = 0x109 → m ≠ 0x10C ∧ m ≠ 0x10D) → (p.1 = 0x10B → m ≠ 0x016) →
          srRead t m = srRead s m)
        ∧ (p.1 = 0x10B → srRead t 0x016 = if srRead t 0x10B = 0 then 0
            else srRead { s with hart := { s.hart with mstateen := true } } 0x016)
        ∧ InSequence s t ∧ RegisterFrame s t ∧ SameMemory s t)
    ∧ (∀ u ∈ registerUpdates, ∀ gd gs s, s.hart.mode = .supervisor →
      ∃ t old, exec (u.1 gd gs 0x107) s = .next t ∧ GWritten s t gd old ∧ t.hart.slice = u.2 old (readG s gs)
        ∧ (old = 0 ↔ s.hart.slice = 0) ∧ old.toNat ≤ s.hart.slice.toNat ∧ InSequence s t ∧ t.sched = s.sched
        ∧ SameMemory s t)
    ∧ (∀ u ∈ registerUpdates, ∀ gd gs s, s.hart.mode = .supervisor →
      (∀ x, tenantOf s s.hart.asid = some x →
        (let old := BitVec.ofNat 64 x.qage
          ∃ t, exec (u.1 gd gs 0x10C) s = .next t ∧ srRead t 0x10C = u.2 old (readG s gs) ∧ InSequence s t
            ∧ GWritten s t gd old ∧ t.ms = s.ms ∧ ∀ k, k ≠ s.hart.asid.toNat →
              mapGet? t.sched.tenant k = mapGet? s.sched.tenant k)
        ∧ (let old := BitVec.ofNat 64 (x.lost * 2 ^ 32 + x.next)
          ∃ t, exec (u.1 gd gs 0x10D) s = .next t ∧ srRead t 0x10D = u.2 old (readG s gs) &&& 63 ∧ InSequence s t
            ∧ GWritten s t gd old ∧ t.ms = s.ms ∧ ∀ k, k ≠ s.hart.asid.toNat →
              mapGet? t.sched.tenant k = mapGet? s.sched.tenant k))
      ∧ (tenantOf s s.hart.asid = none → ∀ n ∈ [(0x10C : BitVec 12), 0x10D], ∃ t, exec (u.1 gd gs n) s = .next t
        ∧ GWritten s t gd 0 ∧ InSequence s t ∧ ScalarFrame s t)))
  ∧ ((∀ u ∈ registerUpdates, ∀ gd gs s, s.hart.mode = .supervisor → let v := u.2 s.core.lpart (readG s gs)
      ∃ t, exec (u.1 gd gs 0x10A) s = .next t ∧ GWritten s t gd s.core.lpart ∧ InSequence s t ∧ RegisterFrame s t
        ∧ (LpartLegal s v → t.core.lpart = v ∧ t.hart.tval = s.hart.tval)
        ∧ (¬LpartLegal s v → t.core.lpart = s.core.lpart ∧ t.hart.tval = v) ∧ t.hart.tstatus = s.hart.tstatus)
    ∧ (∀ u ∈ registerUpdates, ∀ gd gs s, s.hart.mode = .supervisor →
      let v := u.2 s.hart.tstatus (readG s gs); let r := (v.extractLsb' 20 4).toNat
      ∃ t, exec (u.1 gd gs 0x100) s = .next t ∧ GWritten s t gd s.hart.tstatus ∧ InSequence s t ∧ RegisterFrame s t
        ∧ t.core.lpart = s.core.lpart
        ∧ (r ≤ 8 ∧ r + othersShare s ≤ 8 → t.hart.tval = s.hart.tval
          ∧ t.hart.held = (if v.getLsbD 14 = true then s.hart.held else none)
          ∧ (∀ i ∈ [0, 1, 20, 21, 22, 23], t.hart.tstatus.getLsbD i = v.getLsbD i)
          ∧ t.hart.tstatus.getLsbD 14 = (s.hart.tstatus.getLsbD 14 && v.getLsbD 14)
          ∧ ∀ i, i ∉ [0, 1, 14, 20, 21, 22, 23] → t.hart.tstatus.getLsbD i = s.hart.tstatus.getLsbD i)
        ∧ (¬(r ≤ 8 ∧ r + othersShare s ≤ 8) → t.hart.tstatus = s.hart.tstatus ∧ t.hart.tval = v
          ∧ t.hart.held = s.hart.held)))
  ∧ ((∀ n : BitVec 12, n.toNat ∉ listedRegisters → ∀ gd gs,
      (∀ s, IllegalHere s (.srr gd n)) ∧ ∀ u ∈ registerUpdates, ∀ s, IllegalHere s (u.1 gd gs n))
    ∧ (∀ n : BitVec 12, n.toNat ∈ readOnlyRegisters → ∀ u ∈ registerUpdates, ∀ gd gs s, IllegalHere s (u.1 gd gs n))
    ∧ (∀ u ∈ registerUpdates, ∀ gd gs s, s.hart.mode = .user → IllegalHere s (u.1 gd gs 0x008))
    ∧ (∀ n ∈ vectorRegisters, ∀ gd s, s.hart.vstate = 0 → Refuses s (.srr gd (BitVec.ofNat 12 n)) causeVoff)
    ∧ ∀ u ∈ registerUpdates, ∀ n ∈ vectorRegisters, n ∉ readOnlyRegisters → ∀ gd gs s, s.hart.vstate = 0 →
      (n = 0x008 → s.hart.mode = .supervisor) → Refuses s (u.1 gd gs (BitVec.ofNat 12 n)) causeVoff)

/-- TRAP, BRK, a word that is no instruction and a fetch that fails take their traps in user mode: cause, TVAL, TPC, the
access kind, supervisor mode at TVEC, and no other register or byte changes (04 R89; 11 R253; 19 R352 to R354). A
privileged instruction in user mode is ILLEGAL with its word in TVAL (01 R27, R38). A trap in supervisor mode halts the
hart: its gang is failed, every member's slot is free with the hart's registers at their reset values, the gang is no
longer resident (01 R38, 19 R359). -/
def Obligations.TrapsAreEntered : Prop :=
  (∀ s, s.hart.mode = .user →
      (∀ imm : BitVec 12, ∃ t, exec (.trap imm) s = .next t ∧ TrapTaken s t 13 (imm.setWidth 64) 3 false [])
      ∧ (∃ t, exec .brk s = .next t ∧ TrapTaken s t 12 0 3 false [])
      ∧ (∀ w : IWord, ∃ t, exec (.illegalWord w) s = .next t ∧ TrapTaken s t 0 (w.setWidth 64) 3 false [])
      ∧ (∀ c, fetchCheck s = .error c → c.cause < 64 →
        ∃ t, exec .fetchFault s = .next t ∧ TrapTaken (logged s c.cause s.hart.pc) t c.cause s.hart.pc 2 false [])
      ∧ (∃ t w, encode .rett = some w ∧ exec .rett s = .next t ∧ TrapTaken s t 0 (w.setWidth 64) 3 false [])
      ∧ (∀ n, 0x100 ≤ n → n ≤ 0x10D → ∀ gd gs, (∃ t w, encode (.srr gd (BitVec.ofNat 12 n)) = some w
          ∧ exec (.srr gd (BitVec.ofNat 12 n)) s = .next t ∧ TrapTaken s t 0 (w.setWidth 64) 3 false [])
        ∧ ∀ u ∈ registerUpdates, ∃ t w, encode (u.1 gd gs (BitVec.ofNat 12 n)) = some w
          ∧ exec (u.1 gd gs (BitVec.ofNat 12 n)) s = .next t ∧ TrapTaken s t 0 (w.setWidth 64) 3 false []))
  ∧ (∀ s g (imm : BitVec 12), s.hart.mode = .supervisor → gangOf s s.cur = some g →
      ∃ t, exec (.trap imm) s = .next t ∧ Halted s t g)

/-- RETT without YIELD returns to user mode at TPC, clears PEND and bit 11, drops or takes up a held response, and arms
a single step where STEP is set; in supervisor mode only (11 R254, 19 R355). A hart that was pre-empted, or at which
PREEMPT is pending (19 R358; log 72), and returns with YIELD leaves its slot and its record stands with its gang (19
R363); at another hart that return is ILLEGAL, so the hart halts (19 R363, 01 R38). A pre-empted gang whose columns all
accept it and whose turn it is (17 R347; log 57) resumes: every record returns to its slot in supervisor mode at TVEC
with cause MESSAGE, TVAL 1, RESUME set, the groups held at the yield as its reservation, and PEND as a response is held
(19 R364). -/
def Obligations.HartsReturnAndResume : Prop :=
  ((∀ s, s.hart.mode = .supervisor → s.hart.tstatus.getLsbD 1 = false →
      ∃ t, exec .rett s = .next t ∧ t.hart.mode = .user ∧ t.hart.pc = s.hart.tpc
        ∧ t.hart.instret = s.hart.instret + 1 ∧ t.hart.stepping = s.hart.tstatus.getLsbD 0 ∧ t.hart.held = none
        ∧ t.hart.request = (if s.hart.tstatus.getLsbD 14 = true ∧ s.hart.tpc = s.hart.trapPc then s.hart.held else none)
        ∧ t.hart.tstatus.getLsbD 11 = false ∧ t.hart.tstatus.getLsbD 14 = false
        ∧ (∀ i, i ≠ 11 → i ≠ 14 → t.hart.tstatus.getLsbD i = s.hart.tstatus.getLsbD i)
        ∧ t = { s with hart := { s.hart with
            mode := .user, pc := s.hart.tpc, instret := t.hart.instret, stepping := t.hart.stepping, held := none
            request := t.hart.request, tstatus := t.hart.tstatus, wait := none, stopAt := none, convoy := none } })
    ∧ (∀ s g, s.hart.mode = .supervisor → s.hart.tstatus.getLsbD 1 = true → gangOf s s.cur = some g →
      ¬(s.hart.preempted = true ∨ s.hart.tstatus.getLsbD 5 = true) → ∃ t, exec .rett s = .next t ∧ Halted s t g)
    ∧ (∀ s g, s.hart.mode = .supervisor → s.hart.tstatus.getLsbD 1 = true →
      (s.hart.preempted = true ∨ s.hart.tstatus.getLsbD 5 = true) → gangOf s s.cur = some g → releaseWaits s 1 = false →
      ∃ t, exec .rett s = .next t ∧ t.hart = Hart.reset s.col ∧ heldGroups t.core s.idx = []
        ∧ t.core.lpart = s.core.lpart
        ∧ ∃ x ∈ t.sched.gang, x.id = g.id ∧ ∃ r, mapGet? x.left s.cur = some r ∧ r.tpc = s.hart.tpc ∧ r.tvec = s.hart.tvec
          ∧ r.strip = s.hart.strip ∧ r.yieldGroups = (heldGroups s.core s.idx).length))
  ∧ (∀ s id g, s.sched.gang.find? (fun x => x.id == id) = some g → resumesNext s g = true → mapRising g.left = true →
      ∃ t, exec (.resume id) s = .next t
        ∧ (∀ h r, mapGet? g.left h = some r → let x := getHart t h
          x.run = .running ∧ x.mode = .supervisor ∧ x.pc = r.tvec ∧ x.tpc = r.tpc ∧ x.tcause = 17 ∧ x.tval = 1
          ∧ x.strip = r.strip ∧ x.tstatus.getLsbD 11 = true ∧ x.tstatus.getLsbD 15 = true
          ∧ x.tstatus.getLsbD 14 = r.held.isSome ∧ resvOf x = r.yieldGroups % 16 ∧ x.vstate = 0)
        ∧ ∀ x ∈ t.sched.gang, x.id = id → x.left = [] ∧ x.preempting = false)

/-- A pending interrupt is taken in user mode, PREEMPT before MESSAGE before SLICE: INT is 1, its pending bit clears (19
R356). SLICE reaches 0 and pends (01 R32); that it may do so from any nonzero value is the model's (log 9). A hart that has
not yielded in time is halted (19 R365); that the time-out may come at any moment is the model's (log 7). -/
def Obligations.InterruptsAreTakenInOrder : Prop :=
  (∀ h s, (getHart s h).run = .running → (getHart s h).mode = .user → (getHart s h).wait = none →
    let b := fun i => (getHart s h).tstatus.getLsbD i
    (b 5 = true → ∃ t, exec (.interruptTaken h) s = .next t ∧ t.cur = h ∧ TrapTaken (focus s h) t 16 0 3 true [5]
      ∧ t.hart.preempted = true)
    ∧ (b 5 = false → b 6 = true → ∃ t, exec (.interruptTaken h) s = .next t ∧ t.cur = h
      ∧ TrapTaken (focus s h) t 17 1 3 true [6])
    ∧ (b 5 = false → b 6 = false → b 4 = true → ∃ t, exec (.interruptTaken h) s = .next t ∧ t.cur = h
      ∧ TrapTaken (focus s h) t 11 0 3 true [4]))
  ∧ (∀ h s, (getHart s h).run = .running → (getHart s h).slice ≠ 0 →
    ∃ t, exec (.sliceExpiry h) s = .next t ∧ getHart t h = { getHart s h with
        slice := 0, tstatus := (getHart t h).tstatus, fresh := (getHart t h).fresh }
      ∧ (getHart t h).tstatus.getLsbD 4 = true
      ∧ (∀ i, i ≠ 4 → (getHart t h).tstatus.getLsbD i = (getHart s h).tstatus.getLsbD i)
      ∧ ∀ x, x ≠ h → getHart t x = getHart s x)
  ∧ (∀ h s, (getHart s h).run = .running → (getHart s h).preempted = true →
    ∃ t, exec (.preemptTimeout h) s = .next t ∧ (getHart t h).run = .free)

/-- PARK gives up lanes and vector state, and a reservation with them (log 73), and sleeps; it completes once an
interrupt is pending, which is taken at the next instruction (11 R255); that under a single step BREAK comes first, so that
the hart is still in user mode, is the model's choice (DEDUCED, log 17); in supervisor mode it is ILLEGAL, so the hart
halts (01 R38). EXIT releases, frees the slot, the groups and the LPART field, and ends the hart's part in its gang; the
last member retires the gang. TRIGGER releases and marks the hart (11 R247, R248; 17 R339). -/
def Obligations.HartsParkAndTasksEnd : Prop :=
  ((∀ s, s.hart.mode = .user → s.hart.wait ≠ some .park →
      (s.hart.mstateen = true → matrixEmpty s = true ∧ (s.hart.tileset.extractLsb' 2 2).toNat = 1) →
      ∃ t, exec .park s = .next t ∧ heldGroups t.core s.idx = [] ∧ t.hart.count = 0 ∧ t.hart.vl = 0 ∧ t.hart.vr = 0
        ∧ t.hart.contending = false ∧ resvOf t.hart = 0 ∧ t.hart.tilem = 0 ∧ GKept s t ∧ SameMemory s t
        ∧ (interruptDue s.hart = false → t.hart.wait = some .park ∧ t.hart.pc = s.hart.pc)
        ∧ (interruptDue s.hart = true → s.hart.stepping = true → t.hart.mode = .user ∧ InSequence s t)
        ∧ (interruptDue s.hart = true → s.hart.stepping = false → t.hart.mode = .supervisor ∧ t.hart.pc = s.hart.tvec
          ∧ t.hart.tpc = (loopEnd s.hart.pc s.hart).pc ∧ t.hart.instret = s.hart.instret + 1
          ∧ t.hart.tstatus.getLsbD 15 = true))
    ∧ (∀ h s, (getHart s h).wait = some .park → (getHart s h).stepping = false → interruptDue (getHart s h) = true →
      ∃ t, exec (.parkWake h) s = .next t ∧ t.cur = h ∧ t.hart.mode = .supervisor ∧ t.hart.pc = (getHart s h).tvec
        ∧ t.hart.tpc = (loopEnd (getHart s h).pc (getHart s h)).pc ∧ t.hart.wait = none)
    ∧ (∀ s, s.hart.mode = .supervisor → s.hart.wait ≠ some .park →
      ∃ t, exec .park s = .next t ∧ t.hart.run = .free ∧ ∀ g, gangOf s s.cur = some g → Halted s t g))
  ∧ ((∀ s, releaseWaits s 1 = false →
      ∃ t, exec .exit s = .next t ∧ t.hart = Hart.reset s.col ∧ heldGroups t.core s.idx = []
        ∧ lpEn t.core.lpart s.idx = false
        ∧ (∃ u, ReleasedAt s u 1 ∧ SameLive s u ∧ u.sched = s.sched ∧ t = endHart u u.cur)
        ∧ (gangOf s s.cur = none → ∀ a b, ownByte s a = some b → homeByte t a = b)
        ∧ (∀ g, gangOf s s.cur = some g → (∃ m ∈ g.members, m ≠ s.cur ∧ m ∉ g.ended) → (s.sched.gang.map (·.id)).Nodup →
          ∀ a b, ownByte s a = some b → homeByte t a = b)
        ∧ ((s.sched.gang.map (·.id)).Nodup → ∀ g, gangOf s s.cur = some g →
          ((∀ m ∈ g.members, m = s.cur ∨ m ∈ g.ended) → ∀ x ∈ t.sched.gang, x.id ≠ g.id)
          ∧ (∀ m ∈ g.members, m ≠ s.cur → m ∉ g.ended → ∃ x ∈ t.sched.gang, x.id = g.id ∧ s.cur ∈ x.ended)))
    ∧ (∀ s, releaseWaits s 1 = false →
      ∃ t, exec .trigger s = .next t ∧ t.hart.triggered = true ∧ GKept s t ∧ InSequence s t ∧ ReleasedAt s t 1
        ∧ SameLive s t
        ∧ (∀ g, gangOf s s.cur = some g → ∃ x ∈ t.sched.gang, x.id = g.id ∧ s.cur ∈ x.triggered)
        ∧ AccessFrame { s with hart := { s.hart with triggered := true }, sched := { s.sched with gang := t.sched.gang } } t))

/-- FENCE completes with no effect but ordering: stores of its before-set, and what its loads may have read of other
harts of the core (12 R265), are pushed as far as the scope asks, and loads and engine commands of its after-set find no
clean copy (11 R241; 09 R174). BAR waits until every other member has arrived or exited; a member whose invalidation is
under way has not arrived (13 R295). The last arrival releases, acquires and counts (11 R242), and lets every waiting
member go on in the same step (log 23). The end of the wait asks the same again. -/
def Obligations.FencesAndBarriersComplete : Prop :=
  (∀ s scope (before after : BitVec 4),
      (before.getLsbD 1 = true → releaseWaits s scope.toNat = false) →
      ∃ t, exec (.fence scope before after) s = .next t ∧ GKept s t ∧ InSequence s t ∧ AccessFrame s t ∧ SameLive s t
        ∧ (before.getLsbD 1 = true ∨ (before.getLsbD 0 = true ∧ after.extractLsb' 1 3 ≠ 0) → ReleasedAt s t scope.toNat)
        ∧ (after.getLsbD 0 = true ∨ after.getLsbD 2 = true → AcquiredAt t scope.toNat))
  ∧ ((∀ s, releaseWaits s 1 = true → ∃ t, exec .bar s = .next t ∧ t.hart.wait = some .bar ∧ t.hart.arrived = false
      ∧ t.hart.pc = s.hart.pc ∧ GKept s t ∧ SameLive s t)
    ∧ (∀ s, releaseWaits s 1 = false →
      (barOpen s = true → ∃ t, exec .bar s = .next t ∧ InSequence s t ∧ GKept s t ∧ t.hart.bars = s.hart.bars + 1
        ∧ ReleasedAt s t 1 ∧ AcquiredAt t 1
        ∧ ∀ g, gangOf s s.cur = some g → g.members.Nodup → ∀ m ∈ barWaiters s, (getHart t m).wait = none
          ∧ (getHart t m).bars = (getHart s m).bars + 1
          ∧ (getHart t m).pc = (loopEnd (getHart s m).pc (getHart s m)).pc)
      ∧ (barOpen s = false → ∃ t, exec .bar s = .next t ∧ t.hart.wait = some .bar ∧ t.hart.pc = s.hart.pc ∧ GKept s t
        ∧ t.hart.bars = s.hart.bars ∧ t.hart.arrived = true ∧ ReleasedAt s t 1))
    ∧ (∀ h s, (getHart s h).wait = some .bar → (getHart s h).stepping = false → barOpen (focus s h) = true →
      releaseWaits (focus s h) 1 = false →
      ∃ t, exec (.barRelease h) s = .next t ∧ t.cur = h ∧ InSequence (focus s h) t
        ∧ t.hart.bars = (getHart s h).bars + 1))

/-- WAITADDR returns the reason its monitor has seen, else it waits with the monitor armed; a wake-up, a time-out that
is not 0 and an interrupt end the wait with reasons 0, 1 or 4, 3 and 2, the interrupt being taken at the next instruction
(11 R243); that under a single step BREAK, with TVAL 1, comes before the interrupt is the model's choice (DEDUCED, log 17).
PUBWM raises a word to the operand where it is larger,
after a release; WAITWM completes with an acquire once the word has reached its operand, and waits until then (11 R245). -/
def Obligations.WaitsEndForTheirReasons : Prop :=
  ((∀ gd gs1 gs2 s p, resolveKind s (readG s gs1) .load kindLocal = .ok p →
      (∀ r, s.hart.monitor = some ⟨p.pa / 128, some r⟩ → ∃ t, exec (.waitaddr gd gs1 gs2) s = .next t
        ∧ GWritten s t gd (r.setWidth 64) ∧ InSequence s t ∧ t.hart.monitor = none ∧ AccessFrame s t)
      ∧ ((∀ m, s.hart.monitor = some m → m.sector ≠ p.pa / 128 ∨ (m.wake = none ∧ p.slot / 128 ≠ p.pa / 128)) →
        s.hart.wait = none → ∃ t, exec (.waitaddr gd gs1 gs2) s = .next t
        ∧ t.hart.wait = some (.waitaddr gd gs1 gs2) ∧ t.hart.monitor = some ⟨p.pa / 128, none⟩
        ∧ t.hart.pc = s.hart.pc ∧ GKept s t))
    ∧ (∀ h s gd gs1 gs2 reason, (getHart s h).wait = some (.waitaddr gd gs1 gs2) → (getHart s h).stepping = false →
      (reason = 1 ∨ reason = 4 ∨ ∃ sec, (getHart s h).monitor = some ⟨sec, some reason⟩) →
      ∃ t, exec (.waitaddrWake h reason) s = .next t ∧ t.cur = h ∧ GWritten (focus s h) t gd (reason.setWidth 64)
        ∧ InSequence (focus s h) t ∧ t.hart.monitor = none)
    ∧ (∀ h s gd gs1 gs2, (getHart s h).wait = some (.waitaddr gd gs1 gs2) → (getHart s h).run = .running →
      interruptDue (getHart s h) = true → let u := focus s h
      ∃ t, exec (.interruptTaken h) s = .next t ∧ t.cur = h ∧ GWritten u t gd 2 ∧ t.hart.mode = .supervisor
        ∧ t.hart.pc = u.hart.tvec ∧ t.hart.tpc = (loopEnd u.hart.pc u.hart).pc ∧ t.hart.instret = u.hart.instret + 1
        ∧ t.hart.wait = none ∧ t.hart.monitor = none ∧ SameMemory u t
        ∧ (u.hart.stepping = false → t.hart.tstatus.getLsbD 15 = true)
        ∧ (u.hart.stepping = true → t.hart.tcause = 12 ∧ t.hart.tval = 1))
    ∧ (∀ h s gd gs1 gs2, (getHart s h).wait = some (.waitaddr gd gs1 gs2) → (getHart s h).stepping = false →
      readG (focus s h) gs2 ≠ 0 →
      ∃ t, exec (.waitaddrTimeout h) s = .next t ∧ t.cur = h ∧ GWritten (focus s h) t gd 3 ∧ InSequence (focus s h) t))
  ∧ ((∀ gs1 gs2 s p, (readG s gs1).toNat % 8 = 0 → resolveKind s (readG s gs1) .atomic kindShared = .ok p →
      atomicPoison s p.pa 8 = false → remoteFault s p (readG s gs1) .atomic = none → releaseWaits s 1 = false →
      p.slot < p.pa ∨ p.pa + 8 ≤ p.slot →
      ∃ t, exec (.pubwm gs1 gs2) s = .next t
        ∧ liveBytes t p.pa 8 = bytesOfNat 8 (max (natOfBytes (liveBytes s p.pa 8)) (readG s gs2).toNat)
        ∧ GKept s t ∧ InSequence s t ∧ LiveBut s t p.pa 8 p.slot ∧ PushedBut s t 1 p.pa 8 p.slot)
    ∧ (∀ gs1 gs2 s p, (readG s gs1).toNat % 8 = 0 → resolveKind s (readG s gs1) .load kindShared = .ok p →
      remoteFault s p (readG s gs1) .load = none → readPoison (discardClean (touch s p false) s.col) p.pa 8 = false →
        p.slot < p.pa ∨ p.pa + 8 ≤ p.slot →
      let old := natOfBytes (liveBytes s p.pa 8)
      ((readG s gs2).toNat ≤ old → ∃ t, exec (.waitwm gs1 gs2) s = .next t ∧ GKept s t ∧ InSequence s t ∧ AcquiredAt t 1
        ∧ LiveBut s t 0 0 p.slot)
      ∧ (old < (readG s gs2).toNat → ∃ t, exec (.waitwm gs1 gs2) s = .next t ∧ t.hart.wait = some (.waitwm gs1 gs2)
        ∧ t.hart.pc = s.hart.pc ∧ GKept s t))
    ∧ (∀ h s gs1 gs2 p, (getHart s h).wait = some (.waitwm gs1 gs2) → (getHart s h).stepping = false →
      let u := focus s h
      (readG u gs1).toNat % 8 = 0 → resolveKind u (readG u gs1) .load kindShared = .ok p →
      remoteFault u p (readG u gs1) .load = none →
      readPoison (discardClean (touch u p false) u.col) p.pa 8 = false → p.slot < p.pa ∨ p.pa + 8 ≤ p.slot →
      (readG u gs2).toNat ≤ natOfBytes (liveBytes u p.pa 8) →
      ∃ t, exec (.waitwmSatisfied h) s = .next t ∧ t.cur = h ∧ GKept u t ∧ InSequence u t ∧ AcquiredAt t 1))

/-- RNGSNAP stores the key and counter of the four generators of the core, RNGLOAD sets them from such an image (11 R252;
03 R73, R74). -/
def Obligations.GeneratorsAreSavedAndRestored : Prop :=
  (∀ gs s p, (readG s gs).toNat % 64 = 0 → resolveKind s (readG s gs) .store kindLocal = .ok p →
    ∃ t, exec (.rngsnap gs) s = .next t ∧ GKept s t ∧ InSequence s t ∧ AccessFrame s t ∧ LiveBut s t p.pa 64 p.slot
      ∧ (BufferRoom s ∨ NoStale s → MemoryBut s t p.pa 64 p.slot)
      ∧ ∀ i, i < 4 → readBytes t (p.pa + 16 * i) 8 = bytesOfNat 8 (getHart s (4 * s.col + i)).rngkey.toNat
        ∧ readBytes t (p.pa + 16 * i + 8) 8 = bytesOfNat 8 (getHart s (4 * s.col + i)).rngctr.toNat)
  ∧ (∀ gs s p, (readG s gs).toNat % 64 = 0 → resolveKind s (readG s gs) .load kindLocal = .ok p →
    readPoison s p.pa 64 = false →
    ∃ t, exec (.rngload gs) s = .next t ∧ GKept s t ∧ InSequence s t ∧ MemoryBut s t 0 0 p.slot
      ∧ ∀ i, i < 4 → (getHart t (4 * s.col + i)).rngkey = BitVec.ofNat 64 (natOfBytes (readBytes s (p.pa + 16 * i) 8))
        ∧ (getHart t (4 * s.col + i)).rngctr = BitVec.ofNat 64 (natOfBytes (readBytes s (p.pa + 16 * i + 8) 8)))

/-! ## Configuration -/

/-- At a strip boundary a user hart whose target is below its holding gives up its highest groups, unless its matrix state
is not empty; one whose target is above takes free groups up to it; the target of a hart that does not contend is 0 (06
R118; 17 R340; 01 R23, R25). In supervisor mode the boundary moves groups to RESV, where that is not 0, and the released
groups' matrix state is discarded (19 R362); which streams of the weight buffer go with them is the model's choice (DESIGN
CHOICE, log 83). Elements of live registers keep their values at their flat indices (01 R20). SETREGS declares count and maxsew, makes the hart contend, sets VL and VR to 0 and
answers VLMAX at the groups held after the boundary; another declaration makes every register and VSAT undefined; with
EN clear it is ILLEGAL; a hart without groups stalls (06 R118 to R120; 01 R23). SETLEN grants min(n, VLMAX_g) elements
of one row, SETLEN2 a tile (06 R122, R123). The end of a stall asks the same again. SETTYPE takes a legal request: VTYPE
takes it, g[gd] answers VLMAX where maxsew holds the width, else 0, and a tile that no longer fits becomes empty;
another request leaves VTYPE at 0x8000 and answers 0 (06 R121; 03 R59). -/
def Obligations.LengthsAndTypesAreGranted : Prop :=
  (∀ s, let u := afterArbiter s; let held := heldGroups s.core s.idx; let v := { s with hart := clearResv s.hart }
      let target := laneTarget v s.cur
      (contends v v.cur = false → target = 0)
      ∧ (s.hart.mode = .user → target < held.length →
        (matrixEmpty s = true → heldGroups u.core s.idx = held.take target)
        ∧ (matrixEmpty s = false → heldGroups u.core s.idx = held ∧ u.hart.v = s.hart.v))
      ∧ (s.hart.mode = .user → held.length ≤ target →
        (∀ g ∈ held, g ∈ heldGroups u.core s.idx)
        ∧ (heldGroups u.core s.idx).length
          = held.length + min (target - held.length) ((List.range 8).filter (fun g => s.core.owner.getD g none == none)).length)
      ∧ (s.hart.mode = .supervisor → let r := resvOf s.hart
        (r = 0 → u = { s with hart := { s.hart with convoy := none } })
        ∧ (r ≠ 0 → r < held.length → heldGroups u.core s.idx = held.take r ∧ u.hart.fifo = fifoKept (65536 * r) s.hart.fifo)
        ∧ (r ≠ 0 → held.length ≤ r → (∀ g ∈ held, g ∈ heldGroups u.core s.idx)
          ∧ (heldGroups u.core s.idx).length = held.length
            + min (r - held.length) ((List.range 8).filter (fun g => s.core.owner.getD g none == none)).length))
      ∧ (∀ r w e, let n := groupOf s.hart
        r % n = 0 → r + n ≤ s.hart.count → r + n ≤ 32 → e < n * min (vlmax s) (vlmax u) →
        (∀ j, j < n → isLive s.hart (r + j) = true ∧ ∃ x, s.hart.v.getD (r + j) VReg.reset = x ∧ x.mark = false
          ∧ x.rest = []) →
        elem? u r w e = elem? s r w e))
  ∧ ((∀ gd m c s, s.hart.vstate ≠ 0 → lpEn s.core.lpart s.idx = true →
      let u := afterArbiter { s with hart := { s.hart with contending := true } }
      (mustStall u = false → ∃ t, exec (.setregs gd m c) s = .next t ∧ t.hart.count = 8 * 2 ^ c.toNat
        ∧ t.hart.maxsew = 8 * 2 ^ (m.toNat - 1) ∧ t.hart.contending = true ∧ t.hart.vl = 0 ∧ t.hart.vr = 0
          ∧ t.hart.vstart = 0
        ∧ t.core.owner = u.core.owner
        ∧ GWritten s t gd (BitVec.ofNat 64 ((heldGroups u.core s.idx).length * 262144 / t.hart.count / t.hart.maxsew))
        ∧ (s.hart.count = t.hart.count ∧ s.hart.maxsew = t.hart.maxsew → t.hart.v = u.hart.v ∧ t.hart.vsat = u.hart.vsat)
        ∧ (¬(s.hart.count = t.hart.count ∧ s.hart.maxsew = t.hart.maxsew) → t.hart.vsat = []
          ∧ ∀ r w e, elem? t r w e = none)
        ∧ InSequence s t ∧ SetupFrame s t)
      ∧ (mustStall u = true → ∃ t, exec (.setregs gd m c) s = .next t ∧ t.hart.wait = some (.setregs gd m c)
        ∧ t.hart.pc = s.hart.pc ∧ GKept s t ∧ SetupFrame s t))
    ∧ (∀ gd m c s, s.hart.vstate ≠ 0 → lpEn s.core.lpart s.idx = false → s.hart.mode = .user →
      ∃ t, exec (.setregs gd m c) s = .next t ∧ TrapTaken s t 0 ((wordOf (.setregs gd m c)).setWidth 64) 3 false [])
    ∧ (∀ gd gs s, s.hart.vstate ≠ 0 → let u := afterArbiter s
      mustStall u = false →
      let n := (if s.hart.mode = .supervisor ∧ heldGroups u.core s.idx = [] then 0 else min (readG s gs).toNat (vlmaxG u))
      ∃ t, exec (.setlen gd gs) s = .next t ∧ t.hart.vl = n
        ∧ t.hart.vr = (if s.hart.mode = .supervisor ∧ heldGroups u.core s.idx = [] then 0 else 1)
        ∧ GWritten s t gd (BitVec.ofNat 64 n) ∧ t.hart.vstart = 0 ∧ InSequence s t ∧ SetupFrame s t)
    ∧ (∀ gd gs1 gs2 s, s.hart.vstate ≠ 0 → let u := afterArbiter s
      mustStall u = false → let rows := (readG s gs1).toNat; let cols := (readG s gs2).toNat
      let vl := if rows = 0 then 0 else min cols (vlmaxG u); let vr := if vl = 0 then 0 else min rows (vlmaxG u / vl)
      ∃ t, exec (.setlen2 gd gs1 gs2) s = .next t ∧ t.hart.vl = vl ∧ t.hart.vr = vr
        ∧ GWritten s t gd (BitVec.ofNat 64 (vr * 2 ^ 32 + vl)) ∧ t.hart.vstart = 0 ∧ InSequence s t ∧ SetupFrame s t)
    ∧ (∀ h gd gs s, (getHart s h).wait = some (.setlen gd gs) → (getHart s h).stepping = false →
      (getHart s h).vstate ≠ 0 → mustStall (afterArbiter (focus s h)) = false →
      ∃ t, exec (.stripBoundaryStallEnd h) s = .next t ∧ t.cur = h ∧ InSequence (focus s h) t ∧ t.hart.vstart = 0))
  ∧ (∀ gd gs (imm : BitVec 10) s, s.hart.vstate ≠ 0 →
      ∀ q ∈ [(Instr.settypeReg gd gs, (readG s gs).toNat), (Instr.settypeImm gd imm, imm.toNat)],
        (∀ ty, q.2 < 1024 → etypeOf (q.2 % 64) = some ty → ∃ t, exec q.1 s = .next t ∧ t.hart.vtype = BitVec.ofNat 16 q.2
          ∧ GWritten s t gd (if ty.width ≤ s.hart.maxsew then BitVec.ofNat 64 (vlmax s) else 0) ∧ t.hart.vstart = 0
          ∧ (let fits := s.hart.vr * s.hart.vl ≤ 2 ^ (q.2 / 64 % 4) * vlmax s
             (fits → t.hart.vr = s.hart.vr ∧ t.hart.vl = s.hart.vl) ∧ (¬fits → t.hart.vr = 0 ∧ t.hart.vl = 0))
          ∧ InSequence s t ∧ SetupFrame s t)
        ∧ (1024 ≤ q.2 ∨ etypeOf (q.2 % 64) = none → ∃ t, exec q.1 s = .next t ∧ t.hart.vtype = 0x8000 ∧ GWritten s t gd 0
          ∧ t.hart.vr = s.hart.vr ∧ t.hart.vl = s.hart.vl ∧ t.hart.vstart = 0 ∧ InSequence s t ∧ SetupFrame s t))

/-- CLAIM takes up to VLMAX_g elements from a shared pair next, limit: g[gd] takes next, VL the count, and next moves on
in one step at the home; where nothing is left nothing is written (11 R244). -/
def Obligations.ClaimsTakeTheirShare : Prop :=
  ∀ gd gs1 gs2 s p, (readG s gs1).toNat % 16 = 0 → resolveKind s (readG s gs1) .atomic kindShared = .ok p →
    atomicPoison s p.pa 16 = false → remoteFault s p (readG s gs1) .atomic = none → p.slot < p.pa ∨ p.pa + 16 ≤ p.slot →
    let u := afterArbiter s
    let idle := s.hart.mode == .supervisor && (heldGroups u.core s.idx).isEmpty
    let next := natOfBytes (liveBytes s p.pa 8); let limit := natOfBytes (liveBytes s (p.pa + 8) 8)
    let n := (if idle then 0 else min (readG s gs2).toNat (min (limit - next) (vlmaxG u)))
    (mustStall u = false → ∃ t, exec (.claim gd gs1 gs2) s = .next t ∧ t.hart.vl = n ∧ t.hart.vr = (if idle then 0 else 1)
      ∧ t.hart.vstart = 0 ∧ GWritten s t gd (BitVec.ofNat 64 next)
      ∧ natOfBytes (liveBytes t p.pa 8) = next + n ∧ liveBytes t (p.pa + 8) 8 = liveBytes s (p.pa + 8) 8
      ∧ LiveBut s t p.pa 8 p.slot ∧ InSequence s t ∧ ∃ w, SetupFrame s w ∧ AccessFrame w t)
    ∧ (mustStall u = true → ∃ t, exec (.claim gd gs1 gs2) s = .next t ∧ t.hart.wait = some (.claim gd gs1 gs2)
      ∧ t.hart.pc = s.hart.pc ∧ GKept s t ∧ SameLive s t)

/-- SETTILE clamps the shape to the rows held times the set's size, the columns from TILENOFF, and 256, and answers it
packed; a TILENOFF of 384 or more clears all (10 R196). TILEBIND answers 3 to a malformed request, 4 while weights are
queued, 2 where a partner is not of the hart's gang, 1 where one waits with another value, 0 once every partner waits with
the same set, all taking their requests; until then it waits, and the wait ends in 0 or 1: one that names a partner which
executes TILEBIND with another value ends in 1 (10 R199). That values name one set where they are equal but for the rank,
and the order of the statuses, are the model's (log 15). -/
def Obligations.TilesAreShapedAndBound : Prop :=
  (∀ gd gs1 gs2 s, s.hart.vstate ≠ 0 → s.hart.mstateen = true →
    let a := readG s gs1; let b := readG s gs2; let off := (b.extractLsb' 16 16).toNat
    ∃ t, exec (.settile gd gs1 gs2) s = .next t
      ∧ (off < 384 → t.hart.tilem = min (a.extractLsb' 0 16).toNat
            (8 * (heldGroups s.core s.idx).length * (s.hart.tileset.extractLsb' 2 2).toNat)
          ∧ t.hart.tilen = min (a.extractLsb' 16 16).toNat (384 - off)
          ∧ t.hart.tilek = min (b.extractLsb' 0 16).toNat 256 ∧ t.hart.tilenoff = off)
      ∧ (384 ≤ off → t.hart.tilem = 0 ∧ t.hart.tilen = 0 ∧ t.hart.tilek = 0 ∧ t.hart.tilenoff = 0)
      ∧ GWritten s t gd (BitVec.ofNat 64 (t.hart.tilem + t.hart.tilen * 2 ^ 16 + t.hart.tilek * 2 ^ 32
          + t.hart.tilenoff * 2 ^ 48))
      ∧ t.hart.mdirty = true ∧ t.hart.vstart = 0 ∧ t.hart.tileset = s.hart.tileset ∧ InSequence s t ∧ SetupFrame s t)
  ∧ (∀ gd gs s, s.hart.vstate ≠ 0 → s.hart.mstateen = true → let v := readG s gs
    let mine := fun h => ∃ g, gangOf s h = some g ∧ (gangOf s s.cur).map (·.id) = some g.id
    let ends := fun (k : Word) => ∃ t, exec (.tilebind gd gs) s = .next t ∧ GWritten s t gd k ∧ InSequence s t
      ∧ t.hart.tileset = s.hart.tileset ∧ SetupFrame { s with harts := t.harts } t
    (s.hart.wait ≠ some (.tilebind gd gs) →
      (tileRequestOk s.col v = false → ends 3)
      ∧ (tileRequestOk s.col v = true → s.hart.fifo ≠ [] → ends 4)
      ∧ (tileRequestOk s.col v = true → s.hart.fifo = [] → (∃ h ∈ partners s v, ¬mine h) → ends 2))
    ∧ (tileRequestOk s.col v = true → s.hart.fifo = [] → (∀ h ∈ partners s v, mine h) →
      (∃ h ∈ partners s v, ∃ w, bindValue s h = some w ∧ sameSet v w = false) → ends 1)
    ∧ (s.hart.wait = some (.tilebind gd gs) → ∃ t, exec (.tilebind gd gs) s = .next t
      ∧ (t.hart.wait = some (.tilebind gd gs)
        ∨ ∃ k, k ≤ 1 ∧ GWritten s t gd (BitVec.ofNat 64 k) ∧ InSequence s t))
    ∧ (∀ g h w x y, gangOf s s.cur = some g → h ∈ g.members → h % 4 = s.idx → h ≠ s.cur → bindValue s h = some w →
      (getHart s h).wait = some (.tilebind x y) → namesColumn w s.col = true → sameSet w v = false →
      ∃ t, exec (.tilebind gd gs) s = .next t ∧ (getHart t h).wait = none
        ∧ (getHart t h).tileset = (getHart s h).tileset ∧ (x ≠ 0 → (getHart t h).g[x.toNat] = 1))
    ∧ (tileRequestOk s.col v = true → s.hart.fifo = [] →
      (∀ h ∈ partners s v, ∃ g, gangOf s h = some g ∧ (gangOf s s.cur).map (·.id) = some g.id
        ∧ ∃ w, bindValue s h = some w ∧ sameSet v w = true) →
      ∃ t, exec (.tilebind gd gs) s = .next t ∧ GWritten s t gd 0 ∧ InSequence s t ∧ t.hart.tileset = v
        ∧ ∀ h ∈ partners s v, (getHart t h).wait = none ∧ bindValue s h = some (getHart t h).tileset)
    ∧ (tileRequestOk s.col v = true → s.hart.fifo = [] →
      (∀ h ∈ partners s v, ∃ g, gangOf s h = some g ∧ (gangOf s s.cur).map (·.id) = some g.id ∧ bindValue s h = none) →
      partners s v ≠ [] → ∃ t, exec (.tilebind gd gs) s = .next t ∧ t.hart.wait = some (.tilebind gd gs)
        ∧ t.hart.pc = s.hart.pc ∧ GKept s t ∧ t.hart.tileset = s.hart.tileset))
  ∧ (∀ h gd gs s, (getHart s h).wait = some (.tilebind gd gs) → (getHart s h).stepping = false →
    (getHart s h).vstate ≠ 0 → (getHart s h).mstateen = true → let u := focus s h; let v := readG u gs
    tileRequestOk u.col v = true → u.hart.fifo = [] →
    (∀ x ∈ partners u v, ∃ g, gangOf u x = some g ∧ (gangOf u u.cur).map (·.id) = some g.id
      ∧ ∃ w, bindValue u x = some w ∧ sameSet v w = true) →
    ∃ t, exec (.tilebindPartnersMet h) s = .next t ∧ t.cur = h ∧ GWritten u t gd 0 ∧ InSequence u t ∧ t.hart.tileset = v)

/-! ## Scheduling -/

/-- A record is rejected where no tenant stands (log 26) or a rule of 17 R335 is broken, turned away where its queue
holds 64 or the tenant's quota is reached, and else stands last in its queue; LAUNCH answers 2, 1, 0 after a release (11
R246), the queue port Completer Abort, Request Retry, Successful Completion (24 R403), whose numbers 4, 2 and 0 are
those of PCI Express (log 46). -/
def Obligations.SubmissionsAreAnswered : Prop :=
  (∀ s asid bs via, (tenantOf s asid = none → submit s asid bs via = (s, .rejected))
    ∧ ∀ x, tenantOf s asid = some x → let q := (parseLaunch bs).queue
      (recordOk s x asid bs = false → submit s asid bs via = (s, .rejected))
      ∧ (recordOk s x asid bs = true → 64 ≤ (queueOf s q).length ∨ x.spec.quota ≤ queuedBy s asid →
        submit s asid bs via = (s, .busy))
      ∧ (recordOk s x asid bs = true → (queueOf s q).length < 64 → queuedBy s asid < x.spec.quota →
        ∃ t r, submit s asid bs via = (t, .accepted) ∧ queueOf t q = queueOf s q ++ [r] ∧ r.rcd = parseLaunch bs
          ∧ r.asid = asid ∧ r.via = via ∧ r.aged = false ∧ (∀ k, k ≠ q → queueOf t k = queueOf s k)))
  ∧ (∀ gd gs s p, s.hart.request = none → (readG s gs).toNat % 128 = 0 →
    resolveKind s (readG s gs) .load kindMemory = .ok p → kindLocal (pteKind p.pte) = true →
    readPoison s p.pa 128 = false → releaseWaits s 1 = false →
    let r := submit s s.hart.asid (readBytes (touch (release s 1) p false) p.pa 128)
    ∃ t, exec (.launch gd gs) s = .next t ∧ GWritten s t gd (BitVec.ofNat 64 r.2.code) ∧ t.sched = r.1.sched
      ∧ InSequence s t ∧ t.hart.sb = [] ∧ PushedBut s t 1 0 0 p.slot ∧ LiveBut s t 0 0 p.slot)
  ∧ (∀ func rcd s asid, s.host.bootFail = none → (funcOf s func).tenant = some asid → rcd.length = 128 →
    ∃ t, exec (.queuePortEnqueue func rcd) s = .next t ∧ t.sched = (submit s asid rcd (some func)).1.sched
      ∧ t.host.completion = (match (submit s asid rcd (some func)).2 with | .accepted => 0 | .busy => 2 | .rejected => 4)
      ∧ t.hart = s.hart ∧ t.ms = s.ms)

/-- DISPATCH places the first candidate that fits, a record or a node of a replay: its harts start in user mode at the
record's entry with its registers, as a gang with a number of its own, and the record leaves its queue; a graph's record
starts a replay and no gang of its own. That g1 to g31 are 0 at a task's start is the model's choice (DESIGN CHOICE, log
3), as is that PTBASE is the tenant's (log 52); the order of candidates and columns follows log
57; a replay with signals to make goes on first, of which this states nothing. A candidate of PRIO 0 or 1 that cannot be
placed pre-empts gangs of its tenant of PRIO 4 to 7 (17 R336 to R339, R347; 01 R33). AGING raises an eligible head once
(R337). A host write to a graph register that no replay is bound to sets an image address or, where legal, VALID and the
count of nodes; one to a bound register changes nothing; PUBLISH exchanges current and staging image (17 R342, R343). -/
def Obligations.TasksAndGraphsAreScheduled : Prop :=
  let started := fun (s t : State) (x : Tenant) (asid : BitVec 16) (r : LaunchRecord) (cs : List Nat) (m : Nat) =>
    colOf m ∈ cs ∧ slotFree s m = true ∧ let h := getHart t m
      h.run = .running ∧ h.mode = .user ∧ h.pc = r.entry ∧ h.taskarg = r.args ∧ h.tvec = x.spec.vector &&& ~~~(3 : Word)
      ∧ h.ptbase = x.spec.ptbase ∧ h.asid = asid ∧ h.mstateen = r.array ∧ h.vstate = 1
      ∧ h.gangsize = BitVec.ofNat 64 (r.gang * r.harts) ∧ h.g = Vector.replicate 32 0
  let still := fun (s : State) => ∀ r ∈ s.sched.replay, r.signals = []
  ((∀ cols s k q rest x cs, still s → candidates s = (k, .head q) :: rest → q.rcd.graph = false →
      tenantOf s q.asid = some x → placeOn s q.asid q.rcd cols = some cs →
      ∃ t g, exec (.dispatch cols false) s = .next t ∧ g ∈ t.sched.gang ∧ g.task = q.id ∧ g.asid = q.asid ∧ g.rcd = q.rcd
        ∧ (∀ y ∈ s.sched.gang, y ∈ t.sched.gang ∧ y.id ≠ g.id) ∧ queueOf t q.rcd.queue = (queueOf s q.rcd.queue).drop 1
        ∧ ∀ m ∈ g.members, started s t x q.asid q.rcd cs m)
    ∧ (∀ cols s k r n rest x cs, still s → candidates s = (k, .node r n) :: rest → tenantOf s r.asid = some x →
      placeOn s r.asid n.rcd cols = some cs →
      ∃ t g, exec (.dispatch cols false) s = .next t ∧ g ∈ t.sched.gang ∧ g.asid = r.asid
        ∧ g.rcd = { n.rcd with queue := r.rcd.queue } ∧ g.node = some (r.id, n.succ)
        ∧ (∀ y ∈ s.sched.gang, y ∈ t.sched.gang ∧ y.id ≠ g.id) ∧ (∀ j, queueOf t j = queueOf s j)
        ∧ ∀ m ∈ g.members, started s t x r.asid n.rcd cs m)
    ∧ (∀ cols s k q rest x, still s → candidates s = (k, .head q) :: rest → q.rcd.graph = true →
      tenantOf s q.asid = some x → ∃ t, exec (.dispatch cols false) s = .next t ∧ t.sched.gang = s.sched.gang
        ∧ queueOf t q.rcd.queue = (queueOf s q.rcd.queue).drop 1 ∧ ∀ j, j ≠ q.rcd.queue → queueOf t j = queueOf s j)
    ∧ (∀ cols s k c rest, still s → candidates s = (k, c) :: rest → c.prio ≤ 1 → c.rcd.graph = false →
      placeOn s c.asid c.rcd [] = none →
      ∃ t, exec (.dispatch cols true) s = .next t ∧ ∀ g ∈ victimsFor s c.asid c.rcd, 4 ≤ g.rcd.prio ∧ g.asid = c.asid
        ∧ ∀ m ∈ g.members, inSlot g m = true → (getHart t m).tstatus.getLsbD 5 = true)
    ∧ (∀ k s q rest x, queueOf s k = q :: rest → eligible s q = true → q.aged = false → tenantOf s q.asid = some x →
      x.qage ≠ 0 → ∃ t, exec (.aging k) s = .next t ∧ queueOf t k = { q with aged := true } :: rest
        ∧ (∀ j, j ≠ k → queueOf t j = queueOf s j) ∧ t.sched.gang = s.sched.gang ∧ t.hart = s.hart))
  ∧ (∀ func g s asid, s.host.bootFail = none → (funcOf s func).tenant = some asid → tearingDown s asid = false → g < 64 →
      let x := graphReg s asid g
      (∀ off v, x.bound0 + x.bound1 = 0 → ∃ t, exec (.graphRegisterWrite func g off v) s = .next t ∧ t.hart = s.hart
        ∧ (∀ k, k ≠ graphKey asid g → mapGet? t.sched.graph k = mapGet? s.sched.graph k)
        ∧ let n := (v.extractLsb' 0 13).toNat
          (off = 0x00 → graphReg t asid g = { x with img0 := v }) ∧ (off = 0x08 → graphReg t asid g = { x with img1 := v })
          ∧ (off = 0x10 → v &&& 0x7FFEE000 = 0 → (v.getLsbD 31 = true → 0 < n ∧ n ≤ 4096) →
            graphReg t asid g = { x with valid := v.getLsbD 31, nodes := n })
          ∧ (off = 0x10 → ¬(v &&& 0x7FFEE000 = 0 ∧ (v.getLsbD 31 = true → 0 < n ∧ n ≤ 4096)) → graphReg t asid g = x))
      ∧ (∀ off v, x.bound0 + x.bound1 ≠ 0 → ∃ t, exec (.graphRegisterWrite func g off v) s = .next t
        ∧ graphReg t asid g = x)
      ∧ (∃ t, exec (.publish func g) s = .next t ∧ graphReg t asid g = { x with cur := !x.cur }
        ∧ (∀ k, k ≠ graphKey asid g → mapGet? t.sched.graph k = mapGet? s.sched.graph k) ∧ t.hart = s.hart))

/-! ## Vector instructions -/

/-- The checks of a vector instruction come in the order VOFF, MOFF, ILLEGAL, VTYPE, CONVOY, each with its TVAL (04 R90,
R93; 01 R10, R31), and then POISON, where what it reads at once has an uncorrectable granule (24 R415; its place and
reach are the model's, log 58); nothing else stops it before its elements. One that fails is taken as a trap with no
other effect. -/
def Obligations.VectorChecksComeInOrder : Prop :=
  (∀ s (q : VReq),
    let regsOk := (∀ r ∈ q.groupReads ++ q.groupWrites, r % groupOf s.hart = 0 ∧ r + groupOf s.hart ≤ s.hart.count)
      ∧ (∀ r ∈ q.singleReads ++ q.singleWrites, r < s.hart.count) ∧ (q.masked = true → 0 ∉ q.groupWrites) ∧ q.clash = false
    let typeOk := ∀ f, q.accept = some f →
      ∃ ty, etype? s.hart = some ty ∧ f ty = true ∧ ty.width ≤ s.hart.maxsew ∧ q.typeOk = true
    let convoyOk := q.c = true ∨ ∀ k v, q.cls = some k → s.hart.convoy = some v →
      k ∉ v.classes ∧ (∀ r ∈ writesOf s q, r ∉ v.writes) ∧ ∀ r ∈ readsOf s q, r ∉ v.late
    let off := q.needsVector = true ∧ s.hart.vstate = 0
    let moff := q.array = true ∧ s.hart.mstateen = false
    let word : Word := q.word.setWidth 64
    (off → checkVector s q = some ⟨3, word, 3⟩) ∧ (¬off → moff → checkVector s q = some ⟨10, word, 3⟩)
    ∧ (¬off → ¬moff → ¬regsOk → checkVector s q = some ⟨0, word, 3⟩)
    ∧ (¬off → ¬moff → regsOk → ¬typeOk → checkVector s q = some ⟨2, s.hart.vtype.setWidth 64, 3⟩)
    ∧ (¬off → ¬moff → regsOk → typeOk → ¬convoyOk → checkVector s q = some ⟨1, word, 3⟩)
    ∧ (¬off → ¬moff → regsOk → typeOk → convoyOk →
      checkVector s q = if poisonedStart s q then some ⟨14, 0, 3⟩ else none)
    ∧ (NoneBad s → poisonedStart s q = false))
  ∧ (∀ r ∈ integerResults, ∀ x s c, s.hart.mode = .user → checkVector s (vopReq (r.1 x) r.2.1 x acceptInt) = some c →
    ∃ t, exec (r.1 x) s = .next t ∧ TrapTaken s t c.cause c.tval c.acc false [])
  ∧ (∀ r ∈ vectorLoads ++ vectorStores, ∀ x s c, s.hart.mode = .user → checkVector s (r.2.1 s x) = some c →
    ∃ t, exec (r.1 x) s = .next t ∧ TrapTaken s t c.cause c.tval c.acc false [])

/-- Integer vector instructions on elements of the type's width: every active element from VSTART gets its row's result
from its operands as they were, others follow the policies, and nothing else changes (07 R129 to R132; 06 R126; 02 R49).
An interrupt cuts a vector instruction only between element groups, at the index that the turn names (DESIGN CHOICE, log 6): elements below the index are written, the others are
as they were, VSTART names the index, and the trap returns to the instruction (01 R7; 06 R127; 19 R356). -/
def Obligations.IntegerVectorsComplete : Prop :=
  (∀ r ∈ integerResults, ∀ x s, checkVector s (vopReq (r.1 x) r.2.1 x acceptInt) = none → NoStop s →
      ∃ t, exec (r.1 x) s = .next t
        ∧ (∀ e a b, InTile s e → active s x.m e = true → regOf s x.vd.toNat e < 32 →
          OperandsAre s x r.2.2.1 (sew s) e a b → elem? t x.vd.toNat (sew s) e = some (r.2.2.2 (sew s) a b))
        ∧ PoliciesApplied s t x.vd.toNat (sew s) x.m ∧ RegistersTracked s t x.vd.toNat ∧ VectorDone s t)
  ∧ (∀ r ∈ integerResults, ∀ x s k, checkVector s (vopReq (r.1 x) r.2.1 x acceptInt) = none →
      interruptDue s.hart = true → s.hart.stepping = false → s.hart.stopAt = some k → compacted s x.m x.d = false →
      NoneBad s → k % groupElems s (sew s) = 0 → s.hart.vstart.toNat < k → k < tileSize s →
      ∃ t, exec (r.1 x) s = .next t ∧ t.hart.vstart = BitVec.ofNat 32 k ∧ t.hart.mode = .supervisor
        ∧ t.hart.tpc = s.hart.pc ∧ t.hart.pc = s.hart.tvec ∧ t.hart.tstatus.getLsbD 15 = true
        ∧ t.hart.instret = s.hart.instret ∧ GKept s t
        ∧ (∀ e a b, InTile s e → e < k → active s x.m e = true → regOf s x.vd.toNat e < 32 →
          OperandsAre s x r.2.2.1 (sew s) e a b → elem? t x.vd.toNat (sew s) e = some (r.2.2.2 (sew s) a b))
        ∧ ∀ e, k ≤ e → e < tileSize s → regOf s x.vd.toNat e < 32 →
          elem? t x.vd.toNat (sew s) e = elem? s x.vd.toNat (sew s) e)

/-- VSADD and VSSUB clamp the exact result to the range of the type and record in VSAT whether they did (07 R133; 03 R68);
VMERGE takes the second operand where the mask bit is set, else the first (R134). VCMP and VFCMP write the truth of their
condition as mask bits of a single register (07 R135, R136, R140). -/
def Obligations.SaturationsMergesAndComparisons : Prop :=
  ((∀ r ∈ [(Instr.vsadd, fun (a b : Int) => a + b), (Instr.vssub, fun a b => a - b)], ∀ x s ty,
      checkVector s (vopReq (r.1 x) .alu x acceptInt) = none → NoStop s → etype? s.hart = some ty →
      let w := ty.width
      let value := fun (n : Nat) => if ty = .int w then signedOf w n else (n : Int)
      let lo : Int := if ty = .int w then -(2 ^ (w - 1) : Nat) else 0
      let hi : Int := if ty = .int w then (2 ^ (w - 1) : Nat) - 1 else (2 ^ w : Nat) - 1
      ∃ t, exec (r.1 x) s = .next t
        ∧ (∀ e a b, InTile s e → active s x.m e = true → regOf s x.vd.toNat e < 32 → OperandsAre s x false w e a b →
          let exact := r.2 (value a) (value b)
          elem? t x.vd.toNat w e = some (wrapped w (max lo (min hi exact)))
          ∧ mapGet? t.hart.vsat e = some (decide (exact < lo ∨ hi < exact)))
        ∧ (∀ e, ¬(InTile s e ∧ active s x.m e = true) → mapGet? t.hart.vsat e = mapGet? s.hart.vsat e)
        ∧ PoliciesApplied s t x.vd.toNat w x.m ∧ RegistersTracked s t x.vd.toNat
        ∧ VectorDone { s with hart := { s.hart with vsat := t.hart.vsat } } t)
    ∧ (∀ x s, checkVector s (vopReq (.vmerge x) .alu x acceptInt) = none → NoStop s →
      ∃ t, exec (.vmerge x) s = .next t
        ∧ (∀ e a b k, InTile s e → regOf s x.vd.toNat e < 32 → OperandsAre s x false (sew s) e a b →
          maskBit? s 0 e = some k → elem? t x.vd.toNat (sew s) e = some (if k then b else a))
        ∧ PoliciesApplied s t x.vd.toNat (sew s) false ∧ RegistersTracked s t x.vd.toNat ∧ VectorDone s t))
  ∧ ((∀ c ∈ compareResults, ∀ x s, checkVector s (cmpReq s (.vcmp x c.1) .alu x acceptInt) = none → NoStop s →
      ∃ t, exec (.vcmp x c.1) s = .next t
        ∧ (∀ e a b, InTile s e → active s x.m e = true → x.vd.toNat < 32 → OperandsAre s x false (sew s) e a b →
          maskBit? t x.vd.toNat e = some (c.2 (sew s) a b))
        ∧ MaskPolicies s t x.vd.toNat x.m ∧ VectorDone s t)
    ∧ (∀ x cond s, checkVector s (cmpReq s (.vfcmp x cond) .fma x acceptFloat8) = none → NoStop s →
      let f := fmtD s; let rd := readF f (ftzOf s.hart)
      ∃ t, exec (.vfcmp x cond) s = .next t
        ∧ (∀ e a b, InTile s e → active s x.m e = true → OperandsAre s x false f.width e a b →
          let un := (rd a).isNan || (rd b).isNan; let c := fcmp (rd a) (rd b)
          ∃ k, maskBit? t x.vd.toNat e = some k
            ∧ (cond = 0 → k = (!un && c == 0)) ∧ (cond = 1 → k = (un || c != 0)) ∧ (cond = 2 → k = (!un && decide (c < 0)))
            ∧ (cond = 3 → k = (!un && decide (c ≤ 0))) ∧ (cond = 4 → k = (!un && decide (0 < c)))
            ∧ (cond = 5 → k = (!un && decide (0 ≤ c))) ∧ (cond = 6 → k = un) ∧ (cond = 7 → k = !un))
        ∧ MaskPolicies s t x.vd.toNat x.m ∧ VectorDone s t))

/-- Floating-point instructions round each exact result once under the hart's mode, select or sign as their row says, and
gather their flags into FFLAGS (07 R137 to R139; 03 R61, R64). Square roots, classes and special functions give every
active element its row's result (07 R138, R141 to R143). -/
def Obligations.FloatVectorsComplete : Prop :=
  (∀ r ∈ floatResults, ∀ x s, checkVector s (r.2.1 x) = none → NoStop s →
      let f := fmtD s
      let value := fun e => r.2.2 s f (operandsOf s x false f.width e).1 (operandsOf s x false f.width e).2
        (elem s 3 x.vd.toNat f.width e)
      ∃ t, exec (r.1 x) s = .next t
        ∧ (∀ e, InTile s e → active s x.m e = true → regOf s x.vd.toNat e < 32 →
          elem? t x.vd.toNat f.width e = some ((value e).1 % 2 ^ f.width))
        ∧ t.hart.fflags = s.hart.fflags ||| gatheredFlags s x.m (fun e => (value e).2)
        ∧ PoliciesApplied s t x.vd.toNat f.width x.m ∧ RegistersTracked s t x.vd.toNat
        ∧ VectorDone (withFlags s t.hart.fflags) t)
  ∧ (∀ r ∈ unaryResults, ∀ x s, checkVector s (vunReq (r.1 x) .fma x r.2.1) = none → NoStop s →
      let f := fmtD s
      let value := fun e => r.2.2 s f (elem s 2 x.vs2.toNat f.width e)
      ∃ t, exec (r.1 x) s = .next t
        ∧ (∀ e, InTile s e → active s x.m e = true → regOf s x.vd.toNat e < 32 →
          elem? t x.vd.toNat f.width e = some ((value e).1 % 2 ^ f.width))
        ∧ t.hart.fflags = s.hart.fflags ||| gatheredFlags s x.m (fun e => (value e).2)
        ∧ PoliciesApplied s t x.vd.toNat f.width x.m ∧ RegistersTracked s t x.vd.toNat
        ∧ VectorDone (withFlags s t.hart.fflags) t)

/-- VCVT and VDEQ convert the exact value of every active element, scaled where a type is, and saturate it to the type
of VTYPE with its VSAT bit; under SR they draw, and RNGCTR moves on. An instruction that goes on after its generators
were reloaded gives undefined elements (03 R74; their flags are the model's, log 66). A scale that is no code traps with
FORMAT at the element (03 R57, R58, R63; 07 R144 to R147). VRAND draws its bits from the generator and moves it on
(R148). VQUANT gives every block of eight columns the code of its largest finite magnitude, writes the codes to v1, and
quantises every active element under its block's code; a block that it goes on inside keeps the code it had (03 R57; 07
R146). -/
def Obligations.ConversionsAndQuantisation : Prop :=
  ((∀ x code s, ∀ i ∈ [Instr.vcvt x code, Instr.vdeq x code],
      let src := srcType code; let dst := etypeD s; let deq := decide (i = .vdeq x code)
      let scaled := deq || isScaled src || (etype? s.hart).any isScaled
      let q := cvtReq s i x src scaled scaled (if deq then acceptFloat else fun _ => true)
      let bits := fun e => elem s 2 x.vs2.toNat src.width e
      let value := fun e => if deq then (fmul (valueOf src false (bits e)) (scaleValue s e)).1
        else operandValue s src (ftzOf s.hart) (bits e) e
      let r := fun e => if isScaled dst then saturateScaled s e (rndModeSR s.hart e) (ftzOf s.hart) (value e)
        else saturateTo dst (rndModeSR s.hart e) (ftzOf s.hart) (value e)
      let runs := fun e => InTile s e ∧ active s x.m e = true
      checkVector s q = none → NoStop s →
      ((∀ e, runs e → scaled = true → scaleTrap s e = none) →
        ∃ t, exec i s = .next t
          ∧ ((drawsNow s && drawsUndefined s) = false →
            (∀ e, runs e → regOf s x.vd.toNat e < 32 → elem? t x.vd.toNat dst.width e = some ((r e).bits % 2 ^ dst.width))
            ∧ ∀ e, runs e → mapGet? t.hart.vsat e = some (r e).sat)
          ∧ t.hart.fflags = s.hart.fflags ||| gatheredFlags s x.m (fun e => (r e).flags)
          ∧ (s.hart.vstart.toNat < tileSize s → t.hart.rngctr
              = s.hart.rngctr + (if rmOf s.hart = 4 then BitVec.ofNat 64 (tileSize s) else 0))
          ∧ PoliciesApplied s t x.vd.toNat dst.width x.m ∧ RegistersTracked s t x.vd.toNat
          ∧ VectorDone { s with hart := { s.hart with
              vsat := t.hart.vsat, fflags := t.hart.fflags, rngctr := t.hart.rngctr } } t)
      ∧ (∀ e c, scaled = true → s.hart.mode = .user → runs e → scaleTrap s e = some c →
        (∀ e', e' < e → runs e' → scaleTrap s e' = none) →
        ∃ t, exec i s = .next t ∧ t.hart.mode = .supervisor ∧ t.hart.tcause = 8 ∧ t.hart.tval = c.tval
          ∧ t.hart.tpc = s.hart.pc ∧ (s.hart.vstart.toNat < e → t.hart.vstart = BitVec.ofNat 32 e) ∧ GKept s t))
    ∧ (∀ c vd m d s, checkVector s { vreq (wordOf (.vrand c vd m d)) .alu c with
        groupWrites := [vd.toNat], masked := m, accept := some acceptRand } = none → NoStop s →
      ∃ t, exec (.vrand c vd m d) s = .next t
        ∧ (drawsUndefined s = false → ∀ e, InTile s e → active s m e = true → regOf s vd.toNat e < 32 →
          elem? t vd.toNat (sew s) e
          = some (randBits (etypeD s) (mix s.hart.rngkey (s.hart.rngctr + BitVec.ofNat 64 e)) % 2 ^ sew s))
        ∧ (s.hart.vstart.toNat < tileSize s → t.hart.rngctr = s.hart.rngctr + BitVec.ofNat 64 (tileSize s))
        ∧ PoliciesApplied s t vd.toNat (sew s) m ∧ RegistersTracked s t vd.toNat
        ∧ VectorDone { s with hart := { s.hart with rngctr := t.hart.rngctr } } t))
  ∧ (∀ x code s, let src := srcType code; let dst := etypeD s
      let i := Instr.vquant x code
      let r := fun e => quantElem s dst (blockCode s x src dst e) e (quantSource s x src e)
      let runs := fun e => InTile s e ∧ active s x.m e = true
      checkVector s { cvtReq s i x src true false acceptQuant with writesScales := true } = none → NoStop s →
      bandScaleOk s.hart.vbscale.toNat = true →
      ∃ t, exec i s = .next t
        ∧ (∀ e b fl k, runs e → e < vlmaxG s → regOf s x.vd.toNat e < 32 → r e = .write b fl (some k) →
          elem? t x.vd.toNat dst.width e = some (b % 2 ^ dst.width) ∧ mapGet? t.hart.vsat e = some k)
        ∧ (∀ e, runs e → elem? t 1 8 (scaleIndex s e) = some (blockCode s x src dst e % 256))
        ∧ (∀ e, runs e → keptBlock s e = none → blockCode s x src dst e = quantCode (quantMax dst) (decodeF bf16 s.hart.vbscale.toNat)
            (largestMag (((blockOf s e).filter (active s x.m)).filterMap (fun j => finiteMag (quantSource s x src j)))))
        ∧ (∀ e b, keptBlock s e = some b → blockCode s x src dst e = b.1)
        ∧ InSequence s t ∧ GKept s t ∧ SameMemory s t ∧ t.hart.vstart = 0
        ∧ VectorFrame { s with hart := { s.hart with
            vsat := t.hart.vsat, fflags := t.hart.fflags, rngctr := t.hart.rngctr } } t)

/-- Mask instructions: VMLOG combines bits, VMVSAT copies VSAT, VMPOPC counts and VMFIRST finds active set bits, VIOTA
counts those below each index, VCOMPRESS packs and VEXPAND spreads the selected elements (08 R154 to R160). -/
def Obligations.MaskInstructionsComplete : Prop :=
  (∀ c vd vs1 vs2 op s, checkVector s (vmlogReq s c vd vs1 vs2 op) = none → NoneBad s →
    ∃ t, exec (.vmlog c vd vs1 vs2 op) s = .next t
      ∧ (∀ e a b, InTile s e → maskBit? s vs1.toNat e = some a → maskBit? s vs2.toNat e = some b →
        maskBit? t vd.toNat e = some (maskLogic op a b))
      ∧ MaskPolicies s t vd.toNat false ∧ VectorDone s t)
  ∧ (∀ c vd s, checkVector s { maskReq (.vmvsat c vd) .alu c false none with singleWrites := [vd.toNat] } = none →
    ∃ t, exec (.vmvsat c vd) s = .next t
      ∧ (∀ e a, InTile s e → mapGet? s.hart.vsat e = some a → maskBit? t vd.toNat e = some a)
      ∧ MaskPolicies s t vd.toNat false ∧ VectorDone s t)
  ∧ (∀ c gd vs2 m s,
    let set := (List.range (tileSize s)).filter (fun e => active s m e && maskBit s 1 vs2.toNat e)
    (checkVector s (maskScalarReq s (.vmpopc c gd vs2 m) c vs2 m) = none → ∃ t, exec (.vmpopc c gd vs2 m) s = .next t
      ∧ GWritten s t gd (BitVec.ofNat 64 set.length) ∧ t.hart.vstart = 0 ∧ InSequence s t ∧ VectorFrame s t
        ∧ SameMemory s t)
    ∧ (checkVector s (maskScalarReq s (.vmfirst c gd vs2 m) c vs2 m) = none → ∃ t, exec (.vmfirst c gd vs2 m) s = .next t
      ∧ GWritten s t gd (match set.head? with | some e => BitVec.ofNat 64 e | none => -1) ∧ t.hart.vstart = 0
      ∧ InSequence s t ∧ VectorFrame s t ∧ SameMemory s t))
  ∧ (∀ c vd vs2 m s, checkVector s (viotaReq s c vd vs2 m) = none →
    ∃ t, exec (.viota c vd vs2 m) s = .next t
      ∧ (∀ e, InTile s e → active s m e = true → regOf s vd.toNat e < 32 → elem? t vd.toNat (sew s) e
        = some (((List.range e).filter (fun i => active s m i && maskBit s 1 vs2.toNat i)).length % 2 ^ sew s))
      ∧ PoliciesApplied s t vd.toNat (sew s) m ∧ RegistersTracked s t vd.toNat ∧ VectorDone s t)
  ∧ (∀ c vd vs2 s, let es := (List.range (tileSize s)).filter (fun e => maskBit s 0 0 e); let w := sew s
    (checkVector s (vcompressReq s c vd vs2) = none → ∃ t, exec (.vcompress c vd vs2) s = .next t
      ∧ (∀ j e, s.hart.vstart.toNat < tileSize s → s.hart.vstart.toNat ≤ j → es[j]? = some e → regOf s vd.toNat j < 32 →
        elem? t vd.toNat w j = some (elem s 2 vs2.toNat w e % 2 ^ w))
      ∧ (∀ j, s.hart.vstart.toNat < tileSize s → s.hart.vstart.toNat ≤ j → es.length ≤ j → j < vlmaxG s →
        regOf s vd.toNat j < 32 → elem? t vd.toNat w j = if vtTZ s.hart then some 0 else elem? s vd.toNat w j)
      ∧ RegistersTracked s t vd.toNat ∧ VectorDone s t)
    ∧ (checkVector s (vexpandReq s c vd vs2) = none → ∃ t, exec (.vexpand c vd vs2) s = .next t
      ∧ (∀ j e, es[j]? = some e → InTile s e → regOf s vd.toNat e < 32 →
        elem? t vd.toNat w e = some (elem s 2 vs2.toNat w j % 2 ^ w))
      ∧ PoliciesApplied s t vd.toNat w true ∧ RegistersTracked s t vd.toNat ∧ VectorDone s t))

/-- Reductions combine the seed of each row with the row's active elements in order, or under TILE with those of the tile;
floating-point sums go up a fixed tree (03 R69; 08 R161 to R163). That the flags of every row are gathered, of those below
VSTART too, is the model's choice (DESIGN CHOICE, log 70). Slides, gathers, broadcasts and moves give each active
element the element or scalar that its rule names, read before anything is written (08 R164 to R169). -/
def Obligations.ReductionsAndPermutationsComplete : Prop :=
  ((∀ r ∈ reductionResults, ∀ x s, checkVector s (redReq s (r.1 x) x acceptInt) = none →
      ∃ t, exec (r.1 x) s = .next t
        ∧ (∀ row ∈ redRows s x, s.hart.vstart.toNat < tileSize s → s.hart.vstart.toNat ≤ row.1 →
          regOf s x.vd.toNat row.1 < 32 →
          (∀ e, some e ∈ row.2 → elem s 2 x.vs2.toNat (sew s) e < 2 ^ sew s) →
            elem s 1 x.vs1.toNat (sew s) row.1 < 2 ^ sew s →
          elem? t x.vd.toNat (sew s) row.1 = some (((row.2.filterMap id).map (elem s 2 x.vs2.toNat (sew s))).foldl
            (r.2 (sew s)) (elem s 1 x.vs1.toNat (sew s) row.1)))
        ∧ RegistersTracked s t x.vd.toNat ∧ VectorDone s t)
    ∧ (∀ r ∈ [(Instr.vfredsum, acceptFloat, fun s => sumRow s (fmtD s)), (Instr.vfredmin, acceptFloat8, fun s => selectRow s false),
        (Instr.vfredmax, acceptFloat8, fun s => selectRow s true)], ∀ x s,
      checkVector s (redReq s (r.1 x) x r.2.1) = none → let w := sew s
      let value := fun (row : Nat × List (Option Nat)) => r.2.2 s (elem s 1 x.vs1.toNat w row.1)
        (row.2.map (fun p => p.map (elem s 2 x.vs2.toNat w)))
      ∃ t, exec (r.1 x) s = .next t
        ∧ (∀ row ∈ redRows s x, s.hart.vstart.toNat < tileSize s → s.hart.vstart.toNat ≤ row.1 →
          regOf s x.vd.toNat row.1 < 32 → elem? t x.vd.toNat w row.1 = some ((value row).1 % 2 ^ w))
        ∧ t.hart.fflags = s.hart.fflags ||| (if s.hart.vstart.toNat < tileSize s
            then (redRows s x).foldl (fun fl row => fl ||| (value row).2) 0 else 0)
        ∧ RegistersTracked s t x.vd.toNat ∧ VectorDone (withFlags s t.hart.fflags) t)
    ∧ (∀ x s, x.tile = false → redRows s x = (List.range s.hart.vr).map (fun r => (r, (List.range s.hart.vl).map (fun c =>
        if active s x.m (r * s.hart.vl + c) then some (r * s.hart.vl + c) else none)))))
  ∧ (∀ c m form s (vd s1 vs1 vs2 gs gd : Reg), let w := sew s; let n := tileSize s
      let k := if form = 1 then (readG s s1).toNat else s1.toNat
      let src := fun e => elem s 2 vs2.toNat w e % 2 ^ w
      let full := fun (i : Instr) (value : Nat → Nat) => ∃ t, exec i s = .next t
        ∧ (∀ e, InTile s e → active s m e = true → regOf s vd.toNat e < 32 → elem? t vd.toNat w e = some (value e))
        ∧ PoliciesApplied s t vd.toNat w m ∧ RegistersTracked s t vd.toNat ∧ VectorDone s t
      (checkVector s (slidednReq s c vd s1 vs2 m form) = none →
        full (.vslidedn c vd s1 vs2 m form) (fun e => if e + k < n then src (e + k) else 0))
      ∧ (checkVector s (slideupReq s c vd s1 vs2 m form) = none →
        ∃ t, exec (.vslideup c vd s1 vs2 m form) s = .next t
          ∧ (∀ e, InTile s e → active s m e = true → regOf s vd.toNat e < 32 →
            elem? t vd.toNat w e = if k ≤ e then some (src (e - k)) else elem? s vd.toNat w e)
          ∧ PoliciesApplied s t vd.toNat w m ∧ RegistersTracked s t vd.toNat ∧ VectorDone s t)
      ∧ (checkVector s (vgathervReq s c vd vs1 vs2 m) = none →
        full (.vgatherv c vd vs1 vs2 m)
          (fun e => if elem s 1 vs1.toNat w e < n then src (elem s 1 vs1.toNat w e) else 0))
      ∧ (checkVector s (vbcastReq s c vd s1 m form) = none →
        full (.vbcast c vd s1 m form)
          (fun _ => (if form = 1 then (readG s s1).toNat else (s1.signExtend 64).toNat) % 2 ^ w))
      ∧ (checkVector s { maskReq (.vmv c vd vs2 m) .alu c m (some acceptAll) with
          groupReads := [vs2.toNat], groupWrites := [vd.toNat] } = none → NoStop s → full (.vmv c vd vs2 m) src)
      ∧ (checkVector s (vmvxsReq c gd vs2) = none →
        ∃ t, exec (.vmvxs c gd vs2) s = .next t ∧ t.hart.vstart = 0 ∧ InSequence s t ∧ VectorFrame s t ∧ SameMemory s t
          ∧ ∀ a, elem? s vs2.toNat w 0 = some a → a < 2 ^ w →
            GWritten s t gd (if etypeD s = .int w then BitVec.ofInt 64 (signedOf w a) else BitVec.ofNat 64 a))
      ∧ (checkVector s { maskReq (.vmvsx c vd gs) .perm c false (some acceptAll) with
          groupWrites := [vd.toNat], needs := some [] } = none →
        ∃ t, exec (.vmvsx c vd gs) s = .next t
          ∧ (InTile s 0 → elem? t vd.toNat w 0 = some ((readG s gs).toNat % 2 ^ w))
          ∧ (∀ e, InTile s 0 → 1 ≤ e → e < vlmaxG s → regOf s vd.toNat e < 32 →
            elem? t vd.toNat w e = if vtTZ s.hart then some 0 else elem? s vd.toNat w e)
          ∧ RegistersTracked s t vd.toNat ∧ VectorDone s t))

/-! ## Vector memory and strips -/

/-- Vector loads read their active elements in ascending order, each checked before it is read: each completed element
takes what the address of its row gives, the others follow the policies, and memory changes in A bits only. A trap stops
at its element; an element whose path is down makes the instruction wait with no effect (02 R49, R50; 09 R175 to R178;
24 R405, R408; log 20). -/
def Obligations.VectorLoadsComplete : Prop :=
  (∀ r ∈ vectorLoads, ∀ x s, checkVector s (r.2.1 s x) = none → NoStop s → let w := sew s
    let es := elemRange s.hart.vstart.toNat (tileSize s)
    let run := loadRun (r.2.2 s x) x.m w s es
    (∀ p ∈ loadPoints (r.2.2 s x) x.m w s es, AccessedOnly s p.2
      ∧ ∃ v u, loadElem p.2 (r.2.2 s x p.1) w p.1 = .ok (u, v) ∧ ∀ v', (p.1, v') ∈ run.ups → v' = v)
    ∧ (run.trap = none → ∃ t, exec (r.1 x) s = .next t
      ∧ (∀ p ∈ run.ups, regOf s x.v.toNat p.1 < 32 → elem? t x.v.toNat w p.1 = some (p.2 % 2 ^ w))
      ∧ (∀ e, InTile s e → active s x.m e = true → ∃ v, (e, v) ∈ run.ups)
      ∧ (loadPoints (r.2.2 s x) x.m w s es).map (·.1) = es.filter (active s x.m)
      ∧ PoliciesApplied s t x.v.toNat w x.m ∧ RegistersTracked s t x.v.toNat ∧ t.hart.vstart = 0 ∧ InSequence s t
      ∧ GKept s t ∧ AccessedOnly s t ∧ VectorAccessFrame s t)
    ∧ (∀ e c, run.trap = some (e, c) → c.cause = causeWaits → exec (r.1 x) s = .next s)
    ∧ (∀ e c, run.trap = some (e, c) → s.hart.mode = .user → c.cause < 64 → ∃ t, exec (r.1 x) s = .next t
      ∧ t.hart.tcause = BitVec.ofNat 64 c.cause ∧ t.hart.tval = c.tval ∧ t.hart.tpc = s.hart.pc
      ∧ t.hart.mode = .supervisor ∧ (s.hart.vstart.toNat < e → t.hart.vstart = BitVec.ofNat 32 e) ∧ GKept s t
      ∧ InTile s e ∧ (∀ p ∈ run.ups, p.1 < e)
      ∧ (∀ p ∈ run.ups, regOf s x.v.toNat p.1 < 32 → elem? t x.v.toNat w p.1 = some (p.2 % 2 ^ w))))
  ∧ (∀ s a w e, let b := max 1 (w / 8)
    (a.toNat % b ≠ 0 → loadElem s a w e = .error ⟨4, a, 0⟩)
    ∧ (∀ c, a.toNat % b = 0 → resolveKind s a .load kindMemory = .error c → loadElem s a w e = .error c)
    ∧ (∀ p c, a.toNat % b = 0 → resolveKind s a .load kindMemory = .ok p → remoteFault s p a .load = some c →
      loadElem s a w e = .error c)
    ∧ (∀ p, a.toNat % b = 0 → resolveKind s a .load kindMemory = .ok p → remoteFault s p a .load = none →
      readPoison s p.pa b = true → loadElem s a w e = .error ⟨14, a, 0⟩)
    ∧ (∀ p, a.toNat % b = 0 → resolveKind s a .load kindMemory = .ok p → remoteFault s p a .load = none →
      readPoison s p.pa b = false →
      let value := natOfBytes (readBytes (touch s p false) p.pa b)
      ∃ t, loadElem s a w e = .ok (t, if w = 4 then value / 16 ^ (e % 2) % 16 else value)))

/-- Vector stores write their active elements in ascending order at the addresses of their mode; every other byte is as it
was, but for A and D bits (09 R175, R176, R178). VSCATADD adds every active element at its address, window by window: every
byte outside those places is as it was, and an integer element whose place no other shares is added there modulo its width
(09 R179, R180). A store or a window whose path is down makes the instruction wait with no effect (log 20). -/
def Obligations.VectorStoresComplete : Prop :=
  (∀ r ∈ vectorStores, ∀ x s, checkVector s (r.2.1 s x) = none → NoStop s → let w := sew s; let b := elemBytes w
      let es := elemRange s.hart.vstart.toNat (tileSize s)
      let places := storePlaces (r.2.2 s x) x.m x.v.toNat w s es
      (∀ e c, (storeRun (r.2.2 s x) x.m x.v.toNat w s es).2 = some (e, c) → c.cause = causeWaits →
        exec (r.1 x) s = .next s)
      ∧ ((storeRun (r.2.2 s x) x.m x.v.toNat w s es).2 = none → (∀ q ∈ places, OrderedOnHost q.2) →
      ∃ t, exec (r.1 x) s = .next t ∧ t.hart.v = s.hart.v ∧ t.hart.vstart = 0 ∧ InSequence s t ∧ GKept s t
        ∧ VectorAccessFrame s t ∧ places.map (·.1) = es.filter (active s x.m)
        ∧ (∀ a, (∀ q ∈ places, a ≠ q.2.slot ∧ (a < q.2.pa ∨ q.2.pa + b ≤ a)) → liveByte t a = liveByte s a)
        ∧ (w ≠ 4 → ∀ (i : Nat) (q : Nat × Phys), places[i]? = some q →
          (∀ (j : Nat) (q' : Nat × Phys), i < j → places[j]? = some q' → (q'.2.slot < q.2.pa ∨ q.2.pa + b ≤ q'.2.slot)
            ∧ (q'.2.pa + b ≤ q.2.pa ∨ q.2.pa + b ≤ q'.2.pa)) →
          liveBytes t q.2.pa b = bytesOfNat b (elem s 1 x.v.toNat w q.1))))
  ∧ (∀ x s, checkVector s (memReq s (.vscatadd x) x false true acceptScatter) = none → NoStop s → let w := sew s
      let addr := fun e => readG s x.base + BitVec.ofNat 64 (elem s 4 x.x.toNat w e)
      let n := tileSize s; let b := w / 8; let first := s.hart.vstart.toNat / 256
      let places := scatterPlaces addr x.m x.v.toNat w n (n / 256 + 1) first s
      (∀ e c, (scatterRun addr x.m x.v.toNat w n (n / 256 + 1) first s).2 = some (e, c) → c.cause = causeWaits →
        exec (.vscatadd x) s = .next s)
      ∧ ((scatterRun addr x.m x.v.toNat w n (n / 256 + 1) first s).2 = none →
        ∃ t, exec (.vscatadd x) s = .next t ∧ t.hart.v = s.hart.v ∧ t.hart.vstart = 0 ∧ InSequence s t ∧ GKept s t
          ∧ VectorAccessFrame (withFlags s t.hart.fflags) t
          ∧ places.map (·.1) = (elemRange s.hart.vstart.toNat n).filter (active s x.m)
          ∧ (∀ a, (∀ q ∈ places, a ≠ q.2.slot ∧ (a < q.2.pa ∨ q.2.pa + b ≤ a)) → liveByte t a = liveByte s a)
          ∧ ((etypeD s = .int w ∨ etypeD s = .uint w) → t.hart.fflags = s.hart.fflags
            ∧ ∀ (i : Nat) (q : Nat × Phys), places[i]? = some q →
              (∀ q' ∈ places, q'.2.slot < q.2.pa ∨ q.2.pa + b ≤ q'.2.slot) →
              (∀ (j : Nat) (q' : Nat × Phys), j ≠ i → places[j]? = some q' → q'.2.pa + b ≤ q.2.pa ∨ q.2.pa + b ≤ q'.2.pa) →
              liveBytes t q.2.pa b
                = bytesOfNat b ((natOfBytes (liveBytes s q.2.pa b) + elem s 1 x.v.toNat w q.1) % 2 ^ w)))
      ∧ (∀ p, tileSize s = 1 → s.hart.vstart = 0 → active s x.m 0 = true → (etypeD s = .int w ∨ etypeD s = .uint w) →
        resolveElem s (addr 0) (w / 8) .atomic kindShared = .ok p → atomicPoison s p.pa (w / 8) = false →
        p.slot < p.pa ∨ p.pa + w / 8 ≤ p.slot →
        ∃ t, exec (.vscatadd x) s = .next t ∧ liveBytes t p.pa (w / 8)
            = bytesOfNat (w / 8) ((natOfBytes (liveBytes s p.pa (w / 8)) + elem s 1 x.v.toNat w 0) % 2 ^ w)
          ∧ LiveBut s t p.pa (w / 8) p.slot ∧ t.hart.fflags = s.hart.fflags))

/-- VSTWR stores the image of a register and answers its length; VLDWR restores a register from a good image, and a header
that is wrong traps with FORMAT and its offset; both do nothing and answer 0 for an empty tile (09 R181 to R184). The
image that VSTWR makes of a register is accepted by VLDWR, and the register it restores holds, at the positions of the
tile, the elements of the one that was saved, at whatever order of bits the implementation keeps (09 R181, R184). -/
def Obligations.RegisterImagesMoveAndRestore : Prop :=
  ((∀ c vs3 base gd s,
      checkVector s (vstwrReq s c vs3 base gd) = none →
      (tileSize s = 0 → ∃ t, exec (.vstwr c vs3 base gd) s = .next t ∧ GWritten s t gd 0 ∧ InSequence s t ∧ SameMemory s t)
      ∧ (∀ ps, tileSize s ≠ 0 → (readG s base).toNat % 64 = 0 → let img := imageOf s vs3.toNat
        resolveRange s (readG s base) img.length .store kindLocal = .ok ps →
        ∃ t, exec (.vstwr c vs3 base gd) s = .next t ∧ GWritten s t gd (BitVec.ofNat 64 img.length) ∧ InSequence s t
          ∧ t.hart.v = s.hart.v ∧ t.hart.vstart = s.hart.vstart
          ∧ ∀ p, ps = [⟨readG s base, p, img.length⟩] → readBytes t p.pa img.length = img
            ∧ LiveBut s t p.pa img.length p.slot ∧ (NoStale s → MemoryBut s t p.pa img.length p.slot)))
    ∧ (∀ c vd base gd s,
      checkVector s { vreq (wordOf (.vldwr c vd base gd)) .load c with singleWrites := [vd.toNat], accept := none } = none →
      (tileSize s = 0 → ∃ t, exec (.vldwr c vd base gd) s = .next t ∧ GWritten s t gd 0 ∧ InSequence s t ∧ SameMemory s t)
      ∧ (∀ ps, tileSize s ≠ 0 → (readG s base).toNat % 64 = 0 →
        resolveRange s (readG s base) 128 .load kindLocal = .ok ps → spanPoison s ps = none →
        let hdr := spanBytes s ps; let u := fillSpans (touchSpans s ps false) ps; let z := field hdr 12 4
        (∀ qs, headerFault s hdr = none → resolveRange u (readG s base + 128) (128 * z) .load kindLocal = .ok qs →
          spanPoison u qs = none →
          ∃ t, exec (.vldwr c vd base gd) s = .next t ∧ GWritten s t gd (BitVec.ofNat 64 (128 + 128 * z)) ∧ InSequence s t
            ∧ t.hart.v.getD vd.toNat VReg.reset = imageReg s hdr (spanBytes u qs)
            ∧ (∀ r, r < 32 → r ≠ vd.toNat → t.hart.v.getD r VReg.reset = s.hart.v.getD r VReg.reset)
            ∧ t.hart.vdirty.getLsbD vd.toNat = true ∧ t.hart.vstate = 2)
        ∧ (∀ off, headerFault s hdr = some off → s.hart.mode = .user →
          ∃ t, exec (.vldwr c vd base gd) s = .next t ∧ t.hart.tcause = 8 ∧ t.hart.tval = BitVec.ofNat 64 off
            ∧ t.hart.mode = .supervisor ∧ t.hart.v = s.hart.v))))
  ∧ (∀ s v w pos (x : BitVec 64), let r := s.hart.v.getD v VReg.reset; let img := imageOf s v
      s.hart.maxsew ∈ [8, 16, 32, 64] → w ≤ s.hart.maxsew → r.tag = .elems w → r.mark = false →
      tileShare s v * s.hart.maxsew ≤ 524288 → pos < tileShare s v → mapGet? r.data pos = some x → x.toNat < 2 ^ w →
      headerFault s (img.take 128) = none
        ∧ posElem (imageReg s (img.take 128) (img.drop 128)) s.hart.maxsew w pos = some x.toNat)

/-- STRIPSET binds a handle to a range of the hart's own vault and resets its counts and its channel's pointers; a length
of 0 unbinds it, and commands bound to no strip are cut. STRIPPOS answers the position (09 R185, R188; 11 R232). SLD and
SST move the tile through a strip from its position on, around its end, and advance the position and their count; where
flow control holds them they wait with no effect (09 R186, R187). The release asks the same again. -/
def Obligations.StripsAreBoundAndUsed : Prop :=
  ((∀ h gs1 gs2 chan s, s.hart.vstate ≠ 0 → readG s gs2 = 0 →
      ∃ t, exec (.stripset h gs1 gs2 chan) s = .next t ∧ InSequence s t ∧ GKept s t ∧ t.hart.vstate = 2
        ∧ (h.toNat < 8 → stripOf t h = { stripOf s h with len := 0, chan := 0 }) ∧ SameMemory s t
        ∧ ∀ k, k < 2 → boundStrip t s.col k = none → ∀ x ∈ (chanOf t.core k).queue, x.dstStrip = false
          ∧ x.srcStrip = false)
    ∧ (∀ h gs1 gs2 chan s ps p, s.hart.vstate ≠ 0 → let a := readG s gs1; let n := (readG s gs2).toNat
      n ≠ 0 → a.toNat % 64 = 0 → n % 64 = 0 → n ≤ 0xAA0000 → stripPages s none (pagesOf a n) = .ok (p :: ps) →
      (chan ≠ 0 → boundElsewhere s h chan.toNat = false ∧ (chanOf s.core (chan.toNat - 1)).queue = []) →
      ∃ t, exec (.stripset h gs1 gs2 chan) s = .next t ∧ InSequence s t ∧ GKept s t ∧ t.hart.vstate = 2
        ∧ (h.toNat < 8 → stripOf t h = ⟨BitVec.ofNat 48 p.pa, BitVec.ofNat 32 n, 0, chan, 0, 0⟩)
        ∧ (chan ≠ 0 → chan.toNat ≤ 2 → (chanOf t.core (chan.toNat - 1)).wp = 0 ∧ (chanOf t.core (chan.toNat - 1)).rp = 0))
    ∧ (∀ gd h s, s.hart.vstate ≠ 0 → let x := stripOf s h
      ∃ t, exec (.strippos gd h) s = .next t ∧ GWritten s t gd (if x.len = 0 then 0 else x.pos.setWidth 64)
        ∧ InSequence s t
        ∧ ScalarFrame s t ∧ SameMemory s t))
  ∧ ((∀ c vd h s, checkVector s { vreq (wordOf (.sld c vd h)) .load c with
        groupWrites := [vd.toNat], accept := some acceptBytes } = none → NoStop s →
      let x := stripOf s h; let w := sew s; let b := w / 8; let n := tileSize s
      let addr := fun e => x.base.toNat + (x.pos.toNat + e * b) % x.len.toNat
      s.hart.vstart.toNat < n → x.len ≠ 0 → n * b ≤ x.len.toNat →
      (flowOf s x true (n * b) = .go → (∀ e, InTile s e → readPoison s (addr e) b = false) →
        ∃ t, exec (.sld c vd h) s = .next t
          ∧ (∀ e, InTile s e → regOf s vd.toNat e < 32 →
            elem? t vd.toNat w e = some (natOfBytes (readBytes s (addr e) b) % 2 ^ w))
          ∧ (h.toNat < 8 → stripOf t h = { x with pos := BitVec.ofNat 32 ((x.pos.toNat + n * b) % x.len.toNat)
                                                  consumed := x.consumed + BitVec.ofNat 64 (n * b) })
          ∧ PoliciesApplied s t vd.toNat w false ∧ RegistersTracked s t vd.toNat
          ∧ VectorDone { s with hart := { s.hart with strip := t.hart.strip } } t)
      ∧ (flowOf s x true (n * b) = .hold → exec (.sld c vd h) s
        = .next { s with hart := { s.hart with wait := some (.sld c vd h) } }))
    ∧ (∀ c vs3 h s, checkVector s { vreq (wordOf (.sst c vs3 h)) .store c with
        groupReads := [vs3.toNat], accept := some acceptBytes } = none → NoStop s →
      let x := stripOf s h; let w := sew s; let b := w / 8; let n := tileSize s
      let addr := fun e => x.base.toNat + (x.pos.toNat + e * b) % x.len.toNat
      s.hart.vstart.toNat < n → x.len ≠ 0 → n * b ≤ x.len.toNat →
      (flowOf s x false (n * b) = .go → (∀ e i, InTile s e → i < b → isVault (addr e + i) = true) →
        ∃ t, exec (.sst c vs3 h) s = .next t
          ∧ (∀ e, InTile s e → readBytes t (addr e) b = bytesOfNat b (elem s 1 vs3.toNat w e))
          ∧ (∀ a, (∀ e, InTile s e → a < addr e ∨ addr e + b ≤ a) → readByte t a = readByte s a)
          ∧ (h.toNat < 8 → stripOf t h = { x with pos := BitVec.ofNat 32 ((x.pos.toNat + n * b) % x.len.toNat)
                                                  produced := x.produced + BitVec.ofNat 64 (n * b) })
          ∧ t.hart.v = s.hart.v ∧ t.hart.vstart = 0 ∧ InSequence s t ∧ GKept s t)
      ∧ (flowOf s x false (n * b) = .hold → exec (.sst c vs3 h) s
        = .next { s with hart := { s.hart with wait := some (.sst c vs3 h) } }))
    ∧ (∀ j c vd h s, (getHart s j).wait = some (.sld c vd h) → (getHart s j).stepping = false → let u := focus s j
      checkVector u { vreq (wordOf (.sld c vd h)) .load c with
        groupWrites := [vd.toNat], accept := some acceptBytes } = none → NoStop u →
      let x := stripOf u h; let b := sew u / 8
      u.hart.vstart.toNat < tileSize u → x.len ≠ 0 → tileSize u * b ≤ x.len.toNat →
      flowOf u x true (tileSize u * b) = .go →
      (∀ e, InTile u e → readPoison u (x.base.toNat + (x.pos.toNat + e * b) % x.len.toNat) b = false) →
      ∃ t, exec (.stripFlowRelease j) s = .next t ∧ t.cur = j ∧ InSequence u t ∧ t.hart.vstart = 0
        ∧ (h.toNat < 8 → stripOf t h = { x with pos := BitVec.ofNat 32 ((x.pos.toNat + tileSize u * b) % x.len.toNat)
                                                consumed := x.consumed + BitVec.ofNat 64 (tileSize u * b) })))

/-! ## Matrix and trellis mode -/

/-- With an empty tile every array instruction but SETTILE and TILEBIND writes nothing, reads no memory and pops no
weights, and MSAVE answers 0 (10 R192). -/
def Obligations.EmptyTilesDoNothing : Prop :=
  ∀ s, tileSize s = 0 →
    (∀ c (vd vs1 vs2 gs1 gs2 gd : Reg) (j : BitVec 6) multi m clr (deg : BitVec 2),
      let eng := fun i => arrayReq i .eng c (some acceptLegal)
      let plain := fun i => arrayReq i .mtx c (some acceptLegal)
      ∀ p ∈ [(Instr.wbld c gs1 gs2 multi, eng (.wbld c gs1 gs2 multi)), (.wbdrop c, plain (.wbdrop c)),
        (.mma c vs2, mmaReq c vs2 s),
        (.accz c, plain (.accz c)),
        (.acci c gs1 vs2, scaledReq s { arrayReq (.acci c gs1 vs2) .mtx c (some acceptAcc) with groupReads := [vs2.toNat] }),
        (.accx c vd gs1 m clr, accxReq s c vd gs1 m clr),
        (.knotset c j gs1 gs2, { plain (.knotset c j gs1 gs2) with clash := decide (rowCount s ≤ j.toNat) }),
        (.knotrd c gd j vs1, { plain (.knotrd c gd j vs1) with clash := decide (rowCount s ≤ j.toNat) }),
        (.splld c gs1, plain (.splld c gs1)), (.splst c gs1, plain (.splst c gs1)),
        (.splgx c gs1 clr, plain (.splgx c gs1 clr)),
        (.spl c vs2, splReq s c vs2), (.splbwd c vs1 vs2, splbwdReq s c vs1 vs2),
        (.splgrad c vs1 vs2, splgradReq s c vs1 vs2), (.splref c vd gs1 vs2 deg, splrefReq s c vd gs1 vs2 deg)],
      checkVector s p.2 = none → ∃ t, exec p.1 s = .next t ∧ t.hart.v = s.hart.v ∧ VectorDone s t)
    ∧ (∀ c gd gs1, s.hart.mode = .supervisor →
      (checkVector s (contextReq (.mrest c gs1) c) = none → ∃ t, exec (.mrest c gs1) s = .next t ∧ VectorDone s t)
      ∧ (checkVector s (contextReq (.msave c gd gs1) c) = none → ∃ t, exec (.msave c gd gs1) s = .next t
        ∧ GWritten s t gd 0 ∧ InSequence s t ∧ SameMemory s t ∧ VectorFrame s t))

/-- WBLD appends a good stream to the FIFO of its hart, or under MULTI to those of the set, at one instant; it waits until
every one has room. The event that makes room asks it again. WBDROP empties the FIFO (10 R203 to R205). MMA pops K rows
and adds to every word of the tile: for INT8 the exact product sum modulo 2^32, for floating point one rounded block sum
after another; other words are as they were. Rows that are missing, of another width or malformed trap before anything is
added (10 R206 to R208; 03 R70). A stream that MREST could not read is read again first (10 R224). -/
def Obligations.WeightsFeedMatrixProducts : Prop :=
  ((∀ c gs1 gs2 multi s ps bands, let i := Instr.wbld c gs1 gs2 multi; let a := readG s gs1; let n := (readG s gs2).toNat
      let targets := (if multi = true then (List.range (tsSize s.hart.tileset)).map
        (fun k => 4 * tsMember s.hart.tileset k + s.idx) else [s.cur])
      checkVector s (arrayReq i .eng c (some acceptLegal)) = none → tileSize s ≠ 0 → tsRank s.hart.tileset = 0 →
      (multi = true → 2 ≤ tsSize s.hart.tileset) → n ≠ 0 → a.toNat % 8 = 0 → n % 8 = 0 →
      n ≤ 65536 * (heldGroups s.core s.idx).length → resolveRange s a n .load kindShared = .ok ps →
        spanPoison s ps = none →
      bandsOf (spanBytes s ps) 0 = .ok bands →
      ((∀ h ∈ targets, fifoRoom s n h = true) → targets.Nodup →
        ∃ t, exec i s = .next t ∧ t.hart.vstart = 0 ∧ InSequence s t ∧ GKept s t ∧ AccessedOnly s t
          ∧ (∀ h ∈ targets, (getHart t h).fifo = (getHart s h).fifo ++ [⟨a, n, spanBytes s ps, 0, 0, false, false⟩]
            ∧ (getHart t h).mdirty = true)
          ∧ (∀ h, h ∉ targets → (getHart t h).fifo = (getHart s h).fifo)
          ∧ (multi = false → VectorAccessFrame { s with hart := { s.hart with fifo := t.hart.fifo, mdirty := true } } t))
      ∧ ((∃ h ∈ targets, fifoRoom s n h = false) →
        ∃ t, exec i s = .next t ∧ t = { s with hart := { s.hart with wait := some i } }))
    ∧ (∀ h s c gs1 gs2 ps bands, let u := focus s h; let a := readG u gs1; let n := (readG u gs2).toNat
      (getHart s h).wait = some (.wbld c gs1 gs2 false) → (getHart s h).stepping = false →
      checkVector u (arrayReq (.wbld c gs1 gs2 false) .eng c (some acceptLegal)) = none → tileSize u ≠ 0 →
      tsRank u.hart.tileset = 0 → n ≠ 0 → a.toNat % 8 = 0 → n % 8 = 0 → n ≤ 65536 * (heldGroups u.core u.idx).length →
      resolveRange u a n .load kindShared = .ok ps → spanPoison u ps = none → bandsOf (spanBytes u ps) 0 = .ok bands →
      fifoRoom u n h = true →
      ∃ t, exec (.wbldRoom h) s = .next t ∧ t.cur = h ∧ InSequence u t
        ∧ t.hart.fifo = u.hart.fifo ++ [⟨a, n, spanBytes u ps, 0, 0, false, false⟩])
    ∧ (∀ c s, checkVector s (arrayReq (.wbdrop c) .mtx c (some acceptLegal)) = none → tileSize s ≠ 0 →
      ∃ t, exec (.wbdrop c) s = .next t ∧ t.hart.fifo = [] ∧ t.hart.mdirty = true ∧ t.core = s.core ∧ MatrixDone s t))
  ∧ (∀ c vs2 s fifo rows, let h := s.hart; let u := touchSpans s (retrySpans s h.tilek h.fifo) false
      checkVector s (mmaReq c vs2 s) = none →
      tileSize s ≠ 0 → localRows s ≤ h.vr → h.tilek ≤ h.vl → h.tilenoff + h.tilen ≤ 384 →
      retryFifo s h.tilek h.fifo = .ok fifo → nextRows 0 h.tilek fifo = .ok rows →
      (mmaTrap s (wordOf (.mma c vs2)) h.tilek rows = none →
        firstScaleTrap s ((tileWords (localRows s) h.tilek).map (fun p => p.1 * h.vl + p.2)) = none →
        let floats := fun m n => mmaFloat (mmaA s vs2.toNat m) n
          (splitBlocks (sew s) [] (rows.zipIdx.map (fun p => (p.2, p.1)))) (accWord s m (h.tilenoff + n)).toNat
        ∃ t, exec (.mma c vs2) s = .next t
          ∧ (etypeD s = .int 8 → ∀ m n, m < localRows s → n < h.tilen →
            accWord t m (h.tilenoff + n) = accWord s m (h.tilenoff + n) + BitVec.ofInt 32 ((rows.zipIdx.map (fun p =>
              toInt 8 (elem s 2 vs2.toNat 8 (m * h.vl + p.2)) * toInt 8 (p.1.row.vals.getD n 0))).sum))
          ∧ (etypeD s ≠ .int 8 → rows ≠ [] → ∀ m n, m < localRows s → n < h.tilen →
            accWord t m (h.tilenoff + n) = BitVec.ofNat 32 (floats m n).1)
          ∧ (etypeD s ≠ .int 8 → rows ≠ [] → t.hart.fflags = s.hart.fflags ||| flagsOf (tileWords (localRows s) h.tilen)
            (fun p => (floats p.1 p.2).2))
          ∧ (rows ≠ [] → ∀ m n, m < localRows s → n < h.tilen → liveWord t m (h.tilenoff + n) = true)
          ∧ AccumulatorsBut s t (fun m n => m < localRows s ∧ h.tilenoff ≤ n ∧ n < h.tilenoff + h.tilen ∧ rows ≠ [])
          ∧ t.hart.fifo = popRows fifo h.tilek ∧ t.hart.mdirty = true
          ∧ t.core = { u.core with acc := t.core.acc, accBad := t.core.accBad } ∧ MatrixDone u t ∧ AccessedOnly s u
          ∧ ((∀ x ∈ h.fifo, x.missing = false) → u = s))
      ∧ (∀ tr, mmaTrap s (wordOf (.mma c vs2)) h.tilek rows = some tr → h.mode = .user →
        ∃ t, exec (.mma c vs2) s = .next t ∧ TrapTaken s t tr.cause tr.tval tr.acc false []))

/-- ACCZ clears the words of the tile; ACCI writes each element of a tile of vectors into its word and sets its live bit;
ACCX reads the words into a vector register, saturated to its type, and under CLR clears those of active elements; all
other words are as they were (10 R208 to R211; 03 R62, R63, R67). Where the generators were reloaded at a stop the elements
under SR are undefined (03 R74); that FFLAGS then takes the flags of the draw from the new state is the model's choice
(DESIGN CHOICE, log 66). -/
def Obligations.AccumulatorsAreClearedWrittenAndRead : Prop :=
  (∀ c s, checkVector s (arrayReq (.accz c) .mtx c (some acceptLegal)) = none → tileSize s ≠ 0 →
    ∃ t, exec (.accz c) s = .next t
      ∧ (∀ m n, m < localRows s → n < s.hart.tilen → s.hart.tilenoff + n < 384 →
        accWord t m (s.hart.tilenoff + n) = 0 ∧ liveWord t m (s.hart.tilenoff + n) = false)
      ∧ AccumulatorsBut s t (fun m n => m < localRows s ∧ s.hart.tilenoff ≤ n ∧ n < s.hart.tilenoff + s.hart.tilen)
      ∧ t.hart.mdirty = true ∧ t.hart.fifo = s.hart.fifo
      ∧ t.core = { s.core with acc := t.core.acc, accBad := t.core.accBad } ∧ MatrixDone s t)
  ∧ (∀ c gs1 vs2 s, let c0 := (readG s gs1).toNat; let w := sew s; let x := fun e => elem s 2 vs2.toNat w e
    let float := fun e => rne32 (operandValue s (etypeD s) false (x e) e)
    checkVector s (scaledReq s { arrayReq (.acci c gs1 vs2) .mtx c (some acceptAcc) with groupReads := [vs2.toNat] }) = none →
    tileSize s ≠ 0 → s.hart.vr ≤ rowCount s → c0 + s.hart.vl ≤ 384 → firstScaleTrap s (List.range (tileSize s)) = none →
    ∃ t, exec (.acci c gs1 vs2) s = .next t
      ∧ (∀ e, e < tileSize s → let word := accWord t (e / s.hart.vl) (c0 + e % s.hart.vl)
        (etypeD s = .int w → word = BitVec.ofInt 32 (toInt w (x e))) ∧ (etypeD s = .uint w → word = BitVec.ofNat 32 (x e))
        ∧ (etypeD s ≠ .int w → etypeD s ≠ .uint w → word = BitVec.ofNat 32 (float e).bits)
        ∧ liveWord t (e / s.hart.vl) (c0 + e % s.hart.vl) = true)
      ∧ t.hart.fflags = s.hart.fflags ||| (if etypeD s = .int w ∨ etypeD s = .uint w then 0
        else flagsOf (List.range (tileSize s)) (fun e => (float e).flags))
      ∧ AccumulatorsBut s t (fun m n => m < s.hart.vr ∧ c0 ≤ n ∧ n < c0 + s.hart.vl)
      ∧ t.hart.mdirty = true ∧ t.hart.fifo = s.hart.fifo
      ∧ t.core = { s.core with acc := t.core.acc, accBad := t.core.accBad } ∧ MatrixDone s t)
  ∧ (∀ c vd gs1 m clr s, let c0 := (readG s gs1).toNat; let ty := etypeD s; let w := ty.width
    let runs := fun e => InTile s e ∧ active s m e = true
    let r := fun e => if isScaled ty then saturateScaled s e (rndModeSR s.hart e) (ftzOf s.hart) (accxValue s e c0)
      else saturateTo ty (rndModeSR s.hart e) (ftzOf s.hart) (accxValue s e c0)
    checkVector s (accxReq s c vd gs1 m clr) = none →
    s.hart.vstart.toNat < tileSize s → s.hart.vr ≤ rowCount s → c0 + s.hart.vl ≤ 384 → NoneBad s →
    (isScaled ty = true → (groupRegs s vd.toNat).contains 1 = false ∧ ∀ e, runs e → scaleTrap s e = none) →
    ∃ t, exec (.accx c vd gs1 m clr) s = .next t
      ∧ ((drawsNow s && drawsUndefined s) = false →
        (∀ e, runs e → regOf s vd.toNat e < 32 → elem? t vd.toNat w e = some ((r e).bits % 2 ^ w))
        ∧ ∀ e, runs e → mapGet? t.hart.vsat e = some (r e).sat)
      ∧ t.hart.fflags = s.hart.fflags ||| gatheredFlags s m (fun e => (r e).flags)
      ∧ t.hart.rngctr = s.hart.rngctr + (if rmOf s.hart = 4 then BitVec.ofNat 64 (tileSize s) else 0)
      ∧ (∀ e, runs e → clr = true → accWord t (e / s.hart.vl) (c0 + e % s.hart.vl) = 0
        ∧ liveWord t (e / s.hart.vl) (c0 + e % s.hart.vl) = false)
      ∧ AccumulatorsBut s t (fun p n => clr = true ∧ ∃ e, runs e ∧ p = e / s.hart.vl ∧ n = c0 + e % s.hart.vl)
      ∧ PoliciesApplied s t vd.toNat w m ∧ RegistersTracked s t vd.toNat
      ∧ VectorDone { s with
          core := { s.core with acc := t.core.acc, accBad := t.core.accBad }
          hart := { s.hart with vsat := t.hart.vsat, fflags := t.hart.fflags, rngctr := t.hart.rngctr
                                mdirty := t.hart.mdirty } } t)

/-- Knot registers and cells: KNOTSET writes a checked grid with 1/h, KNOTRD reads its words, SPLLD loads the cells of the
tile and unloads the others, SPLST stores them, SPLGX stores gradients and under CLR clears them (10 R212, R213, R217,
R221). -/
def Obligations.KnotsAndCellsAreSetAndMoved : Prop :=
  (∀ c (j : BitVec 6) gs1 gs2 s, let a := readG s gs1; let b := readG s gs2; let h := a.extractLsb' 32 32
    let g := (b.extractLsb' 0 4).toNat; let d := (b.extractLsb' 4 2).toNat; let clamp := (b.extractLsb' 6 2).toNat
    checkVector s { arrayReq (.knotset c j gs1 gs2) .mtx c (some acceptLegal) with
      clash := decide (rowCount s ≤ j.toNat) } = none → tileSize s ≠ 0 →
    normalPos h = true → finite32 (a.extractLsb' 0 32) = true → 1 ≤ g → 1 ≤ d → clamp ≤ 2 → g + d ≤ 16 → b >>> 9 = 0 →
    ∃ t, exec (.knotset c j gs1 gs2) s = .next t
      ∧ knotOf t j.toNat = { lo := a.extractLsb' 0 32, h := h, invh := BitVec.ofNat 32 (inverse32 h).bits, g := g, d := d
                             clamp := clamp, count := if b.getLsbD 8 = true then (knotOf s j.toNat).count else 0 }
      ∧ t.hart.fflags = s.hart.fflags ||| (inverse32 h).flags ∧ t.hart.mdirty = true
      ∧ (∀ r, r < 64 → r ≠ physRow s j.toNat → t.core.knot.getD r Knot.reset = s.core.knot.getD r Knot.reset)
      ∧ t.core = { s.core with knot := t.core.knot } ∧ MatrixDone s t)
  ∧ (∀ c gd (j : BitVec 6) (sel : Reg) s, let k := knotOf s j.toNat
    checkVector s { arrayReq (.knotrd c gd j sel) .mtx c (some acceptLegal) with
      clash := decide (rowCount s ≤ j.toNat) } = none → tileSize s ≠ 0 →
    ∃ t, exec (.knotrd c gd j sel) s = .next t
      ∧ (sel = 0 → GWritten s t gd (k.h ++ k.lo)) ∧ (sel = 1 → GWritten s t gd
          (BitVec.ofNat 64 (k.invh.toNat + k.g * 2 ^ 32 + k.d * 2 ^ 36 + k.clamp * 2 ^ 38)))
      ∧ (sel ≠ 0 → sel ≠ 1 → GWritten s t gd (BitVec.ofNat 64 k.count))
      ∧ t.core = s.core ∧ InSequence s t ∧ t.hart.vstart = 0 ∧ SameMemory s t ∧ VectorFrame s t)
  ∧ (∀ c gs1 s ps, let a := readG s gs1; let k := s.hart.tilek; let n := s.hart.tilen
    checkVector s (arrayReq (.splld c gs1) .mtx c (some acceptLegal)) = none → tileSize s ≠ 0 → k ≤ rowCount s → n ≤ 64 →
    a.toNat % 32 = 0 → resolveRange s a (32 * (k * n)) .load kindShared = .ok ps → spanPoison s ps = none →
    ∃ t, exec (.splld c gs1) s = .next t
      ∧ (∀ j x, j < k → x < n → coefsOf t j x = (List.range 16).map (fun q =>
        BitVec.ofNat 16 (field (spanBytes s ps) ((x * k + j) * 32 + 2 * q) 2)))
      ∧ (∀ j x, j < rowCount s → x < 64 → (k ≤ j ∨ n ≤ x) → coefsOf t j x = List.replicate 16 0)
      ∧ (∀ y, y / 64 ∉ heldRows s.core s.idx → mapGet? t.core.cells y = mapGet? s.core.cells y)
      ∧ t.hart.coef = some ⟨a, k, n, false⟩ ∧ t.hart.mdirty = true ∧ t.hart.vstart = 0 ∧ InSequence s t ∧ GKept s t
      ∧ AccessedOnly s t ∧ VectorAccessFrame { s with
          core := { s.core with cells := t.core.cells }
          hart := { s.hart with coef := t.hart.coef, mdirty := true } } t)
  ∧ (∀ c gs1 s p, let a := readG s gs1; let k := s.hart.tilek; let n := s.hart.tilen
    let bytes := (tileCells k n).flatMap (fun q => (coefsOf s q.1 q.2).flatMap (fun w => bytesOfNat 2 w.toNat))
    checkVector s (arrayReq (.splst c gs1) .mtx c (some acceptLegal)) = none → tileSize s ≠ 0 → k ≤ rowCount s → n ≤ 64 →
    a.toNat % 32 = 0 → (∀ f, s.hart.coef = some f → f.missing = false) →
    resolveRange s a bytes.length .store kindShared = .ok [⟨a, p, bytes.length⟩] →
    ∃ t, exec (.splst c gs1) s = .next t ∧ readBytes t p.pa bytes.length = bytes
      ∧ LiveBut s t p.pa bytes.length p.slot ∧ (NoStale s → MemoryBut s t p.pa bytes.length p.slot)
      ∧ t.hart.vstart = 0 ∧ InSequence s t ∧ GKept s t ∧ VectorAccessFrame s t)
  ∧ (∀ c gs1 clr s p, let a := readG s gs1; let k := s.hart.tilek; let n := s.hart.tilen
    let bytes := (tileCells k n).flatMap (fun q => (List.range 16).flatMap (fun i => bytesOfNat 4 (gradOf s q.1 q.2 i).toNat))
    checkVector s (arrayReq (.splgx c gs1 clr) .mtx c (some acceptLegal)) = none → tileSize s ≠ 0 → k ≤ rowCount s →
      n ≤ 64 →
    a.toNat % 64 = 0 → resolveRange s a bytes.length .store kindShared = .ok [⟨a, p, bytes.length⟩] →
    ∃ t, exec (.splgx c gs1 clr) s = .next t ∧ readBytes t p.pa bytes.length = bytes
      ∧ LiveBut s t p.pa bytes.length p.slot ∧ (NoStale s → MemoryBut s t p.pa bytes.length p.slot)
      ∧ (∀ j x i, j < rowCount s → x < 64 → i < 16 → gradOf t j x i
        = if clr = true ∧ j < k ∧ x < n then 0 else gradOf s j x i)
      ∧ (∀ y, y / 1024 ∉ heldRows s.core s.idx → mapGet? t.core.grad y = mapGet? s.core.grad y)
      ∧ t.hart.mdirty = (s.hart.mdirty || clr) ∧ t.hart.vstart = 0 ∧ InSequence s t ∧ GKept s t
      ∧ VectorAccessFrame { s with
          core := { s.core with grad := t.core.grad }, hart := { s.hart with mdirty := t.hart.mdirty } } t)

/-- SPL adds to every word of the tile the sum over k of the splines of its cells, SPLBWD that over n of the output
gradients times the slopes, SPLGRAD adds the basis values times the output gradients to the gradient slots, in the order
and with the roundings of the rules, and each counts inputs outside their grids; SPLREF refines coefficients (10 R214 to
R216, R218 to R220, R222). -/
def Obligations.SplinesAreEvaluated : Prop :=
  (∀ c (vs1 vs2 : Reg) s, let h := s.hart; let rows := localRows s; let k := h.tilek; let n := h.tilen
    let basis := fun slopes v m j => basisOf (knotOf s j) slopes (tileElem s 1 v m j)
    let grad := fun m x => fwOf (tileElem s 2 vs2.toNat m x)
    let sums := fun (cols : Nat) (sum : Nat → Nat → Option FW) m x =>
      if m < rows ∧ x < cols then (sum m x).map (fun y => fwAdd (fwOf (accWord s m (h.tilenoff + x)).toNat) y) else none
    let forward := sums n (fun m x => runningSum ((List.range k).map (fun j =>
      phiOf (basis false vs2.toNat m j) (coefsOf s j x))))
    let backward := sums k (fun m j => runningSum ((List.range n).map (fun x =>
      fwMul (grad m x) (slopeOf (knotOf s j) (basis true vs1.toNat m j) (coefsOf s j x)))))
    let added := fun (t : State) (sum : Nat → Nat → Option FW) =>
      (∀ m x y, sum m x = some y → accWord t m (h.tilenoff + x) = BitVec.ofNat 32 y.1
        ∧ liveWord t m (h.tilenoff + x) = true)
      ∧ AccumulatorsBut s t (fun m x => h.tilenoff ≤ x ∧ (sum m (x - h.tilenoff)).isSome = true)
      ∧ t.core = { s.core with acc := t.core.acc, accBad := t.core.accBad, knot := t.core.knot }
    let counted := fun (t : State) slopes v =>
      let cnt := fun j => if j < k ∧ 0 < n then ((List.range rows).filter (fun m => (basis slopes v m j).outside)).length else 0
      (∀ j, j < rowCount s → knotOf t j = { knotOf s j with
        count := if cnt j = 0 then (knotOf s j).count else min ((knotOf s j).count + cnt j) (2 ^ 32 - 1) })
      ∧ ∀ r, r < 64 → r ∉ heldRows s.core s.idx → t.core.knot.getD r Knot.reset = s.core.knot.getD r Knot.reset
    let flags := fun slopes v cols (sum : Nat → Nat → Option FW) =>
      s.hart.fflags ||| (if n = 0 then 0 else flagsOf (tileWords rows k) (fun p => (basis slopes v p.1 p.2).flags))
        ||| flagsOf (tileWords rows cols) (fun p => ((sum p.1 p.2).map (·.2)).getD 0)
    tileSize s ≠ 0 → k ≤ rowCount s → n ≤ 64 → rows ≤ h.vr → (∀ f, h.coef = some f → f.missing = false) →
    (k ≤ h.vl → h.tilenoff + n ≤ 384 →
      checkVector s (splReq s c vs2) = none →
      ∃ t, exec (.spl c vs2) s = .next t ∧ added t (fun m x => forward m x)
        ∧ counted t false vs2.toNat ∧ t.hart.fflags = flags false vs2.toNat n forward ∧ t.hart.mdirty = true
        ∧ t.hart.fifo = h.fifo ∧ MatrixDone s t)
    ∧ (max k n ≤ h.vl → h.tilenoff + k ≤ 384 →
      checkVector s (splbwdReq s c vs1 vs2) = none →
      ∃ t, exec (.splbwd c vs1 vs2) s = .next t ∧ added t backward ∧ counted t true vs1.toNat
        ∧ t.hart.fflags = flags true vs1.toNat k backward ∧ t.hart.mdirty = true ∧ t.hart.fifo = h.fifo ∧ MatrixDone s t)
    ∧ (max k n ≤ h.vl → (∀ j, j < k → gridOk (knotOf s j).g (knotOf s j).d (knotOf s j).clamp = true) →
      checkVector s (splgradReq s c vs1 vs2) = none →
      ∃ t, exec (.splgrad c vs1 vs2) s = .next t
        ∧ (∀ j x i, j < rowCount s → x < 64 → i < 16 → gradOf t j x i = if j < k ∧ x < n then
            (List.range rows).foldl (fun (y : BitVec 32) m => let b := basis false vs1.toNat m j
              if b.unused = false ∧ b.i ≤ i ∧ i < b.i + b.b.length
              then BitVec.ofNat 32 (fwAdd (fwOf y.toNat) (fwMul (b.b.getD (i - b.i) (fwOf 0)) (grad m x))).1 else y) (gradOf s j x i)
          else gradOf s j x i)
        ∧ (∀ y, y / 1024 ∉ heldRows s.core s.idx → mapGet? t.core.grad y = mapGet? s.core.grad y)
        ∧ counted t false vs1.toNat ∧ t.hart.fflags ||| h.fflags = t.hart.fflags ∧ t.hart.mdirty = true
        ∧ t.core = { s.core with grad := t.core.grad, knot := t.core.knot } ∧ MatrixDone s t))
  ∧ (∀ c vd gs1 vs2 (deg : BitVec 2) s, let i := Instr.splref c vd gs1 vs2 deg; let g := (readG s gs1).toNat
    let d := deg.toNat; let vl := s.hart.vl
    let r := fun e => refined (fun k => elem s 2 vs2.toNat 16 (e / vl * vl + k)) d (e % vl)
    checkVector s (splrefReq s c vd gs1 vs2 deg) = none →
    tileSize s ≠ 0 → 1 ≤ g → 2 * g + d ≤ 16 → 2 * g + d ≤ vl → groupClash s vd vs2 = false →
    ∃ t, exec i s = .next t
      ∧ (∀ e, e < tileSize s → regOf s vd.toNat e < 32 → elem? t vd.toNat 16 e
        = some (if e % vl < 2 * g + d then (r e).bits % 2 ^ 16 else 0))
      ∧ (∀ e, tileSize s ≤ e → e < vlmaxG s → regOf s vd.toNat e < 32 → elem? t vd.toNat 16 e
        = if vtTZ s.hart then some 0 else elem? s vd.toNat 16 e)
      ∧ t.hart.fflags = s.hart.fflags ||| flagsOf ((List.range (tileSize s)).filter (fun e => decide (e % vl < 2 * g + d)))
        (fun e => (r e).flags)
      ∧ RegistersTracked s t vd.toNat ∧ VectorDone (withFlags s t.hart.fflags) t)

/-- MSAVE stores the image of the matrix context and answers its length; MREST takes a good image back: tile registers,
accumulator words with their live bits, gradients, knots, and the loads it issues again; in user mode both are ILLEGAL.
The image that MSAVE makes is one that MREST accepts (10 R191, R223, R224). -/
def Obligations.MatrixContextsAreSavedAndRestored : Prop :=
  (∀ c gd gs1 s p, let a := readG s gs1; let img := contextImage s
    s.hart.mode = .supervisor → checkVector s { contextReq (.msave c gd gs1) c with accs := badAccs s (rowCount s) 0 384 } = none →
    tileSize s ≠ 0 → a.toNat % 64 = 0 → resolveRange s a img.length .store kindShared = .ok [⟨a, p, img.length⟩] →
    ∃ t, exec (.msave c gd gs1) s = .next t ∧ GWritten s t gd (BitVec.ofNat 64 img.length) ∧ t.hart.mdirty = false
      ∧ readBytes t p.pa img.length = img ∧ LiveBut s t p.pa img.length p.slot
      ∧ (NoStale s → MemoryBut s t p.pa img.length p.slot) ∧ t.hart.vstart = 0 ∧ InSequence s t
      ∧ VectorAccessFrame { s with hart := { s.hart with mdirty := false } } t)
  ∧ (∀ c gs1 s ps qs, let a := readG s gs1; let u := fillSpans (touchSpans s ps false) ps; let hd := spanBytes s ps
    let w := fillSpans (touchSpans u qs false) qs; let img := spanBytes u qs
    let rows := rowCount s; let accs := 624 + 16 * rows + 16 * field img 3 1; let grads := accs + 256 * field img 24 4
    s.hart.mode = .supervisor → checkVector s (contextReq (.mrest c gs1) c) = none → tileSize s ≠ 0 → a.toNat % 64 = 0 →
    resolveRange s a 64 .load kindShared = .ok ps → spanPoison s ps = none → contextHeadFault u hd = none →
    resolveRange u a (field hd 4 4) .load kindShared = .ok qs → spanPoison u qs = none → contextFault w img = none →
    ∃ t, exec (.mrest c gs1) s = .next t
      ∧ t.hart.tilem = field img 16 2 ∧ t.hart.tilen = field img 18 2 ∧ t.hart.tilek = field img 20 2
      ∧ t.hart.tilenoff = field img 22 2 ∧ t.hart.tileset = BitVec.ofNat 64 (field img 32 8)
      ∧ (∀ m n, m < rows → n < 384 → liveWord t m n = (field img 8 8).testBit m
        ∧ accWord t m n = match (setBits 384 (field img 64 48)).idxOf? (6 * m + n / 64) with
          | some i => BitVec.ofNat 32 (field img (accs + 256 * i + 4 * (n % 64)) 4)
          | none => 0)
      ∧ (∀ j n k, j < rows → n < 64 → k < 16 → gradOf t j n k =
          match (setBits 4096 (field img 112 512)).idxOf? (64 * j + n) with
          | some i => BitVec.ofNat 32 (field img (grads + 64 * i + 4 * k) 4)
          | none => 0)
      ∧ (∀ j, j < rows → knotOf t j = knotFrom img j)
      ∧ t.hart.fifo.map (fun x => (x.addr.toNat, x.count, x.band, x.rows)) = (List.range (field img 3 1)).map (fun i =>
          let o := 624 + 16 * rows + 16 * i
          (field img o 8, field img (o + 8) 4, field img (o + 12) 3, field img (o + 15) 1))
      ∧ (t.hart.coef.isSome = decide (field img 2 1 = 1)) ∧ t.hart.mdirty = false ∧ t.hart.vstart = 0
      ∧ InSequence s t ∧ GKept s t ∧ t.hart.v = s.hart.v ∧ AccessedOnly s t)
  ∧ (∀ c gd gs1 s, s.hart.mode = .user → ∀ i ∈ [Instr.msave c gd gs1, .mrest c gs1],
    ∃ t w, encode i = some w ∧ exec i s = .next t ∧ TrapTaken s t 0 (w.setWidth 64) 3 false [])
  ∧ (∀ s, s.hart.fifo.length ≤ 16 → (∀ j, j < rowCount s →
      gridOk (knotOf s j).g (knotOf s j).d (knotOf s j).clamp = true ∧ normalPos (knotOf s j).h = true
        ∧ finite32 (knotOf s j).lo = true) →
    contextHeadFault s ((contextImage s).take 64) = none ∧ contextFault s (contextImage s) = none)

/-! ## Batches and mailboxes -/

/-- COPYB and BANKB take their commands in ascending order: each well-formed one is appended to its queue with its bit
in g[gd]; one whose queue is full makes the batch wait at it with VSTART naming it, and once there is room the batch
goes on; with an empty tile the answer is 0 (11 R228 to R230, R234, R235). COPYWP answers WP, RP or DONE with the first
failure, and RGNCNT a count of a slot, each with an acquire at device scope; SETTLE and RENEW start a sweep of a slot's
range, counted in INFLIGHT, and trap where the range is misaligned, not the tenant's, or past its end (11 R237 to R240;
14 R311, R313). That a batch releases before its first command, BANKB too and one that waits at once, is the model's
(log 42), as are INFLIGHT for owned slots only (log 43) and VSTART 0 after SETTLE and RENEW (log 34). -/
def Obligations.BatchesSweepsAndCounts : Prop :=
  (
    let ready := fun (i : Instr) c m (vs2 : Reg) s =>
      checkVector s (batchReq s i c vs2 m) = none
      ∧ s.hart.vstart.toNat < tileSize s ∧ s.hart.vl % 8 = 0 ∧ tileSize s ≤ 512 ∧ NoStop s ∧ releaseWaits s 1 = false
    let copies := fun s m (vs2 : Reg) => batchCommands s m vs2.toNat (parseCopy s)
    let sums := fun s m (vs2 : Reg) => batchCommands s m vs2.toNat parseInPlace
    let ofChan := fun s m (vs2 : Reg) k => (copies s m vs2).filterMap (fun p => if p.2.1 = k then some p.2.2 else none)
    let copied := fun s t gd m (vs2 : Reg) => BatchTaken s t gd ((copies s m vs2).map (·.1))
      ∧ (∀ k, k < 2 → chanOf t.core k = { chanOf s.core k with queue := (chanOf s.core k).queue ++ ofChan s m vs2 k })
      ∧ t.eng = s.eng
    let banked := fun s t gd m (vs2 : Reg) => BatchTaken s t gd ((sums s m vs2).map (·.1))
      ∧ t.eng.cmd = s.eng.cmd ++ (sums s m vs2).zipIdx.map (fun p =>
        { id := s.eng.nextId + p.2, rcd := p.1.2, asid := s.hart.asid, hart := s.cur
          owned := slotAssigned s p.1.2.dslot s.hart.asid, started := false, pieces := [], status := 0, where_ := 0 })
      ∧ (∀ n, slotOf t n = { slotOf s n with inflight := (slotOf s n).inflight
          + ((sums s m vs2).filter (fun p => p.2.dslot == n && slotAssigned s n s.hart.asid)).length })
      ∧ t.core.chan = s.core.chan
    (∀ c gd vs2 m s, ready (.copyb c gd vs2 m) c m vs2 s →
      ((∀ k, k < 2 → (chanOf s.core k).queue.length + (ofChan s m vs2 k).length ≤ 32) →
        ∃ t, exec (.copyb c gd vs2 m) s = .next t ∧ copied s t gd m vs2)
      ∧ (∀ q r rest, copies s m vs2 = (q, r) :: rest → 32 ≤ (chanOf s.core r.1).queue.length →
        ∃ t, exec (.copyb c gd vs2 m) s = .next t ∧ t.hart.wait = some (.copyb c gd vs2 m)
          ∧ t.hart.vstart = BitVec.ofNat 32 (8 * q) ∧ t.hart.pc = s.hart.pc ∧ t.core.chan = s.core.chan
            ∧ ReleasedAt s t 1))
    ∧ (∀ c gd vs2 m s, ready (.bankb c gd vs2 m) c m vs2 s →
      ((s.eng.cmd.filter (fun x => x.hart / 4 == s.col)).length + (sums s m vs2).length ≤ 128 →
        ∃ t, exec (.bankb c gd vs2 m) s = .next t ∧ banked s t gd m vs2)
      ∧ (∀ q r rest, sums s m vs2 = (q, r) :: rest → 128 ≤ (s.eng.cmd.filter (fun x => x.hart / 4 == s.col)).length →
        ∃ t, exec (.bankb c gd vs2 m) s = .next t ∧ t.hart.wait = some (.bankb c gd vs2 m)
          ∧ t.hart.vstart = BitVec.ofNat 32 (8 * q) ∧ t.hart.pc = s.hart.pc ∧ t.eng = s.eng ∧ ReleasedAt s t 1))
    ∧ (∀ h c gd vs2 m s, let u := focus s h; (getHart s h).stepping = false →
      ((getHart s h).wait = some (.copyb c gd vs2 m) → ready (.copyb c gd vs2 m) c m vs2 u →
        (∀ k, k < 2 → (chanOf u.core k).queue.length + (ofChan u m vs2 k).length ≤ 32) →
        ∃ t, exec (.batchQueueRoom h) s = .next t ∧ t.cur = h ∧ copied u t gd m vs2)
      ∧ ((getHart s h).wait = some (.bankb c gd vs2 m) → ready (.bankb c gd vs2 m) c m vs2 u →
        (u.eng.cmd.filter (fun x => x.hart / 4 == u.col)).length + (sums u m vs2).length ≤ 128 →
        ∃ t, exec (.batchQueueRoom h) s = .next t ∧ t.cur = h ∧ banked u t gd m vs2))
    ∧ (∀ c gd vs2 m s, tileSize s = 0 → ∀ i ∈ [Instr.copyb c gd vs2 m, .bankb c gd vs2 m],
      checkVector s (batchReq s i c vs2 m) = none →
      ∃ t, exec i s = .next t ∧ GWritten s t gd 0 ∧ t.hart.vstart = 0 ∧ InSequence s t ∧ SameMemory s t ∧ VectorFrame s t))
  ∧ ((∀ gd gs1 s, let v := readG s gs1; let which := (v.extractLsb' 8 2).toNat
      let x := chanOf s.core (if v.getLsbD 0 = true then 1 else 0)
      let answer := (if which = 0 then x.wp else if which = 1 then x.rp else BitVec.ofNat 64 (x.done.toNat + x.first * 2 ^ 32))
      (v &&& ~~~(0x301 : Word) = 0 → which ≠ 3 → ∃ t, exec (.copywp gd gs1) s = .next t ∧ GWritten s t gd answer
        ∧ InSequence s t ∧ AcquiredAt t 1 ∧ SameLive s t ∧ AccessFrame s t)
      ∧ (v &&& ~~~(0x301 : Word) ≠ 0 ∨ which = 3 → s.hart.mode = .user →
        ∃ t, exec (.copywp gd gs1) s = .next t ∧ TrapTaken s t 0 v 3 false []))
    ∧ (∀ gd gs1 which s, let n := readG s gs1; let x := slotOf s n.toNat
      (slotAssigned s n.toNat s.hart.asid = true → ∃ t, exec (.rgncnt gd gs1 which) s = .next t
        ∧ GWritten s t gd ((if which = 0 then x.sc else if which = 1 then x.rc else x.ic).setWidth 64)
        ∧ InSequence s t ∧ AcquiredAt t 1 ∧ SameLive s t ∧ AccessFrame s t)
      ∧ (slotAssigned s n.toNat s.hart.asid = false → s.hart.mode = .user →
        ∃ t, exec (.rgncnt gd gs1 which) s = .next t ∧ TrapTaken (logged s 6 n) t 6 n 3 false []))
    ∧ (∀ c gs0 gs1 gs2 s, ∀ i ∈ [Instr.settle c gs0 gs1 gs2, .renew c gs0 gs1 gs2],
      let n := (readG s gs0).toNat; let off := readG s gs1; let len := readG s gs2; let x := slotOf s n
      let renew := decide (i = .renew c gs0 gs1 gs2)
      let a := (if len = 0 then x.base else x.base + off.toNat); let size := (if len = 0 then x.size else len.toNat)
      let aligned := len = 0 ∨ (off.toNat % 128 = 0 ∧ len.toNat % 128 = 0)
      checkVector s { vreq (wordOf i) .eng c with accept := none, needsVector := false } = none →
      (aligned → slotAssigned s n s.hart.asid = true → (len = 0 ∨ off.toNat + len.toNat ≤ x.size) →
        ∃ t, exec i s = .next t ∧ GKept s t ∧ InSequence s t ∧ t.hart.vstart = 0 ∧ SameMemory s t
          ∧ t.eng.sweep = s.eng.sweep ++ [⟨s.eng.nextId, n, renew, a, size, if renew = true then [] else dirtySectors s a size⟩]
          ∧ slotOf t n = { x with inflight := x.inflight + 1 } ∧ (∀ k, k ≠ n → slotOf t k = slotOf s k)
          ∧ t.eng.cmd = s.eng.cmd ∧ t.eng.bank = s.eng.bank ∧ VectorFrame { s with eng := t.eng } t)
      ∧ (¬aligned → s.hart.mode = .user → ∃ t, exec i s = .next t ∧ TrapTaken s t 4 off 3 false [])
      ∧ (aligned → slotAssigned s n s.hart.asid = false → s.hart.mode = .user →
        ∃ t, exec i s = .next t ∧ TrapTaken (logged s 6 (readG s gs0)) t 6 (readG s gs0) 3 false [])
      ∧ (aligned → slotAssigned s n s.hart.asid = true → len ≠ 0 → x.size < off.toNat + len.toNat → s.hart.mode = .user →
        ∃ t, exec i s = .next t ∧ TrapTaken (logged s 6 off) t 6 off 3 false [])))

/-- MBPOST delivers the packed tile as an ACT record where the episode is open, the generation is not too old and there
is room; else it answers 1 or 2, or waits. MBTAKE takes the oldest record, spreads its payload over the tile and answers
its summary, or waits. The events that end those waits ask again in full. MBPOLL answers the ring counts and the
episode. A mailbox that is not the tenant's traps with its number, a payload above 480 bytes with its length (11 R249 to
R251; 22 R389, R393). That terminal records which wait enter the ring in the step of the take is the model's (log 27). -/
def Obligations.MailboxesArePostedTakenAndPolled : Prop :=
  let mine := fun s (n : Word) => n.toNat < 4096 ∧ boxOwner s n.toNat = some s.hart.asid
  let notPast := fun s => tileSize s = 0 ∨ s.hart.vstart.toNat < tileSize s
  let open_ := fun s (b : Nat) => (boxOf s b).estate = .opened ∧ (boxOf s b).xpend = false
    ∧ (boxOf s b).genfloor.toNat ≤ s.hart.pgen.toNat
  let others := fun s t (b : Nat) => ∀ x, x ≠ b → boxOf t x = boxOf s x
  let postOk := fun c (vs3 gs1 gd : Reg) s =>
    checkVector s (boxReq s (.mbpost c vs3 gs1 gd) c [vs3.toNat] []) = none ∧ notPast s ∧ mine s (readG s gs1)
    ∧ payloadLength s ≤ 480
  let delivered := fun s t (vs3 gs1 gd : Reg) => let b := (readG s gs1).toNat; let x := boxOf s b
    GWritten s t gd 0 ∧ InSequence s t ∧ t.hart.vstart = 0 ∧ ReleasedAt s t 1 ∧ SameLive s t ∧ others s t b
    ∧ boxOf t b = { x with
      dn := x.dn ++ [{ episode := x.episode, step := x.stepd, gen := s.hart.pgen, kind := 1
                       flags := if x.follow = true then 1 else 0, len := payloadLength s, user := 0
                       payload := payloadOf s vs3.toNat }]
      stepd := x.stepd + 1 }
  let taken := fun s t (vd gs1 gd : Reg) r rest => let b := (readG s gs1).toNat; let x := boxOf s b
    GWritten s t gd (summary r) ∧ InSequence s t ∧ t.hart.vstart = 0 ∧ AcquiredAt t 1 ∧ SameLive s t ∧ others s t b
    ∧ boxOf t b = { x with up := rest ++ x.waiting.take (8 - rest.length), waiting := x.waiting.drop (8 - rest.length) }
    ∧ (∀ e, e < tileSize s → regOf s vd.toNat e < 32 →
      elem? t vd.toNat (sew s) e = some (natOfBytes r.payload / 2 ^ (e * sew s) % 2 ^ sew s))
    ∧ (∀ e, tileSize s ≠ 0 → tileSize s ≤ e → e < vlmaxG s → regOf s vd.toNat e < 32 →
      elem? t vd.toNat (sew s) e = if vtTZ s.hart then some 0 else elem? s vd.toNat (sew s) e)
    ∧ RegistersTracked s t vd.toNat
  (∀ c vs3 gs1 gd s, let b := (readG s gs1).toNat; postOk c vs3 gs1 gd s →
    (releaseWaits s 1 = false → open_ s b → (boxOf s b).dn.length < 8 →
      ∃ t, exec (.mbpost c vs3 gs1 gd) s = .next t ∧ delivered s t vs3 gs1 gd)
    ∧ (open_ s b → 8 ≤ (boxOf s b).dn.length → ∃ t, exec (.mbpost c vs3 gs1 gd) s = .next t
      ∧ t = { s with hart := { s.hart with wait := some (.mbpost c vs3 gs1 gd) } })
    ∧ (¬open_ s b → ∃ t, exec (.mbpost c vs3 gs1 gd) s = .next t
      ∧ GWritten s t gd (if (boxOf s b).estate = .opened ∧ (boxOf s b).xpend = false then 1 else 2)
      ∧ InSequence s t ∧ t.hart.vstart = 0 ∧ SameMemory s t ∧ VectorFrame s t))
  ∧ (∀ h c vs3 gs1 gd s, let u := focus s h; (getHart s h).wait = some (.mbpost c vs3 gs1 gd) →
    (getHart s h).stepping = false → postOk c vs3 gs1 gd u → releaseWaits u 1 = false →
    open_ u (readG u gs1).toNat → (boxOf u (readG u gs1).toNat).dn.length < 8 →
    ∃ t, exec (.mbpostSlotFreed h) s = .next t ∧ t.cur = h ∧ delivered u t vs3 gs1 gd)
  ∧ (∀ c vd gs1 gd s, checkVector s (boxReq s (.mbtake c vd gs1 gd) c [] [vd.toNat]) = none → notPast s →
    mine s (readG s gs1) →
    (∀ r rest, (boxOf s (readG s gs1).toNat).up = r :: rest →
      ∃ t, exec (.mbtake c vd gs1 gd) s = .next t ∧ taken s t vd gs1 gd r rest)
    ∧ ((boxOf s (readG s gs1).toNat).up = [] → ∃ t, exec (.mbtake c vd gs1 gd) s = .next t
      ∧ t = { s with hart := { s.hart with wait := some (.mbtake c vd gs1 gd) } }))
  ∧ (∀ h c vd gs1 gd s r rest, let u := focus s h; (getHart s h).wait = some (.mbtake c vd gs1 gd) →
    (getHart s h).stepping = false → checkVector u (boxReq u (.mbtake c vd gs1 gd) c [] [vd.toNat]) = none → notPast u →
    mine u (readG u gs1) → (boxOf u (readG u gs1).toNat).up = r :: rest →
    ∃ t, exec (.mbtakeRecordArrived h) s = .next t ∧ t.cur = h ∧ taken u t vd gs1 gd r rest)
  ∧ (∀ gd gs1 s, let n := readG s gs1; let x := boxOf s n.toNat
    (mine s n → ∃ t, exec (.mbpoll gd gs1) s = .next t ∧ GWritten s t gd
        (BitVec.ofNat 64 (x.up.length + 16 * x.dn.length + 2 ^ 32 * x.episode.toNat)) ∧ InSequence s t ∧ ScalarFrame s t)
    ∧ (¬mine s n → s.hart.mode = .user → ∃ t, exec (.mbpoll gd gs1) s = .next t ∧ TrapTaken s t 9 n 3 false []))
  ∧ (∀ c v gs1 gd s, let n := readG s gs1; notPast s → s.hart.mode = .user →
    (checkVector s (boxReq s (.mbpost c v gs1 gd) c [v.toNat] []) = none →
      (¬mine s n → ∃ t, exec (.mbpost c v gs1 gd) s = .next t ∧ TrapTaken s t 9 n 3 false [])
      ∧ (mine s n → 480 < payloadLength s → ∃ t, exec (.mbpost c v gs1 gd) s = .next t
        ∧ TrapTaken s t 9 (BitVec.ofNat 64 (payloadLength s)) 3 false []))
    ∧ (checkVector s (boxReq s (.mbtake c v gs1 gd) c [] [v.toNat]) = none → ¬mine s n →
      ∃ t, exec (.mbtake c v gs1 gd) s = .next t ∧ TrapTaken s t 9 n 3 false []))

/-! ## What caches, translations, banks and engines do by themselves -/

/-- A store buffer entry drains into the core's L1, dirty bytes leave an L1 for their home, a dirty home sector goes to
the arrays, unless an engine uses its bank, where the write waits: the hart whose stores they are sees no byte change
(01 R35; 13 R296, R298; 14 R320). That a patrol scrub changes nothing is the model's (log 58). A store of a supervisor
hart to TLBI starts an invalidation; it is complete only once no access that used a named translation is outstanding,
and then no TLB and no walker holds one (13 R293 to R295). That the completion brings every hart's stores home is the
model's (log 44). -/
def Obligations.CachesAndTranslations : Prop :=
  ((∀ h sec s x, mapGet? (getHart s h).sb sec = some x → ∃ t, exec (.storeBufferDrain h sec) s = .next t
      ∧ mapGet? (getHart t h).sb sec = none ∧ (h = s.cur → SameLive s t)
      ∧ (∀ i b, i < 128 → x.getD i none = some b →
        ∃ y, mapGet? (getCore t (colOf h)).l1 sec = some y ∧ y.bytes.getD i .absent = .dirty b)
      ∧ t = { s with
          hart := { s.hart with sb := t.hart.sb, sbGrain := t.hart.sbGrain }, harts := t.harts
          core := { s.core with l1 := t.core.l1 }, cores := t.cores })
    ∧ (∀ col sec s x, mapGet? (getCore s col).l1 sec = some x → ∃ t, exec (.l1Eviction col sec) s = .next t
      ∧ mapGet? (getCore t col).l1 sec = none ∧ (col = s.col → SameLive s t)
      ∧ (∀ i b, i < 128 → x.bytes.getD i .absent = .dirty b → homeByte t (sec * 128 + i) = b)
      ∧ t = { s with
          hart := { s.hart with monitor := t.hart.monitor }, harts := t.harts, core := { s.core with l1 := t.core.l1 }
          cores := t.cores, ms := { s.ms with l2 := t.ms.l2 } })
    ∧ (∀ sec drop s x, mapGet? s.ms.l2 sec = some x → isCached (sec * 128) = true → x.bytes.length = 128 →
      (x.dirty = false → x.bytes = settledSector s sec) → (x.dirty = true → bankFree s (bankOf (sec * 128)) = true) →
      ∃ t, exec (.eviction sec drop) s = .next t
      ∧ SameLive s t ∧ (∀ i, i < 128 → settledByte t (sec * 128 + i) = x.bytes.getD i 0)
      ∧ (mapGet? t.ms.l2 sec = if drop = true then none else some { x with dirty := false })
      ∧ t = { s with
          hart := { s.hart with monitor := t.hart.monitor }, harts := t.harts
          ms := { s.ms with mem := t.ms.mem, l2 := t.ms.l2, poison := t.ms.poison, elided := t.ms.elided } })
    ∧ (∀ sec drop s x, mapGet? s.ms.l2 sec = some x → x.dirty = true → bankFree s (bankOf (sec * 128)) = false →
      exec (.eviction sec drop) s = .next (waitAtBank s (bankOf (sec * 128)) (.write sec)))
    ∧ ∀ s, exec .patrolScrub s = .next s)
  ∧ ((∀ h s, (getHart s h).run = .running → (getHart s h).mode = .supervisor →
      (∃ t, exec (.tlbiAll h) s = .next t ∧ t = { s with ms := { s.ms with tlbi := s.ms.tlbi ++ [⟨h, 0, 0, 0⟩] } })
      ∧ (∀ asid, ∃ t, exec (.tlbiAsid h asid) s = .next t
        ∧ t = { s with ms := { s.ms with tlbi := s.ms.tlbi ++ [⟨h, 1, asid, 0⟩] } })
      ∧ ∀ asid (va : BitVec 39), ∃ t, exec (.tlbiPage h asid va) s = .next t
        ∧ t = { s with ms := { s.ms with tlbi := s.ms.tlbi ++ [⟨h, 2, asid, va.toNat⟩] } })
    ∧ (∀ i s x, s.ms.tlbi[i]? = some x → stillUsed s x = true → exec (.tlbiComplete i) s = .next s)
    ∧ (∀ i s x, s.ms.tlbi[i]? = some x → stillUsed s x = false → ∃ t, exec (.tlbiComplete i) s = .next t
      ∧ t.ms.tlbi = s.ms.tlbi.eraseIdx i
      ∧ (∀ c, ∀ e ∈ (getCore t c).tlb, named x e = false) ∧ (∀ l ∈ t.ms.dieTlb.toList, ∀ e ∈ l, named x e = false)
      ∧ (∀ c e, e ∈ (getCore s c).tlb → named x e = false → e ∈ (getCore t c).tlb)
      ∧ (∀ l ∈ t.ms.upper.toList, ∀ e ∈ l, namedUpper x e = false)
      ∧ (∀ h sec, isCached (sec * 128) = false → mapGet? (postedOf t h) sec = none) ∧ (∀ h, (getHart t h).sb = [])
        ∧ (∀ a, ownByte t a = none) ∧ GKept s t ∧ t.hart.pc = s.hart.pc)
    ∧ (∀ x e, let v := e.vpage % 2 ^ 39
      (x.mode = 0 → named x e = true) ∧ (x.mode = 1 → (named x e = true ↔ e.asid = x.asid))
      ∧ (x.mode = 2 → e.asid = x.asid → v = x.page → named x e = true)
      ∧ (x.mode = 2 → e.asid ≠ x.asid → named x e = false)))

/-- Stores to a slot page: BASE empties the slot and is discarded while commands are in flight, SIZE and ATTR are
checked, STATUS clears; an arbitration register takes legal values whole and clears YIELDS (14 R311, R312, R322). A
request is served where no engine uses its bank and it does not refresh, else it waits under the ARBBATCH of its
arrival. Once a window has expired, the engine yields at its next safe point: after its next row step the bank has
served as many requests as the oldest one's ARBBATCH says, YIELDS has risen, and the engine still holds the bank. A
refresh freezes the bank until it ends, then a free bank serves what waits (14 R319 to R323). What holds a bank between
pieces is the model's reading (log 33). -/
def Obligations.SlotsAndBanks : Prop :=
  ((∀ n v s, n < 16384 → let x := slotOf s n
      let only := fun t (y : Slot) => slotOf t n = y ∧ (∀ k, k ≠ n → slotOf t k = slotOf s k)
        ∧ t = { s with eng := { s.eng with slot := t.eng.slot } }
      let legal := v.toNat % 4096 = 0 ∧ v.toNat ≤ 2 ^ 40 ∧ (v.toNat = 0 ∨ x.base + v.toNat ≤ dramSize
        ∨ (capBase ≤ x.base ∧ x.base + v.toNat ≤ capEnd))
      (x.inflight = 0 → (∃ t, exec (.slotBaseWrite n v) s = .next t
          ∧ only t { x with base := (v.extractLsb' 12 36).toNat * 4096, size := 0 })
        ∧ (legal → ∃ t, exec (.slotSizeWrite n v) s = .next t ∧ only t { x with size := v.toNat })
        ∧ ∃ t, exec (.slotAttrWrite n v) s = .next t ∧ only t { x with valid := v.getLsbD 16, asid := v.setWidth 16 })
      ∧ (¬legal → ∃ t, exec (.slotSizeWrite n v) s = .next t ∧ only t x)
      ∧ (x.inflight ≠ 0 → ∀ i ∈ [Instr.slotBaseWrite n v, .slotSizeWrite n v, .slotAttrWrite n v],
        ∃ t, exec i s = .next t ∧ only t x)
      ∧ ∃ t, exec (.slotStatusWrite n v) s = .next t ∧ only t { x with fails := 0, last := 0, first := 0 })
    ∧ (∀ ch v s, ch < 192 → let win := (v.extractLsb' 0 13).toNat; let batch := (v.extractLsb' 16 5).toNat
      let legal := v &&& 0xFFFF0000FFE0E000 = 0 ∧ 64 ≤ win ∧ win ≤ 4096 ∧ batch ≠ 0
      ∃ t, exec (.arbitrationRegisterWrite ch v) s = .next t ∧ (legal → arbOf t ch = ⟨win, batch, 0⟩)
        ∧ (¬legal → arbOf t ch = arbOf s ch) ∧ (∀ k, k ≠ ch → arbOf t k = arbOf s k)
        ∧ t = { s with eng := { s.eng with arb := t.eng.arb } }))
  ∧ ((∀ r s sec, (r = .fill sec ∨ r = .write sec) → isCached (sec * 128) = true → let b := bankOf (sec * 128)
      let x := bankState s b
      (bankFree s b = true → ∃ t, exec (.ordinaryRequest r) s = .next t ∧ t.eng = s.eng ∧ t.core = s.core
        ∧ t.hart = s.hart ∧ (r = .fill sec → mapGet? t.ms.l2 sec = some (homeSector s sec) ∧ t.ms.mem = s.ms.mem
          ∧ SameLive s t)
        ∧ (r = .write sec → ∀ y, mapGet? s.ms.l2 sec = some y → y.bytes.length = 128 →
          mapGet? t.ms.l2 sec = some { y with dirty := false } ∧ SameLive s t
          ∧ (y.dirty = true → ∀ i, i < 128 → settledByte t (sec * 128 + i) = y.bytes.getD i 0)))
      ∧ (bankFree s b = false → ∃ t, exec (.ordinaryRequest r) s = .next t
        ∧ bankState t b = (if x.waiting.any (fun q => q.1 == r) = true then x
          else { x with waiting := x.waiting ++ [(r, (arbOf s (channelOf b)).batch)] }) ∧ (∀ k, k ≠ b →
            bankState t k = bankState s k)
        ∧ t = { s with eng := { s.eng with bank := t.eng.bank } }))
    ∧ (∀ b s, (bankState s b).expired < (bankState s b).waiting.length →
      ∃ t, exec (.arbitrationWindowExpiry b) s = .next t
        ∧ bankState t b = { bankState s b with expired := (bankState s b).expired + 1 }
        ∧ t = { s with eng := { s.eng with bank := t.eng.bank } })
    ∧ (∀ b s, b < 4160 → ∃ t, exec (.refresh b) s = .next t ∧ bankState t b = { bankState s b with refreshing := true }
      ∧ t = { s with eng := { s.eng with bank := t.eng.bank } })
    ∧ (∀ b s, (bankState s b).refreshing = true → ∃ t, exec (.refreshEnd b) s = .next t
      ∧ (bankState t b).refreshing = false ∧ (bankState t b).engine = (bankState s b).engine
      ∧ (bankState t b).busy = (bankState s b).busy ∧ (inUse (bankState s b) = false → (bankState t b).waiting = []))
    ∧ (∀ id i s c p op rest q more, findCommand s id = some c → c.started = true → c.pieces[i]? = some p →
      p.ops = op :: rest → rest ≠ [] → op.isStep = true → op.away p = false → mayAct s c i p = true →
      stepFault s p op.addr = none → let b := p.bank; let x := bankState s b
      x.waiting = q :: more → 0 < x.expired →
      ∃ t, exec (.engineRowStep id i) s = .next t
        ∧ bankState t b = { x with busy := true, engine := some id, waiting := x.waiting.drop q.2, expired := x.expired - q.2 }
        ∧ (arbOf t (channelOf b)).yields = min ((arbOf s (channelOf b)).yields + 1) 0xFFFF
        ∧ ∀ r ∈ x.waiting.take q.2, ∀ sec, r.1 = .write sec → needsWrite t sec = false)
    ∧ (∀ id i s c p op rest, findCommand s id = some c → c.started = true → c.status = 0 → c.pieces[i]? = some p →
      p.ops = op :: rest → (bankState s p.bank).refreshing = true → (s.eng.cmd.map (·.id)).Nodup →
        ∀ e ∈ [Instr.engineRowStep id i, .engineWriteBack id i], exec e s = .next s))

/-- A row step of a piece accumulates a row from the settled image, what it had read before a refresh among it, its bank
held; a write-back rounds the sums to the format and writes them to the arrays; the bank stays held while accepted
commands have pieces left in it. An in-place command that is through leaves with its slot's count, or its status and a
log entry; a sweep completes once its sectors are written (11 R235, R236, R238, R239; 14 R316, R317, R319, R324; 16
R329). That a command is planned at its first event and that sweeps wait for free banks is the model's (log 33). -/
def Obligations.EnginesActPieceByPiece : Prop :=
  (∀ id i s c p op rest, findCommand s id = some c → c.started = true → c.pieces[i]? = some p → p.ops = op :: rest →
    mayAct s c i p = true → sourceReady s c i p op = true → queueGoes s c i p op = true →
    (∀ b, (bankState s b).waiting = []) →
    let f := fmtOfRecord c.rcd
    let after := fun t acc => (∃ d, findCommand t id = some d
        ∧ d.pieces = c.pieces.set i { p with ops := rest, acc := acc, begun := false, got := [] })
      ∧ (bankState t p.bank).engine = (if rest = [] then none else some id)
      ∧ (bankState t p.bank).busy = (!rest.isEmpty || bankWanted t p.bank)
    (∀ k a, stepFault s p a = none → (op = .first k a → ∃ t, exec (.engineRowStep id i) s = .next t ∧ t.ms = s.ms
        ∧ after t ((pieceElems f (stepBytes s p a)).map (firstElem k)))
      ∧ (op = .step k a → ∃ t, exec (.engineRowStep id i) s = .next t ∧ t.ms = s.ms
        ∧ after t (p.acc.zipWith (stepElem k) (pieceElems f (stepBytes s p a)))))
    ∧ (∀ a, p.got = [] → stepBytes s p a = (List.range p.len).map (fun j => settledByte s (a + j)))
    ∧ (∀ a, op = .writeBack a → sourceFree s c i p op = true → pieceFault s a p.len true = none → a % 128 = 0 → p.len % 128 = 0 →
      let bytes := p.acc.flatMap (fun x => bytesOfNat (f.width / 8) (backElem f x))
      bytes.length = p.len → ∃ t, exec (.engineWriteBack id i) s = .next t ∧ after t p.acc
        ∧ (∀ j, j < p.len → settledByte t (a + j) = bytes.getD j 0)
        ∧ (isCap a = false ∨ a / 4096 = (a + p.len - 1) / 4096 →
          ∀ x, (x < a ∨ a + p.len ≤ x) → settledByte t x = settledByte s x))
    ∧ (∀ e k a, (op = .first k a ∨ op = .step k a) → stepFault s p a = some e →
      ∃ t d, exec (.engineRowStep id i) s = .next t ∧ findCommand t id = some d ∧ d.status = e.1 ∧ d.where_ = e.2
        ∧ d.pieces = [] ∧ t.ms = s.ms))
  ∧ (∀ id i s c, findCommand s id = some c → c.started = false → ∀ e ∈ [Instr.engineRowStep id i, .engineWriteBack id i],
    exec e s = exec e (setCommand s (startCommand s c)))
  ∧ (∀ id s c, findCommand s id = some c → c.started = true → c.owned = true → let n := c.rcd.dslot; let x := slotOf s n
    let gone := fun (t : State) => t.eng.cmd = s.eng.cmd.filter (fun y => y.id != id) ∧ ∀ k, k ≠ n →
      slotOf t k = slotOf s k
    (c.status = 0 → (∀ p ∈ c.pieces, p.ops = []) → ∃ t, exec (.inPlaceComplete id) s = .next t ∧ gone t
      ∧ slotOf t n = { x with ic := x.ic + 1, inflight := x.inflight - 1 } ∧ t.ms = s.ms ∧ t.sched = s.sched)
    ∧ (c.status ≠ 0 → (∀ b, (bankState s b).waiting = []) → ∃ t, exec (.inPlaceComplete id) s = .next t ∧ gone t
      ∧ slotOf t n = { x with
          ic := x.ic + 1, inflight := x.inflight - 1, last := BitVec.ofNat 8 c.status
          fails := if x.fails = 0xFFFFFFFF then x.fails else x.fails + 1
          first := if x.first = 0 then BitVec.ofNat 8 c.status else x.first }
      ∧ t.ms = (logViolation s c.asid (BitVec.ofNat 64 c.where_) (reqOfHart c.hart) 2 c.status 0).ms))
  ∧ (∀ id s w, s.eng.sweep.find? (fun x => x.id == id) = some w →
    (∀ sec ∈ sweepLeft s w, needsWrite s sec = true → bankFree s (bankOf (sec * 128)) = true) → let x := slotOf s w.slot
    (w.renew = false → ∃ t, exec (.settleSweepComplete id) s = .next t
      ∧ slotOf t w.slot = { x with inflight := x.inflight - 1, sc := x.sc + 1 }
      ∧ t.eng.sweep = s.eng.sweep.filter (fun y => y.id != id) ∧ ∀ sec ∈ w.todo, needsWrite t sec = false)
    ∧ (w.renew = true → ∃ t, exec (.renewComplete id) s = .next t
      ∧ slotOf t w.slot = { x with inflight := x.inflight - 1, rc := x.rc + 1 }
      ∧ t.eng.sweep = s.eng.sweep.filter (fun y => y.id != id) ∧ ∀ sec ∈ sweepLeft s w, mapGet? t.ms.l2 sec = none))

/-- A unit of the copy command at the head of a channel moves bytes from its source to its destination at the home, or
writes its pattern, or elides a whole block; WP and RP count whole units. A command that is through, or whose next unit
fails, leaves with DONE counted, pointers over its whole length and its failure logged (11 R230 to R236; 13 R304). One
whose path is down waits; one whose HOST or PEER access ends in an error leaves with FAULT (24 R405, R408); one whose walk
meets an uncorrectable error reports POISON, and the tenant's gangs fail (24 R415); one that its strip lets move nothing
stays (09 R187). -/
def Obligations.CopyCommandsMoveAndComplete : Prop :=
  let side := fun s a => if isCached a = true then homeByte s a else settledByte s a
  (∀ col (chan : Bool) s c rest strip plan n, let k := (if chan = true then 1 else 0); let ch := chanOf (getCore s col) k
    let slots := (plan.src ++ plan.dst).map (·.phys.slot)
    let apart := fun a len => ∀ x ∈ slots, x < a ∨ a + len ≤ x
    ch.queue = c :: rest → strip = (boundStrip s col k).getD Strip.reset → n = moveLength s ch strip c → 0 < n →
    heldBack s c = false → unitsOk s ch strip c n = .ok plan →
    (planWaits s plan = true → exec (.copyUnit col chan) s = .next s)
    ∧ (planWaits s plan = false → planError s plan = none → busyFills s (moveBytes s c n plan) = [] →
    ∃ t, exec (.copyUnit col chan) s = .next t ∧ let d := counted c (c.moved + n) - counted c c.moved
      chanOf (getCore t col) k = { ch with
        queue := { c with moved := c.moved + n } :: rest
        wp := if c.counted = true then ch.wp + BitVec.ofNat 64 d else ch.wp
        rp := if c.counted = true ∧ c.fill = false then ch.rp + BitVec.ofNat 64 d else ch.rp }
      ∧ (∀ a la b lb, c.fill = false → plan.srcParts = [(a, la)] → plan.dstParts = [(b, lb)] → n ≤ la → n ≤ lb →
        apart a n → (isCached a = true ↔ isCached (a + n - 1) = true) → ∀ i, i < n →
        (isCached b = true ↔ isCached (b + i) = true) → side t (b + i) = side s (a + i))
      ∧ (∀ b lb, c.fill = true → elides s c c.moved = false → plan.dstParts = [(b, lb)] → n ≤ lb → ∀ i, i < n →
        (∀ j, j < n → (isCached b = true ↔ isCached (b + j) = true)) → side t (b + i) = byteOf c.src.toNat ((b + i) % 8))
      ∧ (∀ b lb rest', elides s c c.moved = true → plan.dstParts = (b, lb) :: rest' →
        mapGet? t.ms.elided (b / 4096) = some c.src)))
  ∧ (∀ col (chan : Bool) s c rest, let k := (if chan = true then 1 else 0); let ch := chanOf (getCore s col) k
    let strip := (boundStrip s col k).getD Strip.reset
    let left := fun t status => let d := BitVec.ofNat 64 (c.len - counted c c.moved); let y := chanOf (getCore t col) k
      y.queue = rest ∧ (c.counted = true → y.done = ch.done + 1 ∧ y.first = (if ch.first = 0 then status else ch.first)
        ∧ y.wp = ch.wp + d ∧ y.rp = (if c.fill = true then ch.rp else ch.rp + d))
      ∧ (c.counted = false → y = { ch with queue := rest })
    ch.queue = c :: rest →
    (c.moved = c.len → ∃ t, exec (.copyCommandComplete col chan) s = .next t ∧ left t 0
      ∧ t.ms = { s.ms with filled := t.ms.filled } ∧ t.hart = s.hart)
    ∧ (c.moved ≠ c.len → moveLength s ch strip c = 0 → exec (.copyCommandComplete col chan) s = .next s)
    ∧ (∀ plan va, c.moved ≠ c.len → heldBack s c = false → 0 < moveLength s ch strip c →
      unitsOk s ch strip c (moveLength s ch strip c) = .ok plan → planError s plan = some va →
      ∃ t, exec (.copyCommandComplete col chan) s = .next t ∧ left t 6 ∧ t.hart = s.hart
        ∧ t.ms = (logViolation s c.asid va (col + 256 * k) 1 6 0).ms)
    ∧ (∀ status va, c.moved ≠ c.len → heldBack s c = false → 0 < moveLength s ch strip c →
      unitsOk s ch strip c (moveLength s ch strip c) = .error (status, va) →
      ∃ u, left u (reported status) ∧ u.hart = s.hart
        ∧ u.ms = (logViolation s c.asid va (col + 256 * k) 1 (reported status) 0).ms
        ∧ (status ≠ statusWalk → reported status = status ∧ exec (.copyCommandComplete col chan) s = .next u)
        ∧ (status = statusWalk → reported status = 5
          ∧ exec (.copyCommandComplete col chan) s = .next (noteWalkError u c.asid))))

/-! ## Greenhouse -/

/-- A load, store, atomic or reservation of a Greenhouse core that its checks allow acts on its SRAM, on memory at the
home, or on the registers of the context page or of the mailbox page of the plot installed on it; one refused gives an
access fault with the address, one refused by the plot checker is logged for the tenant as well, an atomic off its natural
boundary is misaligned; a load, fetch or atomic of poisoned memory faults (09 R173; 22 R379 to R386, R390, R391; 24 R415).
What an access returns stands in its register and the core is past the instruction; a fetch leaves the bytes it fetched,
which may be those its instruction cache holds (22 R380). A load of POST or TAKE does what the rows of those names do. The
causes 1, 4 to 7, the mode of an access, what the entry of a fault does to mstatus, and the rules of PMP are those of the
RISC-V standard (PRESUMED, log 59); how far PCOUNT has come is the model's (log 9). -/
def Obligations.GreenhouseCoresAccess : Prop :=
  ∀ (a : CoreAccess) s, let c := gcoreOf s a.core; accessDue c a = true → pruneDue c = false →
    let go := exec (.greenhouseCoreAccess a) s
    let kindCause : Word := (if a.kind = .fetch then 1 else if a.kind = .load ∨ a.kind = .lr then 5 else 7)
    let others := fun t => ∀ g, g ≠ a.core → gcoreOf t g = gcoreOf s g
    let faulted := fun t (cause : Word) => let d := gcoreOf t a.core
      d.mcause = cause ∧ d.mtval = BitVec.ofNat 64 a.addr ∧ d.machine = true ∧ d.mppUser = (!c.machine) ∧ d.mepc = c.pc
      ∧ d.pc = c.mtvec &&& ~~~(3 : Word) ∧ d.mpie = c.mie ∧ d.mie = false ∧ d.x = c.x ∧ d.f = c.f ∧ d.sram = c.sram
      ∧ others t ∧ t.green.box = s.green.box
    let past := fun t => (gcoreOf t a.core).pc = c.pc + BitVec.ofNat 64 a.len
    let returned := fun t (v : Word) => let d := gcoreOf t a.core
      d.last = v ∧ past t ∧ d.x = (if a.rd = 0 ∨ 32 ≤ a.rd then c.x else c.x.setIfInBounds a.rd v)
      ∧ d.f = (if a.rd < 32 then c.f else c.f.setIfInBounds (a.rd - 32) v)
    let ran := fun t v => returned t v ∧ others t
    let cached := fun (bytes : List Byte) => (∀ i, i < a.size → (mapGet? c.icache (a.addr + i)).isSome = true)
      ∧ bytes = (List.range a.size).map (fun i => mapGet c.icache (a.addr + i) 0)
    let off := a.addr - sramBase; let old := sramRead c off a.size
    let side := fun s x => if isCached x = true then homeByte s x else settledByte s x
    let there := (List.range a.size).map (fun i => side s (a.addr + i))
    (verdict s c a = .fault → ∃ t, go = .next t ∧ faulted t kindCause ∧ t.ms = s.ms ∧ t.sched = s.sched)
    ∧ (verdict s c a = .misaligned → ∃ t, go = .next t ∧ faulted t (if a.kind = .lr then 4 else 6) ∧ t.ms = s.ms)
    ∧ (verdict s c a = .violation → ∃ t, go = .next t ∧ faulted t kindCause ∧ t.ms = (match refusalTenant s a.core c with
        | some asid => (logViolation s asid (BitVec.ofNat 64 a.addr) a.core 4 1 0).ms
        | none => s.ms))
    ∧ (verdict s c a = .allowed → placeOf s c a = .sram →
      let written := fun t (v : Nat) => let d := gcoreOf t a.core
        sramRead d off a.size = v % 256 ^ a.size
        ∧ ∀ i, (i < off ∨ off + a.size ≤ i) → sramRead d i 1 = sramRead c i 1
      (sramBad c off a.size = false →
        (a.kind = .load → ∃ t, go = .next t ∧ ran t (BitVec.ofNat 64 old) ∧ (gcoreOf t a.core).sram = c.sram ∧ t.ms = s.ms)
        ∧ (a.kind = .fetch → granuleHit c.ibad a.addr a.size = false → ∃ t, go = .next t
          ∧ ((gcoreOf t a.core).fetched = bytesOfNat a.size old ∨ cached (gcoreOf t a.core).fetched)
          ∧ (gcoreOf t a.core).sram = c.sram ∧ others t ∧ t.ms = s.ms)
        ∧ (a.kind = .lr → ∃ t, go = .next t ∧ (gcoreOf t a.core).resv = some a.addr ∧ (gcoreOf t a.core).sram = c.sram
          ∧ ran t (coreSigned a.size old))
        ∧ (∀ op, a.kind = .amo op → ∃ t, go = .next t ∧ ran t (coreSigned a.size old)
          ∧ written t (coreAmo op a.size a.data old) ∧ t.ms = s.ms))
      ∧ (sramBad c off a.size = true → (a.kind = .load ∨ a.kind = .lr ∨ ∃ op, a.kind = .amo op) →
        ∃ t, go = .next t ∧ t.ms = s.ms ∧ faulted t 5)
      ∧ (a.kind = .store → ∃ t, go = .next t ∧ written t a.data.toNat ∧ past t ∧ others t ∧ t.ms = s.ms)
      ∧ (a.kind = .sc → ∃ t, go = .next t ∧ (gcoreOf t a.core).resv = none
        ∧ (c.resv = some a.addr → ran t 0 ∧ written t a.data.toNat)
        ∧ (c.resv ≠ some a.addr → ran t 1 ∧ (gcoreOf t a.core).sram = c.sram)))
    ∧ (verdict s c a = .allowed → placeOf s c a = .memory → (poisonAt s a.addr a.size).isSome = false →
      (a.kind = .load → ∃ t, go = .next t ∧ ran t (BitVec.ofNat 64 (natOfBytes there)))
      ∧ (a.kind = .fetch → granuleHit c.ibad a.addr a.size = false → ∃ t, go = .next t ∧ others t
        ∧ ((gcoreOf t a.core).fetched = there ∨ cached (gcoreOf t a.core).fetched))
      ∧ (a.kind = .store → ∃ t, go = .next t ∧ past t ∧ others t
        ∧ t.ms = (performBytes s a.addr (bytesOfNat a.size a.data.toNat)).ms)
      ∧ (∀ op, a.kind = .amo op → (∀ i, i < a.size → (isCached (a.addr + i) = true ↔ isCached a.addr = true)) →
        ∃ t, go = .next t ∧ ran t (coreSigned a.size (natOfBytes there))
          ∧ ∀ i, i < a.size → side t (a.addr + i) = byteOf (coreAmo op a.size a.data (natOfBytes there)) i))
    ∧ (verdict s c a = .allowed → placeOf s c a = .memory → (poisonAt s a.addr a.size).isSome = true →
      (a.kind = .load ∨ ∃ op, a.kind = .amo op) → ∃ t, go = .next t ∧ faulted t 5 ∧ t.ms = s.ms)
    ∧ (∀ o, verdict s c a = .allowed → placeOf s c a = .context o → let n := countOn s c; let v := a.data
      (a.kind = .load → ∃ t, go = .next t ∧ t.green.box = s.green.box ∧ ran t (
        if o = 0x00 then BitVec.ofNat 64 ((if c.installed = true then 2 ^ 63 else 0) + c.plot)
        else if o = 0x08 then c.plimit.setWidth 64
        else if o = 0x10 then BitVec.ofNat 64 ((if c.run = true then 2 ^ 32 else 0) + n.pcount.toNat)
        else if o = 0x18 then c.prunevec
        else if o = 0x20 then BitVec.ofNat 64 ((if c.pv = true then 2 ^ 63 else 0) + c.pplot) else 0))
      ∧ (a.kind = .store → let b := (v.extractLsb' 0 12).toNat
        let free := (coreTenant s a.core).isSome = true ∧ boxOwner s b = coreTenant s a.core
          ∧ ((installedOn s b).any (· != a.core)) = false
        ∃ t, go = .next t ∧ past t ∧ others t ∧ t.green.box = s.green.box ∧ t.ms = s.ms ∧ let d := gcoreOf t a.core
          (o = 0x00 → v.getLsbD 63 = true → (free → d.installed = true ∧ d.plot = b)
            ∧ (¬free → d.installed = c.installed ∧ d.plot = c.plot))
          ∧ (o = 0x00 → v.getLsbD 63 = false → d.installed = false ∧ d.run = c.run ∧ d.pcount = n.pcount)
          ∧ (d.plimit = if o = 0x08 then v.setWidth 32 else c.plimit)
          ∧ (o = 0x10 → d.run = v.getLsbD 32 ∧ d.pcount = v.setWidth 32)
          ∧ (d.prunevec = if o = 0x18 then v &&& ~~~(3 : Word) else c.prunevec)
          ∧ (d.pv = if o = 0x20 then false else c.pv) ∧ d.pplot = c.pplot))
    ∧ (∀ o, verdict s c a = .allowed → placeOf s c a = .page o → let b := c.plot; let x := boxOf s b
      let staged := fun (m : Map Byte) (i : Nat) => BitVec.ofNat 64 (natOfBytes ((List.range a.size).map
        (fun j => mapGet m (i + j) 0)))
      (a.kind = .load →
        (o < 0x200 → ∃ t, go = .next t ∧ t.green.box = s.green.box ∧ ran t (staged x.upstage o))
        ∧ (0x200 ≤ o → o < 0x400 → ∃ t, go = .next t ∧ t.green.box = s.green.box ∧ ran t (staged x.dnstage (o - 0x200)))
        ∧ (∀ w, (o, w) ∈ [(0x410, stateWord x), (0x418, stepsWord x), (0x420, gensWord x), (0x428, x.genfloor.setWidth 64),
            (0x430, (0 : Word))] → ∃ t, go = .next t ∧ t.green.box = s.green.box ∧ ran t w)
        ∧ (∀ i, (o, i) ∈ [(0x400, Instr.post a.core), (0x408, .take a.core)] → ∃ t u, go = .next t ∧ exec i s = .next u
          ∧ t.green.box = u.green.box ∧ returned t (gcoreOf u a.core).last ∧ t.ms = u.ms
          ∧ (gcoreOf t a.core).run = (gcoreOf u a.core).run ∧ (gcoreOf t a.core).pcount = (gcoreOf u a.core).pcount))
      ∧ (a.kind = .store →
        (o < 0x200 → ∃ t, go = .next t ∧ past t ∧ others t ∧ (∀ k, k ≠ b → boxOf t k = boxOf s k)
          ∧ boxOf t b = { x with upstage := (boxOf t b).upstage }
          ∧ ∀ i, mapGet (boxOf t b).upstage i 0 = if o ≤ i ∧ i < o + a.size then byteOf a.data.toNat (i - o)
            else mapGet x.upstage i 0)
        ∧ (o = 0x430 → ∃ t, go = .next t ∧ past t
          ∧ ((coreTenant s a.core).isSome = true → coreTenant s a.core = boxOwner s b →
            t.green.box = (writeCtrl s b a.data).green.box)
          ∧ (coreTenant s a.core ≠ boxOwner s b → t.green.box = s.green.box ∧ others t))))

/-- POST of an open episode delivers a record and stops the count of its core (RUN 0), answers FULL, BAD or CLOSED, and
a DONE record ends the episode; TAKE returns the oldest record and for an ACT starts the count again (PCOUNT 0, RUN 1);
an episode with an expired policy ends at either, and its count stops (22 R389 to R391, R394). The monitor's commands:
OPEN, which starts the count, CLOSE, which stops it, GENFLOOR, OWNER, the windows, installing and removing a plot; the
pruner seals the plot of a core that ran past its limit and enters machine mode at its vector, with the next instruction
and the mode it left saved; terminal records enter as slots are free (22 R381, R385 to R388, R392, R394). Which records
stand in the ring and which wait is the model's (log 27), as is how far PCOUNT has come when a plot is removed (log 9). A
core whose count stands past its limit prunes before it does anything else (22 R392). -/
def Obligations.PlotsAreUsedAndManaged : Prop :=
  (∀ g s, let c := gcoreOf s g; let b := c.plot; let x := boxOf s b
      let bytes := (List.range 512).map (fun i => mapGet x.upstage i 0); let kind := field bytes 12 1
      let good := (kind = 0 ∨ kind = 2 ∨ kind = 3) ∧ field bytes 14 2 ≤ 480 ∧ field bytes 24 8 = 0
      let r := upRecord x kind false (BitVec.ofNat 64 (field bytes 16 8)) ((bytes.drop 32).take (field bytes 14 2))
      let answer := fun t (w : Word) => (gcoreOf t g).last = w ∧ (∀ k, k ≠ b → boxOf t k = boxOf s k)
      let ended := fun t (e : EState) => (boxOf t b).estate = e ∧ (boxOf t b).sealed_ = true
      c.installed = true → c.inService = true → c.asleep = false →
      (pruneDue c = true → ∀ i ∈ [Instr.post g, .take g], ∃ t, exec i s = .next t ∧ (boxOf t b).estate = .pruned
        ∧ (gcoreOf t g).installed = false ∧ (gcoreOf t g).pplot = b ∧ (gcoreOf t g).pc = c.prunevec) ∧
      (pruneDue c = false →
      let count := fun t => installedOn s b = some g → (gcoreOf t g).run = false
      (x.estate ≠ .opened → ∃ t, exec (.post g) s = .next t ∧ answer t 2 ∧ boxOf t b = x)
      ∧ (x.estate = .opened → x.xpend = true →
        (∃ t, exec (.post g) s = .next t ∧ answer t 2 ∧ ended t .expired ∧ (boxOf t b).dn.length = 1
          ∧ count t)
        ∧ ∃ t, exec (.take g) s = .next t ∧ ended t .expired ∧ (boxOf t b).dn = [] ∧ count t)
      ∧ (x.estate = .opened → x.xpend = false →
        (¬good → ∃ t, exec (.post g) s = .next t ∧ answer t 3 ∧ boxOf t b = x)
        ∧ (good → x.up.length = 8 → ∃ t, exec (.post g) s = .next t ∧ answer t 1 ∧ boxOf t b = x)
        ∧ (good → x.up.length ≠ 8 → ∃ t, exec (.post g) s = .next t ∧ answer t 0 ∧ (boxOf t b).up = x.up ++ [r]
          ∧ count t ∧ (kind = 3 → ended t .done ∧ (boxOf t b).dn = []) ∧ (kind ≠ 3 → boxOf t b = { x with up := x.up
            ++ [r] })))
      ∧ (¬(x.estate = .opened ∧ x.xpend = true) →
        (x.dn = [] → ∃ t, exec (.take g) s = .next t ∧ answer t 0xFFFFFFFFFFFFFFFF ∧ boxOf t b = x)
        ∧ (∀ d rest, x.dn = d :: rest → ∃ t, exec (.take g) s = .next t ∧ answer t (summary d) ∧ (boxOf t b).dn = rest
          ∧ (d.kind = 1 → (boxOf t b).stepu = x.stepu + 1 ∧ (boxOf t b).egen = d.gen
            ∧ (installedOn s b = some g → (gcoreOf t g).pcount = 0 ∧ (gcoreOf t g).run = true))
          ∧ (d.kind ≠ 1 → (gcoreOf t g).pcount = c.pcount ∧ (gcoreOf t g).run = c.run ∧ (boxOf t b).stepu = x.stepu
            ∧ (boxOf t b).egen = x.egen)
          ∧ ∀ i, i < 512 → mapGet (boxOf t b).dnstage i 0 = (recordBytes d).getD i 0))))
  ∧ ((∀ b s, b < 4096 → let x := boxOf s b
      let only := fun t y => boxOf t b = y ∧ ∀ k, k ≠ b → boxOf t k = boxOf s k
      (∀ gen follow, ∃ t, exec (.openEp b gen follow) s = .next t
        ∧ (x.estate ≠ .opened → x.up = [] → only t { x with
            episode := x.episode + 1, stepu := 0, stepd := 0, sgen := gen, egen := gen, follow := follow, dn := []
            sealed_ := false, estate := .opened, xpend := !follow && decide (gen.toNat < x.genfloor.toNat) }
          ∧ ∀ g, installedOn s b = some g → gcoreOf t g = { gcoreOf s g with pcount := 0, run := true })
        ∧ (x.estate = .opened ∨ x.up ≠ [] → t = s))
      ∧ (∃ t, exec (.closeEp b) s = .next t ∧ (x.estate ≠ .opened → t = s)
        ∧ (x.estate = .opened → (boxOf t b).estate = .closed ∧ (boxOf t b).sealed_ = true ∧ (boxOf t b).dn = []
          ∧ (∀ g, installedOn s b = some g → (gcoreOf t g).run = false)
          ∧ (boxOf t b).up.length + (boxOf t b).waiting.length = x.up.length + x.waiting.length + 1))
      ∧ (∀ v, ∃ t, exec (.genfloorStore b v) s = .next t ∧ let f : BitVec 32 := v.setWidth 32
        (boxOf t b).genfloor.toNat = max x.genfloor.toNat f.toNat
        ∧ ((boxOf t b).xpend = true ↔ x.xpend = true ∨ (x.estate = .opened ∧ x.follow = false
          ∧ x.sgen.toNat < (boxOf t b).genfloor.toNat))
        ∧ only t { x with genfloor := (boxOf t b).genfloor, xpend := (boxOf t b).xpend })
      ∧ (∀ v, ∃ t, exec (.ownerWrite b v) s = .next t ∧ (x.estate = .opened → t = s)
        ∧ (x.estate ≠ .opened → only t { x with ownerV := v.getLsbD 16, owner := v.setWidth 16 }))
      ∧ (∀ i v, i < 4 → ∃ t, exec (.windowWrite b i v) s = .next t ∧ (x.estate = .opened ∨ windowOk v = false → t = s)
        ∧ (x.estate ≠ .opened → windowOk v = true → only t { x with win := x.win.setIfInBounds i v }))
      ∧ (∃ t, exec (.terminalRecordEntry b) s = .next t
        ∧ only t { x with up := x.up ++ x.waiting.take (8 - x.up.length), waiting := x.waiting.drop (8 - x.up.length) }))
    ∧ (∀ g s, g < 256 → let c := gcoreOf s g; c.inService = true →
      let only := fun t y => gcoreOf t g = y ∧ ∀ k, k ≠ g → gcoreOf t k = gcoreOf s k
      (∀ plot, let ok := plot < 4096 ∧ (coreTenant s g).isSome = true ∧ boxOwner s plot = coreTenant s g
          ∧ ((installedOn s plot).any (· != g)) = false
        ∃ t, exec (.plotInstall g plot) s = .next t ∧ (¬ok → t = s)
          ∧ (ok → only t { c with installed := true, plot := plot }))
      ∧ (∃ t, exec (.plotUninstall g) s = .next t ∧ only t { c with installed := false, pcount := (countOn s c).pcount })
      ∧ (c.run = false ∨ c.plimit = 0 → (countOn s c).pcount = c.pcount)
      ∧ (∃ t, exec (.pruneRecordClear g) s = .next t ∧ only t { c with pv := false })
      ∧ (c.installed = true → c.run = true → c.plimit ≠ 0 → c.plimit ≠ 0xFFFFFFFF →
        ∃ t, exec (.prune g) s = .next t ∧ let d := gcoreOf t g
          (boxOf t c.plot).estate = .pruned ∧ (boxOf t c.plot).sealed_ = true ∧ (boxOf t c.plot).dn = []
          ∧ d.installed = false ∧ d.run = false ∧ d.pv = true ∧ d.pplot = c.plot ∧ d.machine = true ∧ d.pc = c.prunevec
          ∧ d.mepc = c.pc ∧ d.mppUser = (!c.machine) ∧ d.mcause = 0x8000000000000018 ∧ d.mtval = BitVec.ofNat 64 c.plot
            ∧ c.plimit.toNat < d.pcount.toNat
          ∧ ∀ k, k ≠ g → gcoreOf t k = gcoreOf s k)))

/-! ## Host, peers, management -/

/-- A host access through BAR 2 of 1 to 8 bytes of the tenant's memory acts on the live image and completes; one refused
is logged and aborted, and where its walk meets an uncorrectable error the tenant's gangs fail (24 R415); 0 for a success, 1
for UR and 4 for an abort are the numbers of log 46, and that it finds the save areas closed is log 61's reading. A fabric access acts inside a window that grants it, else it is logged, or
counted where no tenant is touched (24 R404, R410, R413). The host's answers stand in their order up to 64 and TAKEANS
takes the oldest; RLOST clears; PUSH writes the staged entry into a ring that has room. A port retrains after eight
failed replays of a flit, and whether a failure is of the flit that failed last is a free value (log 85); after the time-out
its accesses end with an error, and the posted stores to it, which no instruction waits for, are given up (log 20); ports
and links come up again, and the watermarks that waited for them are written (17 R339; 24 R402, R406 to R408). -/
def Obligations.OutsideAccessesAndRings : Prop :=
  (
    let side := fun s a => if isCached a = true then homeByte s a else settledByte s a
    (∀ f off write size data s asid x, 1 ≤ size → size ≤ 8 → off + size ≤ 2 ^ 46 → s.host.bootFail = none →
      (funcOf s f).tenant = some asid → tenantOf s asid = some x →
      let go := exec (.hostBar2Access f off write size data) s
      (x.tearing = true → ∃ t, go = .next t ∧ t = { s with host := { s.host with completion := 4, completionData := 0 } })
      ∧ (x.tearing = false → barPages s x write (pagesOf (BitVec.ofNat 64 off) size) = none →
        ∃ u, u.host.completion = 4 ∧ u.ms = (logViolation s asid (BitVec.ofNat 64 off) f 5 1 0).ms
          ∧ go = .next (if (pagesOf (BitVec.ofNat 64 off) size).any (fun p => walkPoisoned s asid p.1) = true
            then noteWalkError u asid else u))
      ∧ (∀ p, x.tearing = false → barPages s x write (pagesOf (BitVec.ofNat 64 off) size) = some [⟨BitVec.ofNat 64 off, p, size⟩] →
        (p.slot < p.pa ∨ p.pa + size ≤ p.slot) → (∀ i, i < size → (isCached (p.pa + i) = true ↔ isCached p.pa = true)) →
        (write = true → ∃ t, go = .next t ∧ t.host.completion = 0
          ∧ ∀ i, i < size → side t (p.pa + i) = byteOf data.toNat i)
        ∧ (write = false → (poisonAt (touchPages s [⟨BitVec.ofNat 64 off, p, size⟩] false) p.pa size).isSome = false →
          ∃ t, go = .next t ∧ t.host.completion = 0
          ∧ t.host.completionData = BitVec.ofNat 64 (natOfBytes ((List.range size).map (fun i => side s (p.pa + i)))))))
    ∧ (∀ f off write size data s, 1 ≤ size → size ≤ 8 → off + size ≤ 2 ^ 46 →
      (s.host.bootFail ≠ none ∨ (funcOf s f).tenant = none) → ∃ t, exec (.hostBar2Access f off write size data) s = .next t
      ∧ t = { s with host := { s.host with completion := 1, completionData := 0 } })
    ∧ (∀ src addr write size data s, 1 ≤ size → size ≤ 8 →
      let ws := (s.host.window.map (·.2)).filter (fun w => windowHolds w src addr size)
      let grants := fun (w : PeerWindow) => if write = true then w.canWrite else w.canRead
      let go := exec (.peerFabricAccess src addr write size data) s
      ((∃ w ∈ ws, grants w = true) → (∀ i, i < size → (isCached (addr + i) = true ↔ isCached addr = true)) →
        (write = true → ∃ t, go = .next t ∧ t.host.completion = 0
          ∧ ∀ i, i < size → side t (addr + i) = byteOf data.toNat i)
        ∧ (write = false → (poisonAt s addr size).isSome = false → ∃ t, go = .next t ∧ t.host.completion = 0
          ∧ t.host.completionData = BitVec.ofNat 64 (natOfBytes ((List.range size).map (fun i => side s (addr + i))))))
      ∧ (∀ w rest, ws = w :: rest → (∀ x ∈ ws, grants x = false) → ∃ t, go = .next t ∧ t.host.completion = 4
        ∧ t.ms = (logViolation s (BitVec.ofNat 16 w.asid) (BitVec.ofNat 64 addr) src 6 2 0).ms)
      ∧ (∀ asid, ws = [] → memoryTenant s addr = some asid → ∃ t, go = .next t ∧ t.host.completion = 4
        ∧ t.ms = (logViolation s asid (BitVec.ofNat 64 addr) src 6 1 0).ms)
      ∧ (ws = [] → memoryTenant s addr = none → ∃ t, go = .next t ∧ t.host.completion = 4
        ∧ t.host.refused = s.host.refused + 1 ∧ t.ms = s.ms)))
  ∧ ((∀ f v s asid, s.host.bootFail = none → (funcOf s f).tenant = some asid → tearingDown s asid = false →
    let x := funcOf s f
      let only := fun t y => funcOf t f = y ∧ (∀ k, k ≠ f → funcOf t k = funcOf s k) ∧ t.host.completion = 0 ∧ t.ms = s.ms
      (∃ t, exec (.answerWrite f v) s = .next t
        ∧ only t { x with answers := if x.answers.length < 64 then x.answers ++ [v] else x.answers })
      ∧ ∃ t, exec (.rlostClear f) s = .next t ∧ only t { x with rlost := 0 })
    ∧ (∀ f s, f < 128 → let x := funcOf s f
      (∀ a rest, x.answers = a :: rest → ∃ t, exec (.takeans f) s = .next t ∧ funcOf t f = { x with answers := rest })
      ∧ (x.answers = [] → ∃ t, exec (.takeans f) s = .next t ∧ t = s)
      ∧ (ringEnabled x = true → ringFull x = false → ∃ t, exec (.push f) s = .next t
        ∧ funcOf t f = { x with rtail := BitVec.ofNat 64 ((x.rtail.toNat + 1) % ringSize x), msi0 := x.msi0 + 1 }
        ∧ ∀ i, i < 32 → settledByte t (hostKey (x.rbase.toNat + 32 * (x.rtail.toNat % ringSize x)) + i)
          = byteOf (x.stage.getD (i / 8) 0).toNat (i % 8))
      ∧ (ringEnabled x = false ∨ ringFull x = true → ∃ t, exec (.push f) s = .next t ∧ t = s))
    ∧ (∀ p s, p < 16 → let x := portOf s p
      (x.up = true → ∃ t, exec (.flitReplay p) s = .next t
        ∧ (∃ n ∈ [x.replays, 0], portOf t p = (if 8 ≤ n then { x with up := false, replays := 0 }
          else { x with replays := n + 1 }))
        ∧ ∀ k, k ≠ p → portOf t k = portOf s k)
      ∧ (∃ t, exec (.portRetrainComplete p) s = .next t ∧ portOf t p = { x with up := true, replays := 0, lost := false }
        ∧ (∀ k, k ≠ p → portOf t k = portOf s k) ∧ ∀ o ∈ t.sched.owed, pathUp t o.phys.pa = false)
      ∧ (x.up = false → ∃ t, exec (.retrainTimeout p) s = .next t ∧ portOf t p = { x with lost := true }
        ∧ (∀ h r, (getHart s h).request = some r → r.answer = none →
          isHost r.addr = false → portFor s r.addr = some p → h ∈ knownHarts s →
          ∃ q, (getHart t h).request = some q ∧ q.answer = some none ∧ q.pc = r.pc ∧ q.addr = r.addr)
        ∧ ∀ m ∈ t.ms.posted, ∀ q ∈ m.2, ¬(isPeer (q.1 * 128) = true ∧ portFor s (q.1 * 128) = some p)))
    ∧ (∀ n s, n < 2 → ∃ t, exec (.hostLinkUp n) s = .next t ∧ (t.host.link.toList.getD n ⟨false, 0, 0, false⟩).up = true
      ∧ t.ms = s.ms ∧ t.hart = s.hart))

/-- TENANT_CREATE takes an assignment that shares nothing with another tenant: its granules' homes, mailboxes, slots and
functions carry it; another one is refused and counted. TENANT_TEARDOWN drops its work and takes in the mailboxes that its
supervisor gave it; TEARDOWN_COMPLETE leaves its channels, vaults, granules and the SRAM of its Greenhouse blocks reading 0,
its mailboxes as after reset, and no trace of it (what that takes in is log
62's reading). Commands on a tenant in teardown wait to be refused, in a turn that the model puts at the end of what is to
come (24 R413, R418; log 45). A soft error that is corrected counts in its store's class and changes nothing else; one that
is not poisons its sector in memory, or marks the granule of a register, accumulator, weight stream, or of the SRAM or
cache of a Greenhouse core that it struck, and
an instruction that reads the granule takes POISON with ACC 3 (log 58 fixes the ACC, and when the granule is met). A unit
that fails hard is retired: its column leaves service and its gangs end, a port or link narrows, and again at its next
failure, a plot is pruned; the health word and every function tell it (24 R402, R408, R415, R416). -/
def Obligations.TenantsAndFailuresAreContained : Prop :=
  ((∀ x s, s.host.bootFail = none → tearingDown s (BitVec.ofNat 16 x.asid) = false →
      let asid := BitVec.ofNat 16 x.asid
      (specOk s x = true → ∃ t, exec (.tenantCreate x) s = .next t
        ∧ (∃ y, tenantOf t asid = some y ∧ y.spec = x ∧ y.tearing = false ∧ y.qage = 0)
        ∧ (∀ b ∈ x.mailboxes, boxOwner t b = some asid) ∧ (∀ n ∈ x.slots, (slotOf t n).valid = true
          ∧ (slotOf t n).asid = asid)
        ∧ (∀ f ∈ x.functions, (funcOf t f).tenant = some asid)
        ∧ (∀ g ∈ x.granules, ∀ c, c < 128 → ((mapGet t.ms.granule g 0).getLsbD c = true ↔ c ∈ x.columns))
        ∧ ∀ k, k ≠ x.asid → mapGet? t.sched.tenant k = mapGet? s.sched.tenant k)
      ∧ (specOk s x = false → ∃ t, exec (.tenantCreate x) s = .next t
        ∧ t = { s with host := { s.host with refusedCommands := s.host.refusedCommands + 1 } }))
    ∧ (∀ asid s, asid < 2 ^ 16 → s.host.bootFail = none → tearingDown s (BitVec.ofNat 16 asid) = true →
      ∀ col, ∀ i ∈ [Instr.tenantTeardown asid, .columnAssignment asid col],
      ∃ t, exec i s = .next t ∧ t = { s with agenda := s.agenda ++ [.refuse asid] })
    ∧ (∀ asid s x, asid < 2 ^ 16 → s.host.bootFail = none → mapGet? s.sched.tenant asid = some x → x.tearing = false →
      let a := BitVec.ofNat 16 asid
      ∃ t, exec (.tenantTeardown asid) s = .next t ∧ tearingDown t a = true
        ∧ (∀ k, ∀ q ∈ queueOf t k, q.asid ≠ a) ∧ (∀ r ∈ t.sched.replay, r.asid ≠ a) ∧ (∀ g ∈ t.sched.gang, g.asid ≠ a)
        ∧ (∀ c ∈ t.eng.cmd, c.asid ≠ a) ∧ (∀ c k, k < 2 → ∀ y ∈ (chanOf (getCore t c) k).queue, y.asid ≠ a)
        ∧ (∀ b, boxOwner s b = some a → ∃ y, tenantOf t a = some y ∧ b ∈ y.spec.mailboxes))
    ∧ (∀ asid s x, asid < 2 ^ 16 → mapGet? s.sched.tenant asid = some x → x.tearing = true →
      ∃ t, exec (.teardownComplete asid) s = .next t ∧ tenantOf t (BitVec.ofNat 16 asid) = none
        ∧ (∀ n, (slotOf t n).valid = true → (slotOf t n).asid ≠ BitVec.ofNat 16 asid)
        ∧ (∀ f, (funcOf t f).tenant ≠ some (BitVec.ofNat 16 asid)) ∧ (∀ p ∈ t.host.window, p.2.asid ≠ asid)
        ∧ t.host.health.teardown = true
        ∧ (mapRising s.green.box = true → ∀ b ∈ x.spec.mailboxes, (boxOf s b).ownerV = false → boxOf t b = Mailbox.reset)
        ∧ (∀ b, (isDram b = true ∨ isVault b = true) → columnOf b ∈ x.spec.columns → liveByte t b = 0)
        ∧ (∀ b, isCap b = true → (b - capBase) / 2 ^ 30 ∈ x.spec.granules → liveByte t b = 0)
        ∧ ∀ k ∈ x.spec.blocks, ∀ i, i < 8 → ∀ off, sramRead (gcoreOf t (8 * k + i)) off 1 = 0))
  ∧ ((∀ e s, ∃ t, exec (.softError e true) s = .next t ∧ t = { s with host := { s.host with
        corrected := t.host.corrected
        health := { s.host.health with softerr := min (s.host.health.softerr + 1) 0xFFFF } } }
      ∧ ∀ j, j < 4 → t.host.corrected.getD j 0 = s.host.corrected.getD j 0 + if j = eccClass e then 1 else 0)
    ∧ (∀ s n, ∃ t, exec (.softError (.sector n) false) s = .next t ∧ (elidedOf s n = none → arrayPoison t n = true)
      ∧ n ∈ t.ms.poison ∧ (∀ m, m ≠ n → (m ∈ t.ms.poison ↔ m ∈ s.ms.poison))
      ∧ t = { s with ms := { s.ms with poison := t.ms.poison } })
    ∧ (∀ s h, let only := fun t y => getHart t h = y ∧ (∀ k, k ≠ h → getHart t k = getHart s k) ∧ t.ms = s.ms
      (∀ r p, r < 32 → ∃ t, exec (.softError (.register h r p) false) s = .next t
        ∧ p ∈ ((getHart t h).v.getD r VReg.reset).bad ∧ only t { getHart s h with v := (getHart t h).v }
        ∧ ∀ k, k < 32 → (getHart t h).v.getD k VReg.reset = { (getHart s h).v.getD k VReg.reset with
          bad := ((getHart t h).v.getD k VReg.reset).bad })
      ∧ ∀ n x, (getHart s h).fifo[n]? = some x → ∃ t, exec (.softError (.weights h n) false) s = .next t
        ∧ (getHart t h).fifo[n]? = some { x with bad := true } ∧ only t { getHart s h with fifo := (getHart t h).fifo }
        ∧ ∀ m, m ≠ n → (getHart t h).fifo[m]? = (getHart s h).fifo[m]?)
    ∧ (∀ s col k, ∃ t, exec (.softError (.accumulator col k) false) s = .next t ∧ k ∈ (getCore t col).accBad
      ∧ getCore t col = { getCore s col with accBad := (getCore t col).accBad } ∧ t.ms = s.ms)
    ∧ (∀ s g k, let only := fun t y => gcoreOf t g = y ∧ (∀ j, j ≠ g → gcoreOf t j = gcoreOf s j) ∧ t.ms = s.ms
      (∃ t, exec (.softError (.gsram g k) false) s = .next t ∧ k ∈ (gcoreOf t g).bad
        ∧ only t { gcoreOf s g with bad := (gcoreOf t g).bad })
      ∧ ∃ t, exec (.softError (.gcache g k) false) s = .next t ∧ k ∈ (gcoreOf t g).ibad
        ∧ only t { gcoreOf s g with ibad := (gcoreOf t g).ibad })
    ∧ (∀ r ∈ integerResults, ∀ x s, let v := s.hart.vstart.toNat
      let sound := { s with hart := { s.hart with v := s.hart.v.map (fun y => { y with bad := [] }) } }
      s.hart.mode = .user → checkVector sound (vopReq (r.1 x) r.2.1 x acceptInt) = none → v < tileSize s →
      v / vlmax s < groupOf s.hart → active s x.m v = true → badElem s x.vs2.toNat v = true →
      ∃ t, exec (r.1 x) s = .next t ∧ TrapTaken s t 14 0 3 false [])
    ∧ (∀ s st, st.bad = true → retryStream s st = .error ⟨14, 0, 3⟩)
    ∧ (∀ s u, unitExists u = true → (failsOnce u = true → u ∉ s.host.retired) → ∃ t, exec (.unitFailure u) s = .next t
      ∧ t.host.retired = (if u ∈ s.host.retired then s.host.retired else s.host.retired ++ [u])
      ∧ t.host.health.replace = true ∧ t.host.events = s.host.events + 1
      ∧ (∀ f, f < 128 → (funcOf t f).msi1 = (funcOf s f).msi1 + 1)
      ∧ (∀ c, u = .column c → (getCore t c).inService = false ∧ (∀ g ∈ t.sched.gang, ∀ m ∈ g.members, colOf m ≠ c)
        ∧ t.host.health.colfail = s.host.health.colfail + 1)
      ∧ (∀ p l, u = .lane p l → portOf t p = ⟨false, min (portOf s p).lanes l, 0, false⟩)
      ∧ (∀ n down x, u = .link n down → s.host.link.toList[n]? = some x → t.host.link.toList[n]? =
        some (if down = true then { x with up := false } else { x with lanes := max 1 (x.lanes / 2) }))
      ∧ (∀ g, u = .gcore g → (gcoreOf t g).inService = false
        ∧ ((gcoreOf s g).installed = true → (boxOf t (gcoreOf s g).plot).estate = .pruned
          ∧ (gcoreOf t g).installed = false))))

/-- Management sets the device number, the routes, legal peer windows, a tenant's trap vector, its columns and the power
mode; telemetry and the health word are answered, TEARDOWN clearing when read; throttling, error counts and images change
what they name (24 R409, R410, R414, R415, R417, R418). After a boot that stopped, commands are refused. BOOT leaves the
machine at its reset values, but for the fuses, the memory outside the device and the inputs to come (which is log 40's
reading), booted where both signatures of every image verify with the keys whose digests are fused and none is older than
its fuse allows, else stopped at the stage that failed (that a signature verifies where it is one over the digest with the
key is log 75's). Attestation answers what it holds and moves on at a request in its place in the sequence, which is the
model's (log 41), and answers an error and stays where it is at another (24 R411, R412). What the configuration measured is,
the numbers a certificate stands for, the chain and measurement values and the keys derived from them are the model's
choice (DESIGN CHOICE, log 76), and so is the layout of the telemetry answer (DESIGN CHOICE, log 12). -/
def Obligations.ManagementBootAndAttestation : Prop :=
  ((∀ s, s.host.bootFail = none →
      (∀ n, ∃ t, exec (.setDeviceNumber n) s = .next t ∧ t = { s with host := { s.host with devNum := n } })
      ∧ (∀ rows, ∃ t, exec (.setRouteTable rows) s = .next t ∧ t = { s with host := { s.host with routes := rows } })
      ∧ (∀ m, ∃ t, exec (.setPowerMode m) s = .next t ∧ t = { s with host := { s.host with power := m } })
      ∧ (∀ k image, ∃ t, exec (.firmwareUpdate k image) s = .next t
        ∧ (k < 3 → t = { s with host := { s.host with staged := mapSet s.host.staged k image } })
        ∧ (3 ≤ k → t = { s with host := { s.host with refusedCommands := s.host.refusedCommands + 1 } })))
    ∧ (∀ s, s.host.bootFail ≠ none → ∀ n rows m k image x asid v sc col i w,
      ∀ c ∈ [Instr.setDeviceNumber n, .setRouteTable rows, .setPowerMode m, .firmwareUpdate k image, .tenantCreate x,
        .tenantTeardown asid, .trapVectorChange asid v sc, .columnAssignment asid col, .setPeerWindow i w],
      ∃ t, exec c s = .next t ∧ t = { s with host := { s.host with refusedCommands := s.host.refusedCommands + 1 } })
    ∧ (∀ s,
      (∃ t, exec .powerLimitThrottle s = .next t
        ∧ t = { s with host := { s.host with health := { s.host.health with throttle := true } } })
      ∧ (∃ t, exec .throttleEnd s = .next t
        ∧ t = { s with host := { s.host with health := { s.host.health with throttle := false } } })
      ∧ (∃ t, exec .softerrClear s = .next t
        ∧ t = { s with host := { s.host with health := { s.host.health with softerr := 0 } } })
      ∧ (∃ t, exec .healthWordRead s = .next t ∧ t = { s with host := { s.host with
          replyWords := [healthWord s], health := { s.host.health with teardown := false } } })
      ∧ (∃ t x, exec .telemetryRead s = .next t ∧ t = { s with host := { s.host with
          replyWords := x ++ [healthWord s, BitVec.ofNat 64 s.host.refused]
          health := { s.host.health with teardown := false } } }))
    ∧ (∀ s, let x := s.host.health; healthWord s = BitVec.ofNat 64 (x.softerr * 2 ^ 48 + x.colfail % 256 * 2 ^ 40
        + x.pagefail % 256 * 2 ^ 32 + narrowPorts s % 256 * 2 ^ 24 + (if x.teardown = true then 4 else 0)
        + (if x.throttle = true then 2 else 0) + (if x.replace = true then 1 else 0)))
    ∧ (∀ i (w : PeerWindow) s, s.host.bootFail = none →
      let old := ((mapGet? s.host.window i).map (·.asid)).getD w.asid
      tearingDown s (BitVec.ofNat 16 w.asid) = false → tearingDown s (BitVec.ofNat 16 old) = false →
      let legal := i < 64 ∧ peerRange w.base w.size = true
      ∃ t, exec (.setPeerWindow i w) s = .next t
        ∧ (legal → t = { s with host := { s.host with window := mapSet s.host.window i w } })
        ∧ (¬legal → t = { s with host := { s.host with refusedCommands := s.host.refusedCommands + 1 } }))
    ∧ (∀ asid v sc s x, asid < 2 ^ 16 → s.host.bootFail = none → mapGet? s.sched.tenant asid = some x → x.tearing = false →
      ∃ t, exec (.trapVectorChange asid v sc) s = .next t
        ∧ mapGet? t.sched.tenant asid = some { x with spec := { x.spec with vector := v, scratch := sc } }
        ∧ t = { s with sched := { s.sched with tenant := t.sched.tenant } })
    ∧ (∀ asid col s x, asid < 2 ^ 16 → s.host.bootFail = none → mapGet? s.sched.tenant asid = some x → x.tearing = false →
      let ok := col < 128 ∧ (getCore s col).inService = true
        ∧ (s.sched.tenant.any (fun p => p.2.spec.columns.contains col)) = false
      ∃ t, exec (.columnAssignment asid col) s = .next t
        ∧ (ok → ∃ y, mapGet? t.sched.tenant asid = some y ∧ y.spec = { x.spec with columns := x.spec.columns ++ [col] })
        ∧ (¬ok → t = { s with host := { s.host with refusedCommands := s.host.refusedCommands + 1 } })))
  ∧ ((∀ (x : BootImages) s, let pick := fun k b => mapGet s.host.staged k b
      let keys := s.host.fusedKeys
      let ok := fun k (b : BootImage) => b.ecdsa.key = keys.1 ∧ b.ecdsa.signs = b.digest ∧ b.lms.key = keys.2
        ∧ b.lms.signs = b.digest ∧ s.host.minVersion.getD k 0 ≤ b.version
      let m := pick 0 x.management; let v := pick 1 x.supervisor; let g := pick 2 x.monitor
      ∃ t, exec (.boot x) s = .next t
        ∧ t.hart = State.reset.hart ∧ t.core = State.reset.core ∧ t.sched = State.reset.sched ∧ t.green = State.reset.green
        ∧ t.eng = State.reset.eng ∧ t.host.minVersion = s.host.minVersion ∧ t.host.fusedKeys = keys
        ∧ (∀ a, a < hostBase → mapGet? t.ms.mem a = none) ∧ (∀ a, hostBase ≤ a → mapGet? t.ms.mem a = mapGet? s.ms.mem a)
        ∧ (ok 0 m ∧ ok 1 v ∧ ok 2 g → t.host.bootStage = 3 ∧ t.host.bootFail = none
          ∧ t.host.version = #v[m.version, v.version, g.version] ∧ t.host.image = #v[m.digest, v.digest, g.digest]
          ∧ t.host.aliasKey = Config.deriveKey identityKey ((measurements t).map (·.2)))
        ∧ (¬ok 0 m → t.host.bootFail = some 1) ∧ (ok 0 m → ¬(ok 1 v ∧ ok 2 g) → t.host.bootFail = some 2))
    ∧ (∀ s, let chain := [Cert.mk Config.rootKey identityKey, ⟨identityKey, s.host.aliasKey⟩]
      let values := [(1, Config.bootRomDigest), (2, s.host.image.getD 0 0), (3, s.host.image.getD 1 0),
        (4, s.host.image.getD 2 0), (5, Config.sha384 (configContent s))]
      let here := s.host.spdm
      ∀ r ∈ [(Instr.getVersion, [SpdmPhase.idle, .version, .capabilities, .algorithms, .keyExchanged, .session],
          SpdmPhase.version, SpdmReply.version),
        (.getCapabilities, [.version], .capabilities, .capabilities),
        (.negotiateAlgorithms, [.capabilities], .algorithms, .algorithms [.ecdsaP384, .sha384, .ecdheP384, .aes256Gcm]),
        (.getDigests, [.algorithms, .session], here, .digests [Config.sha384 (chain.flatMap certNumbers)]),
        (.getCertificate, [.algorithms, .session], here, .certificate chain),
        (.challenge, [.algorithms], .algorithms, .challenge s.host.aliasKey values),
        (.getMeasurements, [.algorithms, .session], here, .measurements values),
        (.keyExchange, [.algorithms], .keyExchanged, .keyExchange s.host.aliasKey),
        (.finish, [.keyExchanged], .session, .finish), (.heartbeat, [.session], .session, .heartbeat),
        (.endSession, [.session], .algorithms, .endSession)],
      ∃ t, exec r.1 s = .next t ∧ t.host.spdm = (if s.host.spdm ∈ r.2.1 then r.2.2.1 else s.host.spdm)
        ∧ t.host.spdmReply = (if s.host.spdm ∈ r.2.1 then r.2.2.2 else .error)
        ∧ t = { s with host := { s.host with
          spdm := t.host.spdm, spdmReply := t.host.spdmReply, replyBytes := t.host.replyBytes } }))

end Statements
end

