-- ==== Sys2Proof/Laws/Maps.lean ====
section
/-! SUPPORT. What a map answers after an update, and that updates keep keys rising. The lookup lemmas hold of every map; only
the canonical form needs rising keys. -/
namespace Sys2Proof.Machine

variable {α : Type}

@[simp] theorem mapGet?_nil (k : Nat) : mapGet? ([] : Map α) k = none := rfl

theorem mapGet?_cons (j : Nat) (x : α) (m : Map α) (k : Nat) :
    mapGet? ((j, x) :: m) k = if j = k then some x else mapGet? m k := rfl

/-- A read after a write to the same key gives the value written; a write leaves every other key alone. -/
theorem mapGet?_mapSet (m : Map α) (k : Nat) (y : α) (n : Nat) :
    mapGet? (mapSet m k y) n = if n = k then some y else mapGet? m n := by
  induction m with
  | nil =>
    simp only [mapSet, mapGet?_cons, mapGet?_nil, eq_comm (a := k)]
  | cons p m ih =>
    obtain ⟨j, x⟩ := p
    unfold mapSet
    split_ifs with h1 h2 <;> simp_all [mapGet?_cons, eq_comm]

@[simp] theorem mapGet?_mapSet_self (m : Map α) (k : Nat) (y : α) : mapGet? (mapSet m k y) k = some y := by
  simp [mapGet?_mapSet]

@[simp] theorem mapGet?_mapSet_of_ne (m : Map α) (k : Nat) (y : α) (n : Nat) (h : n ≠ k) :
    mapGet? (mapSet m k y) n = mapGet? m n := by simp [mapGet?_mapSet, h]

theorem mapGet?_mapErase (m : Map α) (k n : Nat) :
    mapGet? (mapErase m k) n = if n = k then none else mapGet? m n := by
  induction m with
  | nil => simp [mapErase]
  | cons p m ih =>
    obtain ⟨j, x⟩ := p
    unfold mapErase
    split_ifs with h1 h2 h2
    · rw [ih, if_pos h2]
    · rw [ih, if_neg h2, mapGet?_cons, if_neg (by omega)]
    · rw [mapGet?_cons, if_neg (by omega), ih, if_pos h2]
    · rw [mapGet?_cons, mapGet?_cons, ih, if_neg h2]

theorem mapGet_mapSet (m : Map α) (k : Nat) (y : α) (n : Nat) (d : α) :
    mapGet (mapSet m k y) n d = if n = k then y else mapGet m n d := by
  unfold mapGet; rw [mapGet?_mapSet]; split <;> rfl

theorem mapGet_mapErase (m : Map α) (k n : Nat) (d : α) :
    mapGet (mapErase m k) n d = if n = k then d else mapGet m n d := by
  unfold mapGet; rw [mapGet?_mapErase]; split <;> rfl

theorem mapGet_mapModify (m : Map α) (k n : Nat) (d : α) (f : α → α) :
    mapGet (mapModify m k d f) n d = if n = k then f (mapGet m k d) else mapGet m n d := by
  unfold mapModify; rw [mapGet_mapSet]

/-- A byte written to a memory: every address reads as before but for the one written. -/
theorem mapGet_memSet (m : Map (BitVec 8)) (a : Nat) (b : BitVec 8) (n : Nat) :
    mapGet (memSet m a b) n 0 = if n = a then b else mapGet m n 0 := by
  unfold memSet
  split_ifs with hb h h
  · rw [mapGet_mapErase, if_pos h, hb]
  · rw [mapGet_mapErase, if_neg h]
  · rw [mapGet_mapSet, if_pos h]
  · rw [mapGet_mapSet, if_neg h]

/-! ## Rising keys -/

/-- Keys rise strictly, as a proposition on pairs. -/
theorem mapRising_iff (m : Map α) : mapRising m = true ↔ m.Pairwise (fun p q => p.1 < q.1) := by
  induction m with
  | nil => simp [mapRising]
  | cons p m ih =>
    cases m with
    | nil => simp [mapRising]
    | cons q m =>
      obtain ⟨j, x⟩ := p
      obtain ⟨k, y⟩ := q
      simp only [mapRising, Bool.and_eq_true, decide_eq_true_eq, ih, List.pairwise_cons]
      constructor
      · rintro ⟨h, h2, h3⟩
        refine ⟨fun r hr => ?_, h2, h3⟩
        rcases List.mem_cons.1 hr with rfl | hr
        · exact h
        · exact lt_trans h (h2 r hr)
      · rintro ⟨h1, h2, h3⟩
        exact ⟨h1 (k, y) (by simp), h2, h3⟩

theorem mem_mapErase (m : Map α) (k : Nat) (p : Nat × α) : p ∈ mapErase m k ↔ p ∈ m ∧ p.1 ≠ k := by
  induction m with
  | nil => simp [mapErase]
  | cons q m ih =>
    obtain ⟨j, x⟩ := q
    unfold mapErase
    split_ifs with h
    · subst h
      rw [ih, List.mem_cons]
      constructor
      · rintro ⟨h1, h2⟩; exact ⟨.inr h1, h2⟩
      · rintro ⟨rfl | h1, h2⟩
        · exact absurd rfl h2
        · exact ⟨h1, h2⟩
    · rw [List.mem_cons, ih, List.mem_cons]
      constructor
      · rintro (rfl | ⟨h1, h2⟩)
        · exact ⟨.inl rfl, h⟩
        · exact ⟨.inr h1, h2⟩
      · rintro ⟨rfl | h1, h2⟩
        · exact .inl rfl
        · exact .inr ⟨h1, h2⟩

theorem mapErase_eq_filter (m : Map α) (k : Nat) : mapErase m k = m.filter (fun p => decide (p.1 ≠ k)) := by
  induction m with
  | nil => rfl
  | cons q m ih =>
    obtain ⟨j, x⟩ := q
    unfold mapErase
    split_ifs with h <;> simp [h, ih]

/-- What a write leaves in the list: the pair written and pairs that stood there. -/
theorem mem_mapSet (m : Map α) (k : Nat) (y : α) (p : Nat × α) (h : p ∈ mapSet m k y) : p = (k, y) ∨ p ∈ m := by
  induction m with
  | nil => simpa [mapSet] using h
  | cons q m ih =>
    obtain ⟨j, x⟩ := q
    unfold mapSet at h
    split_ifs at h with h1 h2
    · rcases List.mem_cons.1 h with rfl | h
      · exact .inl rfl
      · exact .inr (List.mem_cons_of_mem _ h)
    · rcases List.mem_cons.1 h with rfl | h
      · exact .inl rfl
      · exact .inr h
    · rcases List.mem_cons.1 h with rfl | h
      · exact .inr (by simp)
      · rcases ih h with rfl | h
        · exact .inl rfl
        · exact .inr (List.mem_cons_of_mem _ h)

theorem mapRising_mapSet (m : Map α) (k : Nat) (y : α) (h : mapRising m = true) : mapRising (mapSet m k y) = true := by
  rw [mapRising_iff] at *
  induction m with
  | nil => simp [mapSet]
  | cons q m ih =>
    obtain ⟨j, x⟩ := q
    obtain ⟨h1, h2⟩ := List.pairwise_cons.1 h
    unfold mapSet
    split_ifs with e1 e2
    · subst e1; exact List.pairwise_cons.2 ⟨h1, h2⟩
    · refine List.pairwise_cons.2 ⟨fun r hr => ?_, h⟩
      rcases List.mem_cons.1 hr with rfl | hr
      · exact e2
      · exact lt_trans e2 (h1 r hr)
    · refine List.pairwise_cons.2 ⟨fun r hr => ?_, ih h2⟩
      rcases mem_mapSet m k y r hr with rfl | hr
      · simp only; omega
      · exact h1 r hr

theorem mapRising_filter (m : Map α) (f : Nat × α → Bool) (h : mapRising m = true) : mapRising (m.filter f) = true := by
  rw [mapRising_iff] at *
  exact h.sublist List.filter_sublist

theorem mapRising_mapErase (m : Map α) (k : Nat) (h : mapRising m = true) : mapRising (mapErase m k) = true := by
  rw [mapErase_eq_filter]; exact mapRising_filter m _ h

theorem mapRising_mapModify (m : Map α) (k : Nat) (d : α) (f : α → α) (h : mapRising m = true) :
    mapRising (mapModify m k d f) = true := mapRising_mapSet m k _ h

end Sys2Proof.Machine
end

