-- ==== Sys2Proof/Laws/Greenhouse.lean ====
section
/-! SUPPORT. What the shared operations of a Greenhouse core do: registers, going on, and an access as a whole. -/
namespace Sys2Proof.Machine

/-! ## A core in its place -/

theorem gcoreOf_setGCore (s : State) (g : Nat) (x : GCore) : gcoreOf (setGCore s g x) g = x := by
  simp [gcoreOf, setGCore, mapGet]

theorem gcoreOf_setGCore_ne (s : State) (g : Nat) (x : GCore) {k : Nat} (h : k ≠ g) :
    gcoreOf (setGCore s g x) k = gcoreOf s k := by
  simp [gcoreOf, setGCore, mapGet, h]

/-! ## Registers -/

@[simp] theorem setReg_zero (v : Word) (c : GCore) : setReg 0 v c = c := rfl

/-- A register takes a value and nothing else of the core changes. -/
theorem setReg_eq (rd : Nat) (v : Word) (c : GCore) : setReg rd v c = { c with
    x := if rd = 0 ∨ 32 ≤ rd then c.x else c.x.setIfInBounds rd v
    f := if rd < 32 then c.f else c.f.setIfInBounds (rd - 32) v } := by
  unfold setReg
  by_cases h0 : rd = 0
  · simp [h0]
  · by_cases h : rd < 32
    · simp [h0, h, Nat.not_le.2 h]
    · simp [h0, h, Nat.le_of_not_lt h]

/-- Retiring an instruction counts it, and leaves all but the counter. -/
theorem retire_eq (c : GCore) : retire c = { c with csr := (retire c).csr } := by
  unfold retire
  split <;> rfl

/-- Past an instruction the pc has moved on by its length. -/
theorem corePast_eq (len : Nat) (c : GCore) :
    corePast len c = { c with pc := c.pc + BitVec.ofNat 64 len, csr := (retire c).csr } := by
  unfold corePast
  rw [retire_eq]

/-! ## Accesses -/

/-- A value that an access answered stands in its register, and the core is past the instruction. -/
theorem coreFinish_value (g rd len : Nat) (s : State) (v : Word) :
    gcoreOf (coreFinish g rd len (s, .value v)) g = corePast len (setReg rd v { gcoreOf s g with last := v }) :=
  gcoreOf_setGCore _ _ _

/-- An access that answered nothing leaves the core past the instruction. -/
theorem coreFinish_done (g rd len : Nat) (s : State) :
    gcoreOf (coreFinish g rd len (s, .done)) g = corePast len (gcoreOf s g) :=
  gcoreOf_setGCore _ _ _

/-- A trap that an access took stands. -/
theorem coreFinish_trapped (g rd len : Nat) (s : State) : coreFinish g rd len (s, .trapped) = s := rfl

/-- The other cores keep their state when one goes on. -/
theorem coreFinish_others (g rd len : Nat) (r : State × CoreReply) {k : Nat} (h : k ≠ g) :
    gcoreOf (coreFinish g rd len r) k = gcoreOf r.1 k := by
  unfold coreFinish
  split
  · exact gcoreOf_setGCore_ne _ _ _ h
  · exact gcoreOf_setGCore_ne _ _ _ h
  · exact gcoreOf_setGCore_ne _ _ _ h
  · rfl

/-- What GREENHOUSE_CORE_ACCESS can do: nothing where it is not due, a prune where that is due, else the access. -/
theorem execGreenhouseCoreAccess_cases (a : CoreAccess) (s : State) :
    (accessDue (gcoreOf s a.core) a = false ∧ execGreenhouseCoreAccess a s = .next s)
    ∨ (accessDue (gcoreOf s a.core) a = true ∧ pruneDue (gcoreOf s a.core) = true
      ∧ execGreenhouseCoreAccess a s = .next (pruneCore s a.core))
    ∨ (accessDue (gcoreOf s a.core) a = true ∧ pruneDue (gcoreOf s a.core) = false
      ∧ execGreenhouseCoreAccess a s = .next (coreFinish a.core a.rd a.len (coreReach s a))) := by
  unfold execGreenhouseCoreAccess
  cases h : accessDue (gcoreOf s a.core) a <;> cases k : pruneDue (gcoreOf s a.core) <;> simp [h, k]

/-- What an access can do: a refusal, a fault, or the place it reaches. -/
theorem coreReach_allowed {s : State} {a : CoreAccess} (h : verdict s (gcoreOf s a.core) a = .allowed) :
    coreReach s a = (match placeOf s (gcoreOf s a.core) a with
      | .sram => sramAccess s a.core a
      | .memory => coreMemory s a.core a
      | .context off => contextAccess s a off
      | .page off =>
        if a.kind = .load then answered (pageLoad s a.core off a.size)
        else (pageStore s a.core off a.size a.data, .done)
      | .nowhere => (s, .done)) := by
  unfold coreReach
  simp only [h]
  all_goals rfl

/-- An access that is not allowed traps. -/
theorem coreReach_refused {s : State} {a : CoreAccess} (h : verdict s (gcoreOf s a.core) a ≠ .allowed) :
    (coreReach s a).2 = .trapped := by
  unfold coreReach
  cases hv : verdict s (gcoreOf s a.core) a
  · exact absurd hv h
  all_goals simp only [hv]

end Sys2Proof.Machine
end

