-- ==== Sys2Proof/Laws/State.lean ====
section
/-! SUPPORT. For each plain update of the state, each field that it leaves, and what the one field holds that it writes. All
hold by definition; the simplifier uses them, so that a proof need not open an update. -/
namespace Sys2Proof.Machine

/-! ## complete -/

@[simp] theorem complete_hart (s : State) : (complete s).hart = loopEnd s.hart.pc (retired s.hart) := rfl
@[simp] theorem complete_cur (s : State) : (complete s).cur = s.cur := rfl
@[simp] theorem complete_harts (s : State) : (complete s).harts = s.harts := rfl
@[simp] theorem complete_core (s : State) : (complete s).core = s.core := rfl
@[simp] theorem complete_cores (s : State) : (complete s).cores = s.cores := rfl
@[simp] theorem complete_ms (s : State) : (complete s).ms = s.ms := rfl
@[simp] theorem complete_eng (s : State) : (complete s).eng = s.eng := rfl
@[simp] theorem complete_sched (s : State) : (complete s).sched = s.sched := rfl
@[simp] theorem complete_green (s : State) : (complete s).green = s.green := rfl
@[simp] theorem complete_host (s : State) : (complete s).host = s.host := rfl
@[simp] theorem complete_agenda (s : State) : (complete s).agenda = s.agenda := rfl
@[simp] theorem complete_tick (s : State) : (complete s).tick = s.tick := rfl

/-! ## jumpTo -/

@[simp] theorem jumpTo_hart (s : State) (a : Word) : (jumpTo s a).hart = { retired s.hart with pc := a } := rfl
@[simp] theorem jumpTo_cur (s : State) (a : Word) : (jumpTo s a).cur = s.cur := rfl
@[simp] theorem jumpTo_harts (s : State) (a : Word) : (jumpTo s a).harts = s.harts := rfl
@[simp] theorem jumpTo_core (s : State) (a : Word) : (jumpTo s a).core = s.core := rfl
@[simp] theorem jumpTo_cores (s : State) (a : Word) : (jumpTo s a).cores = s.cores := rfl
@[simp] theorem jumpTo_ms (s : State) (a : Word) : (jumpTo s a).ms = s.ms := rfl
@[simp] theorem jumpTo_eng (s : State) (a : Word) : (jumpTo s a).eng = s.eng := rfl
@[simp] theorem jumpTo_sched (s : State) (a : Word) : (jumpTo s a).sched = s.sched := rfl
@[simp] theorem jumpTo_green (s : State) (a : Word) : (jumpTo s a).green = s.green := rfl
@[simp] theorem jumpTo_host (s : State) (a : Word) : (jumpTo s a).host = s.host := rfl
@[simp] theorem jumpTo_agenda (s : State) (a : Word) : (jumpTo s a).agenda = s.agenda := rfl
@[simp] theorem jumpTo_tick (s : State) (a : Word) : (jumpTo s a).tick = s.tick := rfl

/-! ## waitAt -/

@[simp] theorem waitAt_hart (s : State) (i : Instr) : (waitAt s i).hart = { s.hart with wait := some i } := rfl
@[simp] theorem waitAt_cur (s : State) (i : Instr) : (waitAt s i).cur = s.cur := rfl
@[simp] theorem waitAt_harts (s : State) (i : Instr) : (waitAt s i).harts = s.harts := rfl
@[simp] theorem waitAt_core (s : State) (i : Instr) : (waitAt s i).core = s.core := rfl
@[simp] theorem waitAt_cores (s : State) (i : Instr) : (waitAt s i).cores = s.cores := rfl
@[simp] theorem waitAt_ms (s : State) (i : Instr) : (waitAt s i).ms = s.ms := rfl
@[simp] theorem waitAt_eng (s : State) (i : Instr) : (waitAt s i).eng = s.eng := rfl
@[simp] theorem waitAt_sched (s : State) (i : Instr) : (waitAt s i).sched = s.sched := rfl
@[simp] theorem waitAt_green (s : State) (i : Instr) : (waitAt s i).green = s.green := rfl
@[simp] theorem waitAt_host (s : State) (i : Instr) : (waitAt s i).host = s.host := rfl
@[simp] theorem waitAt_agenda (s : State) (i : Instr) : (waitAt s i).agenda = s.agenda := rfl
@[simp] theorem waitAt_tick (s : State) (i : Instr) : (waitAt s i).tick = s.tick := rfl

/-! ## drained -/

@[simp] theorem drained_hart (s : State) : (drained s).hart = { s.hart with convoy := none } := rfl
@[simp] theorem drained_cur (s : State) : (drained s).cur = s.cur := rfl
@[simp] theorem drained_harts (s : State) : (drained s).harts = s.harts := rfl
@[simp] theorem drained_core (s : State) : (drained s).core = s.core := rfl
@[simp] theorem drained_cores (s : State) : (drained s).cores = s.cores := rfl
@[simp] theorem drained_ms (s : State) : (drained s).ms = s.ms := rfl
@[simp] theorem drained_eng (s : State) : (drained s).eng = s.eng := rfl
@[simp] theorem drained_sched (s : State) : (drained s).sched = s.sched := rfl
@[simp] theorem drained_green (s : State) : (drained s).green = s.green := rfl
@[simp] theorem drained_host (s : State) : (drained s).host = s.host := rfl
@[simp] theorem drained_agenda (s : State) : (drained s).agenda = s.agenda := rfl
@[simp] theorem drained_tick (s : State) : (drained s).tick = s.tick := rfl

/-! ## raiseFlags -/

@[simp] theorem raiseFlags_hart (s : State) (f : FFlags) :
    (raiseFlags s f).hart = { s.hart with fflags := s.hart.fflags ||| f } := rfl
@[simp] theorem raiseFlags_cur (s : State) (f : FFlags) : (raiseFlags s f).cur = s.cur := rfl
@[simp] theorem raiseFlags_harts (s : State) (f : FFlags) : (raiseFlags s f).harts = s.harts := rfl
@[simp] theorem raiseFlags_core (s : State) (f : FFlags) : (raiseFlags s f).core = s.core := rfl
@[simp] theorem raiseFlags_cores (s : State) (f : FFlags) : (raiseFlags s f).cores = s.cores := rfl
@[simp] theorem raiseFlags_ms (s : State) (f : FFlags) : (raiseFlags s f).ms = s.ms := rfl
@[simp] theorem raiseFlags_eng (s : State) (f : FFlags) : (raiseFlags s f).eng = s.eng := rfl
@[simp] theorem raiseFlags_sched (s : State) (f : FFlags) : (raiseFlags s f).sched = s.sched := rfl
@[simp] theorem raiseFlags_green (s : State) (f : FFlags) : (raiseFlags s f).green = s.green := rfl
@[simp] theorem raiseFlags_host (s : State) (f : FFlags) : (raiseFlags s f).host = s.host := rfl
@[simp] theorem raiseFlags_agenda (s : State) (f : FFlags) : (raiseFlags s f).agenda = s.agenda := rfl
@[simp] theorem raiseFlags_tick (s : State) (f : FFlags) : (raiseFlags s f).tick = s.tick := rfl

/-! ## finishV -/

@[simp] theorem finishV_cur (s : State) : (finishV s).cur = s.cur := rfl
@[simp] theorem finishV_harts (s : State) : (finishV s).harts = s.harts := rfl
@[simp] theorem finishV_core (s : State) : (finishV s).core = s.core := rfl
@[simp] theorem finishV_cores (s : State) : (finishV s).cores = s.cores := rfl
@[simp] theorem finishV_ms (s : State) : (finishV s).ms = s.ms := rfl
@[simp] theorem finishV_eng (s : State) : (finishV s).eng = s.eng := rfl
@[simp] theorem finishV_sched (s : State) : (finishV s).sched = s.sched := rfl
@[simp] theorem finishV_green (s : State) : (finishV s).green = s.green := rfl
@[simp] theorem finishV_host (s : State) : (finishV s).host = s.host := rfl
@[simp] theorem finishV_agenda (s : State) : (finishV s).agenda = s.agenda := rfl
@[simp] theorem finishV_tick (s : State) : (finishV s).tick = s.tick := rfl

/-! ## writeElems -/

@[simp] theorem writeElems_cur (s : State) (v w : Nat) (ups : List (Nat × Nat)) : (writeElems s v w ups).cur = s.cur := rfl
@[simp] theorem writeElems_harts (s : State) (v w : Nat) (ups : List (Nat × Nat)) :
    (writeElems s v w ups).harts = s.harts := rfl
@[simp] theorem writeElems_core (s : State) (v w : Nat) (ups : List (Nat × Nat)) : (writeElems s v w ups).core = s.core := rfl
@[simp] theorem writeElems_cores (s : State) (v w : Nat) (ups : List (Nat × Nat)) :
    (writeElems s v w ups).cores = s.cores := rfl
@[simp] theorem writeElems_ms (s : State) (v w : Nat) (ups : List (Nat × Nat)) : (writeElems s v w ups).ms = s.ms := rfl
@[simp] theorem writeElems_eng (s : State) (v w : Nat) (ups : List (Nat × Nat)) : (writeElems s v w ups).eng = s.eng := rfl
@[simp] theorem writeElems_sched (s : State) (v w : Nat) (ups : List (Nat × Nat)) :
    (writeElems s v w ups).sched = s.sched := rfl
@[simp] theorem writeElems_green (s : State) (v w : Nat) (ups : List (Nat × Nat)) :
    (writeElems s v w ups).green = s.green := rfl
@[simp] theorem writeElems_host (s : State) (v w : Nat) (ups : List (Nat × Nat)) : (writeElems s v w ups).host = s.host := rfl
@[simp] theorem writeElems_agenda (s : State) (v w : Nat) (ups : List (Nat × Nat)) :
    (writeElems s v w ups).agenda = s.agenda := rfl
@[simp] theorem writeElems_tick (s : State) (v w : Nat) (ups : List (Nat × Nat)) : (writeElems s v w ups).tick = s.tick := rfl

/-! ## contextChanged -/

@[simp] theorem contextChanged_hart (s : State) : (contextChanged s).hart = { s.hart with mdirty := true } := rfl
@[simp] theorem contextChanged_cur (s : State) : (contextChanged s).cur = s.cur := rfl
@[simp] theorem contextChanged_harts (s : State) : (contextChanged s).harts = s.harts := rfl
@[simp] theorem contextChanged_core (s : State) : (contextChanged s).core = s.core := rfl
@[simp] theorem contextChanged_cores (s : State) : (contextChanged s).cores = s.cores := rfl
@[simp] theorem contextChanged_ms (s : State) : (contextChanged s).ms = s.ms := rfl
@[simp] theorem contextChanged_eng (s : State) : (contextChanged s).eng = s.eng := rfl
@[simp] theorem contextChanged_sched (s : State) : (contextChanged s).sched = s.sched := rfl
@[simp] theorem contextChanged_green (s : State) : (contextChanged s).green = s.green := rfl
@[simp] theorem contextChanged_host (s : State) : (contextChanged s).host = s.host := rfl
@[simp] theorem contextChanged_agenda (s : State) : (contextChanged s).agenda = s.agenda := rfl
@[simp] theorem contextChanged_tick (s : State) : (contextChanged s).tick = s.tick := rfl

/-! ## armMonitor -/

@[simp] theorem armMonitor_hart (s : State) (a : Nat) :
    (armMonitor s a).hart = { s.hart with monitor := some ⟨a / 128, none⟩ } := rfl
@[simp] theorem armMonitor_cur (s : State) (a : Nat) : (armMonitor s a).cur = s.cur := rfl
@[simp] theorem armMonitor_harts (s : State) (a : Nat) : (armMonitor s a).harts = s.harts := rfl
@[simp] theorem armMonitor_core (s : State) (a : Nat) : (armMonitor s a).core = s.core := rfl
@[simp] theorem armMonitor_cores (s : State) (a : Nat) : (armMonitor s a).cores = s.cores := rfl
@[simp] theorem armMonitor_ms (s : State) (a : Nat) : (armMonitor s a).ms = s.ms := rfl
@[simp] theorem armMonitor_eng (s : State) (a : Nat) : (armMonitor s a).eng = s.eng := rfl
@[simp] theorem armMonitor_sched (s : State) (a : Nat) : (armMonitor s a).sched = s.sched := rfl
@[simp] theorem armMonitor_green (s : State) (a : Nat) : (armMonitor s a).green = s.green := rfl
@[simp] theorem armMonitor_host (s : State) (a : Nat) : (armMonitor s a).host = s.host := rfl
@[simp] theorem armMonitor_agenda (s : State) (a : Nat) : (armMonitor s a).agenda = s.agenda := rfl
@[simp] theorem armMonitor_tick (s : State) (a : Nat) : (armMonitor s a).tick = s.tick := rfl

/-! ## clearMonitor -/

@[simp] theorem clearMonitor_hart (s : State) : (clearMonitor s).hart = { s.hart with monitor := none } := rfl
@[simp] theorem clearMonitor_cur (s : State) : (clearMonitor s).cur = s.cur := rfl
@[simp] theorem clearMonitor_harts (s : State) : (clearMonitor s).harts = s.harts := rfl
@[simp] theorem clearMonitor_core (s : State) : (clearMonitor s).core = s.core := rfl
@[simp] theorem clearMonitor_cores (s : State) : (clearMonitor s).cores = s.cores := rfl
@[simp] theorem clearMonitor_ms (s : State) : (clearMonitor s).ms = s.ms := rfl
@[simp] theorem clearMonitor_eng (s : State) : (clearMonitor s).eng = s.eng := rfl
@[simp] theorem clearMonitor_sched (s : State) : (clearMonitor s).sched = s.sched := rfl
@[simp] theorem clearMonitor_green (s : State) : (clearMonitor s).green = s.green := rfl
@[simp] theorem clearMonitor_host (s : State) : (clearMonitor s).host = s.host := rfl
@[simp] theorem clearMonitor_agenda (s : State) : (clearMonitor s).agenda = s.agenda := rfl
@[simp] theorem clearMonitor_tick (s : State) : (clearMonitor s).tick = s.tick := rfl

/-! ## setStrip -/

@[simp] theorem setStrip_hart (s : State) (h : Reg) (x : Strip) :
    (setStrip s h x).hart = { s.hart with strip := s.hart.strip.setIfInBounds h.toNat x, vstate := 2 } := rfl
@[simp] theorem setStrip_cur (s : State) (h : Reg) (x : Strip) : (setStrip s h x).cur = s.cur := rfl
@[simp] theorem setStrip_harts (s : State) (h : Reg) (x : Strip) : (setStrip s h x).harts = s.harts := rfl
@[simp] theorem setStrip_core (s : State) (h : Reg) (x : Strip) : (setStrip s h x).core = s.core := rfl
@[simp] theorem setStrip_cores (s : State) (h : Reg) (x : Strip) : (setStrip s h x).cores = s.cores := rfl
@[simp] theorem setStrip_ms (s : State) (h : Reg) (x : Strip) : (setStrip s h x).ms = s.ms := rfl
@[simp] theorem setStrip_eng (s : State) (h : Reg) (x : Strip) : (setStrip s h x).eng = s.eng := rfl
@[simp] theorem setStrip_sched (s : State) (h : Reg) (x : Strip) : (setStrip s h x).sched = s.sched := rfl
@[simp] theorem setStrip_green (s : State) (h : Reg) (x : Strip) : (setStrip s h x).green = s.green := rfl
@[simp] theorem setStrip_host (s : State) (h : Reg) (x : Strip) : (setStrip s h x).host = s.host := rfl
@[simp] theorem setStrip_agenda (s : State) (h : Reg) (x : Strip) : (setStrip s h x).agenda = s.agenda := rfl
@[simp] theorem setStrip_tick (s : State) (h : Reg) (x : Strip) : (setStrip s h x).tick = s.tick := rfl

/-! ## setLengths -/

@[simp] theorem setLengths_hart (s : State) (r n : Nat) : (setLengths s r n).hart = { s.hart with vl := n, vr := r } := rfl
@[simp] theorem setLengths_cur (s : State) (r n : Nat) : (setLengths s r n).cur = s.cur := rfl
@[simp] theorem setLengths_harts (s : State) (r n : Nat) : (setLengths s r n).harts = s.harts := rfl
@[simp] theorem setLengths_core (s : State) (r n : Nat) : (setLengths s r n).core = s.core := rfl
@[simp] theorem setLengths_cores (s : State) (r n : Nat) : (setLengths s r n).cores = s.cores := rfl
@[simp] theorem setLengths_ms (s : State) (r n : Nat) : (setLengths s r n).ms = s.ms := rfl
@[simp] theorem setLengths_eng (s : State) (r n : Nat) : (setLengths s r n).eng = s.eng := rfl
@[simp] theorem setLengths_sched (s : State) (r n : Nat) : (setLengths s r n).sched = s.sched := rfl
@[simp] theorem setLengths_green (s : State) (r n : Nat) : (setLengths s r n).green = s.green := rfl
@[simp] theorem setLengths_host (s : State) (r n : Nat) : (setLengths s r n).host = s.host := rfl
@[simp] theorem setLengths_agenda (s : State) (r n : Nat) : (setLengths s r n).agenda = s.agenda := rfl
@[simp] theorem setLengths_tick (s : State) (r n : Nat) : (setLengths s r n).tick = s.tick := rfl

/-! ## setAcc -/

@[simp] theorem setAcc_core (s : State) (m n : Nat) (x : BitVec 32) :
    (setAcc s m n x).core = { s.core with
      acc := mapSet s.core.acc (physRow s m * 384 + n) ⟨x, true⟩
      accBad := s.core.accBad.filter (· != physRow s m * 384 + n) } := rfl
@[simp] theorem setAcc_hart (s : State) (m n : Nat) (x : BitVec 32) : (setAcc s m n x).hart = s.hart := rfl
@[simp] theorem setAcc_cur (s : State) (m n : Nat) (x : BitVec 32) : (setAcc s m n x).cur = s.cur := rfl
@[simp] theorem setAcc_harts (s : State) (m n : Nat) (x : BitVec 32) : (setAcc s m n x).harts = s.harts := rfl
@[simp] theorem setAcc_cores (s : State) (m n : Nat) (x : BitVec 32) : (setAcc s m n x).cores = s.cores := rfl
@[simp] theorem setAcc_ms (s : State) (m n : Nat) (x : BitVec 32) : (setAcc s m n x).ms = s.ms := rfl
@[simp] theorem setAcc_eng (s : State) (m n : Nat) (x : BitVec 32) : (setAcc s m n x).eng = s.eng := rfl
@[simp] theorem setAcc_sched (s : State) (m n : Nat) (x : BitVec 32) : (setAcc s m n x).sched = s.sched := rfl
@[simp] theorem setAcc_green (s : State) (m n : Nat) (x : BitVec 32) : (setAcc s m n x).green = s.green := rfl
@[simp] theorem setAcc_host (s : State) (m n : Nat) (x : BitVec 32) : (setAcc s m n x).host = s.host := rfl
@[simp] theorem setAcc_agenda (s : State) (m n : Nat) (x : BitVec 32) : (setAcc s m n x).agenda = s.agenda := rfl
@[simp] theorem setAcc_tick (s : State) (m n : Nat) (x : BitVec 32) : (setAcc s m n x).tick = s.tick := rfl

/-! ## setKnot -/

@[simp] theorem setKnot_core (s : State) (j : Nat) (k : Knot) :
    (setKnot s j k).core = { s.core with knot := s.core.knot.setIfInBounds (physRow s j) k } := rfl
@[simp] theorem setKnot_hart (s : State) (j : Nat) (k : Knot) : (setKnot s j k).hart = s.hart := rfl
@[simp] theorem setKnot_cur (s : State) (j : Nat) (k : Knot) : (setKnot s j k).cur = s.cur := rfl
@[simp] theorem setKnot_harts (s : State) (j : Nat) (k : Knot) : (setKnot s j k).harts = s.harts := rfl
@[simp] theorem setKnot_cores (s : State) (j : Nat) (k : Knot) : (setKnot s j k).cores = s.cores := rfl
@[simp] theorem setKnot_ms (s : State) (j : Nat) (k : Knot) : (setKnot s j k).ms = s.ms := rfl
@[simp] theorem setKnot_eng (s : State) (j : Nat) (k : Knot) : (setKnot s j k).eng = s.eng := rfl
@[simp] theorem setKnot_sched (s : State) (j : Nat) (k : Knot) : (setKnot s j k).sched = s.sched := rfl
@[simp] theorem setKnot_green (s : State) (j : Nat) (k : Knot) : (setKnot s j k).green = s.green := rfl
@[simp] theorem setKnot_host (s : State) (j : Nat) (k : Knot) : (setKnot s j k).host = s.host := rfl
@[simp] theorem setKnot_agenda (s : State) (j : Nat) (k : Knot) : (setKnot s j k).agenda = s.agenda := rfl
@[simp] theorem setKnot_tick (s : State) (j : Nat) (k : Knot) : (setKnot s j k).tick = s.tick := rfl

/-! ## discardMatrix -/

@[simp] theorem discardMatrix_hart (s : State) : (discardMatrix s).hart = { s.hart with fifo := [], coef := none } := rfl
@[simp] theorem discardMatrix_core (s : State) : (discardMatrix s).core = clearRows s.core (heldRows s.core s.idx) := rfl
@[simp] theorem discardMatrix_cur (s : State) : (discardMatrix s).cur = s.cur := rfl
@[simp] theorem discardMatrix_harts (s : State) : (discardMatrix s).harts = s.harts := rfl
@[simp] theorem discardMatrix_cores (s : State) : (discardMatrix s).cores = s.cores := rfl
@[simp] theorem discardMatrix_ms (s : State) : (discardMatrix s).ms = s.ms := rfl
@[simp] theorem discardMatrix_eng (s : State) : (discardMatrix s).eng = s.eng := rfl
@[simp] theorem discardMatrix_sched (s : State) : (discardMatrix s).sched = s.sched := rfl
@[simp] theorem discardMatrix_green (s : State) : (discardMatrix s).green = s.green := rfl
@[simp] theorem discardMatrix_host (s : State) : (discardMatrix s).host = s.host := rfl
@[simp] theorem discardMatrix_agenda (s : State) : (discardMatrix s).agenda = s.agenda := rfl
@[simp] theorem discardMatrix_tick (s : State) : (discardMatrix s).tick = s.tick := rfl

/-! ## setByte -/

@[simp] theorem setByte_ms (s : State) (a : Nat) (b : Byte) :
    (setByte s a b).ms = { s.ms with mem := memSet s.ms.mem a b } := rfl
@[simp] theorem setByte_hart (s : State) (a : Nat) (b : Byte) : (setByte s a b).hart = s.hart := rfl
@[simp] theorem setByte_cur (s : State) (a : Nat) (b : Byte) : (setByte s a b).cur = s.cur := rfl
@[simp] theorem setByte_harts (s : State) (a : Nat) (b : Byte) : (setByte s a b).harts = s.harts := rfl
@[simp] theorem setByte_core (s : State) (a : Nat) (b : Byte) : (setByte s a b).core = s.core := rfl
@[simp] theorem setByte_cores (s : State) (a : Nat) (b : Byte) : (setByte s a b).cores = s.cores := rfl
@[simp] theorem setByte_eng (s : State) (a : Nat) (b : Byte) : (setByte s a b).eng = s.eng := rfl
@[simp] theorem setByte_sched (s : State) (a : Nat) (b : Byte) : (setByte s a b).sched = s.sched := rfl
@[simp] theorem setByte_green (s : State) (a : Nat) (b : Byte) : (setByte s a b).green = s.green := rfl
@[simp] theorem setByte_host (s : State) (a : Nat) (b : Byte) : (setByte s a b).host = s.host := rfl
@[simp] theorem setByte_agenda (s : State) (a : Nat) (b : Byte) : (setByte s a b).agenda = s.agenda := rfl
@[simp] theorem setByte_tick (s : State) (a : Nat) (b : Byte) : (setByte s a b).tick = s.tick := rfl

/-! ## putHome -/

@[simp] theorem putHome_ms (s : State) (n : Nat) (x : HomeSector) :
    (putHome s n x).ms = { s.ms with l2 := mapSet s.ms.l2 n x } := rfl
@[simp] theorem putHome_hart (s : State) (n : Nat) (x : HomeSector) : (putHome s n x).hart = s.hart := rfl
@[simp] theorem putHome_cur (s : State) (n : Nat) (x : HomeSector) : (putHome s n x).cur = s.cur := rfl
@[simp] theorem putHome_harts (s : State) (n : Nat) (x : HomeSector) : (putHome s n x).harts = s.harts := rfl
@[simp] theorem putHome_core (s : State) (n : Nat) (x : HomeSector) : (putHome s n x).core = s.core := rfl
@[simp] theorem putHome_cores (s : State) (n : Nat) (x : HomeSector) : (putHome s n x).cores = s.cores := rfl
@[simp] theorem putHome_eng (s : State) (n : Nat) (x : HomeSector) : (putHome s n x).eng = s.eng := rfl
@[simp] theorem putHome_sched (s : State) (n : Nat) (x : HomeSector) : (putHome s n x).sched = s.sched := rfl
@[simp] theorem putHome_green (s : State) (n : Nat) (x : HomeSector) : (putHome s n x).green = s.green := rfl
@[simp] theorem putHome_host (s : State) (n : Nat) (x : HomeSector) : (putHome s n x).host = s.host := rfl
@[simp] theorem putHome_agenda (s : State) (n : Nat) (x : HomeSector) : (putHome s n x).agenda = s.agenda := rfl
@[simp] theorem putHome_tick (s : State) (n : Nat) (x : HomeSector) : (putHome s n x).tick = s.tick := rfl

/-! ## wakeAll -/

@[simp] theorem wakeAll_hart (s : State) (n : Nat) (r : BitVec 3) : (wakeAll s n r).hart = wakeMonitor n r s.hart := rfl
@[simp] theorem wakeAll_cur (s : State) (n : Nat) (r : BitVec 3) : (wakeAll s n r).cur = s.cur := rfl
@[simp] theorem wakeAll_core (s : State) (n : Nat) (r : BitVec 3) : (wakeAll s n r).core = s.core := rfl
@[simp] theorem wakeAll_cores (s : State) (n : Nat) (r : BitVec 3) : (wakeAll s n r).cores = s.cores := rfl
@[simp] theorem wakeAll_ms (s : State) (n : Nat) (r : BitVec 3) : (wakeAll s n r).ms = s.ms := rfl
@[simp] theorem wakeAll_eng (s : State) (n : Nat) (r : BitVec 3) : (wakeAll s n r).eng = s.eng := rfl
@[simp] theorem wakeAll_sched (s : State) (n : Nat) (r : BitVec 3) : (wakeAll s n r).sched = s.sched := rfl
@[simp] theorem wakeAll_green (s : State) (n : Nat) (r : BitVec 3) : (wakeAll s n r).green = s.green := rfl
@[simp] theorem wakeAll_host (s : State) (n : Nat) (r : BitVec 3) : (wakeAll s n r).host = s.host := rfl
@[simp] theorem wakeAll_agenda (s : State) (n : Nat) (r : BitVec 3) : (wakeAll s n r).agenda = s.agenda := rfl
@[simp] theorem wakeAll_tick (s : State) (n : Nat) (r : BitVec 3) : (wakeAll s n r).tick = s.tick := rfl

/-! ## homeMerge -/

@[simp] theorem homeMerge_hart (s : State) (n : Nat) (xs : List (Option Byte)) :
    (homeMerge s n xs).hart = wakeMonitor n 0 s.hart := rfl
@[simp] theorem homeMerge_cur (s : State) (n : Nat) (xs : List (Option Byte)) : (homeMerge s n xs).cur = s.cur := rfl
@[simp] theorem homeMerge_core (s : State) (n : Nat) (xs : List (Option Byte)) : (homeMerge s n xs).core = s.core := rfl
@[simp] theorem homeMerge_cores (s : State) (n : Nat) (xs : List (Option Byte)) : (homeMerge s n xs).cores = s.cores := rfl
@[simp] theorem homeMerge_eng (s : State) (n : Nat) (xs : List (Option Byte)) : (homeMerge s n xs).eng = s.eng := rfl
@[simp] theorem homeMerge_sched (s : State) (n : Nat) (xs : List (Option Byte)) : (homeMerge s n xs).sched = s.sched := rfl
@[simp] theorem homeMerge_green (s : State) (n : Nat) (xs : List (Option Byte)) : (homeMerge s n xs).green = s.green := rfl
@[simp] theorem homeMerge_host (s : State) (n : Nat) (xs : List (Option Byte)) : (homeMerge s n xs).host = s.host := rfl
@[simp] theorem homeMerge_agenda (s : State) (n : Nat) (xs : List (Option Byte)) : (homeMerge s n xs).agenda = s.agenda := rfl
@[simp] theorem homeMerge_tick (s : State) (n : Nat) (xs : List (Option Byte)) : (homeMerge s n xs).tick = s.tick := rfl

/-! ## setSlot -/

@[simp] theorem setSlot_eng (s : State) (n : Nat) (x : Slot) :
    (setSlot s n x).eng = { s.eng with slot := mapSet s.eng.slot n x } := rfl
@[simp] theorem setSlot_hart (s : State) (n : Nat) (x : Slot) : (setSlot s n x).hart = s.hart := rfl
@[simp] theorem setSlot_cur (s : State) (n : Nat) (x : Slot) : (setSlot s n x).cur = s.cur := rfl
@[simp] theorem setSlot_harts (s : State) (n : Nat) (x : Slot) : (setSlot s n x).harts = s.harts := rfl
@[simp] theorem setSlot_core (s : State) (n : Nat) (x : Slot) : (setSlot s n x).core = s.core := rfl
@[simp] theorem setSlot_cores (s : State) (n : Nat) (x : Slot) : (setSlot s n x).cores = s.cores := rfl
@[simp] theorem setSlot_ms (s : State) (n : Nat) (x : Slot) : (setSlot s n x).ms = s.ms := rfl
@[simp] theorem setSlot_sched (s : State) (n : Nat) (x : Slot) : (setSlot s n x).sched = s.sched := rfl
@[simp] theorem setSlot_green (s : State) (n : Nat) (x : Slot) : (setSlot s n x).green = s.green := rfl
@[simp] theorem setSlot_host (s : State) (n : Nat) (x : Slot) : (setSlot s n x).host = s.host := rfl
@[simp] theorem setSlot_agenda (s : State) (n : Nat) (x : Slot) : (setSlot s n x).agenda = s.agenda := rfl
@[simp] theorem setSlot_tick (s : State) (n : Nat) (x : Slot) : (setSlot s n x).tick = s.tick := rfl

/-! ## setBank -/

@[simp] theorem setBank_eng (s : State) (b : Nat) (x : Bank) :
    (setBank s b x).eng = { s.eng with bank := mapSet s.eng.bank b x } := rfl
@[simp] theorem setBank_hart (s : State) (b : Nat) (x : Bank) : (setBank s b x).hart = s.hart := rfl
@[simp] theorem setBank_cur (s : State) (b : Nat) (x : Bank) : (setBank s b x).cur = s.cur := rfl
@[simp] theorem setBank_harts (s : State) (b : Nat) (x : Bank) : (setBank s b x).harts = s.harts := rfl
@[simp] theorem setBank_core (s : State) (b : Nat) (x : Bank) : (setBank s b x).core = s.core := rfl
@[simp] theorem setBank_cores (s : State) (b : Nat) (x : Bank) : (setBank s b x).cores = s.cores := rfl
@[simp] theorem setBank_ms (s : State) (b : Nat) (x : Bank) : (setBank s b x).ms = s.ms := rfl
@[simp] theorem setBank_sched (s : State) (b : Nat) (x : Bank) : (setBank s b x).sched = s.sched := rfl
@[simp] theorem setBank_green (s : State) (b : Nat) (x : Bank) : (setBank s b x).green = s.green := rfl
@[simp] theorem setBank_host (s : State) (b : Nat) (x : Bank) : (setBank s b x).host = s.host := rfl
@[simp] theorem setBank_agenda (s : State) (b : Nat) (x : Bank) : (setBank s b x).agenda = s.agenda := rfl
@[simp] theorem setBank_tick (s : State) (b : Nat) (x : Bank) : (setBank s b x).tick = s.tick := rfl

/-! ## setBox -/

@[simp] theorem setBox_green (s : State) (b : Nat) (x : Mailbox) :
    (setBox s b x).green = { s.green with box := mapSet s.green.box b x } := rfl
@[simp] theorem setBox_hart (s : State) (b : Nat) (x : Mailbox) : (setBox s b x).hart = s.hart := rfl
@[simp] theorem setBox_cur (s : State) (b : Nat) (x : Mailbox) : (setBox s b x).cur = s.cur := rfl
@[simp] theorem setBox_harts (s : State) (b : Nat) (x : Mailbox) : (setBox s b x).harts = s.harts := rfl
@[simp] theorem setBox_core (s : State) (b : Nat) (x : Mailbox) : (setBox s b x).core = s.core := rfl
@[simp] theorem setBox_cores (s : State) (b : Nat) (x : Mailbox) : (setBox s b x).cores = s.cores := rfl
@[simp] theorem setBox_ms (s : State) (b : Nat) (x : Mailbox) : (setBox s b x).ms = s.ms := rfl
@[simp] theorem setBox_eng (s : State) (b : Nat) (x : Mailbox) : (setBox s b x).eng = s.eng := rfl
@[simp] theorem setBox_sched (s : State) (b : Nat) (x : Mailbox) : (setBox s b x).sched = s.sched := rfl
@[simp] theorem setBox_host (s : State) (b : Nat) (x : Mailbox) : (setBox s b x).host = s.host := rfl
@[simp] theorem setBox_agenda (s : State) (b : Nat) (x : Mailbox) : (setBox s b x).agenda = s.agenda := rfl
@[simp] theorem setBox_tick (s : State) (b : Nat) (x : Mailbox) : (setBox s b x).tick = s.tick := rfl

/-! ## setGCore -/

@[simp] theorem setGCore_green (s : State) (g : Nat) (x : GCore) :
    (setGCore s g x).green = { s.green with core := mapSet s.green.core g x } := rfl
@[simp] theorem setGCore_hart (s : State) (g : Nat) (x : GCore) : (setGCore s g x).hart = s.hart := rfl
@[simp] theorem setGCore_cur (s : State) (g : Nat) (x : GCore) : (setGCore s g x).cur = s.cur := rfl
@[simp] theorem setGCore_harts (s : State) (g : Nat) (x : GCore) : (setGCore s g x).harts = s.harts := rfl
@[simp] theorem setGCore_core (s : State) (g : Nat) (x : GCore) : (setGCore s g x).core = s.core := rfl
@[simp] theorem setGCore_cores (s : State) (g : Nat) (x : GCore) : (setGCore s g x).cores = s.cores := rfl
@[simp] theorem setGCore_ms (s : State) (g : Nat) (x : GCore) : (setGCore s g x).ms = s.ms := rfl
@[simp] theorem setGCore_eng (s : State) (g : Nat) (x : GCore) : (setGCore s g x).eng = s.eng := rfl
@[simp] theorem setGCore_sched (s : State) (g : Nat) (x : GCore) : (setGCore s g x).sched = s.sched := rfl
@[simp] theorem setGCore_host (s : State) (g : Nat) (x : GCore) : (setGCore s g x).host = s.host := rfl
@[simp] theorem setGCore_agenda (s : State) (g : Nat) (x : GCore) : (setGCore s g x).agenda = s.agenda := rfl
@[simp] theorem setGCore_tick (s : State) (g : Nat) (x : GCore) : (setGCore s g x).tick = s.tick := rfl

/-! ## modFunc -/

@[simp] theorem modFunc_host (s : State) (f : Nat) (g : Func → Func) :
    (modFunc s f g).host = { s.host with func := mapSet s.host.func f (g (funcOf s f)) } := rfl
@[simp] theorem modFunc_hart (s : State) (f : Nat) (g : Func → Func) : (modFunc s f g).hart = s.hart := rfl
@[simp] theorem modFunc_cur (s : State) (f : Nat) (g : Func → Func) : (modFunc s f g).cur = s.cur := rfl
@[simp] theorem modFunc_harts (s : State) (f : Nat) (g : Func → Func) : (modFunc s f g).harts = s.harts := rfl
@[simp] theorem modFunc_core (s : State) (f : Nat) (g : Func → Func) : (modFunc s f g).core = s.core := rfl
@[simp] theorem modFunc_cores (s : State) (f : Nat) (g : Func → Func) : (modFunc s f g).cores = s.cores := rfl
@[simp] theorem modFunc_ms (s : State) (f : Nat) (g : Func → Func) : (modFunc s f g).ms = s.ms := rfl
@[simp] theorem modFunc_eng (s : State) (f : Nat) (g : Func → Func) : (modFunc s f g).eng = s.eng := rfl
@[simp] theorem modFunc_sched (s : State) (f : Nat) (g : Func → Func) : (modFunc s f g).sched = s.sched := rfl
@[simp] theorem modFunc_green (s : State) (f : Nat) (g : Func → Func) : (modFunc s f g).green = s.green := rfl
@[simp] theorem modFunc_agenda (s : State) (f : Nat) (g : Func → Func) : (modFunc s f g).agenda = s.agenda := rfl
@[simp] theorem modFunc_tick (s : State) (f : Nat) (g : Func → Func) : (modFunc s f g).tick = s.tick := rfl

/-! ## modHealth -/

@[simp] theorem modHealth_host (s : State) (f : Health → Health) :
    (modHealth s f).host = { s.host with health := f s.host.health } := rfl
@[simp] theorem modHealth_hart (s : State) (f : Health → Health) : (modHealth s f).hart = s.hart := rfl
@[simp] theorem modHealth_cur (s : State) (f : Health → Health) : (modHealth s f).cur = s.cur := rfl
@[simp] theorem modHealth_harts (s : State) (f : Health → Health) : (modHealth s f).harts = s.harts := rfl
@[simp] theorem modHealth_core (s : State) (f : Health → Health) : (modHealth s f).core = s.core := rfl
@[simp] theorem modHealth_cores (s : State) (f : Health → Health) : (modHealth s f).cores = s.cores := rfl
@[simp] theorem modHealth_ms (s : State) (f : Health → Health) : (modHealth s f).ms = s.ms := rfl
@[simp] theorem modHealth_eng (s : State) (f : Health → Health) : (modHealth s f).eng = s.eng := rfl
@[simp] theorem modHealth_sched (s : State) (f : Health → Health) : (modHealth s f).sched = s.sched := rfl
@[simp] theorem modHealth_green (s : State) (f : Health → Health) : (modHealth s f).green = s.green := rfl
@[simp] theorem modHealth_agenda (s : State) (f : Health → Health) : (modHealth s f).agenda = s.agenda := rfl
@[simp] theorem modHealth_tick (s : State) (f : Health → Health) : (modHealth s f).tick = s.tick := rfl

/-! ## answerWords -/

@[simp] theorem answerWords_host (s : State) (ws : List Word) :
    (answerWords s ws).host = { s.host with replyWords := ws } := rfl
@[simp] theorem answerWords_hart (s : State) (ws : List Word) : (answerWords s ws).hart = s.hart := rfl
@[simp] theorem answerWords_cur (s : State) (ws : List Word) : (answerWords s ws).cur = s.cur := rfl
@[simp] theorem answerWords_harts (s : State) (ws : List Word) : (answerWords s ws).harts = s.harts := rfl
@[simp] theorem answerWords_core (s : State) (ws : List Word) : (answerWords s ws).core = s.core := rfl
@[simp] theorem answerWords_cores (s : State) (ws : List Word) : (answerWords s ws).cores = s.cores := rfl
@[simp] theorem answerWords_ms (s : State) (ws : List Word) : (answerWords s ws).ms = s.ms := rfl
@[simp] theorem answerWords_eng (s : State) (ws : List Word) : (answerWords s ws).eng = s.eng := rfl
@[simp] theorem answerWords_sched (s : State) (ws : List Word) : (answerWords s ws).sched = s.sched := rfl
@[simp] theorem answerWords_green (s : State) (ws : List Word) : (answerWords s ws).green = s.green := rfl
@[simp] theorem answerWords_agenda (s : State) (ws : List Word) : (answerWords s ws).agenda = s.agenda := rfl
@[simp] theorem answerWords_tick (s : State) (ws : List Word) : (answerWords s ws).tick = s.tick := rfl

/-! ## refuseCommand -/

@[simp] theorem refuseCommand_hart (s : State) : (refuseCommand s).hart = s.hart := rfl
@[simp] theorem refuseCommand_cur (s : State) : (refuseCommand s).cur = s.cur := rfl
@[simp] theorem refuseCommand_harts (s : State) : (refuseCommand s).harts = s.harts := rfl
@[simp] theorem refuseCommand_core (s : State) : (refuseCommand s).core = s.core := rfl
@[simp] theorem refuseCommand_cores (s : State) : (refuseCommand s).cores = s.cores := rfl
@[simp] theorem refuseCommand_ms (s : State) : (refuseCommand s).ms = s.ms := rfl
@[simp] theorem refuseCommand_eng (s : State) : (refuseCommand s).eng = s.eng := rfl
@[simp] theorem refuseCommand_sched (s : State) : (refuseCommand s).sched = s.sched := rfl
@[simp] theorem refuseCommand_green (s : State) : (refuseCommand s).green = s.green := rfl
@[simp] theorem refuseCommand_agenda (s : State) : (refuseCommand s).agenda = s.agenda := rfl
@[simp] theorem refuseCommand_tick (s : State) : (refuseCommand s).tick = s.tick := rfl

/-! ## setPosted -/

@[simp] theorem setPosted_ms (s : State) (h : Nat) (m : Map (List (Option Byte))) :
    (setPosted s h m).ms = { s.ms with posted := mapSet s.ms.posted h m } := rfl
@[simp] theorem setPosted_hart (s : State) (h : Nat) (m : Map (List (Option Byte))) :
    (setPosted s h m).hart = s.hart := rfl
@[simp] theorem setPosted_cur (s : State) (h : Nat) (m : Map (List (Option Byte))) :
    (setPosted s h m).cur = s.cur := rfl
@[simp] theorem setPosted_harts (s : State) (h : Nat) (m : Map (List (Option Byte))) :
    (setPosted s h m).harts = s.harts := rfl
@[simp] theorem setPosted_core (s : State) (h : Nat) (m : Map (List (Option Byte))) :
    (setPosted s h m).core = s.core := rfl
@[simp] theorem setPosted_cores (s : State) (h : Nat) (m : Map (List (Option Byte))) :
    (setPosted s h m).cores = s.cores := rfl
@[simp] theorem setPosted_eng (s : State) (h : Nat) (m : Map (List (Option Byte))) :
    (setPosted s h m).eng = s.eng := rfl
@[simp] theorem setPosted_sched (s : State) (h : Nat) (m : Map (List (Option Byte))) :
    (setPosted s h m).sched = s.sched := rfl
@[simp] theorem setPosted_green (s : State) (h : Nat) (m : Map (List (Option Byte))) :
    (setPosted s h m).green = s.green := rfl
@[simp] theorem setPosted_host (s : State) (h : Nat) (m : Map (List (Option Byte))) :
    (setPosted s h m).host = s.host := rfl
@[simp] theorem setPosted_agenda (s : State) (h : Nat) (m : Map (List (Option Byte))) :
    (setPosted s h m).agenda = s.agenda := rfl
@[simp] theorem setPosted_tick (s : State) (h : Nat) (m : Map (List (Option Byte))) :
    (setPosted s h m).tick = s.tick := rfl

/-! ## setPort -/

@[simp] theorem setPort_host (s : State) (p : Nat) (x : Link) :
    (setPort s p x).host = { s.host with port := s.host.port.setIfInBounds p x } := rfl
@[simp] theorem setPort_hart (s : State) (p : Nat) (x : Link) : (setPort s p x).hart = s.hart := rfl
@[simp] theorem setPort_cur (s : State) (p : Nat) (x : Link) : (setPort s p x).cur = s.cur := rfl
@[simp] theorem setPort_harts (s : State) (p : Nat) (x : Link) : (setPort s p x).harts = s.harts := rfl
@[simp] theorem setPort_core (s : State) (p : Nat) (x : Link) : (setPort s p x).core = s.core := rfl
@[simp] theorem setPort_cores (s : State) (p : Nat) (x : Link) : (setPort s p x).cores = s.cores := rfl
@[simp] theorem setPort_ms (s : State) (p : Nat) (x : Link) : (setPort s p x).ms = s.ms := rfl
@[simp] theorem setPort_eng (s : State) (p : Nat) (x : Link) : (setPort s p x).eng = s.eng := rfl
@[simp] theorem setPort_sched (s : State) (p : Nat) (x : Link) : (setPort s p x).sched = s.sched := rfl
@[simp] theorem setPort_green (s : State) (p : Nat) (x : Link) : (setPort s p x).green = s.green := rfl
@[simp] theorem setPort_agenda (s : State) (p : Nat) (x : Link) : (setPort s p x).agenda = s.agenda := rfl
@[simp] theorem setPort_tick (s : State) (p : Nat) (x : Link) : (setPort s p x).tick = s.tick := rfl

/-! ## setCrossbar -/

@[simp] theorem setCrossbar_eng (s : State) (k : Nat) (l : List Transfer) :
    (setCrossbar s k l).eng = { s.eng with crossbar := mapSet s.eng.crossbar k l } := rfl
@[simp] theorem setCrossbar_hart (s : State) (k : Nat) (l : List Transfer) : (setCrossbar s k l).hart = s.hart := rfl
@[simp] theorem setCrossbar_cur (s : State) (k : Nat) (l : List Transfer) : (setCrossbar s k l).cur = s.cur := rfl
@[simp] theorem setCrossbar_harts (s : State) (k : Nat) (l : List Transfer) : (setCrossbar s k l).harts = s.harts := rfl
@[simp] theorem setCrossbar_core (s : State) (k : Nat) (l : List Transfer) : (setCrossbar s k l).core = s.core := rfl
@[simp] theorem setCrossbar_cores (s : State) (k : Nat) (l : List Transfer) : (setCrossbar s k l).cores = s.cores := rfl
@[simp] theorem setCrossbar_ms (s : State) (k : Nat) (l : List Transfer) : (setCrossbar s k l).ms = s.ms := rfl
@[simp] theorem setCrossbar_sched (s : State) (k : Nat) (l : List Transfer) : (setCrossbar s k l).sched = s.sched := rfl
@[simp] theorem setCrossbar_green (s : State) (k : Nat) (l : List Transfer) : (setCrossbar s k l).green = s.green := rfl
@[simp] theorem setCrossbar_host (s : State) (k : Nat) (l : List Transfer) : (setCrossbar s k l).host = s.host := rfl
@[simp] theorem setCrossbar_agenda (s : State) (k : Nat) (l : List Transfer) :
    (setCrossbar s k l).agenda = s.agenda := rfl
@[simp] theorem setCrossbar_tick (s : State) (k : Nat) (l : List Transfer) : (setCrossbar s k l).tick = s.tick := rfl

/-! ## writeG -/

@[simp] theorem writeG_cur (s : State) (r : Reg) (x : Word) : (writeG s r x).cur = s.cur := by unfold writeG; split <;> rfl
@[simp] theorem writeG_harts (s : State) (r : Reg) (x : Word) :
    (writeG s r x).harts = s.harts := by unfold writeG; split <;> rfl
@[simp] theorem writeG_core (s : State) (r : Reg) (x : Word) : (writeG s r x).core = s.core := by unfold writeG; split <;> rfl
@[simp] theorem writeG_cores (s : State) (r : Reg) (x : Word) :
    (writeG s r x).cores = s.cores := by unfold writeG; split <;> rfl
@[simp] theorem writeG_ms (s : State) (r : Reg) (x : Word) : (writeG s r x).ms = s.ms := by unfold writeG; split <;> rfl
@[simp] theorem writeG_eng (s : State) (r : Reg) (x : Word) : (writeG s r x).eng = s.eng := by unfold writeG; split <;> rfl
@[simp] theorem writeG_sched (s : State) (r : Reg) (x : Word) :
    (writeG s r x).sched = s.sched := by unfold writeG; split <;> rfl
@[simp] theorem writeG_green (s : State) (r : Reg) (x : Word) :
    (writeG s r x).green = s.green := by unfold writeG; split <;> rfl
@[simp] theorem writeG_host (s : State) (r : Reg) (x : Word) : (writeG s r x).host = s.host := by unfold writeG; split <;> rfl
@[simp] theorem writeG_agenda (s : State) (r : Reg) (x : Word) :
    (writeG s r x).agenda = s.agenda := by unfold writeG; split <;> rfl
@[simp] theorem writeG_tick (s : State) (r : Reg) (x : Word) : (writeG s r x).tick = s.tick := by unfold writeG; split <;> rfl

/-! ## The record of a hart -/

@[simp] theorem writeG_hart_pc (s : State) (r : Reg) (x : Word) : (writeG s r x).hart.pc = s.hart.pc := by
  unfold writeG; split <;> rfl
@[simp] theorem writeG_hart_mode (s : State) (r : Reg) (x : Word) : (writeG s r x).hart.mode = s.hart.mode := by
  unfold writeG; split <;> rfl
@[simp] theorem writeG_hart_run (s : State) (r : Reg) (x : Word) : (writeG s r x).hart.run = s.hart.run := by
  unfold writeG; split <;> rfl
@[simp] theorem writeG_hart_wait (s : State) (r : Reg) (x : Word) : (writeG s r x).hart.wait = s.hart.wait := by
  unfold writeG; split <;> rfl
@[simp] theorem writeG_hart_vl (s : State) (r : Reg) (x : Word) : (writeG s r x).hart.vl = s.hart.vl := by
  unfold writeG; split <;> rfl
@[simp] theorem writeG_hart_vr (s : State) (r : Reg) (x : Word) : (writeG s r x).hart.vr = s.hart.vr := by
  unfold writeG; split <;> rfl
@[simp] theorem writeG_hart_vtype (s : State) (r : Reg) (x : Word) : (writeG s r x).hart.vtype = s.hart.vtype := by
  unfold writeG; split <;> rfl
@[simp] theorem writeG_hart_vstart (s : State) (r : Reg) (x : Word) : (writeG s r x).hart.vstart = s.hart.vstart := by
  unfold writeG; split <;> rfl
@[simp] theorem writeG_hart_count (s : State) (r : Reg) (x : Word) : (writeG s r x).hart.count = s.hart.count := by
  unfold writeG; split <;> rfl
@[simp] theorem writeG_hart_maxsew (s : State) (r : Reg) (x : Word) : (writeG s r x).hart.maxsew = s.hart.maxsew := by
  unfold writeG; split <;> rfl
@[simp] theorem writeG_hart_vsparse (s : State) (r : Reg) (x : Word) : (writeG s r x).hart.vsparse = s.hart.vsparse := by
  unfold writeG; split <;> rfl
@[simp] theorem writeG_hart_vlive (s : State) (r : Reg) (x : Word) : (writeG s r x).hart.vlive = s.hart.vlive := by
  unfold writeG; split <;> rfl
@[simp] theorem writeG_hart_vdirty (s : State) (r : Reg) (x : Word) : (writeG s r x).hart.vdirty = s.hart.vdirty := by
  unfold writeG; split <;> rfl
@[simp] theorem writeG_hart_fflags (s : State) (r : Reg) (x : Word) : (writeG s r x).hart.fflags = s.hart.fflags := by
  unfold writeG; split <;> rfl
@[simp] theorem writeG_hart_fctl (s : State) (r : Reg) (x : Word) : (writeG s r x).hart.fctl = s.hart.fctl := by
  unfold writeG; split <;> rfl
@[simp] theorem writeG_hart_vbscale (s : State) (r : Reg) (x : Word) : (writeG s r x).hart.vbscale = s.hart.vbscale := by
  unfold writeG; split <;> rfl
@[simp] theorem writeG_hart_v (s : State) (r : Reg) (x : Word) : (writeG s r x).hart.v = s.hart.v := by
  unfold writeG; split <;> rfl
@[simp] theorem writeG_hart_vsat (s : State) (r : Reg) (x : Word) : (writeG s r x).hart.vsat = s.hart.vsat := by
  unfold writeG; split <;> rfl
@[simp] theorem writeG_hart_vstate (s : State) (r : Reg) (x : Word) : (writeG s r x).hart.vstate = s.hart.vstate := by
  unfold writeG; split <;> rfl
@[simp] theorem writeG_hart_strip (s : State) (r : Reg) (x : Word) : (writeG s r x).hart.strip = s.hart.strip := by
  unfold writeG; split <;> rfl
@[simp] theorem writeG_hart_lc0 (s : State) (r : Reg) (x : Word) : (writeG s r x).hart.lc0 = s.hart.lc0 := by
  unfold writeG; split <;> rfl
@[simp] theorem writeG_hart_lb0 (s : State) (r : Reg) (x : Word) : (writeG s r x).hart.lb0 = s.hart.lb0 := by
  unfold writeG; split <;> rfl
@[simp] theorem writeG_hart_le0 (s : State) (r : Reg) (x : Word) : (writeG s r x).hart.le0 = s.hart.le0 := by
  unfold writeG; split <;> rfl
@[simp] theorem writeG_hart_lc1 (s : State) (r : Reg) (x : Word) : (writeG s r x).hart.lc1 = s.hart.lc1 := by
  unfold writeG; split <;> rfl
@[simp] theorem writeG_hart_lb1 (s : State) (r : Reg) (x : Word) : (writeG s r x).hart.lb1 = s.hart.lb1 := by
  unfold writeG; split <;> rfl
@[simp] theorem writeG_hart_le1 (s : State) (r : Reg) (x : Word) : (writeG s r x).hart.le1 = s.hart.le1 := by
  unfold writeG; split <;> rfl
@[simp] theorem writeG_hart_rngkey (s : State) (r : Reg) (x : Word) : (writeG s r x).hart.rngkey = s.hart.rngkey := by
  unfold writeG; split <;> rfl
@[simp] theorem writeG_hart_rngctr (s : State) (r : Reg) (x : Word) : (writeG s r x).hart.rngctr = s.hart.rngctr := by
  unfold writeG; split <;> rfl
@[simp] theorem writeG_hart_pgen (s : State) (r : Reg) (x : Word) : (writeG s r x).hart.pgen = s.hart.pgen := by
  unfold writeG; split <;> rfl
@[simp] theorem writeG_hart_tilem (s : State) (r : Reg) (x : Word) : (writeG s r x).hart.tilem = s.hart.tilem := by
  unfold writeG; split <;> rfl
@[simp] theorem writeG_hart_tilen (s : State) (r : Reg) (x : Word) : (writeG s r x).hart.tilen = s.hart.tilen := by
  unfold writeG; split <;> rfl
@[simp] theorem writeG_hart_tilek (s : State) (r : Reg) (x : Word) : (writeG s r x).hart.tilek = s.hart.tilek := by
  unfold writeG; split <;> rfl
@[simp] theorem writeG_hart_tilenoff (s : State) (r : Reg) (x : Word) : (writeG s r x).hart.tilenoff = s.hart.tilenoff := by
  unfold writeG; split <;> rfl
@[simp] theorem writeG_hart_tileset (s : State) (r : Reg) (x : Word) : (writeG s r x).hart.tileset = s.hart.tileset := by
  unfold writeG; split <;> rfl
@[simp] theorem writeG_hart_fifo (s : State) (r : Reg) (x : Word) : (writeG s r x).hart.fifo = s.hart.fifo := by
  unfold writeG; split <;> rfl
@[simp] theorem writeG_hart_coef (s : State) (r : Reg) (x : Word) : (writeG s r x).hart.coef = s.hart.coef := by
  unfold writeG; split <;> rfl
@[simp] theorem writeG_hart_mdirty (s : State) (r : Reg) (x : Word) : (writeG s r x).hart.mdirty = s.hart.mdirty := by
  unfold writeG; split <;> rfl
@[simp] theorem writeG_hart_gangid (s : State) (r : Reg) (x : Word) : (writeG s r x).hart.gangid = s.hart.gangid := by
  unfold writeG; split <;> rfl
@[simp] theorem writeG_hart_gangsize (s : State) (r : Reg) (x : Word) : (writeG s r x).hart.gangsize = s.hart.gangsize := by
  unfold writeG; split <;> rfl
@[simp] theorem writeG_hart_gangrank (s : State) (r : Reg) (x : Word) : (writeG s r x).hart.gangrank = s.hart.gangrank := by
  unfold writeG; split <;> rfl
@[simp] theorem writeG_hart_taskarg (s : State) (r : Reg) (x : Word) : (writeG s r x).hart.taskarg = s.hart.taskarg := by
  unfold writeG; split <;> rfl
@[simp] theorem writeG_hart_instret (s : State) (r : Reg) (x : Word) : (writeG s r x).hart.instret = s.hart.instret := by
  unfold writeG; split <;> rfl
@[simp] theorem writeG_hart_tstatus (s : State) (r : Reg) (x : Word) : (writeG s r x).hart.tstatus = s.hart.tstatus := by
  unfold writeG; split <;> rfl
@[simp] theorem writeG_hart_tcause (s : State) (r : Reg) (x : Word) : (writeG s r x).hart.tcause = s.hart.tcause := by
  unfold writeG; split <;> rfl
@[simp] theorem writeG_hart_tpc (s : State) (r : Reg) (x : Word) : (writeG s r x).hart.tpc = s.hart.tpc := by
  unfold writeG; split <;> rfl
@[simp] theorem writeG_hart_tval (s : State) (r : Reg) (x : Word) : (writeG s r x).hart.tval = s.hart.tval := by
  unfold writeG; split <;> rfl
@[simp] theorem writeG_hart_tvec (s : State) (r : Reg) (x : Word) : (writeG s r x).hart.tvec = s.hart.tvec := by
  unfold writeG; split <;> rfl
@[simp] theorem writeG_hart_tscratch (s : State) (r : Reg) (x : Word) : (writeG s r x).hart.tscratch = s.hart.tscratch := by
  unfold writeG; split <;> rfl
@[simp] theorem writeG_hart_slice (s : State) (r : Reg) (x : Word) : (writeG s r x).hart.slice = s.hart.slice := by
  unfold writeG; split <;> rfl
@[simp] theorem writeG_hart_ptbase (s : State) (r : Reg) (x : Word) : (writeG s r x).hart.ptbase = s.hart.ptbase := by
  unfold writeG; split <;> rfl
@[simp] theorem writeG_hart_asid (s : State) (r : Reg) (x : Word) : (writeG s r x).hart.asid = s.hart.asid := by
  unfold writeG; split <;> rfl
@[simp] theorem writeG_hart_mstateen (s : State) (r : Reg) (x : Word) : (writeG s r x).hart.mstateen = s.hart.mstateen := by
  unfold writeG; split <;> rfl
@[simp] theorem writeG_hart_contending (s : State) (r : Reg) (x : Word) :
    (writeG s r x).hart.contending = s.hart.contending := by
  unfold writeG; split <;> rfl
@[simp] theorem writeG_hart_convoy (s : State) (r : Reg) (x : Word) : (writeG s r x).hart.convoy = s.hart.convoy := by
  unfold writeG; split <;> rfl
@[simp] theorem writeG_hart_sb (s : State) (r : Reg) (x : Word) : (writeG s r x).hart.sb = s.hart.sb := by
  unfold writeG; split <;> rfl
@[simp] theorem writeG_hart_monitor (s : State) (r : Reg) (x : Word) : (writeG s r x).hart.monitor = s.hart.monitor := by
  unfold writeG; split <;> rfl
@[simp] theorem writeG_hart_bars (s : State) (r : Reg) (x : Word) : (writeG s r x).hart.bars = s.hart.bars := by
  unfold writeG; split <;> rfl
@[simp] theorem writeG_hart_sbGrain (s : State) (r : Reg) (x : Word) : (writeG s r x).hart.sbGrain = s.hart.sbGrain := by
  unfold writeG; split <;> rfl
@[simp] theorem writeG_hart_arrived (s : State) (r : Reg) (x : Word) : (writeG s r x).hart.arrived = s.hart.arrived := by
  unfold writeG; split <;> rfl
@[simp] theorem writeG_hart_fresh (s : State) (r : Reg) (x : Word) : (writeG s r x).hart.fresh = s.hart.fresh := by
  unfold writeG; split <;> rfl
@[simp] theorem writeG_hart_partRuns (s : State) (r : Reg) (x : Word) : (writeG s r x).hart.partRuns = s.hart.partRuns := by
  unfold writeG; split <;> rfl
@[simp] theorem writeG_hart_triggered (s : State) (r : Reg) (x : Word) :
    (writeG s r x).hart.triggered = s.hart.triggered := by
  unfold writeG; split <;> rfl
@[simp] theorem writeG_hart_request (s : State) (r : Reg) (x : Word) : (writeG s r x).hart.request = s.hart.request := by
  unfold writeG; split <;> rfl
@[simp] theorem writeG_hart_held (s : State) (r : Reg) (x : Word) : (writeG s r x).hart.held = s.hart.held := by
  unfold writeG; split <;> rfl
@[simp] theorem writeG_hart_trapPc (s : State) (r : Reg) (x : Word) : (writeG s r x).hart.trapPc = s.hart.trapPc := by
  unfold writeG; split <;> rfl
@[simp] theorem writeG_hart_preempted (s : State) (r : Reg) (x : Word) :
    (writeG s r x).hart.preempted = s.hart.preempted := by
  unfold writeG; split <;> rfl
@[simp] theorem writeG_hart_yieldGroups (s : State) (r : Reg) (x : Word) :
    (writeG s r x).hart.yieldGroups = s.hart.yieldGroups := by
  unfold writeG; split <;> rfl
@[simp] theorem writeG_hart_stepping (s : State) (r : Reg) (x : Word) : (writeG s r x).hart.stepping = s.hart.stepping := by
  unfold writeG; split <;> rfl
@[simp] theorem writeG_hart_stopAt (s : State) (r : Reg) (x : Word) : (writeG s r x).hart.stopAt = s.hart.stopAt := by
  unfold writeG; split <;> rfl
@[simp] theorem loopEnd_g (a : Word) (h : Hart) : (loopEnd a h).g = h.g := rfl
@[simp] theorem loopEnd_mode (a : Word) (h : Hart) : (loopEnd a h).mode = h.mode := rfl
@[simp] theorem loopEnd_run (a : Word) (h : Hart) : (loopEnd a h).run = h.run := rfl
@[simp] theorem loopEnd_wait (a : Word) (h : Hart) : (loopEnd a h).wait = h.wait := rfl
@[simp] theorem loopEnd_vl (a : Word) (h : Hart) : (loopEnd a h).vl = h.vl := rfl
@[simp] theorem loopEnd_vr (a : Word) (h : Hart) : (loopEnd a h).vr = h.vr := rfl
@[simp] theorem loopEnd_vtype (a : Word) (h : Hart) : (loopEnd a h).vtype = h.vtype := rfl
@[simp] theorem loopEnd_vstart (a : Word) (h : Hart) : (loopEnd a h).vstart = h.vstart := rfl
@[simp] theorem loopEnd_count (a : Word) (h : Hart) : (loopEnd a h).count = h.count := rfl
@[simp] theorem loopEnd_maxsew (a : Word) (h : Hart) : (loopEnd a h).maxsew = h.maxsew := rfl
@[simp] theorem loopEnd_vsparse (a : Word) (h : Hart) : (loopEnd a h).vsparse = h.vsparse := rfl
@[simp] theorem loopEnd_vlive (a : Word) (h : Hart) : (loopEnd a h).vlive = h.vlive := rfl
@[simp] theorem loopEnd_vdirty (a : Word) (h : Hart) : (loopEnd a h).vdirty = h.vdirty := rfl
@[simp] theorem loopEnd_fflags (a : Word) (h : Hart) : (loopEnd a h).fflags = h.fflags := rfl
@[simp] theorem loopEnd_fctl (a : Word) (h : Hart) : (loopEnd a h).fctl = h.fctl := rfl
@[simp] theorem loopEnd_vbscale (a : Word) (h : Hart) : (loopEnd a h).vbscale = h.vbscale := rfl
@[simp] theorem loopEnd_v (a : Word) (h : Hart) : (loopEnd a h).v = h.v := rfl
@[simp] theorem loopEnd_vsat (a : Word) (h : Hart) : (loopEnd a h).vsat = h.vsat := rfl
@[simp] theorem loopEnd_vstate (a : Word) (h : Hart) : (loopEnd a h).vstate = h.vstate := rfl
@[simp] theorem loopEnd_strip (a : Word) (h : Hart) : (loopEnd a h).strip = h.strip := rfl
@[simp] theorem loopEnd_lb0 (a : Word) (h : Hart) : (loopEnd a h).lb0 = h.lb0 := rfl
@[simp] theorem loopEnd_le0 (a : Word) (h : Hart) : (loopEnd a h).le0 = h.le0 := rfl
@[simp] theorem loopEnd_lb1 (a : Word) (h : Hart) : (loopEnd a h).lb1 = h.lb1 := rfl
@[simp] theorem loopEnd_le1 (a : Word) (h : Hart) : (loopEnd a h).le1 = h.le1 := rfl
@[simp] theorem loopEnd_rngkey (a : Word) (h : Hart) : (loopEnd a h).rngkey = h.rngkey := rfl
@[simp] theorem loopEnd_rngctr (a : Word) (h : Hart) : (loopEnd a h).rngctr = h.rngctr := rfl
@[simp] theorem loopEnd_pgen (a : Word) (h : Hart) : (loopEnd a h).pgen = h.pgen := rfl
@[simp] theorem loopEnd_tilem (a : Word) (h : Hart) : (loopEnd a h).tilem = h.tilem := rfl
@[simp] theorem loopEnd_tilen (a : Word) (h : Hart) : (loopEnd a h).tilen = h.tilen := rfl
@[simp] theorem loopEnd_tilek (a : Word) (h : Hart) : (loopEnd a h).tilek = h.tilek := rfl
@[simp] theorem loopEnd_tilenoff (a : Word) (h : Hart) : (loopEnd a h).tilenoff = h.tilenoff := rfl
@[simp] theorem loopEnd_tileset (a : Word) (h : Hart) : (loopEnd a h).tileset = h.tileset := rfl
@[simp] theorem loopEnd_fifo (a : Word) (h : Hart) : (loopEnd a h).fifo = h.fifo := rfl
@[simp] theorem loopEnd_coef (a : Word) (h : Hart) : (loopEnd a h).coef = h.coef := rfl
@[simp] theorem loopEnd_mdirty (a : Word) (h : Hart) : (loopEnd a h).mdirty = h.mdirty := rfl
@[simp] theorem loopEnd_gangid (a : Word) (h : Hart) : (loopEnd a h).gangid = h.gangid := rfl
@[simp] theorem loopEnd_gangsize (a : Word) (h : Hart) : (loopEnd a h).gangsize = h.gangsize := rfl
@[simp] theorem loopEnd_gangrank (a : Word) (h : Hart) : (loopEnd a h).gangrank = h.gangrank := rfl
@[simp] theorem loopEnd_taskarg (a : Word) (h : Hart) : (loopEnd a h).taskarg = h.taskarg := rfl
@[simp] theorem loopEnd_instret (a : Word) (h : Hart) : (loopEnd a h).instret = h.instret := rfl
@[simp] theorem loopEnd_tstatus (a : Word) (h : Hart) : (loopEnd a h).tstatus = h.tstatus := rfl
@[simp] theorem loopEnd_tcause (a : Word) (h : Hart) : (loopEnd a h).tcause = h.tcause := rfl
@[simp] theorem loopEnd_tpc (a : Word) (h : Hart) : (loopEnd a h).tpc = h.tpc := rfl
@[simp] theorem loopEnd_tval (a : Word) (h : Hart) : (loopEnd a h).tval = h.tval := rfl
@[simp] theorem loopEnd_tvec (a : Word) (h : Hart) : (loopEnd a h).tvec = h.tvec := rfl
@[simp] theorem loopEnd_tscratch (a : Word) (h : Hart) : (loopEnd a h).tscratch = h.tscratch := rfl
@[simp] theorem loopEnd_slice (a : Word) (h : Hart) : (loopEnd a h).slice = h.slice := rfl
@[simp] theorem loopEnd_ptbase (a : Word) (h : Hart) : (loopEnd a h).ptbase = h.ptbase := rfl
@[simp] theorem loopEnd_asid (a : Word) (h : Hart) : (loopEnd a h).asid = h.asid := rfl
@[simp] theorem loopEnd_mstateen (a : Word) (h : Hart) : (loopEnd a h).mstateen = h.mstateen := rfl
@[simp] theorem loopEnd_contending (a : Word) (h : Hart) : (loopEnd a h).contending = h.contending := rfl
@[simp] theorem loopEnd_convoy (a : Word) (h : Hart) : (loopEnd a h).convoy = h.convoy := rfl
@[simp] theorem loopEnd_sb (a : Word) (h : Hart) : (loopEnd a h).sb = h.sb := rfl
@[simp] theorem loopEnd_monitor (a : Word) (h : Hart) : (loopEnd a h).monitor = h.monitor := rfl
@[simp] theorem loopEnd_bars (a : Word) (h : Hart) : (loopEnd a h).bars = h.bars := rfl
@[simp] theorem loopEnd_triggered (a : Word) (h : Hart) : (loopEnd a h).triggered = h.triggered := rfl
@[simp] theorem loopEnd_request (a : Word) (h : Hart) : (loopEnd a h).request = h.request := rfl
@[simp] theorem loopEnd_held (a : Word) (h : Hart) : (loopEnd a h).held = h.held := rfl
@[simp] theorem loopEnd_trapPc (a : Word) (h : Hart) : (loopEnd a h).trapPc = h.trapPc := rfl
@[simp] theorem loopEnd_preempted (a : Word) (h : Hart) : (loopEnd a h).preempted = h.preempted := rfl
@[simp] theorem loopEnd_yieldGroups (a : Word) (h : Hart) : (loopEnd a h).yieldGroups = h.yieldGroups := rfl
@[simp] theorem loopEnd_stepping (a : Word) (h : Hart) : (loopEnd a h).stepping = h.stepping := rfl
@[simp] theorem loopEnd_stopAt (a : Word) (h : Hart) : (loopEnd a h).stopAt = h.stopAt := rfl
@[simp] theorem retired_g (h : Hart) : (retired h).g = h.g := rfl
@[simp] theorem retired_pc (h : Hart) : (retired h).pc = h.pc := rfl
@[simp] theorem retired_mode (h : Hart) : (retired h).mode = h.mode := rfl
@[simp] theorem retired_run (h : Hart) : (retired h).run = h.run := rfl
@[simp] theorem retired_vl (h : Hart) : (retired h).vl = h.vl := rfl
@[simp] theorem retired_vr (h : Hart) : (retired h).vr = h.vr := rfl
@[simp] theorem retired_vtype (h : Hart) : (retired h).vtype = h.vtype := rfl
@[simp] theorem retired_vstart (h : Hart) : (retired h).vstart = h.vstart := rfl
@[simp] theorem retired_count (h : Hart) : (retired h).count = h.count := rfl
@[simp] theorem retired_maxsew (h : Hart) : (retired h).maxsew = h.maxsew := rfl
@[simp] theorem retired_vsparse (h : Hart) : (retired h).vsparse = h.vsparse := rfl
@[simp] theorem retired_vlive (h : Hart) : (retired h).vlive = h.vlive := rfl
@[simp] theorem retired_vdirty (h : Hart) : (retired h).vdirty = h.vdirty := rfl
@[simp] theorem retired_fflags (h : Hart) : (retired h).fflags = h.fflags := rfl
@[simp] theorem retired_fctl (h : Hart) : (retired h).fctl = h.fctl := rfl
@[simp] theorem retired_vbscale (h : Hart) : (retired h).vbscale = h.vbscale := rfl
@[simp] theorem retired_v (h : Hart) : (retired h).v = h.v := rfl
@[simp] theorem retired_vsat (h : Hart) : (retired h).vsat = h.vsat := rfl
@[simp] theorem retired_vstate (h : Hart) : (retired h).vstate = h.vstate := rfl
@[simp] theorem retired_strip (h : Hart) : (retired h).strip = h.strip := rfl
@[simp] theorem retired_lc0 (h : Hart) : (retired h).lc0 = h.lc0 := rfl
@[simp] theorem retired_lb0 (h : Hart) : (retired h).lb0 = h.lb0 := rfl
@[simp] theorem retired_le0 (h : Hart) : (retired h).le0 = h.le0 := rfl
@[simp] theorem retired_lc1 (h : Hart) : (retired h).lc1 = h.lc1 := rfl
@[simp] theorem retired_lb1 (h : Hart) : (retired h).lb1 = h.lb1 := rfl
@[simp] theorem retired_le1 (h : Hart) : (retired h).le1 = h.le1 := rfl
@[simp] theorem retired_rngkey (h : Hart) : (retired h).rngkey = h.rngkey := rfl
@[simp] theorem retired_rngctr (h : Hart) : (retired h).rngctr = h.rngctr := rfl
@[simp] theorem retired_pgen (h : Hart) : (retired h).pgen = h.pgen := rfl
@[simp] theorem retired_tilem (h : Hart) : (retired h).tilem = h.tilem := rfl
@[simp] theorem retired_tilen (h : Hart) : (retired h).tilen = h.tilen := rfl
@[simp] theorem retired_tilek (h : Hart) : (retired h).tilek = h.tilek := rfl
@[simp] theorem retired_tilenoff (h : Hart) : (retired h).tilenoff = h.tilenoff := rfl
@[simp] theorem retired_tileset (h : Hart) : (retired h).tileset = h.tileset := rfl
@[simp] theorem retired_fifo (h : Hart) : (retired h).fifo = h.fifo := rfl
@[simp] theorem retired_coef (h : Hart) : (retired h).coef = h.coef := rfl
@[simp] theorem retired_mdirty (h : Hart) : (retired h).mdirty = h.mdirty := rfl
@[simp] theorem retired_gangid (h : Hart) : (retired h).gangid = h.gangid := rfl
@[simp] theorem retired_gangsize (h : Hart) : (retired h).gangsize = h.gangsize := rfl
@[simp] theorem retired_gangrank (h : Hart) : (retired h).gangrank = h.gangrank := rfl
@[simp] theorem retired_taskarg (h : Hart) : (retired h).taskarg = h.taskarg := rfl
@[simp] theorem retired_tstatus (h : Hart) : (retired h).tstatus = h.tstatus := rfl
@[simp] theorem retired_tcause (h : Hart) : (retired h).tcause = h.tcause := rfl
@[simp] theorem retired_tpc (h : Hart) : (retired h).tpc = h.tpc := rfl
@[simp] theorem retired_tval (h : Hart) : (retired h).tval = h.tval := rfl
@[simp] theorem retired_tvec (h : Hart) : (retired h).tvec = h.tvec := rfl
@[simp] theorem retired_tscratch (h : Hart) : (retired h).tscratch = h.tscratch := rfl
@[simp] theorem retired_slice (h : Hart) : (retired h).slice = h.slice := rfl
@[simp] theorem retired_ptbase (h : Hart) : (retired h).ptbase = h.ptbase := rfl
@[simp] theorem retired_asid (h : Hart) : (retired h).asid = h.asid := rfl
@[simp] theorem retired_mstateen (h : Hart) : (retired h).mstateen = h.mstateen := rfl
@[simp] theorem retired_contending (h : Hart) : (retired h).contending = h.contending := rfl
@[simp] theorem retired_convoy (h : Hart) : (retired h).convoy = h.convoy := rfl
@[simp] theorem retired_sb (h : Hart) : (retired h).sb = h.sb := rfl
@[simp] theorem retired_monitor (h : Hart) : (retired h).monitor = h.monitor := rfl
@[simp] theorem retired_bars (h : Hart) : (retired h).bars = h.bars := rfl
@[simp] theorem retired_triggered (h : Hart) : (retired h).triggered = h.triggered := rfl
@[simp] theorem retired_held (h : Hart) : (retired h).held = h.held := rfl
@[simp] theorem retired_trapPc (h : Hart) : (retired h).trapPc = h.trapPc := rfl
@[simp] theorem retired_preempted (h : Hart) : (retired h).preempted = h.preempted := rfl
@[simp] theorem retired_yieldGroups (h : Hart) : (retired h).yieldGroups = h.yieldGroups := rfl
@[simp] theorem retired_stepping (h : Hart) : (retired h).stepping = h.stepping := rfl
@[simp] theorem retired_instret (h : Hart) : (retired h).instret = h.instret + 1 := rfl
@[simp] theorem retired_wait (h : Hart) : (retired h).wait = none := rfl
@[simp] theorem retired_request (h : Hart) : (retired h).request = none := rfl
@[simp] theorem retired_stopAt (h : Hart) : (retired h).stopAt = none := rfl
@[simp] theorem wakeMonitor_g (n : Nat) (r : BitVec 3) (h : Hart) : (wakeMonitor n r h).g = h.g := by
  unfold wakeMonitor; split <;> [split; skip] <;> rfl
@[simp] theorem wakeMonitor_pc (n : Nat) (r : BitVec 3) (h : Hart) : (wakeMonitor n r h).pc = h.pc := by
  unfold wakeMonitor; split <;> [split; skip] <;> rfl
@[simp] theorem wakeMonitor_mode (n : Nat) (r : BitVec 3) (h : Hart) : (wakeMonitor n r h).mode = h.mode := by
  unfold wakeMonitor; split <;> [split; skip] <;> rfl
@[simp] theorem wakeMonitor_run (n : Nat) (r : BitVec 3) (h : Hart) : (wakeMonitor n r h).run = h.run := by
  unfold wakeMonitor; split <;> [split; skip] <;> rfl
@[simp] theorem wakeMonitor_wait (n : Nat) (r : BitVec 3) (h : Hart) : (wakeMonitor n r h).wait = h.wait := by
  unfold wakeMonitor; split <;> [split; skip] <;> rfl
@[simp] theorem wakeMonitor_vl (n : Nat) (r : BitVec 3) (h : Hart) : (wakeMonitor n r h).vl = h.vl := by
  unfold wakeMonitor; split <;> [split; skip] <;> rfl
@[simp] theorem wakeMonitor_vr (n : Nat) (r : BitVec 3) (h : Hart) : (wakeMonitor n r h).vr = h.vr := by
  unfold wakeMonitor; split <;> [split; skip] <;> rfl
@[simp] theorem wakeMonitor_vtype (n : Nat) (r : BitVec 3) (h : Hart) : (wakeMonitor n r h).vtype = h.vtype := by
  unfold wakeMonitor; split <;> [split; skip] <;> rfl
@[simp] theorem wakeMonitor_vstart (n : Nat) (r : BitVec 3) (h : Hart) : (wakeMonitor n r h).vstart = h.vstart := by
  unfold wakeMonitor; split <;> [split; skip] <;> rfl
@[simp] theorem wakeMonitor_count (n : Nat) (r : BitVec 3) (h : Hart) : (wakeMonitor n r h).count = h.count := by
  unfold wakeMonitor; split <;> [split; skip] <;> rfl
@[simp] theorem wakeMonitor_maxsew (n : Nat) (r : BitVec 3) (h : Hart) : (wakeMonitor n r h).maxsew = h.maxsew := by
  unfold wakeMonitor; split <;> [split; skip] <;> rfl
@[simp] theorem wakeMonitor_vsparse (n : Nat) (r : BitVec 3) (h : Hart) : (wakeMonitor n r h).vsparse = h.vsparse := by
  unfold wakeMonitor; split <;> [split; skip] <;> rfl
@[simp] theorem wakeMonitor_vlive (n : Nat) (r : BitVec 3) (h : Hart) : (wakeMonitor n r h).vlive = h.vlive := by
  unfold wakeMonitor; split <;> [split; skip] <;> rfl
@[simp] theorem wakeMonitor_vdirty (n : Nat) (r : BitVec 3) (h : Hart) : (wakeMonitor n r h).vdirty = h.vdirty := by
  unfold wakeMonitor; split <;> [split; skip] <;> rfl
@[simp] theorem wakeMonitor_fflags (n : Nat) (r : BitVec 3) (h : Hart) : (wakeMonitor n r h).fflags = h.fflags := by
  unfold wakeMonitor; split <;> [split; skip] <;> rfl
@[simp] theorem wakeMonitor_fctl (n : Nat) (r : BitVec 3) (h : Hart) : (wakeMonitor n r h).fctl = h.fctl := by
  unfold wakeMonitor; split <;> [split; skip] <;> rfl
@[simp] theorem wakeMonitor_vbscale (n : Nat) (r : BitVec 3) (h : Hart) : (wakeMonitor n r h).vbscale = h.vbscale := by
  unfold wakeMonitor; split <;> [split; skip] <;> rfl
@[simp] theorem wakeMonitor_v (n : Nat) (r : BitVec 3) (h : Hart) : (wakeMonitor n r h).v = h.v := by
  unfold wakeMonitor; split <;> [split; skip] <;> rfl
@[simp] theorem wakeMonitor_vsat (n : Nat) (r : BitVec 3) (h : Hart) : (wakeMonitor n r h).vsat = h.vsat := by
  unfold wakeMonitor; split <;> [split; skip] <;> rfl
@[simp] theorem wakeMonitor_vstate (n : Nat) (r : BitVec 3) (h : Hart) : (wakeMonitor n r h).vstate = h.vstate := by
  unfold wakeMonitor; split <;> [split; skip] <;> rfl
@[simp] theorem wakeMonitor_strip (n : Nat) (r : BitVec 3) (h : Hart) : (wakeMonitor n r h).strip = h.strip := by
  unfold wakeMonitor; split <;> [split; skip] <;> rfl
@[simp] theorem wakeMonitor_lc0 (n : Nat) (r : BitVec 3) (h : Hart) : (wakeMonitor n r h).lc0 = h.lc0 := by
  unfold wakeMonitor; split <;> [split; skip] <;> rfl
@[simp] theorem wakeMonitor_lb0 (n : Nat) (r : BitVec 3) (h : Hart) : (wakeMonitor n r h).lb0 = h.lb0 := by
  unfold wakeMonitor; split <;> [split; skip] <;> rfl
@[simp] theorem wakeMonitor_le0 (n : Nat) (r : BitVec 3) (h : Hart) : (wakeMonitor n r h).le0 = h.le0 := by
  unfold wakeMonitor; split <;> [split; skip] <;> rfl
@[simp] theorem wakeMonitor_lc1 (n : Nat) (r : BitVec 3) (h : Hart) : (wakeMonitor n r h).lc1 = h.lc1 := by
  unfold wakeMonitor; split <;> [split; skip] <;> rfl
@[simp] theorem wakeMonitor_lb1 (n : Nat) (r : BitVec 3) (h : Hart) : (wakeMonitor n r h).lb1 = h.lb1 := by
  unfold wakeMonitor; split <;> [split; skip] <;> rfl
@[simp] theorem wakeMonitor_le1 (n : Nat) (r : BitVec 3) (h : Hart) : (wakeMonitor n r h).le1 = h.le1 := by
  unfold wakeMonitor; split <;> [split; skip] <;> rfl
@[simp] theorem wakeMonitor_rngkey (n : Nat) (r : BitVec 3) (h : Hart) : (wakeMonitor n r h).rngkey = h.rngkey := by
  unfold wakeMonitor; split <;> [split; skip] <;> rfl
@[simp] theorem wakeMonitor_rngctr (n : Nat) (r : BitVec 3) (h : Hart) : (wakeMonitor n r h).rngctr = h.rngctr := by
  unfold wakeMonitor; split <;> [split; skip] <;> rfl
@[simp] theorem wakeMonitor_pgen (n : Nat) (r : BitVec 3) (h : Hart) : (wakeMonitor n r h).pgen = h.pgen := by
  unfold wakeMonitor; split <;> [split; skip] <;> rfl
@[simp] theorem wakeMonitor_tilem (n : Nat) (r : BitVec 3) (h : Hart) : (wakeMonitor n r h).tilem = h.tilem := by
  unfold wakeMonitor; split <;> [split; skip] <;> rfl
@[simp] theorem wakeMonitor_tilen (n : Nat) (r : BitVec 3) (h : Hart) : (wakeMonitor n r h).tilen = h.tilen := by
  unfold wakeMonitor; split <;> [split; skip] <;> rfl
@[simp] theorem wakeMonitor_tilek (n : Nat) (r : BitVec 3) (h : Hart) : (wakeMonitor n r h).tilek = h.tilek := by
  unfold wakeMonitor; split <;> [split; skip] <;> rfl
@[simp] theorem wakeMonitor_tilenoff (n : Nat) (r : BitVec 3) (h : Hart) : (wakeMonitor n r h).tilenoff = h.tilenoff := by
  unfold wakeMonitor; split <;> [split; skip] <;> rfl
@[simp] theorem wakeMonitor_tileset (n : Nat) (r : BitVec 3) (h : Hart) : (wakeMonitor n r h).tileset = h.tileset := by
  unfold wakeMonitor; split <;> [split; skip] <;> rfl
@[simp] theorem wakeMonitor_fifo (n : Nat) (r : BitVec 3) (h : Hart) : (wakeMonitor n r h).fifo = h.fifo := by
  unfold wakeMonitor; split <;> [split; skip] <;> rfl
@[simp] theorem wakeMonitor_coef (n : Nat) (r : BitVec 3) (h : Hart) : (wakeMonitor n r h).coef = h.coef := by
  unfold wakeMonitor; split <;> [split; skip] <;> rfl
@[simp] theorem wakeMonitor_mdirty (n : Nat) (r : BitVec 3) (h : Hart) : (wakeMonitor n r h).mdirty = h.mdirty := by
  unfold wakeMonitor; split <;> [split; skip] <;> rfl
@[simp] theorem wakeMonitor_gangid (n : Nat) (r : BitVec 3) (h : Hart) : (wakeMonitor n r h).gangid = h.gangid := by
  unfold wakeMonitor; split <;> [split; skip] <;> rfl
@[simp] theorem wakeMonitor_gangsize (n : Nat) (r : BitVec 3) (h : Hart) : (wakeMonitor n r h).gangsize = h.gangsize := by
  unfold wakeMonitor; split <;> [split; skip] <;> rfl
@[simp] theorem wakeMonitor_gangrank (n : Nat) (r : BitVec 3) (h : Hart) : (wakeMonitor n r h).gangrank = h.gangrank := by
  unfold wakeMonitor; split <;> [split; skip] <;> rfl
@[simp] theorem wakeMonitor_taskarg (n : Nat) (r : BitVec 3) (h : Hart) : (wakeMonitor n r h).taskarg = h.taskarg := by
  unfold wakeMonitor; split <;> [split; skip] <;> rfl
@[simp] theorem wakeMonitor_instret (n : Nat) (r : BitVec 3) (h : Hart) : (wakeMonitor n r h).instret = h.instret := by
  unfold wakeMonitor; split <;> [split; skip] <;> rfl
@[simp] theorem wakeMonitor_tstatus (n : Nat) (r : BitVec 3) (h : Hart) : (wakeMonitor n r h).tstatus = h.tstatus := by
  unfold wakeMonitor; split <;> [split; skip] <;> rfl
@[simp] theorem wakeMonitor_tcause (n : Nat) (r : BitVec 3) (h : Hart) : (wakeMonitor n r h).tcause = h.tcause := by
  unfold wakeMonitor; split <;> [split; skip] <;> rfl
@[simp] theorem wakeMonitor_tpc (n : Nat) (r : BitVec 3) (h : Hart) : (wakeMonitor n r h).tpc = h.tpc := by
  unfold wakeMonitor; split <;> [split; skip] <;> rfl
@[simp] theorem wakeMonitor_tval (n : Nat) (r : BitVec 3) (h : Hart) : (wakeMonitor n r h).tval = h.tval := by
  unfold wakeMonitor; split <;> [split; skip] <;> rfl
@[simp] theorem wakeMonitor_tvec (n : Nat) (r : BitVec 3) (h : Hart) : (wakeMonitor n r h).tvec = h.tvec := by
  unfold wakeMonitor; split <;> [split; skip] <;> rfl
@[simp] theorem wakeMonitor_tscratch (n : Nat) (r : BitVec 3) (h : Hart) : (wakeMonitor n r h).tscratch = h.tscratch := by
  unfold wakeMonitor; split <;> [split; skip] <;> rfl
@[simp] theorem wakeMonitor_slice (n : Nat) (r : BitVec 3) (h : Hart) : (wakeMonitor n r h).slice = h.slice := by
  unfold wakeMonitor; split <;> [split; skip] <;> rfl
@[simp] theorem wakeMonitor_ptbase (n : Nat) (r : BitVec 3) (h : Hart) : (wakeMonitor n r h).ptbase = h.ptbase := by
  unfold wakeMonitor; split <;> [split; skip] <;> rfl
@[simp] theorem wakeMonitor_asid (n : Nat) (r : BitVec 3) (h : Hart) : (wakeMonitor n r h).asid = h.asid := by
  unfold wakeMonitor; split <;> [split; skip] <;> rfl
@[simp] theorem wakeMonitor_mstateen (n : Nat) (r : BitVec 3) (h : Hart) : (wakeMonitor n r h).mstateen = h.mstateen := by
  unfold wakeMonitor; split <;> [split; skip] <;> rfl
@[simp] theorem wakeMonitor_contending (n : Nat) (r : BitVec 3) (h : Hart) :
    (wakeMonitor n r h).contending = h.contending := by
  unfold wakeMonitor; split <;> [split; skip] <;> rfl
@[simp] theorem wakeMonitor_convoy (n : Nat) (r : BitVec 3) (h : Hart) : (wakeMonitor n r h).convoy = h.convoy := by
  unfold wakeMonitor; split <;> [split; skip] <;> rfl
@[simp] theorem wakeMonitor_sb (n : Nat) (r : BitVec 3) (h : Hart) : (wakeMonitor n r h).sb = h.sb := by
  unfold wakeMonitor; split <;> [split; skip] <;> rfl
@[simp] theorem wakeMonitor_bars (n : Nat) (r : BitVec 3) (h : Hart) : (wakeMonitor n r h).bars = h.bars := by
  unfold wakeMonitor; split <;> [split; skip] <;> rfl
@[simp] theorem wakeMonitor_triggered (n : Nat) (r : BitVec 3) (h : Hart) : (wakeMonitor n r h).triggered = h.triggered := by
  unfold wakeMonitor; split <;> [split; skip] <;> rfl
@[simp] theorem wakeMonitor_request (n : Nat) (r : BitVec 3) (h : Hart) : (wakeMonitor n r h).request = h.request := by
  unfold wakeMonitor; split <;> [split; skip] <;> rfl
@[simp] theorem wakeMonitor_held (n : Nat) (r : BitVec 3) (h : Hart) : (wakeMonitor n r h).held = h.held := by
  unfold wakeMonitor; split <;> [split; skip] <;> rfl
@[simp] theorem wakeMonitor_trapPc (n : Nat) (r : BitVec 3) (h : Hart) : (wakeMonitor n r h).trapPc = h.trapPc := by
  unfold wakeMonitor; split <;> [split; skip] <;> rfl
@[simp] theorem wakeMonitor_preempted (n : Nat) (r : BitVec 3) (h : Hart) : (wakeMonitor n r h).preempted = h.preempted := by
  unfold wakeMonitor; split <;> [split; skip] <;> rfl
@[simp] theorem wakeMonitor_yieldGroups (n : Nat) (r : BitVec 3) (h : Hart) :
    (wakeMonitor n r h).yieldGroups = h.yieldGroups := by
  unfold wakeMonitor; split <;> [split; skip] <;> rfl
@[simp] theorem wakeMonitor_stepping (n : Nat) (r : BitVec 3) (h : Hart) : (wakeMonitor n r h).stepping = h.stepping := by
  unfold wakeMonitor; split <;> [split; skip] <;> rfl
@[simp] theorem wakeMonitor_stopAt (n : Nat) (r : BitVec 3) (h : Hart) : (wakeMonitor n r h).stopAt = h.stopAt := by
  unfold wakeMonitor; split <;> [split; skip] <;> rfl
@[simp] theorem setVstart_g (x : Nat) (h : Hart) : (setVstart x h).g = h.g := by
  unfold setVstart; split <;> rfl
@[simp] theorem setVstart_pc (x : Nat) (h : Hart) : (setVstart x h).pc = h.pc := by
  unfold setVstart; split <;> rfl
@[simp] theorem setVstart_mode (x : Nat) (h : Hart) : (setVstart x h).mode = h.mode := by
  unfold setVstart; split <;> rfl
@[simp] theorem setVstart_run (x : Nat) (h : Hart) : (setVstart x h).run = h.run := by
  unfold setVstart; split <;> rfl
@[simp] theorem setVstart_wait (x : Nat) (h : Hart) : (setVstart x h).wait = h.wait := by
  unfold setVstart; split <;> rfl
@[simp] theorem setVstart_vl (x : Nat) (h : Hart) : (setVstart x h).vl = h.vl := by
  unfold setVstart; split <;> rfl
@[simp] theorem setVstart_vr (x : Nat) (h : Hart) : (setVstart x h).vr = h.vr := by
  unfold setVstart; split <;> rfl
@[simp] theorem setVstart_vtype (x : Nat) (h : Hart) : (setVstart x h).vtype = h.vtype := by
  unfold setVstart; split <;> rfl
@[simp] theorem setVstart_count (x : Nat) (h : Hart) : (setVstart x h).count = h.count := by
  unfold setVstart; split <;> rfl
@[simp] theorem setVstart_maxsew (x : Nat) (h : Hart) : (setVstart x h).maxsew = h.maxsew := by
  unfold setVstart; split <;> rfl
@[simp] theorem setVstart_vsparse (x : Nat) (h : Hart) : (setVstart x h).vsparse = h.vsparse := by
  unfold setVstart; split <;> rfl
@[simp] theorem setVstart_vlive (x : Nat) (h : Hart) : (setVstart x h).vlive = h.vlive := by
  unfold setVstart; split <;> rfl
@[simp] theorem setVstart_vdirty (x : Nat) (h : Hart) : (setVstart x h).vdirty = h.vdirty := by
  unfold setVstart; split <;> rfl
@[simp] theorem setVstart_fflags (x : Nat) (h : Hart) : (setVstart x h).fflags = h.fflags := by
  unfold setVstart; split <;> rfl
@[simp] theorem setVstart_fctl (x : Nat) (h : Hart) : (setVstart x h).fctl = h.fctl := by
  unfold setVstart; split <;> rfl
@[simp] theorem setVstart_vbscale (x : Nat) (h : Hart) : (setVstart x h).vbscale = h.vbscale := by
  unfold setVstart; split <;> rfl
@[simp] theorem setVstart_v (x : Nat) (h : Hart) : (setVstart x h).v = h.v := by
  unfold setVstart; split <;> rfl
@[simp] theorem setVstart_vsat (x : Nat) (h : Hart) : (setVstart x h).vsat = h.vsat := by
  unfold setVstart; split <;> rfl
@[simp] theorem setVstart_strip (x : Nat) (h : Hart) : (setVstart x h).strip = h.strip := by
  unfold setVstart; split <;> rfl
@[simp] theorem setVstart_lc0 (x : Nat) (h : Hart) : (setVstart x h).lc0 = h.lc0 := by
  unfold setVstart; split <;> rfl
@[simp] theorem setVstart_lb0 (x : Nat) (h : Hart) : (setVstart x h).lb0 = h.lb0 := by
  unfold setVstart; split <;> rfl
@[simp] theorem setVstart_le0 (x : Nat) (h : Hart) : (setVstart x h).le0 = h.le0 := by
  unfold setVstart; split <;> rfl
@[simp] theorem setVstart_lc1 (x : Nat) (h : Hart) : (setVstart x h).lc1 = h.lc1 := by
  unfold setVstart; split <;> rfl
@[simp] theorem setVstart_lb1 (x : Nat) (h : Hart) : (setVstart x h).lb1 = h.lb1 := by
  unfold setVstart; split <;> rfl
@[simp] theorem setVstart_le1 (x : Nat) (h : Hart) : (setVstart x h).le1 = h.le1 := by
  unfold setVstart; split <;> rfl
@[simp] theorem setVstart_rngkey (x : Nat) (h : Hart) : (setVstart x h).rngkey = h.rngkey := by
  unfold setVstart; split <;> rfl
@[simp] theorem setVstart_rngctr (x : Nat) (h : Hart) : (setVstart x h).rngctr = h.rngctr := by
  unfold setVstart; split <;> rfl
@[simp] theorem setVstart_pgen (x : Nat) (h : Hart) : (setVstart x h).pgen = h.pgen := by
  unfold setVstart; split <;> rfl
@[simp] theorem setVstart_tilem (x : Nat) (h : Hart) : (setVstart x h).tilem = h.tilem := by
  unfold setVstart; split <;> rfl
@[simp] theorem setVstart_tilen (x : Nat) (h : Hart) : (setVstart x h).tilen = h.tilen := by
  unfold setVstart; split <;> rfl
@[simp] theorem setVstart_tilek (x : Nat) (h : Hart) : (setVstart x h).tilek = h.tilek := by
  unfold setVstart; split <;> rfl
@[simp] theorem setVstart_tilenoff (x : Nat) (h : Hart) : (setVstart x h).tilenoff = h.tilenoff := by
  unfold setVstart; split <;> rfl
@[simp] theorem setVstart_tileset (x : Nat) (h : Hart) : (setVstart x h).tileset = h.tileset := by
  unfold setVstart; split <;> rfl
@[simp] theorem setVstart_fifo (x : Nat) (h : Hart) : (setVstart x h).fifo = h.fifo := by
  unfold setVstart; split <;> rfl
@[simp] theorem setVstart_coef (x : Nat) (h : Hart) : (setVstart x h).coef = h.coef := by
  unfold setVstart; split <;> rfl
@[simp] theorem setVstart_mdirty (x : Nat) (h : Hart) : (setVstart x h).mdirty = h.mdirty := by
  unfold setVstart; split <;> rfl
@[simp] theorem setVstart_gangid (x : Nat) (h : Hart) : (setVstart x h).gangid = h.gangid := by
  unfold setVstart; split <;> rfl
@[simp] theorem setVstart_gangsize (x : Nat) (h : Hart) : (setVstart x h).gangsize = h.gangsize := by
  unfold setVstart; split <;> rfl
@[simp] theorem setVstart_gangrank (x : Nat) (h : Hart) : (setVstart x h).gangrank = h.gangrank := by
  unfold setVstart; split <;> rfl
@[simp] theorem setVstart_taskarg (x : Nat) (h : Hart) : (setVstart x h).taskarg = h.taskarg := by
  unfold setVstart; split <;> rfl
@[simp] theorem setVstart_instret (x : Nat) (h : Hart) : (setVstart x h).instret = h.instret := by
  unfold setVstart; split <;> rfl
@[simp] theorem setVstart_tstatus (x : Nat) (h : Hart) : (setVstart x h).tstatus = h.tstatus := by
  unfold setVstart; split <;> rfl
@[simp] theorem setVstart_tcause (x : Nat) (h : Hart) : (setVstart x h).tcause = h.tcause := by
  unfold setVstart; split <;> rfl
@[simp] theorem setVstart_tpc (x : Nat) (h : Hart) : (setVstart x h).tpc = h.tpc := by
  unfold setVstart; split <;> rfl
@[simp] theorem setVstart_tval (x : Nat) (h : Hart) : (setVstart x h).tval = h.tval := by
  unfold setVstart; split <;> rfl
@[simp] theorem setVstart_tvec (x : Nat) (h : Hart) : (setVstart x h).tvec = h.tvec := by
  unfold setVstart; split <;> rfl
@[simp] theorem setVstart_tscratch (x : Nat) (h : Hart) : (setVstart x h).tscratch = h.tscratch := by
  unfold setVstart; split <;> rfl
@[simp] theorem setVstart_slice (x : Nat) (h : Hart) : (setVstart x h).slice = h.slice := by
  unfold setVstart; split <;> rfl
@[simp] theorem setVstart_ptbase (x : Nat) (h : Hart) : (setVstart x h).ptbase = h.ptbase := by
  unfold setVstart; split <;> rfl
@[simp] theorem setVstart_asid (x : Nat) (h : Hart) : (setVstart x h).asid = h.asid := by
  unfold setVstart; split <;> rfl
@[simp] theorem setVstart_mstateen (x : Nat) (h : Hart) : (setVstart x h).mstateen = h.mstateen := by
  unfold setVstart; split <;> rfl
@[simp] theorem setVstart_contending (x : Nat) (h : Hart) : (setVstart x h).contending = h.contending := by
  unfold setVstart; split <;> rfl
@[simp] theorem setVstart_convoy (x : Nat) (h : Hart) : (setVstart x h).convoy = h.convoy := by
  unfold setVstart; split <;> rfl
@[simp] theorem setVstart_sb (x : Nat) (h : Hart) : (setVstart x h).sb = h.sb := by
  unfold setVstart; split <;> rfl
@[simp] theorem setVstart_monitor (x : Nat) (h : Hart) : (setVstart x h).monitor = h.monitor := by
  unfold setVstart; split <;> rfl
@[simp] theorem setVstart_bars (x : Nat) (h : Hart) : (setVstart x h).bars = h.bars := by
  unfold setVstart; split <;> rfl
@[simp] theorem setVstart_triggered (x : Nat) (h : Hart) : (setVstart x h).triggered = h.triggered := by
  unfold setVstart; split <;> rfl
@[simp] theorem setVstart_request (x : Nat) (h : Hart) : (setVstart x h).request = h.request := by
  unfold setVstart; split <;> rfl
@[simp] theorem setVstart_held (x : Nat) (h : Hart) : (setVstart x h).held = h.held := by
  unfold setVstart; split <;> rfl
@[simp] theorem setVstart_trapPc (x : Nat) (h : Hart) : (setVstart x h).trapPc = h.trapPc := by
  unfold setVstart; split <;> rfl
@[simp] theorem setVstart_preempted (x : Nat) (h : Hart) : (setVstart x h).preempted = h.preempted := by
  unfold setVstart; split <;> rfl
@[simp] theorem setVstart_yieldGroups (x : Nat) (h : Hart) : (setVstart x h).yieldGroups = h.yieldGroups := by
  unfold setVstart; split <;> rfl
@[simp] theorem setVstart_stepping (x : Nat) (h : Hart) : (setVstart x h).stepping = h.stepping := by
  unfold setVstart; split <;> rfl
@[simp] theorem setVstart_stopAt (x : Nat) (h : Hart) : (setVstart x h).stopAt = h.stopAt := by
  unfold setVstart; split <;> rfl

end Sys2Proof.Machine
end

