-- ==== Sys2Proof/Laws/Memory.lean ====
section
/-! SUPPORT. Memory: the canonical form is kept by every operation over memory; what a byte reads as after a write. -/
namespace Sys2Proof.Machine

/-! ## The canonical form of one list -/

theorem wf_iff (m : Memory) : Memory.wf m = true ↔ mapRising m = true ∧ ∀ p ∈ m, p.2 ≠ 0 := by
  simp [Memory.wf]

theorem memSet_wf (m : Memory) (a : Nat) (b : Byte) (h : Memory.wf m = true) : Memory.wf (memSet m a b) = true := by
  rw [wf_iff] at *
  unfold memSet
  split_ifs with hb
  · exact ⟨mapRising_mapErase _ _ h.1, fun p hp => h.2 p ((mem_mapErase _ _ _).1 hp).1⟩
  · refine ⟨mapRising_mapSet _ _ _ h.1, fun p hp => ?_⟩
    rcases mem_mapSet _ _ _ _ hp with rfl | hp
    · exact hb
    · exact h.2 p hp

theorem filter_wf (m : Memory) (f : Nat × Byte → Bool) (h : Memory.wf m = true) : Memory.wf (m.filter f) = true := by
  rw [wf_iff] at *
  exact ⟨mapRising_filter _ _ h.1, fun p hp => h.2 p (List.mem_filter.1 hp).1⟩

theorem reset_wf : Memory.wf State.reset.ms.mem = true := rfl

/-! ## Operations that keep the canonical form

`KeepsWf s t` says that t's memory is canonical if s's is. -/

/-- The step from s to t keeps the canonical form of memory. -/
def KeepsWf (s t : State) : Prop := Memory.wf s.ms.mem = true → Memory.wf t.ms.mem = true

theorem KeepsWf.refl (s : State) : KeepsWf s s := id
theorem KeepsWf.trans {s t u : State} (h : KeepsWf s t) (k : KeepsWf t u) : KeepsWf s u := fun w => k (h w)

/-- An update that leaves the list of memory alone keeps its form. -/
theorem KeepsWf.of_mem {s t : State} (h : t.ms.mem = s.ms.mem) : KeepsWf s t := fun w => by rw [h]; exact w

theorem KeepsWf.foldl {β : Type} (f : State → β → State) (h : ∀ s x, KeepsWf s (f s x)) (l : List β) (s : State) :
    KeepsWf s (l.foldl f s) := by
  induction l generalizing s with
  | nil => exact .refl s
  | cons x l ih => exact (h s x).trans (ih _)

theorem modHart_ms (s : State) (h : Nat) (f : Hart → Hart) : (modHart s h f).ms = s.ms := by
  unfold modHart; split <;> rfl

theorem modCore_ms (s : State) (c : Nat) (f : CoreState → CoreState) : (modCore s c f).ms = s.ms := by
  unfold modCore; split <;> rfl

theorem focus_ms (s : State) (h : Nat) : (focus s h).ms = s.ms := by
  unfold focus; dsimp only; split_ifs <;> rfl

theorem setByte_keeps (s : State) (a : Nat) (b : Byte) : KeepsWf s (setByte s a b) := fun w => memSet_wf _ _ _ w

theorem setBytes_keeps (s : State) (a : Nat) (bs : List Byte) : KeepsWf s (setBytes s a bs) := by
  induction bs generalizing s a with
  | nil => exact .refl s
  | cons b bs ih => exact (setByte_keeps s a b).trans (ih _ _)

theorem inflateBlock_keeps (s : State) (blk : Nat) : KeepsWf s (inflateBlock s blk) := by
  unfold inflateBlock; split
  · rename_i c _
    dsimp only
    generalize (List.range 4096).map (fun i => byteOf c.toNat (i % 8)) = cs
    refine KeepsWf.trans ?_ (setBytes_keeps _ _ cs)
    exact .of_mem rfl
  · exact .refl s

theorem writeArray_keeps (s : State) (n : Nat) (bs : List Byte) (p : Bool) : KeepsWf s (writeArray s n bs p) := by
  unfold writeArray
  dsimp only
  refine KeepsWf.trans (t := setBytes (if (elidedOf s n).isSome then inflateBlock s (n * 128 / 4096) else s) (n * 128) bs)
    (KeepsWf.trans ?_ (setBytes_keeps _ _ _)) (.of_mem rfl)
  split
  · exact inflateBlock_keeps _ _
  · exact .refl s

theorem putHome_keeps (s : State) (n : Nat) (x : HomeSector) : KeepsWf s (putHome s n x) := .of_mem rfl
theorem wakeAll_keeps (s : State) (n : Nat) (r : BitVec 3) : KeepsWf s (wakeAll s n r) := .of_mem rfl

theorem fillHome_keeps (s : State) (n : Nat) : KeepsWf s (fillHome s n) := by
  unfold fillHome; split
  · exact .refl s
  · exact putHome_keeps _ _ _

theorem homeMerge_keeps (s : State) (n : Nat) (xs : List (Option Byte)) : KeepsWf s (homeMerge s n xs) := .of_mem rfl
theorem homeWrite_keeps (s : State) (a : Nat) (bs : List Byte) : KeepsWf s (homeWrite s a bs) := .of_mem rfl

theorem cleanHome_keeps (s : State) (n : Nat) : KeepsWf s (cleanHome s n) := by
  unfold cleanHome; split
  · split
    · exact (writeArray_keeps _ _ _ _).trans (putHome_keeps _ _ _)
    · exact .refl s
  · exact .refl s

theorem dropHome_keeps (s : State) (n : Nat) : KeepsWf s (dropHome s n) := by
  unfold dropHome; split
  · exact .of_mem rfl
  · exact .refl s

theorem modHart_keeps (s : State) (h : Nat) (f : Hart → Hart) : KeepsWf s (modHart s h f) :=
  .of_mem (by rw [modHart_ms])

theorem modCore_keeps (s : State) (c : Nat) (f : CoreState → CoreState) : KeepsWf s (modCore s c f) :=
  .of_mem (by rw [modCore_ms])

theorem focus_keeps (s : State) (h : Nat) : KeepsWf s (focus s h) := .of_mem (by rw [focus_ms])

theorem fillL1_keeps (s : State) (n : Nat) : KeepsWf s (fillL1 s n) := by
  unfold fillL1; exact (fillHome_keeps s n).trans (.of_mem rfl)

theorem fillFor_keeps (s : State) (a n : Nat) : KeepsWf s (fillFor s a n) := by
  unfold fillFor; split
  · exact .refl s
  · exact fillL1_keeps _ _

theorem setSome_keeps (s : State) (a : Nat) (xs : List (Option Byte)) : KeepsWf s (setSome s a xs) := by
  induction xs generalizing s a with
  | nil => exact .refl s
  | cons x xs ih =>
    cases x with
    | none => exact ih s (a + 1)
    | some b => exact (setByte_keeps s a b).trans (ih _ _)

theorem performPosted_keeps (s : State) (h n : Nat) : KeepsWf s (performPosted s h n) := by
  unfold performPosted; split
  · rename_i x _
    split
    · exact .refl s
    · refine KeepsWf.trans ?_ ((setSome_keeps (clearPoison (setPosted s h _) n _) _ (x.take 128)).trans (wakeAll_keeps _ _ _))
      exact .of_mem rfl
  · exact .refl s

theorem performWhere_keeps (s : State) (h : Nat) (ok : Nat → Bool) : KeepsWf s (performWhere s h ok) := by
  refine KeepsWf.foldl (fun s (p : Nat × List (Option Byte)) => if ok (p.1 * 128) then performPosted s h p.1 else s) ?_ _ s
  intro s p
  split
  · exact performPosted_keeps _ _ _
  · exact .refl s

theorem drainBytes_keeps (s : State) (h n : Nat) (xs ys : List (Option Byte)) : KeepsWf s (drainBytes s h n xs ys) :=
  (modHart_keeps _ _ _).trans (modCore_keeps _ _ _)

theorem drainOf_keeps (s : State) (h n : Nat) : KeepsWf s (drainOf s h n) := by
  unfold drainOf; split
  · exact drainBytes_keeps _ _ _ _ _
  · split
    · exact performPosted_keeps _ _ _
    · exact .refl s

theorem drainPart_keeps (s : State) (h n mask : Nat) : KeepsWf s (drainPart s h n mask) := by
  unfold drainPart; split
  · exact drainBytes_keeps _ _ _ _ _
  · exact .refl s

theorem drainAll_keeps (s : State) (h : Nat) : KeepsWf s (drainAll s h) :=
  (KeepsWf.foldl (fun s (p : Nat × List (Option Byte)) => drainOf s h p.1) (fun s p => drainOf_keeps s h p.1) _ s).trans
    (performWhere_keeps _ h isVault)

theorem pushL1_keeps (s : State) (c n : Nat) : KeepsWf s (pushL1 s c n) := by
  unfold pushL1; split
  · split
    · exact .refl s
    · rename_i x _ _
      have hm := (modCore_keeps s c (fun k => { k with l1 := mapSet k.l1 n (cleanedL1 x) })).trans
        (homeMerge_keeps _ n (dirtyOf x))
      dsimp only
      split
      · exact hm.trans (putHome_keeps _ _ _)
      · exact hm
  · exact .refl s

theorem pushAll_keeps (s : State) (c : Nat) : KeepsWf s (pushAll s c) :=
  KeepsWf.foldl (fun s (p : Nat × L1Sector) => pushL1 s c p.1) (fun s p => pushL1_keeps s c p.1) _ s

theorem evictL1_keeps (s : State) (c n : Nat) : KeepsWf s (evictL1 s c n) :=
  (pushL1_keeps s c n).trans (modCore_keeps _ _ _)

theorem discardClean_keeps (s : State) (c : Nat) : KeepsWf s (discardClean s c) := modCore_keeps _ _ _

theorem releaseOf_keeps (s : State) (h scope : Nat) : KeepsWf s (releaseOf s h scope) := by
  unfold releaseOf; dsimp only; split
  · exact drainAll_keeps s h
  · have hp := (drainAll_keeps s h).trans (pushAll_keeps (drainAll s h) (colOf h))
    split
    · exact hp.trans (performWhere_keeps _ _ _)
    · exact hp

theorem acquireOf_keeps (s : State) (h scope : Nat) : KeepsWf s (acquireOf s h scope) := by
  unfold acquireOf; split
  · exact .refl s
  · exact discardClean_keeps _ _

theorem release_keeps (s : State) (scope : Nat) : KeepsWf s (release s scope) := releaseOf_keeps _ _ _
theorem acquire_keeps (s : State) (scope : Nat) : KeepsWf s (acquire s scope) := acquireOf_keeps _ _ _

theorem bufferStore_keeps (s : State) (a : Nat) (bs : List Byte) : KeepsWf s (bufferStore s a bs) := by
  intro w
  unfold bufferStore
  dsimp only
  split
  · exact w
  · split
    · exact w
    · split
      · exact drainOf_keeps _ _ _ w
      · exact w

theorem loadTouch_keeps (s : State) (a n : Nat) : KeepsWf s (loadTouch s a n) := by
  unfold loadTouch; split
  · exact fillFor_keeps _ _ _
  · exact .refl s

theorem storeBytes_keeps (s : State) (a : Nat) (bs : List Byte) : KeepsWf s (storeBytes s a bs) := by
  unfold storeBytes; split
  · exact bufferStore_keeps _ _ _
  · exact .of_mem rfl

theorem storeNow_keeps (s : State) (a : Nat) (bs : List Byte) : KeepsWf s (storeNow s a bs) :=
  (performPosted_keeps _ _ _).trans ((setBytes_keeps _ _ _).trans (wakeAll_keeps _ _ _))

theorem flushSector_keeps (s : State) (n : Nat) : KeepsWf s (flushSector s n) :=
  ((drainOf_keeps s s.cur n).trans (evictL1_keeps _ _ n)).trans (modCore_keeps _ _ _)

theorem atomicRead_keeps (s : State) (a n : Nat) : KeepsWf s (atomicRead s a n).1 := by
  unfold atomicRead; split
  · exact (flushSector_keeps _ _).trans (fillHome_keeps _ _)
  · exact performPosted_keeps _ _ _

theorem atomicWrite_keeps (s : State) (a : Nat) (bs : List Byte) : KeepsWf s (atomicWrite s a bs) := by
  unfold atomicWrite; split
  · exact homeWrite_keeps _ _ _
  · exact KeepsWf.trans (t := clearPoison s (a / 128) (decide (128 ≤ bs.length))) (.of_mem rfl)
      ((setBytes_keeps _ _ _).trans (wakeAll_keeps _ _ _))

theorem performFrom_keeps (fuel : Nat) (s : State) (a : Nat) (bs : List Byte) : KeepsWf s (performFrom fuel s a bs) := by
  induction fuel generalizing s a bs with
  | zero => exact .refl s
  | succ n ih =>
    unfold performFrom; split
    · exact .refl s
    · exact (atomicWrite_keeps _ _ _).trans (ih _ _ _)

theorem performBytes_keeps (s : State) (a : Nat) (bs : List Byte) : KeepsWf s (performBytes s a bs) :=
  performFrom_keeps _ _ _ _

theorem readHome_keeps (s : State) (a n : Nat) : KeepsWf s (readHome s a n).1 := by
  unfold readHome; dsimp only; split
  · exact .foldl _ fillHome_keeps _ s
  · exact .refl s

theorem elideBlock_keeps (s : State) (blk : Nat) (c : Word) : KeepsWf s (elideBlock s blk c) := by
  unfold elideBlock
  generalize List.range 32 = l
  dsimp only
  intro w
  refine KeepsWf.foldl ?_ ?_ l s w
  exact fun _ _ => .of_mem rfl

theorem noteCompressed_keeps (s : State) (p : Phys) : KeepsWf s (noteCompressed s p) := by
  unfold noteCompressed; dsimp only
  split
  · exact .refl s
  · split
    · split
      · exact .refl s
      · split <;> exact .of_mem rfl
    · exact .of_mem rfl

theorem markUsed_keeps (s : State) (p : Phys) (writes : Bool) : KeepsWf s (markUsed s p writes) := by
  unfold markUsed; split_ifs
  · exact .refl s
  · exact homeWrite_keeps _ _ _

theorem touchEntry_keeps (s : State) (p : Phys) (writes : Bool) : KeepsWf s (touchEntry s p writes) :=
  (markUsed_keeps _ _ _).trans (noteCompressed_keeps _ _)

theorem cacheEntry_keeps (s : State) (p : Phys) (pte : Word) : KeepsWf s (cacheEntry s p pte) := .of_mem rfl

theorem storeTo_keeps (s : State) (p : Phys) (bs : List Byte) : KeepsWf s (storeTo s p bs) := by
  unfold storeTo; split
  · exact storeNow_keeps _ _ _
  · exact storeBytes_keeps _ _ _

theorem touch_keeps (s : State) (p : Phys) (writes : Bool) : KeepsWf s (touch s p writes) :=
  (touchEntry_keeps _ _ _).trans (cacheEntry_keeps _ _ _)

/-! ## Reads after writes -/

/-- A read after a write of one byte. -/
theorem mem_setByte (s : State) (a : Nat) (b : Byte) (n : Nat) :
    mapGet (setByte s a b).ms.mem n 0 = if n = a then b else mapGet s.ms.mem n 0 := mapGet_memSet _ _ _ _

/-- A read after a write of bytes: the bytes written from `a` upward, every other address as before. -/
theorem mem_setBytes (s : State) (a : Nat) (bs : List Byte) (n : Nat) :
    mapGet (setBytes s a bs).ms.mem n 0 =
      if a ≤ n ∧ n < a + bs.length then bs.getD (n - a) 0 else mapGet s.ms.mem n 0 := by
  induction bs generalizing s a with
  | nil => rw [if_neg (by simp only [List.length_nil]; omega)]; rfl
  | cons b bs ih =>
    unfold setBytes
    rw [ih, mem_setByte]
    simp only [List.length_cons]
    by_cases h : n = a
    · subst h
      rw [if_neg (by omega), if_pos rfl, if_pos (by omega)]
      simp
    · by_cases h2 : a + 1 ≤ n ∧ n < a + 1 + bs.length
      · rw [if_pos h2, if_pos (by omega)]
        obtain ⟨k, rfl⟩ : ∃ k, n = a + 1 + k := ⟨n - (a + 1), by omega⟩
        rw [show a + 1 + k - (a + 1) = k by omega, show a + 1 + k - a = k + 1 by omega]
        simp
      · rw [if_neg h2, if_neg h, if_neg (by omega)]

theorem setBytes_elided (s : State) (a : Nat) (bs : List Byte) : (setBytes s a bs).ms.elided = s.ms.elided := by
  induction bs generalizing s a with
  | nil => rfl
  | cons b bs ih => unfold setBytes; rw [ih]; rfl

/-- Outside the capacity tier a byte of the settled image is what was last written there. -/
theorem settledByte_setBytes (s : State) (a : Nat) (bs : List Byte) (n : Nat) (h : isCap n = false) :
    settledByte (setBytes s a bs) n = if a ≤ n ∧ n < a + bs.length then bs.getD (n - a) 0 else settledByte s n := by
  unfold settledByte
  simp only [h, Bool.false_eq_true, if_false, mem_setBytes]

/-- A sector kept at its home reads as it was put. -/
theorem homeByte_putHome (s : State) (n : Nat) (x : HomeSector) (a : Nat) :
    homeByte (putHome s n x) a = if a / 128 = n then x.bytes.getD (a % 128) 0 else homeByte s a := by
  unfold homeByte
  rw [putHome_ms]
  simp only [mapGet?_mapSet]
  by_cases h : a / 128 = n
  · simp [h]
  · simp only [h, if_false]; rfl

@[simp] theorem wakeAll_homeByte (s : State) (n : Nat) (r : BitVec 3) (a : Nat) :
    homeByte (wakeAll s n r) a = homeByte s a := rfl

/-- Filling a sector from the arrays changes no byte that a home answers. -/
theorem settledSector_getD (s : State) (n a : Nat) (h : a / 128 = n) :
    (settledSector s n).getD (a % 128) 0 = settledByte s a := by
  have hlt : a % 128 < 128 := Nat.mod_lt _ (by omega)
  unfold settledSector
  rw [List.getD_eq_getElem _ _ (by simpa using hlt)]
  simp only [List.getElem_map, List.getElem_range]
  congr 1
  omega

theorem homeByte_fillHome (s : State) (n a : Nat) : homeByte (fillHome s n) a = homeByte s a := by
  unfold fillHome
  split
  · rfl
  · rename_i hn
    rw [homeByte_putHome]
    split
    · rename_i h
      have hs : (homeSector s n).bytes = settledSector s n := by simp [homeSector, hn]
      rw [hs, settledSector_getD s n a h]
      unfold homeByte
      rw [h, hn]
    · rfl

end Sys2Proof.Machine
end

