-- ==== Sys2Proof/Laws/Ops.lean ====
section
/-! SUPPORT. What each shared operation can do, said once: scalar registers, completion, trap entry, checks, releases,
responses, blocks of bytes, runs over elements. -/
namespace Sys2Proof.Machine

/-! ## Scalar registers (01 R8) -/

theorem readG_zero (s : State) : readG s 0 = 0 := rfl

/-- A read after a write: g0 reads 0, the register written holds the value, the others what they held. -/
theorem readG_writeG (s : State) (gd : Reg) (x : Word) (r : Reg) :
    readG (writeG s gd x) r = if r = 0 then 0 else if r = gd then x else readG s r := by
  unfold readG writeG
  by_cases hr : r = 0
  · simp [hr]
  · by_cases hg : gd = 0
    · subst hg; rw [if_pos rfl]; split_ifs <;> rfl
    · simp only [hr, hg, if_false]
      by_cases h : r = gd
      · subst h; simp
      · have : r.toNat ≠ gd.toNat := fun e => h (BitVec.eq_of_toNat_eq e)
        simp [h, Ne.symm this]

theorem writeG_eq (s : State) (gd : Reg) (x : Word) :
    writeG s gd x = { s with hart := { s.hart with g := (writeG s gd x).hart.g } } := by
  unfold writeG; split <;> rfl

theorem gWritten_writeG (s : State) (gd : Reg) (x : Word) : GWritten s (writeG s gd x) gd x := by
  refine ⟨?_, fun r hr => ?_⟩
  · rw [readG_writeG]; split <;> simp_all
  · rw [readG_writeG, if_neg hr]; split
    · simp_all [readG]
    · rfl

/-- Scalar registers are read from the current hart alone. -/
theorem readG_congr {s t : State} (h : t.hart.g = s.hart.g) (r : Reg) : readG t r = readG s r := by
  unfold readG; rw [h]

/-! ## Completion (05 R112, R117) -/

@[simp] theorem readG_complete (s : State) (r : Reg) : readG (complete s) r = readG s r := rfl
@[simp] theorem readG_jumpTo (s : State) (a : Word) (r : Reg) : readG (jumpTo s a) r = readG s r := rfl
@[simp] theorem readByte_complete (s : State) (a : Nat) : readByte (complete s) a = readByte s a := rfl
@[simp] theorem readByte_jumpTo (s : State) (a : Word) (n : Nat) : readByte (jumpTo s a) n = readByte s n := rfl

theorem complete_inSequence (s : State) : InSequence s (complete s) := ⟨rfl, rfl, rfl, rfl, rfl⟩
theorem jumpTo_jumped (s : State) (a : Word) : JumpedTo s (jumpTo s a) a := ⟨rfl, rfl, rfl, rfl, rfl⟩

/-- The loop-end action where neither level ends here: the next word, and both counts stay. -/
theorem loopEnd_none (a : Word) (h : Hart) (h1 : h.lc1 = 0 ∨ h.le1 ≠ a) (h0 : h.lc0 = 0 ∨ h.le0 ≠ a) :
    (loopEnd a h).pc = a + 4 ∧ (loopEnd a h).lc0 = h.lc0 ∧ (loopEnd a h).lc1 = h.lc1 := by
  have e1 : (h.lc1 != 0 && h.le1 == a) = false := by rcases h1 with e | e <;> simp [e]
  have e0 : (h.lc0 != 0 && h.le0 == a) = false := by rcases h0 with e | e <;> simp [e]
  unfold loopEnd
  dsimp only
  rw [e1]
  simp only [Bool.false_and, Bool.not_false, Bool.true_and, e0, Bool.false_eq_true, if_false, and_self]

/-- What an instruction that writes one scalar register and goes on in sequence answers. -/
theorem done_writeG (s : State) (gd : Reg) (x : Word) :
    ∃ t, done (writeG s gd x) = .next t ∧ GWritten s t gd x ∧ InSequence s t ∧ ScalarFrame s t ∧ SameMemory s t := by
  refine ⟨_, rfl, gWritten_writeG s gd x, ?_, ?_, ?_⟩
  · rw [writeG_eq]; exact ⟨rfl, rfl, rfl, rfl, rfl⟩
  · rw [writeG_eq]; rfl
  · rw [writeG_eq]; intro a; rfl

/-! ## Trap entry (19 R352) -/

theorem enterTrap_fields (b : Bool) (t : TrapInfo) (h : Hart) :
    (enterTrap b t h).tcause = BitVec.ofNat 64 t.cause ∧ (enterTrap b t h).tval = t.tval ∧ (enterTrap b t h).tpc = h.pc
    ∧ (enterTrap b t h).pc = h.tvec ∧ (enterTrap b t h).mode = .supervisor ∧ (enterTrap b t h).request = none
    ∧ (enterTrap b t h).wait = none ∧ (enterTrap b t h).convoy = none := ⟨rfl, rfl, rfl, rfl, rfl, rfl, rfl, rfl⟩

/-- The causes that TCAUSE can hold are neither of the model's own two: an access that waits, and a walk that fails. -/
theorem cause_ne {c : Nat} (h : c < 64) : c ≠ causeWaits ∧ c ≠ causeWalk := by
  unfold causeWaits causeWalk; omega

/-- A trap in user mode, but for ACCESS, which is logged as well. -/
theorem takeTrap_user (s : State) (t : TrapInfo) (hm : s.hart.mode = .user) (hc : t.cause < 64)
    (ha : t.cause ≠ causeAccess) : takeTrap s t = { s with hart := enterTrap false t s.hart } := by
  unfold takeTrap
  rw [if_neg (cause_ne hc).1, if_neg (cause_ne hc).2, hm]
  simp only [if_neg ha]

/-- An ACCESS trap in user mode enters the supervisor and is logged. -/
theorem takeTrap_user_access (s : State) (t : TrapInfo) (hm : s.hart.mode = .user) (ha : t.cause = causeAccess) :
    takeTrap s t =
      let u := logViolation s s.hart.asid t.tval (reqOfHart s.cur) 0 causeAccess 0
      { u with hart := enterTrap false t u.hart } := by
  unfold takeTrap
  rw [if_neg (by rw [ha]; decide), if_neg (by rw [ha]; decide), hm]
  simp only [if_pos ha]

/-- A trap in supervisor mode halts the hart. -/
theorem takeTrap_supervisor (s : State) (t : TrapInfo) (hm : s.hart.mode = .supervisor) (hc : t.cause < 64)
    (ha : t.cause ≠ causeAccess) : takeTrap s t = haltHart s s.cur t.cause s.hart.pc := by
  unfold takeTrap
  rw [if_neg (cause_ne hc).1, if_neg (cause_ne hc).2, hm]
  simp only [if_neg ha]

/-- An access that waits for its path has had no effect. -/
theorem takeTrap_waits (s : State) (t : TrapInfo) (h : t.cause = causeWaits) : takeTrap s t = s := if_pos h

/-! ## Checks and waits -/

theorem withCheck_none (s : State) (k : Out) : withCheck s none k = k := rfl
theorem withCheck_some (s : State) (t : TrapInfo) (k : Out) : withCheck s (some t) k = .next (takeTrap s t) := rfl

/-- A check either traps or goes on. -/
theorem withCheck_cases {s t : State} {c : Option TrapInfo} {k : Out} (h : withCheck s c k = .next t) :
    (∃ x, c = some x ∧ t = takeTrap s x) ∨ (c = none ∧ k = .next t) := by
  cases c with
  | none => exact .inr ⟨rfl, h⟩
  | some x => exact .inl ⟨x, rfl, (Host.Outcome.next.inj h).symm⟩

theorem supervisorOnly_user (s : State) (w : IWord) (h : s.hart.mode = .user) :
    supervisorOnly s w = some (illegal w) := if_pos h
theorem supervisorOnly_supervisor (s : State) (w : IWord) (h : s.hart.mode = .supervisor) :
    supervisorOnly s w = none := if_neg (by rw [h]; decide)

/-- A release waits for the hart's invalidations and, at system scope, for its stores, else goes on from the state it
leaves (13 R295). -/
theorem afterRelease_cases {s t : State} {i : Instr} {scope : Nat} {k : State → Out}
    (h : afterRelease s i scope k = .next t) :
    (releaseWaits s scope = true ∧ t = waitAt s i) ∨ (releaseWaits s scope = false ∧ k (release s scope) = .next t) := by
  unfold afterRelease at h
  split at h
  · rename_i hp; exact .inl ⟨hp, (Host.Outcome.next.inj h).symm⟩
  · rename_i hp; exact .inr ⟨by simpa using hp, h⟩

theorem afterRelease_free {s : State} (i : Instr) (scope : Nat) (k : State → Out) (h : releaseWaits s scope = false) :
    afterRelease s i scope k = k (release s scope) := by
  unfold afterRelease; rw [h]; rfl

/-- An access by request and response is sent: the hart waits, and no byte of memory has changed. -/
theorem sendRequest_eq (s : State) (i : Instr) (p : Phys) (va : Word) (n : Nat) (u : Option AmoUpdate) :
    ∃ t, sendRequest s i p va n u = .next t ∧ t.hart.request = some ⟨s.hart.pc, s.hart.asid, va, p, n, u, none⟩
      ∧ t.hart.wait = some i ∧ t.ms.mem = s.ms.mem := by
  exact ⟨_, rfl, rfl, rfl, rfl⟩

/-- What follows an access that was sent: still out, failed, or answered. -/
theorem followUp_cases {s t : State} {i : Instr} {q : Request} {k : State → List Byte → Out}
    (h : followUp s i q k = .next t) :
    (q.answer = none ∧ t = waitAt s i)
    ∨ (q.answer = some none ∧ t = takeTrap { s with hart := { s.hart with request := none } }
        (accessTrap causeAccess q.va (if q.update.isSome then .atomic else .load)))
    ∨ ∃ bs, q.answer = some (some bs) ∧ k { s with hart := { s.hart with request := none } } bs = .next t := by
  unfold followUp at h
  split at h
  · rename_i ha; exact .inl ⟨ha, (Host.Outcome.next.inj h).symm⟩
  · rename_i ha; exact .inr (.inl ⟨ha, (Host.Outcome.next.inj h).symm⟩)
  · rename_i bs ha; exact .inr (.inr ⟨bs, ha, h⟩)

/-! ## Blocks of bytes (02 R50) -/

/-- A range that can be read: its pages pass and none of its bytes is poisoned. -/
theorem loadRange_ok {s : State} {a : Word} {n : Nat} {ok : Nat → Bool} {ps : List Span} :
    loadRange s a n ok = .ok ps ↔ resolveRange s a n .load ok = .ok ps ∧ spanPoison s ps = none := by
  unfold loadRange
  constructor
  · intro h
    split at h
    · split at h <;> exact absurd h (by simp)
    · rename_i qs hq
      split at h
      · exact absurd h (by simp)
      · rename_i hn; cases h; exact ⟨hq, hn⟩
  · rintro ⟨h, hn⟩; simp [h, hn]

/-- A load of a block: its checks fail, or the continuation gets the bytes. -/
theorem loadBlock_cases {s t : State} {a : Word} {n : Nat} {ok : Nat → Bool} {k : State → List Byte → Out}
    (h : loadBlock s a n ok k = .next t) :
    (∃ x, loadRange s a n ok = .error x ∧ t = takeTrap s x)
    ∨ ∃ ps, loadRange s a n ok = .ok ps ∧ k (fillSpans (touchSpans s ps false) ps) (spanBytes s ps) = .next t := by
  unfold loadBlock at h
  split at h
  · rename_i x hx; exact .inl ⟨x, hx, (Host.Outcome.next.inj h).symm⟩
  · rename_i ps hps; exact .inr ⟨ps, hps, h⟩

/-- A store of a block: a page fails and no byte moves, or the bytes are stored. -/
theorem storeBlock_cases {s t : State} {a : Word} {bs : List Byte} {ok : Nat → Bool} {k : State → Out}
    (h : storeBlock s a bs ok k = .next t) :
    (∃ x, resolveRange s a bs.length .store ok = .error x ∧ t = takeTrap s x)
    ∨ ∃ ps, resolveRange s a bs.length .store ok = .ok ps ∧ k (storeSpans (touchSpans s ps true) ps bs) = .next t := by
  unfold storeBlock at h
  split at h
  · rename_i x hx; exact .inl ⟨x, hx, (Host.Outcome.next.inj h).symm⟩
  · rename_i ps hps; exact .inr ⟨ps, hps, h⟩

theorem touchSpans_keeps (s : State) (ps : List Span) (w : Bool) : KeepsWf s (touchSpans s ps w) :=
  KeepsWf.foldl (fun s (p : Span) => touch s p.phys w) (fun _ _ => touch_keeps _ _ _) ps s

theorem touchSectors_keeps (s : State) (a n : Nat) : KeepsWf s (touchSectors s a n) := by
  unfold touchSectors; split
  · exact .refl s
  · exact KeepsWf.foldl _ (fun _ _ => loadTouch_keeps _ _ _) _ s

theorem fillSpans_keeps (s : State) (ps : List Span) : KeepsWf s (fillSpans s ps) :=
  KeepsWf.foldl (fun s (p : Span) => touchSectors s p.phys.pa p.len) (fun _ _ => touchSectors_keeps _ _ _) ps s

theorem storeFrom_keeps (fuel : Nat) (s : State) (a : Nat) (bs : List Byte) : KeepsWf s (storeFrom fuel s a bs) := by
  induction fuel generalizing s a bs with
  | zero => exact .refl s
  | succ n ih =>
    unfold storeFrom; split
    · exact .refl s
    · exact (storeBytes_keeps _ _ _).trans (ih _ _ _)

theorem storeAt_keeps (s : State) (a : Nat) (bs : List Byte) : KeepsWf s (storeAt s a bs) := storeFrom_keeps _ _ _ _

theorem storeSpans_keeps (s : State) (ps : List Span) (bs : List Byte) : KeepsWf s (storeSpans s ps bs) := by
  unfold storeSpans
  suffices h : ∀ x : State × List Byte, KeepsWf x.1 (ps.foldl (fun (acc : State × List Byte) p =>
      (storeAt acc.1 p.phys.pa (acc.2.take p.len), acc.2.drop p.len)) x).1 from h (s, bs)
  induction ps with
  | nil => intro x; exact .refl x.1
  | cons p ps ih =>
    intro x
    rw [List.foldl_cons]
    exact KeepsWf.trans (storeAt_keeps x.1 p.phys.pa (x.2.take p.len))
      (ih (storeAt x.1 p.phys.pa (x.2.take p.len), x.2.drop p.len))

/-! ## Vector runs (02 R50; 01 R7) -/

@[simp] theorem vstart_setVstart_zero (h : Hart) : (setVstart 0 h).vstart = 0 := by
  unfold setVstart
  split
  · rename_i e; exact BitVec.eq_of_toNat_eq (by simpa using e)
  · rfl

@[simp] theorem finishV_vstart (s : State) : (finishV s).hart.vstart = 0 := by
  show (setVstart 0 s.hart).vstart = 0
  exact vstart_setVstart_zero s.hart

theorem finishV_inSequence (s : State) : InSequence s (finishV s) := by
  unfold finishV
  refine ⟨?_, ?_, ?_, ?_, rfl⟩ <;> simp [loopEnd, retired]

/-- Where a run over elements stops with a trap, the elements before it are those of the run up to it. -/
theorem gather_trap {f : Nat → ElemRes} {l : List Nat} {e : Nat} {t : TrapInfo} (h : (gather f l).trap = some (e, t)) :
    e ∈ l ∧ f e = .trap t := by
  induction l with
  | nil => simp [gather] at h
  | cons x l ih =>
    unfold gather at h
    split at h
    · rename_i u hu
      simp only [Option.some.injEq, Prod.mk.injEq] at h
      obtain ⟨rfl, rfl⟩ := h
      exact ⟨by simp, hu⟩
    · exact ⟨List.mem_cons_of_mem _ (ih h).1, (ih h).2⟩
    · exact ⟨List.mem_cons_of_mem _ (ih h).1, (ih h).2⟩

/-- A run over elements none of which traps gathers no trap. -/
theorem gather_none {f : Nat → ElemRes} {l : List Nat} (h : ∀ e ∈ l, ∀ t, f e ≠ .trap t) : (gather f l).trap = none := by
  cases hg : (gather f l).trap with
  | none => rfl
  | some p => exact absurd (gather_trap hg).2 (h p.1 (gather_trap hg).1 p.2)

/-- Every element written is one of the run, with the value its function gives. -/
theorem gather_ups {f : Nat → ElemRes} {l : List Nat} {e x : Nat} (h : (e, x) ∈ (gather f l).ups) :
    e ∈ l ∧ ∃ fl sat, f e = .write x fl sat := by
  induction l with
  | nil => simp [gather] at h
  | cons y l ih =>
    unfold gather at h
    split at h
    · simp at h
    · exact ⟨List.mem_cons_of_mem _ (ih h).1, (ih h).2⟩
    · rename_i z fl sat hz
      rcases List.mem_cons.1 h with e1 | h
      · obtain ⟨rfl, rfl⟩ := Prod.mk.inj e1
        exact ⟨by simp, fl, sat, hz⟩
      · exact ⟨List.mem_cons_of_mem _ (ih h).1, (ih h).2⟩

theorem mem_elemRange (lo hi e : Nat) : e ∈ elemRange lo hi ↔ lo ≤ e ∧ e < hi := by
  unfold elemRange
  simp only [List.mem_map, List.mem_range]
  constructor
  · rintro ⟨k, hk, rfl⟩; omega
  · rintro ⟨h1, h2⟩; exact ⟨e - lo, by omega, by omega⟩

/-- Past the tile a vector instruction changes nothing but VSTART (01 R7). -/
theorem elementRun_past (s : State) (q : VReq) (whole : Bool) (vd w wide : Nat) (draws : Bool) (f : Nat → ElemRes)
    (also : Nat → State → State) (block : Nat → Option (Nat × Map Nat)) (h : tileSize s ≤ s.hart.vstart.toNat) :
    elementRun s q whole vd w wide draws f also block = .next (finishV (joinConvoy s q)) := by
  unfold elementRun; simp only [if_pos h]

end Sys2Proof.Machine
end

