-- ==== Sys2Proof/Tests/Slice0.lean ====
section
/-! SUPPORT. Tests: well-formedness, words put together from the encoding tables, single steps with expected values from the
spec's examples and rules, and for every statement a witness that its hypotheses can be met. -/
set_option Elab.async false
namespace Sys2Proof.Tests
open Sys2Proof Sys2Proof.Machine

/-! ## Well-formedness: one term for each check, which it refuses, beside one it takes -/

theorem test_wf_fence : (Instr.fence 3 1 1).wf = false ∧ (Instr.fence 1 0 1).wf = false ∧ (Instr.fence 1 1 0).wf = false
    ∧ (Instr.fence 2 15 15).wf = true := by decide
theorem test_wf_extend : (Instr.sext 1 2 0).wf = false ∧ (Instr.zext 1 2 4).wf = false ∧ (Instr.zext 1 2 3).wf = true := by
  decide
theorem test_wf_ordered : (Instr.ldacq 1 2 3 3).wf = false ∧ (Instr.strel 1 2 0 1).wf = false
  ∧ (Instr.strel 1 2 0 2).wf = true := by
  decide
theorem test_wf_atomic : (Instr.amoadd ⟨1, 2, 3, 3, 0, 3⟩).wf = false ∧ (Instr.amoand ⟨1, 2, 3, 0, 0, 0⟩).wf = false
    ∧ (Instr.amocas ⟨1, 2, 3, 2, 3, 3⟩).wf = true := by decide
theorem test_wf_loop : (Instr.loop false 1 0).wf = false ∧ (Instr.loop false 1 1).wf = true := by decide
theorem test_wf_setregs : (Instr.setregs 1 0 0).wf = false ∧ (Instr.setregs 1 5 0).wf = false
  ∧ (Instr.setregs 1 4 3).wf = false
    ∧ (Instr.setregs 1 4 2).wf = true := by decide
theorem test_wf_forms : (Instr.vadd ⟨false, 1, 2, 3, false, false, 3⟩).wf = false
    ∧ (Instr.vsub ⟨false, 1, 2, 3, false, false, 2⟩).wf = false
      ∧ (Instr.vrsub ⟨false, 1, 2, 3, false, false, 0⟩).wf = false
    ∧ (Instr.vcmp ⟨false, 1, 2, 3, false, false, 3⟩ 0).wf = false
      ∧ (Instr.vfadd ⟨false, 1, 2, 3, false, false, 2⟩).wf = false
    ∧ (Instr.vadd ⟨true, 1, 2, 3, true, true, 2⟩).wf = true := by decide
theorem test_wf_merge : (Instr.vmerge ⟨false, 1, 2, 3, false, false, 0⟩).wf = false
    ∧ (Instr.vmerge ⟨false, 1, 2, 3, true, false, 0⟩).wf = true := by decide
theorem test_wf_types : (Instr.vcvt ⟨false, 1, 2, false, false⟩ 0x38).wf = false
    ∧ (Instr.vcvt ⟨false, 1, 2, false, false⟩ 0x18).wf = false ∧ (Instr.vquant ⟨false, 1, 2, false, false⟩ 0x14).wf = false
    ∧ (Instr.vdeq ⟨false, 1, 2, false, false⟩ 0x13).wf = false
      ∧ (Instr.vcvt ⟨false, 1, 2, false, false⟩ 0x1A).wf = true := by decide
theorem test_wf_permute : (Instr.vslideup false 1 2 3 false 0).wf = false ∧ (Instr.vbcast false 1 2 false 3).wf = false
    ∧ (Instr.vslidedn false 1 2 3 false 2).wf = true := by decide
theorem test_wf_memory : (Instr.vld ⟨false, 1, 2, 3, false, false⟩).wf = false
  ∧ (Instr.vst ⟨false, 1, 2, 3, false, false⟩).wf = false
    ∧ (Instr.vld2d ⟨false, 1, 2, 3, false, false⟩).wf = false
      ∧ (Instr.vld2d ⟨false, 1, 2, 4, false, false⟩).wf = true := by decide
theorem test_wf_strips : (Instr.stripset 8 1 2 0).wf = false ∧ (Instr.stripset 7 1 2 3).wf = false
  ∧ (Instr.sld false 1 8).wf = false
    ∧ (Instr.sst false 1 31).wf = false ∧ (Instr.strippos 1 8).wf = false ∧ (Instr.strippos 1 7).wf = true := by decide
theorem test_wf_selectors : (Instr.knotrd false 1 2 3).wf = false ∧ (Instr.splref false 1 2 3 0).wf = false
    ∧ (Instr.rgncnt 1 2 3).wf = false ∧ (Instr.knotrd false 1 2 2).wf = true := by decide
theorem test_wf_events : (Instr.barRelease 0).wf = false ∧ Instr.patrolScrub.wf = false
  ∧ (Instr.illegalWord 0).wf = false := by decide

/-! ## Decoding -/

/-- Every word is read as the instruction beside it, which is well formed. -/
def decodes (l : List (IWord × Instr)) : Bool :=
  l.all fun p => p.2.wf && (match decodeWord p.1 with
    | .ok i => decide (i = p.2)
    | .error _ => false)

/-- Every word is refused for the reason beside it. -/
def refused (l : List (IWord × DecodeError)) : Bool :=
  l.all fun p => match decodeWord p.1 with
    | .ok _ => false
    | .error e => decide (e = p.2)

/-- Words of opcode 0x00, put together from its map (04 R76 to R87). -/
theorem test_decode_00 : decodes
    [(0b00000001000100000001000100001010, .srr 17 0x10A), (0x0116210A, .srw 17 12 0x10A), (0x0116310A, .srset 17 12 0x10A),
     (0x0116410A, .srclr 17 12 0x10A), (0x00005ABC, .trap 0xABC), (0x000064F5, .fence 1 15 5), (0x00007001, .rett),
     (0x00007002, .park), (0x00007003, .brk), (0x00007004, .exit), (0x00007005, .trigger), (0x01167006, .launch 17 12),
     (0x00067007, .rngsnap 12), (0x00067008, .rngload 12)] = true := by
  decide

/-- Words of opcode 0x01, put together from its map (04 R76 to R87). -/
theorem test_decode_01 : decodes
    [(0b00000011000101011111010000000000, .add 17 11 29), (0x0315F401, .sub 17 11 29), (0x0315F402, .and 17 11 29),
     (0x0315F403, .or 17 11 29), (0x0315F404, .xor 17 11 29), (0x0315F405, .andn 17 11 29), (0x0315F406, .sll 17 11 29),
     (0x0315F407, .srl 17 11 29), (0x0315F408, .sra 17 11 29), (0x0315F409, .slt 17 11 29), (0x0315F40A, .sltu 17 11 29),
     (0x0315F40B, .min 17 11 29), (0x0315F40C, .max 17 11 29), (0x0315F40D, .minu 17 11 29), (0x0315F40E, .maxu 17 11 29),
     (0x0315F410, .mul 17 11 29), (0x0315F411, .mulh 17 11 29), (0x0315F412, .mulhu 17 11 29), (0x0315F414, .div 17 11 29),
     (0x0315F415, .divu 17 11 29), (0x0315F416, .rem 17 11 29), (0x0315F417, .remu 17 11 29), (0x03158018, .clz 17 11),
     (0x03158019, .ctz 17 11), (0x0315801A, .popc 17 11), (0x0315881C, .sext 17 11 2),
     (0x03158C1D, .zext 17 11 3)] = true := by
  decide

/-- Words of opcode 0x02, put together from its map (04 R76 to R87). -/
theorem test_decode_02 : decodes
    [(0b00000101000101100100000000000001, .addi 17 12 0x4001)] = true := by
  decide

/-- Words of opcode 0x03, put together from its map (04 R76 to R87). -/
theorem test_decode_03 : decodes
    [(0b00000111000101100100000000000001, .andi 17 12 0x4001)] = true := by
  decide

/-- Words of opcode 0x04, put together from its map (04 R76 to R87). -/
theorem test_decode_04 : decodes
    [(0b00001001000101100100000000000001, .ori 17 12 0x4001)] = true := by
  decide

/-- Words of opcode 0x05, put together from its map (04 R76 to R87). -/
theorem test_decode_05 : decodes
    [(0b00001011000101100100000000000001, .xori 17 12 0x4001)] = true := by
  decide

/-- Words of opcode 0x06, put together from its map (04 R76 to R87). -/
theorem test_decode_06 : decodes
    [(0b00001101000101100100000000000001, .slti 17 12 0x4001)] = true := by
  decide

/-- Words of opcode 0x07, put together from its map (04 R76 to R87). -/
theorem test_decode_07 : decodes
    [(0b00001111000101100100000000000001, .sltiu 17 12 0x4001)] = true := by
  decide

/-- Words of opcode 0x08, put together from its map (04 R76 to R87). -/
theorem test_decode_08 : decodes
    [(0b00010001000101100000000000111111, .slli 17 12 0x3F), (0x11161001, .srli 17 12 1),
     (0x11162020, .srai 17 12 0x20)] = true := by
  decide

/-- Words of opcode 0x09, put together from its map (04 R76 to R87). -/
theorem test_decode_09 : decodes
    [(0b00010011000110000000000000010011, .lui 17 0x80013)] = true := by
  decide

/-- Words of opcode 0x0A, put together from its map (04 R76 to R87). -/
theorem test_decode_0a : decodes
    [(0b00010101000100010010001101000101, .auipc 17 0x12345)] = true := by
  decide

/-- Words of opcode 0x0B, put together from its map (04 R76 to R87). -/
theorem test_decode_0b : decodes
    [(0b00010111000111101000100000000000, .ldb 17 29 0x800), (0x171E9800, .ldbu 17 29 0x800),
     (0x171EA800, .ldh 17 29 0x800), (0x171EB800, .ldhu 17 29 0x800), (0x171EC800, .ldw 17 29 0x800),
     (0x171ED800, .ldwu 17 29 0x800), (0x171EE800, .ldd 17 29 0x800)] = true := by
  decide

/-- Words of opcode 0x0C, put together from its map (04 R76 to R87). -/
theorem test_decode_0c : decodes
    [(0b00011000110011101000100000000000, .stb 12 29 0x800), (0x18CE9800, .sth 12 29 0x800),
     (0x18CEA800, .stw 12 29 0x800), (0x18CEB800, .std 12 29 0x800)] = true := by
  decide

/-- Words of opcode 0x0D, put together from its map (04 R76 to R87). -/
theorem test_decode_0d : decodes
    [(0b00011011000111101000000000100111, .ldacq 17 29 2 3), (0x1A0EB05A, .strel 29 12 1 2),
     (0x1A1178A6, .amoadd ⟨1, 2, 30, 2, 1, 2⟩), (0x1A1178E6, .amoswap ⟨1, 2, 30, 2, 1, 2⟩),
     (0x1A117926, .amocas ⟨1, 2, 30, 2, 1, 2⟩), (0x1A117966, .amomin ⟨1, 2, 30, 2, 1, 2⟩),
     (0x1A1179A6, .amomax ⟨1, 2, 30, 2, 1, 2⟩), (0x1A1179E6, .amominu ⟨1, 2, 30, 2, 1, 2⟩),
     (0x1A117A26, .amomaxu ⟨1, 2, 30, 2, 1, 2⟩), (0x1A117A66, .amoor ⟨1, 2, 30, 2, 1, 2⟩),
     (0x1A117AA6, .amoand ⟨1, 2, 30, 2, 1, 2⟩)] = true := by
  decide

/-- Words of opcode 0x0E, put together from its map (04 R76 to R87). -/
theorem test_decode_0e : decodes
    [(0b00011100101111101000111111111101, .beq 11 29 0xFFD), (0x1CBE9FFD, .bne 11 29 0xFFD),
     (0x1CBEAFFD, .blt 11 29 0xFFD), (0x1CBEBFFD, .bge 11 29 0xFFD), (0x1CBECFFD, .bltu 11 29 0xFFD),
     (0x1CBEDFFD, .bgeu 11 29 0xFFD)] = true := by
  decide

/-- Words of opcode 0x0F, put together from its map (04 R76 to R87). -/
theorem test_decode_0f : decodes
    [(0b00011111000111111111111111111101, .jal 17 0xFFFFD)] = true := by
  decide

/-- Words of opcode 0x10, put together from its map (04 R76 to R87). -/
theorem test_decode_10 : decodes
    [(0b00100001000101100100000000000001, .jalr 17 12 0x4001)] = true := by
  decide

/-- Words of opcode 0x11, put together from its map (04 R76 to R87). -/
theorem test_decode_11 : decodes
    [(0b00100010000101100100000000000001, .loop true 12 0x4001)] = true := by
  decide

/-- Words of opcode 0x12, put together from its map (04 R76 to R87). -/
theorem test_decode_12 : decodes
    [(0b00100100000000000000000000000001, .bar), (0x2515F402, .waitaddr 17 11 29), (0x2515F403, .claim 17 11 29),
     (0x2405F404, .pubwm 11 29), (0x2405F405, .waitwm 11 29)] = true := by
  decide

/-- Words of opcode 0x13, put together from its map (04 R76 to R87). -/
theorem test_decode_13 : decodes
    [(0b00100111000100000000000001010010, .setregs 17 4 2), (0x27160080, .settypeReg 17 12),
     (0x27194CA0, .settypeImm 17 0x253), (0x271600C0, .setlen 17 12), (0x2715F500, .setlen2 17 11 29),
     (0x2715F540, .settile 17 11 29), (0x27160180, .tilebind 17 12)] = true := by
  decide

/-- Words of opcode 0x14, put together from its map (04 R76 to R87). -/
theorem test_decode_14 : decodes
    [(0b10101001000101011111011110000000, .vadd ⟨true, 17, 11, 29, true, true, 2⟩),
     (0xA915F741, .vsub ⟨true, 17, 11, 29, true, true, 1⟩), (0xA915F782, .vrsub ⟨true, 17, 11, 29, true, true, 2⟩),
     (0xA915F783, .vmul ⟨true, 17, 11, 29, true, true, 2⟩), (0xA915F744, .vmulh ⟨true, 17, 11, 29, true, true, 1⟩),
     (0xA915F705, .vmulhu ⟨true, 17, 11, 29, true, true, 0⟩), (0xA915F786, .vand ⟨true, 17, 11, 29, true, true, 2⟩),
     (0xA915F787, .vor ⟨true, 17, 11, 29, true, true, 2⟩), (0xA915F788, .vxor ⟨true, 17, 11, 29, true, true, 2⟩),
     (0xA915F789, .vsll ⟨true, 17, 11, 29, true, true, 2⟩), (0xA915F78A, .vsrl ⟨true, 17, 11, 29, true, true, 2⟩),
     (0xA915F78B, .vsra ⟨true, 17, 11, 29, true, true, 2⟩), (0xA915F78C, .vmin ⟨true, 17, 11, 29, true, true, 2⟩),
     (0xA915F78D, .vmax ⟨true, 17, 11, 29, true, true, 2⟩), (0xA915F74E, .vminu ⟨true, 17, 11, 29, true, true, 1⟩),
     (0xA915F70F, .vmaxu ⟨true, 17, 11, 29, true, true, 0⟩), (0xA915F790, .vsadd ⟨true, 17, 11, 29, true, true, 2⟩),
     (0xA915F751, .vssub ⟨true, 17, 11, 29, true, true, 1⟩), (0xA915F792, .vmerge ⟨true, 17, 11, 29, true, true, 2⟩),
     (0xA915F7A5, .vcmp ⟨true, 17, 11, 29, true, true, 2⟩ 5)] = true := by
  decide

/-- Words of opcode 0x15, put together from its map (04 R76 to R87). -/
theorem test_decode_15 : decodes
    [(0b10101011000101011111011101000000, .vfadd ⟨true, 17, 11, 29, true, true, 1⟩),
     (0xAB15F741, .vfsub ⟨true, 17, 11, 29, true, true, 1⟩), (0xAB15F742, .vfmul ⟨true, 17, 11, 29, true, true, 1⟩),
     (0xAB15F743, .vfdiv ⟨true, 17, 11, 29, true, true, 1⟩), (0xAB107704, .vfsqrt ⟨true, 17, 29, true, true⟩),
     (0xAB15F745, .vfma ⟨true, 17, 11, 29, true, true, 1⟩), (0xAB15F746, .vfnma ⟨true, 17, 11, 29, true, true, 1⟩),
     (0xAB15F747, .vfms ⟨true, 17, 11, 29, true, true, 1⟩), (0xAB15F748, .vfmin ⟨true, 17, 11, 29, true, true, 1⟩),
     (0xAB15F749, .vfmax ⟨true, 17, 11, 29, true, true, 1⟩), (0xAB15F74A, .vfsgnCopy ⟨true, 17, 11, 29, true, true, 1⟩),
     (0xAB15F74B, .vfsgnNeg ⟨true, 17, 11, 29, true, true, 1⟩), (0xAB15F74C, .vfsgnXor ⟨true, 17, 11, 29, true, true, 1⟩),
     (0xAB10770D, .vfclass ⟨true, 17, 29, true, true⟩),
     (0xAB15F765, .vfcmp ⟨true, 17, 11, 29, true, true, 1⟩ 5)] = true := by
  decide

/-- Words of opcode 0x16, put together from its map (04 R76 to R87). -/
theorem test_decode_16 : decodes
    [(0b10101101000100000111011100000000, .vfexp2 ⟨true, 17, 29, true, true⟩),
     (0xAD107701, .vflog2 ⟨true, 17, 29, true, true⟩), (0xAD107702, .vfrcp ⟨true, 17, 29, true, true⟩),
     (0xAD107703, .vfrsq ⟨true, 17, 29, true, true⟩), (0xAD107704, .vftanh ⟨true, 17, 29, true, true⟩),
     (0xAD107705, .vfsigm ⟨true, 17, 29, true, true⟩)] = true := by
  decide

/-- Words of opcode 0x17, put together from its map (04 R76 to R87). -/
theorem test_decode_17 : decodes
    [(0b10101111000100000111011100011010, .vcvt ⟨true, 17, 29, true, true⟩ 26),
     (0xAF107753, .vquant ⟨true, 17, 29, true, true⟩ 19), (0xAF107790, .vdeq ⟨true, 17, 29, true, true⟩ 16),
     (0xAF1003C0, .vrand true 17 true true)] = true := by
  decide

/-- Words of opcode 0x18, put together from its map (04 R76 to R87). -/
theorem test_decode_18 : decodes
    [(0b10110001000101011111010000000110, .vmlog true 17 11 29 6), (0xB1207608, .vmpopc true 18 29 true),
     (0xB1207609, .vmfirst true 18 29 true), (0xB110760A, .viota true 17 29 true), (0xB110760B, .vcompress true 17 29),
     (0xB110760C, .vexpand true 17 29), (0xB110000D, .vmvsat true 17)] = true := by
  decide

/-- Words of opcode 0x19, put together from its map (04 R76 to R87). -/
theorem test_decode_19 : decodes
    [(0b10110011000101011111011000010000, .vredsum ⟨true, 17, 11, 29, true, true⟩),
     (0xB315F611, .vredmin ⟨true, 17, 11, 29, true, true⟩), (0xB315F612, .vredmax ⟨true, 17, 11, 29, true, true⟩),
     (0xB315F613, .vredminu ⟨true, 17, 11, 29, true, true⟩), (0xB315F614, .vredmaxu ⟨true, 17, 11, 29, true, true⟩),
     (0xB315F615, .vredand ⟨true, 17, 11, 29, true, true⟩), (0xB315F616, .vredor ⟨true, 17, 11, 29, true, true⟩),
     (0xB315F617, .vfredsum ⟨true, 17, 11, 29, true, true⟩), (0xB315F618, .vfredmin ⟨true, 17, 11, 29, true, true⟩),
     (0xB315F619, .vfredmax ⟨true, 17, 11, 29, true, true⟩)] = true := by
  decide

/-- Words of opcode 0x1A, put together from its map (04 R76 to R87). -/
theorem test_decode_1a : decodes
    [(0b10110101000101011111011010000000, .vslideup true 17 11 29 true 2), (0xB515F681, .vslidedn true 17 11 29 true 2),
     (0xB515F602, .vgatherv true 17 11 29 true), (0xB5158283, .vbcast true 17 11 true 2),
     (0xB5107604, .vmv true 17 29 true), (0xB5207405, .vmvxs true 18 29), (0xB5160046, .vmvsx true 17 12)] = true := by
  decide

/-- Words of opcode 0x1B, put together from its map (04 R76 to R87). -/
theorem test_decode_1b : decodes
    [(0b10110111000111101000001100000000, .vld ⟨true, 17, 29, 0, true, true⟩),
     (0xB71EB320, .vlds ⟨true, 17, 29, 12, true, true⟩), (0xB71E9B40, .vld2d ⟨true, 17, 29, 6, true, true⟩),
     (0xB71EDF60, .vldx ⟨true, 17, 29, 23, true, true⟩), (0xB71E8092, .vldwr true 17 29 18)] = true := by
  decide

/-- Words of opcode 0x1C, put together from its map (04 R76 to R87). -/
theorem test_decode_1c : decodes
    [(0b10111000110011101000001100000000, .vst ⟨true, 12, 29, 0, true, true⟩),
     (0xB8CED720, .vsts ⟨true, 12, 29, 21, true, true⟩), (0xB8CEDF60, .vstx ⟨true, 12, 29, 23, true, true⟩),
     (0xB8CE8092, .vstwr true 12 29 18)] = true := by
  decide

/-- Words of opcode 0x1D, put together from its map (04 R76 to R87). -/
theorem test_decode_1d : decodes
    [(0b00111010010101011111010000010000, .stripset 5 11 29 2), (0xBB138001, .sld true 17 7), (0xBAC18002, .sst true 12 3),
     (0x3B230003, .strippos 18 6)] = true := by
  decide

/-- Words of opcode 0x1E, put together from its map (04 R76 to R87). -/
theorem test_decode_1e : decodes
    [(0b10111100110011101101111101100000, .vscatadd ⟨true, 12, 29, 23, true, true⟩)] = true := by
  decide

/-- Words of opcode 0x1F, put together from its map (04 R76 to R87). -/
theorem test_decode_1f : decodes
    [(0b10111110000001011111010010000000, .wbld true 11 29 true), (0xBE000001, .wbdrop true), (0xBE007402, .mma true 29),
     (0xBE000003, .accz true), (0xBE05F404, .acci true 11 29), (0xBF158285, .accx true 17 11 true true),
     (0xBF258006, .msave true 18 11), (0xBE058007, .mrest true 11)] = true := by
  decide

/-- Words of opcode 0x20, put together from its map (04 R76 to R87). -/
theorem test_decode_20 : decodes
    [(0b11000001001101011111010001000000, .knotset true 51 11 29), (0xC1298841, .knotrd true 18 51 2),
     (0xC0058002, .splld true 11), (0xC0058003, .splst true 11), (0xC0007404, .spl true 29),
     (0xC005F405, .splbwd true 11 29), (0xC005F406, .splgrad true 11 29), (0xC0058087, .splgx true 11 true),
     (0xC115F438, .splref true 17 11 29 3)] = true := by
  decide

/-- Words of opcode 0x21, put together from its map (04 R76 to R87). -/
theorem test_decode_21 : decodes
    [(0b11000011001000000111011000000000, .copyb true 18 29 true), (0xC3207601, .bankb true 18 29 true),
     (0x43258002, .copywp 18 11), (0xC2C5F403, .settle true 12 11 29), (0xC2C5F404, .renew true 12 11 29),
     (0x43258025, .rgncnt 18 11 2)] = true := by
  decide

/-- Words of opcode 0x22, put together from its map (04 R76 to R87). -/
theorem test_decode_22 : decodes
    [(0b11000101000001011100100000000000, .mbpost true 16 11 18), (0xC505C801, .mbtake true 16 11 18),
     (0x45258002, .mbpoll 18 11)] = true := by
  decide

/-- The words that 04 R83 and R88 work out, and those of 05. -/
theorem test_decode_worked : decodes [(0x04000000, .addi 0 0 0), (0x26504CA0, .settypeImm 5 0x13),
    (0xAA429A00, .vfadd ⟨true, 4, 5, 6, true, false, 0⟩), (0x12500013, .lui 5 0x13), (0x02531C00, .add 5 6 7)] = true := by decide

/-- What 04 R89 names: a reserved opcode, the all-zero word, a reserved funct3, form, mode and width code, a nonzero
field that a map marks zero, C on a row without a class, m and d where the maps fix them, an odd register of a stride
pair. -/
theorem test_refused : refused [(0xFFFFFFFF, .reservedOpcode), (0x46000000, .reservedOpcode), (0x00000000, .reservedFunct),
    (0x1C006000, .reservedFunct), (0x0200000F, .reservedFunct), (0x00007000, .reservedFunct), (0x360000A0, .reservedFunct),
    (0x38000040, .reservedFunct), (0x280000C0, .reservedFunct), (0x0200001C, .reservedField), (0x1A000080, .reservedField),
    (0x22000000, .reservedField), (0x26000043, .reservedField), (0x10000040, .nonzeroField), (0x02000418, .nonzeroField),
    (0x84000000, .convoyBit), (0xC2000002, .convoyBit), (0xBA000003, .convoyBit), (0x28000012, .maskBit), (0x3000020D, .maskBit),
    (0x30000108, .densityBit), (0x36000440, .oddPair)] = true := by decide

/-! ## States for tests -/

/-- The answer of a check, looked at. -/
def okAnd {ε α : Type} (x : Except ε α) (p : α → Bool) : Bool :=
  match x with
  | .ok a => p a
  | .error _ => false

def errAnd {ε α : Type} (x : Except ε α) (p : ε → Bool) : Bool :=
  match x with
  | .ok _ => false
  | .error e => p e

/-- The next state, looked at. -/
def nextAnd (x : Out) (p : State → Bool) : Bool :=
  match x with
  | .next t => p t
  | _ => false

/-- The page of address 0 has the leaf entry `e` (13 R289), in the tables that `withFetchWord` sets up. -/
def withLeaf (s : State) (e : Nat) : State := setBytes s 0x120000 (bytesOfNat 8 e)

/-- A leaf of a page with every permission for user code, of a kind. -/
def leafOf (kind pa : Nat) : Nat := pa / 65536 * 2 ^ 28 + kind * 256 + 0xFF

/-- A hart in user mode; the page of address 0 is DRAM at 0x130000 with every permission. -/
def user : State := withLeaf (State.reset.withFetchWord 32 0x04000000) (leafOf 0 0x130000)

/-- The same in supervisor mode. -/
def sup : State := { user with hart := { user.hart with mode := .supervisor } }

/-- Scalar registers with values. -/
def withG (s : State) (l : List (Reg × Word)) : State := l.foldl (fun s p => writeG s p.1 p.2) s

/-- The hart changed. -/
def withHart (s : State) (f : Hart → Hart) : State := { s with hart := f s.hart }

/-- A vector register with elements of width w. -/
def elemsOf (w : Nat) (xs : List Nat) : VReg := ⟨.elems w, false, xs.zipIdx.map (fun p => (p.2, BitVec.ofNat 64 p.1)), [], []⟩

/-- A mask register. -/
def maskOf (xs : List Bool) : VReg := ⟨.bits, true, xs.zipIdx.map (fun p => (p.2, if p.1 then 1 else 0)), [], []⟩

/-- A user hart that holds one lane group with eight registers of 32 bits; VTYPE is a type code; a tile of one row of four
elements. v0 is a mask, v1 holds block scales of 1, the others the elements 1, 2, 3, 4 of the type's width. -/
def vec (code w : Nat) : State :=
  let s := { user with core := { user.core with owner := user.core.owner.set 0 (some 0), lpart := 0x8808 } }
  withHart s fun h => { h with
    vstate := 1, vtype := BitVec.ofNat 16 code, count := 8, maxsew := 32, vl := 4, vr := 1
    v := ((Vector.replicate 32 (elemsOf w [1, 2, 3, 4])).set 0 (maskOf [true, false, true, true])).set 1 (elemsOf 8 [127, 127, 127, 127]) }

/-- A tenant of column 0 with queue 0, slot 0, mailbox 0 and function 0. -/
def spec0 : TenantSpec where
  asid := 0
  columns := [0]
  granules := [0]
  blocks := []
  queues := [0]
  slots := [0]
  mailboxes := [0]
  quota := 4
  vector := 0x200
  scratch := 0
  ptbase := 0x100000
  functions := [0]

def tenant0 : Tenant := ⟨spec0, 100, 0, 0, some 0, none, false⟩

/-- The tenant is created, with its slot, mailbox and function. -/
def owned (s : State) : State :=
  let s := { s with sched := { s.sched with tenant := [(0, tenant0)] } }
  let s := setSlot s 0 { Slot.reset with valid := true, size := 4096 }
  let s := setBox s 0 { Mailbox.reset with ownerV := true }
  modFunc s 0 (fun x => { x with tenant := some 0 })

/-- A launch record of one hart on one column, by its bytes (17 R334). -/
def rcdBytes : List Byte := [0, 0, 1] ++ List.replicate 21 0 ++ [1, 0, 1, 2] ++ List.replicate 5 0 ++ [8]
  ++ List.replicate 94 0

/-- A gang of harts 0 and 1. -/
def gang0 : Gang where
  id := 1
  task := 1
  rcd := parseLaunch rcdBytes
  asid := 0
  members := [0, 1]
  ended := []
  triggered := []
  left := []
  preempting := false
  node := none
  via := none

def inGang (s : State) (g : Gang) : State := { s with sched := { s.sched with gang := [g] } }

/-- An invalidation of the current hart is under way. -/
def late (s : State) : State := { s with ms := { s.ms with tlbi := [⟨s.cur, 0, 0, 0⟩] } }
def calm (s : State) : Bool := !(s.ms.tlbi.any fun x => x.hart == s.cur)

/-- The word of address a is the number n, in the page of `user`. -/
def withWord (s : State) (a n : Nat) : State := setBytes s (0x130000 + a) (bytesOfNat 8 n)

/-- The instruction a hart waits at. -/
def waitsAt (s : State) (i : Instr) : State := withHart s fun h => { h with wait := some i }

/-! ## Witnesses: for each statement, states that meet its hypotheses, clause by clause -/

theorem witness_DecodeAndEncodeAgree : (Instr.add 31 0 17).wf = true
  ∧ decodes [(0x03F04400, .add 31 0 17)] = true := by decide

/-- A word that decodes, one that does not, a fetch that fails. -/
theorem witness_StepRunsTheDecodedInstruction :
    (let ready := fun (s : State) => decide (s.agenda = []) && decide (s.hart.run = .running)
      && decide (s.hart.wait = none)
      && !interruptDue s.hart && !s.hart.stepping
    let add := State.reset.withFetchWord 32 0x02531C00
    ready add && okAnd (fetchCheck add) (fun p => decide (wordAt add p.pa = 0x02531C00))
    && ready (State.reset.withFetchWord 32 0) && okAnd (fetchCheck (State.reset.withFetchWord 32 0)) (fun p =>
      errAnd (decodeWord (wordAt (State.reset.withFetchWord 32 0) p.pa)) (fun e => decide (e = .reservedFunct)))
    && ready (withHart add fun h => { h with pc := 2 })
    && errAnd (fetchCheck (withHart add fun h => { h with pc := 2 })) (fun c => decide (c.cause = 4))) = true := by decide +kernel

/-- No bank is in use after reset. -/
theorem witness_banks_are_free : (State.reset.withFetchWord 32 0x02531C00).hart.stepping = false
    ∧ ∀ b, bankFree (State.reset.withFetchWord 32 0x02531C00) b = true := ⟨rfl, fun _ => rfl⟩

/-- The turns of an agenda; hart 1 does not run after reset. -/
theorem witness_StepPerformsTheAgenda :
    { State.reset with agenda := [Turn.event .patrolScrub] }.agenda = [.event .patrolScrub]
    ∧ { State.reset with agenda := [Turn.outside hostBase [1]] }.agenda = [.outside hostBase [1]]
    ∧ { State.reset with agenda := [Turn.run 1 none] }.agenda = [.run 1 none]
      ∧ (getHart State.reset 1).run ≠ .running := by
  decide +kernel

theorem witness_StepKeepsMemoryCanonical : Memory.wf user.ms.mem = true ∧ nextAnd (step user) (fun _ => true) = true := by
  decide +kernel

theorem witness_StepKeepsRegistersLegal : RegistersLegal user ∧ nextAnd (step user) (fun _ => true) = true := by
  unfold RegistersLegal HartLegal; decide +kernel

/-- −2⁶³ by −1, a divisor that is not 0, −7 by 2. -/
theorem witness_DivisionNeverTraps :
    let s := withG user [(1, 0x8000000000000000), (2, 0xFFFFFFFFFFFFFFFF), (3, 0xFFFFFFFFFFFFFFF9), (4, 2)]
    (5 : Reg) ≠ 0 ∧ readG s 1 = BitVec.ofInt 64 (-2 ^ 63) ∧ readG s 2 = BitVec.ofInt 64 (-1) ∧ readG s 2 ≠ 0
    ∧ readG s 3 = BitVec.ofInt 64 (-7) ∧ readG s 4 = 2 := by decide +kernel

/-- A word of SEXT with code 0, and one of ZEXT with code 4. -/
theorem witness_RegisterArithmeticCompletes :
    (0x0200001C : IWord).extractLsb' 25 7 = 0x01 ∧ (0x0200001C : IWord).extractLsb' 0 10 = 0x01C
    ∧ (0x0200001C : IWord).extractLsb' 10 5 = 0 ∧ (0x0200101D : IWord).extractLsb' 25 7 = 0x01
    ∧ (0x0200101D : IWord).extractLsb' 0 10 = 0x01D ∧ 4 ≤ ((0x0200101D : IWord).extractLsb' 10 5).toNat
    ∧ instrOf 0x0200001C = .illegalWord 0x0200001C ∧ instrOf 0x0200101D = .illegalWord 0x0200101D
      ∧ user.hart.mode = .user := by
  decide +kernel

/-- Shift words with bits 11:6 not zero, and with bits 14:12 above 2. -/
theorem witness_ImmediateArithmeticCompletes : (0x10000040 : IWord).extractLsb' 25 7 = 0x08
    ∧ (0x10000040 : IWord).extractLsb' 6 6 ≠ 0 ∧ (0x10003000 : IWord).extractLsb' 25 7 = 0x08
    ∧ 2 < ((0x10003000 : IWord).extractLsb' 12 3).toNat := by decide

theorem witness_BranchesComplete : (0x1C006000 : IWord).extractLsb' 25 7 = 0x0E
  ∧ 6 ≤ ((0x1C006000 : IWord).extractLsb' 12 3).toNat
    ∧ (0x1C007FFF : IWord).extractLsb' 25 7 = 0x0E ∧ 6 ≤ ((0x1C007FFF : IWord).extractLsb' 12 3).toNat := by decide

/-- An aligned target, and one that is not, in user mode. -/
theorem witness_JumpsComplete : (readG (withG user [(1, 0x40)]) 1 + (4 : BitVec 15).signExtend 64).extractLsb' 0 2 = 0
    ∧ (readG (withG user [(1, 0x40)]) 1 + (0x7FFF : BitVec 15).signExtend 64).extractLsb' 0 2 ≠ 0
      ∧ user.hart.mode = .user := by
  decide +kernel

theorem witness_LoopOpensItsLevel : readG user 1 = 0 ∧ readG (withG user [(1, 1)]) 1 ≠ 0 := by decide +kernel

/-- Both levels at the same address with counts 2 and 1, and neither. -/
theorem witness_LoopEndAction :
    let h := { user.hart with lc1 := 2, le1 := 8, lc0 := 1, le0 := 8 }
    (h.lc1 ≠ 0 ∧ h.le1 = 8 ∧ h.lc1 ≠ 1) ∧ (h.lc0 ≠ 0 ∧ h.le0 = 8 ∧ ¬h.lc0 ≠ 1) ∧ ¬(h.le1 = 12) := by decide +kernel

/-- Loads and stores of every width at the end of the page; misaligned, not canonical, a page without R and W. -/
theorem witness_ScalarAccessesCompleteOrTrap :
    (let s := withG user [(1, 0xFFF8), (2, 1), (3, 0x80000000000000)]
    let shut := withLeaf s (0x13 * 2 ^ 28 + 0x73)
    let super := inGang (withHart shut fun h => { h with mode := .supervisor }) gang0
    let sick := { s with ms := { s.ms with poison := [(0x130000 + 0xFFF8) / 128] } }
    decide (super.hart.mode = .supervisor) && decide (gangOf super super.cur = some gang0)
    && loadForms.all (fun f => okAnd (resolveAligned s (readG s 1) f.2.1 .load) (fun p =>
      kindLocal (pteKind p.pte) && !readPoison s p.pa f.2.1) && s.hart.request.isNone
      && okAnd (resolveAligned sick (readG s 1) f.2.1 .load) (fun p => readPoison sick p.pa f.2.1)
      && [shut, super].all (fun u => errAnd (resolveAligned u (readG u 1) f.2.1 .load) (fun c => c.cause == 6)))
    && storeForms.all (fun f => okAnd (resolveAligned s (readG s 1) f.2 .store) (fun p => pteKind p.pte != kindMmio
        && !pteOrdered p.pte && (remoteFault s p (readG s 1) .store).isNone)
      && [shut, super].all (fun u => errAnd (resolveAligned u (readG u 1) f.2 .store) (fun c => c.cause == 6)))
    && decide (s.hart.sb.length < 16) && errAnd (resolveAligned s (readG s 2) 8 .load) (fun c => decide (c.cause < 64))
    && decide (s.hart.mode = .user) && decide ((readG s 2).toNat % 8 ≠ 0)
    && decide ((readG s 3).toNat % 8 = 0) && !canonical (readG s 3)) = true := by decide +kernel

/-- The slot page 0 in supervisor mode, a mailbox page in user mode; HOST and PEER pages, their requests with the
answers that can come. -/
def deviceUser : State := withG (withLeaf user (leafOf 5 0xC0000000000)) [(1, 0)]
def hostUser : State := withG (withLeaf user (leafOf 3 hostBase)) [(1, 8)]
def peerUser : State := withG (withLeaf user (leafOf 4 0x130000 + 7 * 65536)) [(1, 8)]

/-- No clean copy is held at all. -/
theorem witness_nothing_stale : NoStale user := by
  intro a
  unfold readByte liveByte
  split
  · rfl
  · rfl

/-- A place that no page entry gave. -/
def physAt (a : Nat) : Phys := ⟨a, 0, 0, 0, 0, false⟩
def waiting (s : State) (a : Nat) (answer : Option (Option (List Byte))) : State :=
  withHart s fun h => { h with request := some ⟨0, 0, 8, physAt a, 8, none, answer⟩ }

theorem witness_DeviceAndRemoteAccesses :
    (okAnd (resolveAligned deviceUser (readG deviceUser 1) 8 .load) (fun p => pteKind p.pte == kindMmio
      && (mmioLoad (touch deviceUser p false) true p.pa).isSome)
    && (let s := withHart deviceUser fun h => { h with mode := .supervisor }
      okAnd (resolveAligned s (readG s 1) 8 .store) (fun p => pteKind p.pte == kindMmio
        && (mmioStore s s.cur false p.pa 0).isSome && (mmioStore (touch s p true) s.cur false p.pa 0).isSome))
    && okAnd (resolveAligned deviceUser (readG deviceUser 1) 4 .load) (fun p => pteKind p.pte == kindMmio)
    && okAnd (resolveAligned deviceUser (readG deviceUser 1) 4 .store) (fun p => pteKind p.pte == kindMmio)
    && decide ((getHart sup 0).run = .running) && isMmio homeMapPage && decide (homeMapPage % 8 = 0)
    && (mmioStore sup 0 ((getHart sup 0).mode == .user) homeMapPage 1).isSome
    && okAnd (resolveAligned hostUser (readG hostUser 1) 8 .load) (fun p => pteKind p.pte == kindHost)
    && okAnd (resolveAligned peerUser (readG peerUser 1) 8 .load) (fun p => pteKind p.pte == kindPeer)
    && decide (((waiting hostUser (hostBase + 8) (some (some (List.replicate 8 0)))).hart.request.bind (·.answer))
      = some (some (List.replicate 8 0)))
    && decide (((waiting hostUser (hostBase + 8) (some none)).hart.request.bind (·.answer)) = some none)
    && decide ((getHart (waiting hostUser (hostBase + 8) none) 0).request = some ⟨0, 0, 8, physAt (hostBase + 8), 8, none, none⟩)
    && answerable (waiting hostUser (hostBase + 8) none) ⟨0, 0, 8, physAt (hostBase + 8), 8, none, none⟩
    && isHost (hostBase + 8) && decide (deviceUser.hart.mode = .user) && decide (hostUser.hart.mode = .user)
    && !isCached (vaultBase / 128 * 128)) = true := by decide +kernel

/-- A device page that belongs to the host, accessed with four bytes. -/
theorem witness_device_page_of_host :
    (let s := withG (withLeaf user (leafOf 5 0xC0000000000 + 2 ^ 11)) [(1, 0)]
    decide ((readG s 1).toNat % 4 = 0)
      && errAnd (resolve s (readG s 1) .load) (fun c => decide (c = ⟨7, readG s 1, Access.load.code⟩))
    && (match leafFor s (readG s 1) with
      | .leaf pte _ _ _ => pteKind pte == kindMmio
      | _ => false)) = true := by decide +kernel

/-- Stores to a peer: one whose port is lost ends in an error; one whose port retrains waits, unless the peer refuses
it, which is free. -/
def portState (x : Link) : State := setPort { peerUser with host := { peerUser.host with routes := [(7, 0)] } } 0 x
theorem witness_store_to_lost_peer :
    (let s := withG (withLeaf (portState ⟨false, 8, 0, true⟩) (leafOf 4 0x130000 + 7 * 65536)) [(1, 8)]
    storeForms.all fun f => okAnd (resolveAligned s (readG s 1) f.2 .store) (fun p => pteKind p.pte != kindMmio
      && ((remoteFault s p (readG s 1) .store).map (·.cause)).getD 0 == 6)) = true := by decide +kernel
theorem witness_store_to_peer_retraining (p : Phys) (a : Word) (h : p.pa = peerKey 7 0x130008) :
    let s := portState ⟨false, 8, 0, false⟩
    (remoteFault s p a .store).map (·.cause) = some (if Config.remoteError s.tick p.pa then causeAccess else causeWaits) := by
  have h1 : pathLost (portState ⟨false, 8, 0, false⟩) (peerKey 7 0x130008) = false := by decide +kernel
  have h2 : pathUp (portState ⟨false, 8, 0, false⟩) (peerKey 7 0x130008) = false := by decide +kernel
  have h3 : isHost (peerKey 7 0x130008) = false ∧ isPeer (peerKey 7 0x130008) = true := by decide +kernel
  simp only [remoteFault, h, h1, h2, h3.1, h3.2]
  cases Config.remoteError (portState ⟨false, 8, 0, false⟩).tick (peerKey 7 0x130008) <;> simp [accessTrap]

/-- Widths 2 and 3; with an invalidation under way and without. -/
theorem witness_OrderedAccessesComplete :
    (let s := withG user [(1, 0x40)]
    let late := { s with ms := { s.ms with tlbi := [⟨0, 0, 0, 0⟩] } }
    [(2 : BitVec 2), 3].all fun w => s.hart.request.isNone
      && okAnd (resolveAligned s (readG s 1) (orderedBytes w) .load) (fun p => kindLocal (pteKind p.pte)
        && !readPoison s p.pa (orderedBytes w))
      && okAnd (resolveAligned s (readG s 1) (orderedBytes w) .store) (fun p => pteKind p.pte != kindMmio
        && !pteOrdered p.pte && (remoteFault s p (readG s 1) .store).isNone)
      && !releaseWaits s 2
      && okAnd (resolveAligned late (readG late 1) (orderedBytes w) .store) (fun p => pteKind p.pte != kindMmio
        && (remoteFault late p (readG late 1) .store).isNone)
      && releaseWaits late 1) = true := by decide +kernel

theorem witness_AtomicsComplete :
    (let s := withG user [(1, 0x40), (2, 5)]
    [(2 : BitVec 2), 3].all fun w => s.hart.request.isNone && decide ((readG s 1).toNat % orderedBytes w = 0)
      && okAnd (resolveKind s (readG s 1) .atomic kindShared) (fun p => pteKind p.pte != kindPeer
        && !atomicPoison s p.pa (orderedBytes w)) && !releaseWaits s 2) = true := by decide +kernel

/-- Vector state on in supervisor mode, a tenant, a legal and an illegal LPART value, reservations of 0 and 9. -/
theorem witness_SystemRegistersAreAccessed :
    let s := owned (withHart (vec 3 32) fun h => { h with mode := .supervisor })
    s.hart.mode = .supervisor ∧ s.hart.vstate ≠ 0 ∧ (tenantOf s s.hart.asid).isSome = true ∧ LpartLegal s 0x8808
    ∧ ¬LpartLegal s 0x80F8 ∧ (0 ≤ 8 ∧ 0 + othersShare s ≤ 8) ∧ ¬(9 ≤ 8 ∧ 9 + othersShare s ≤ 8)
    ∧ (vec 3 32).hart.vstate ≠ 0 := by
  unfold LpartLegal; decide +kernel

theorem witness_TrapsAreEntered :
    user.hart.mode = .user ∧ errAnd (fetchCheck (withHart user fun h => { h with pc := 1 })) (fun c => decide (c.cause < 64)) = true
    ∧ (inGang sup gang0).hart.mode = .supervisor ∧ gangOf (inGang sup gang0) 0 = some gang0 := by decide +kernel

/-- Without YIELD; with YIELD after a PREEMPT, with one pending, and without; a gang whose only member left a record. -/
theorem witness_HartsReturnAndResume :
    (sup.hart.mode = .supervisor ∧ sup.hart.tstatus.getLsbD 1 = false)
    ∧ [((0x3002 : Word), true, true), (0x3022, false, true), (0x3002, false, false)].all (fun x =>
      let s := inGang (withHart sup fun h => { h with tstatus := x.1, preempted := x.2.1 }) gang0
      decide (s.hart.mode = .supervisor) && s.hart.tstatus.getLsbD 1 && decide (gangOf s s.cur = some gang0)
      && !releaseWaits s 1 && (s.hart.preempted || s.hart.tstatus.getLsbD 5) == x.2.2) = true
    ∧ (let g := { gang0 with members := [0], preempting := true, left := [(0, hartRecord sup.hart 0 1)] }
      let s := inGang State.reset g
      s.sched.gang.find? (fun x => x.id == 1) = some g ∧ resumesNext s g = true
        ∧ mapRising g.left = true) := by decide +kernel

/-- Each interrupt pending in user mode; a SLICE of 1; a hart that took PREEMPT. -/
theorem witness_InterruptsAreTakenInOrder :
    (let with_ := fun n => withHart user fun h => { h with tstatus := n, slice := 1, preempted := true }
    [(0x3070 : Word), 0x3050, 0x3010].all (fun n => decide ((getHart (with_ n) 0).run = .running)
      && decide ((getHart (with_ n) 0).mode = .user) && decide ((getHart (with_ n) 0).wait = none)
      && decide ((getHart (with_ n) 0).slice ≠ 0) && (getHart (with_ n) 0).preempted)
    && (getHart (with_ 0x3070) 0).tstatus.getLsbD 5
    && !(getHart (with_ 0x3050) 0).tstatus.getLsbD 5 && (getHart (with_ 0x3050) 0).tstatus.getLsbD 6
    && !(getHart (with_ 0x3010) 0).tstatus.getLsbD 5 && !(getHart (with_ 0x3010) 0).tstatus.getLsbD 6
    && (getHart (with_ 0x3010) 0).tstatus.getLsbD 4) = true := by decide +kernel

theorem witness_HartsParkAndTasksEnd :
    (let due := withHart user fun h => { h with tstatus := 0x3010 }
    let array := withHart user fun h => { h with mstateen := true }
    decide (user.hart.mode = .user) && decide (user.hart.wait ≠ some .park) && !user.hart.mstateen
      && !interruptDue user.hart
    && interruptDue due.hart && array.hart.mstateen && matrixEmpty array
    && decide ((array.hart.tileset.extractLsb' 2 2).toNat = 1)
    && decide ((getHart (waitsAt due .park) 0).wait = some .park) && !(getHart (waitsAt due .park) 0).stepping
    && interruptDue (getHart (waitsAt due .park) 0) && decide (sup.hart.mode = .supervisor)
      && decide (sup.hart.wait ≠ some .park)
    && !releaseWaits user 1 && decide (gangOf (inGang sup gang0) 0 = some gang0)
    && decide (gangOf (inGang user gang0) 0 = some gang0)
    && decide (((inGang user gang0).sched.gang.map (·.id)).Nodup) && gang0.members.contains 1
      && !gang0.ended.contains 1) = true := by
  decide +kernel

/-- A barrier that is open, with a member that has arrived and waits, and one that is not; an invalidation under way. -/
theorem witness_FencesAndBarriersComplete :
    (let s := inGang user gang0
    let met := modHart s 1 fun h => { h with run := .running, wait := some .bar, arrived := true }
    !releaseWaits user 2 && releaseWaits (late s) 1 && barOpen met && decide (gangOf met met.cur = some gang0)
      && decide (gang0.members.Nodup)
    && decide (barWaiters met = [1]) && !barOpen s && !releaseWaits met 1
    && decide ((getHart (waitsAt met .bar) 0).wait = some .bar) && !(getHart (waitsAt met .bar) 0).stepping
    && barOpen (focus (waitsAt met .bar) 0) && !releaseWaits (focus (waitsAt met .bar) 0) 1) = true := by decide +kernel

/-- Each reason of a WAITADDR; a watermark reached and not reached. -/
theorem witness_WaitsEndForTheirReasons :
    (let s := withG user [(1, 0x1000), (2, 5)]
    let seen := withHart s fun h => { h with monitor := some ⟨0x131000 / 128, some 0⟩ }
    let armed := waitsAt seen (.waitaddr 3 1 2)
    let full := withWord s 0x1000 5
    let wm := waitsAt full (.waitwm 1 2)
    okAnd (resolveKind seen (readG seen 1) .load kindLocal) (fun p => decide (seen.hart.monitor = some ⟨p.pa / 128, some 0⟩)
      && decide (p.slot / 128 ≠ p.pa / 128))
    && s.hart.monitor.isNone && s.hart.wait.isNone
    && decide ((getHart armed 0).wait = some (.waitaddr 3 1 2)) && !(getHart armed 0).stepping
    && decide ((getHart armed 0).monitor = some ⟨0x131000 / 128, some 0⟩) && decide (readG (focus armed 0) 2 ≠ 0)
    && (let due := withHart armed fun h => { h with tstatus := 0x3010 }
      decide ((getHart due 0).run = .running) && interruptDue (getHart due 0)
        && decide ((getHart due 0).wait = some (.waitaddr 3 1 2)))
    && decide ((readG s 1).toNat % 8 = 0) && !releaseWaits s 1
    && okAnd (resolveKind s (readG s 1) .atomic kindShared) (fun p => !atomicPoison s p.pa 8
      && (remoteFault s p (readG s 1) .atomic).isNone && (decide (p.slot < p.pa) || decide (p.pa + 8 ≤ p.slot)))
    && okAnd (resolveKind s (readG s 1) .load kindShared) (fun p => !readPoison (discardClean (touch s p false) s.col) p.pa 8
      && (remoteFault s p (readG s 1) .load).isNone && (decide (p.slot < p.pa) || decide (p.pa + 8 ≤ p.slot))
        && decide (natOfBytes (liveBytes s p.pa 8) < (readG s 2).toNat))
    && okAnd (resolveKind full (readG full 1) .load kindShared) (fun p => !readPoison (discardClean (touch full p false) full.col) p.pa 8
      && decide ((readG full 2).toNat ≤ natOfBytes (liveBytes full p.pa 8)))
    && decide ((getHart wm 0).wait = some (.waitwm 1 2)) && !(getHart wm 0).stepping
    && okAnd (resolveKind (focus wm 0) (readG (focus wm 0) 1) .load kindShared) (fun p =>
      !readPoison (discardClean (touch (focus wm 0) p false) 0) p.pa 8
      && (remoteFault (focus wm 0) p (readG (focus wm 0) 1) .load).isNone
        && (decide (p.slot < p.pa) || decide (p.pa + 8 ≤ p.slot))
      && decide ((readG (focus wm 0) 2).toNat ≤ natOfBytes (liveBytes (focus wm 0) p.pa 8)))) = true := by decide +kernel

theorem witness_GeneratorsAreSavedAndRestored :
    (let s := withG user [(1, 0x40)]
    decide ((readG s 1).toNat % 64 = 0) && okAnd (resolveKind s (readG s 1) .store kindLocal) (fun _ => true)
    && okAnd (resolveKind s (readG s 1) .load kindLocal) (fun p => !readPoison s p.pa 64)) = true := by decide +kernel

/-- At a boundary: a hart that does not contend; one whose target is below what it holds, with and without matrix state;
one whose target is above. SETREGS with a group to take, without one, with EN clear. Types that are legal, above 0x3FF,
not legal. -/
theorem witness_LengthsAndTypesAreGranted :
    (let s := vec 3 32
    let contending := withHart s fun h => { h with contending := true }
    let many := { contending with core := { contending.core with lpart := 0x8000 } }
    let full := { many with core := { many.core with acc := [(0, ⟨1, true⟩)] } }
    let heldAll := { contending with core := { contending.core with owner := Vector.replicate 8 (some 1) } }
    let target := fun (x : State) => laneTarget { x with hart := clearResv x.hart } x.cur
    let at_ := fun (x : State) => ({ x with hart := clearResv x.hart } : State)
    !contends (at_ s) s.cur && decide (s.hart.mode = .user) && contends (at_ contending) s.cur && contends (at_ many) s.cur
    && decide ((heldGroups contending.core 0).length ≤ target contending)
    && decide (target many < (heldGroups many.core 0).length) && matrixEmpty many && !matrixEmpty full
    && decide (s.hart.vstate ≠ 0) && lpEn s.core.lpart 0 && !lpEn user.core.lpart 0
    && !mustStall (afterArbiter contending) && mustStall (afterArbiter heldAll)
    && !mustStall (afterArbiter s)
    && decide ((getHart (waitsAt s (.setlen 1 2)) 0).wait = some (.setlen 1 2))
      && !mustStall (afterArbiter (focus (waitsAt s (.setlen 1 2)) 0))
    && (etypeOf (0x3D3 % 64)).isSome && (etypeOf (0x3F % 64)).isNone
    && isLive s.hart 4 && decide ((s.hart.v.getD 4 VReg.reset).tag = .elems 32)) = true := by decide +kernel

theorem witness_ClaimsTakeTheirShare :
    (let s := withWord (withWord (withG (vec 3 32) [(1, 0x1000), (2, 9)]) 0x1000 3) 0x1008 8
    let stalled := withHart { s with core := { s.core with owner := Vector.replicate 8 (some 1) } } fun h => { h with contending := true }
    [s, stalled].all (fun s => decide ((readG s 1).toNat % 16 = 0)
      && okAnd (resolveKind s (readG s 1) .atomic kindShared) (fun p => !atomicPoison s p.pa 16
        && (remoteFault s p (readG s 1) .atomic).isNone
        && (decide (p.slot < p.pa) || decide (p.pa + 16 ≤ p.slot))))
    && !mustStall (afterArbiter s) && mustStall (afterArbiter stalled)) = true := by decide +kernel

/-- TILENOFF 383 and 384; requests malformed, with weights queued, with a partner that has met and one that has not. -/
theorem witness_TilesAreShapedAndBound :
    (let s := withHart (vec 3 32) fun h => { h with mstateen := true }
    let pair : Word := 0 + 2 * 4 + 1 * 2 ^ 24
    let g := { gang0 with members := [0, 4] }
    let s2 := withG (inGang s g) [(1, pair)]
    let met := modHart s2 4 fun h => { h with run := .running, wait := some (.tilebind 2 1), g := h.g.set 1 (pair + 1) }
    decide (s.hart.vstate ≠ 0) && s.hart.mstateen && !tileRequestOk 0 0xFFFF && tileRequestOk 0 pair
      && s2.hart.fifo.isEmpty
    && !((withHart s2 fun h => { h with fifo := [⟨0, 8, [], 0, 0, false, false⟩] }).hart.fifo.isEmpty)
    && decide (partners s2 pair = [4]) && (gangOf s2 4).isSome
      && decide ((gangOf s2 4).map (·.id) = (gangOf s2 0).map (·.id))
    && (bindValue s2 4).isNone && ((bindValue met 4).map (sameSet pair)).getD false
    && decide ((getHart (waitsAt met (.tilebind 3 1)) 0).wait = some (.tilebind 3 1))) = true := by decide +kernel

theorem witness_SubmissionsAreAnswered :
    (let s := owned user
    let r := parseLaunch rcdBytes
    let q : Queued := ⟨1, r, 0, none, false, none⟩
    let full := { s with sched := { s.sched with queue := [(0, List.replicate 64 q)] } }
    let a := withG (setBytes s 0x131000 rcdBytes) [(1, 0x1000)]
    (tenantOf user 0).isNone && (tenantOf s 0).isSome && recordOk s tenant0 0 rcdBytes
      && !recordOk s tenant0 0 (List.replicate 128 0)
    && decide (64 ≤ (queueOf full 0).length) && decide ((queueOf s 0).length < 64) && decide (queuedBy s 0 < 4)
    && decide (4 ≤ queuedBy full 0)
    && a.hart.request.isNone && decide ((readG a 1).toNat % 128 = 0) && !releaseWaits a 1
    && okAnd (resolveKind a (readG a 1) .load kindMemory) (fun p => kindLocal (pteKind p.pte) && !readPoison a p.pa 128)
    && decide (s.host.bootFail = none) && decide ((funcOf s 0).tenant = some 0)
      && decide (rcdBytes.length = 128)) = true := by
  decide +kernel

/-- A head that fits, a node that does, a head that is a graph's; one of PRIO 0 that does not, with a gang of PRIO 7 to
stop; a head to age; a graph register bound and free. -/
theorem witness_TasksAndGraphsAreScheduled :
    (let r := parseLaunch rcdBytes
    let s := owned State.reset
    let q : Queued := ⟨1, r, 0, none, false, none⟩
    let put := fun (r : LaunchRecord) => { s with sched := { s.sched with queue := [(0, [⟨1, r, 0, none, false, none⟩])] } }
    let urgent := { r with prio := 0, gang := 2 }
    let old := { gang0 with rcd := { r with prio := 7 } }
    let u := inGang (put urgent) old
    let node : ReadyNode := ⟨0, [], r⟩
    let replay : Replay := ⟨1, r, 0, 0, 0, 0, 1, [], [node], [], 0, false, none⟩
    let noded := { s with sched := { s.sched with replay := [replay] } }
    let graph := { r with graph := true }
    decide ((put r).sched.replay = []) && decide ((candidates (put r)).head? = some (0, .head q)) && !q.rcd.graph
    && decide ((candidates noded).head? = some (0, .node replay node)) && decide (placeOn noded 0 r [0] = some [0])
    && decide (replay.signals = []) && (tenantOf noded 0).isSome
    && decide ((candidates (put graph)).head? = some (0, .head ⟨1, graph, 0, none, false, none⟩))
    && decide (placeOn (put r) 0 r [0] = some [0]) && (tenantOf (put r) 0).isSome
    && decide ((candidates u).head?.map (fun c => c.2.prio) = some 0) && decide (placeOn u 0 urgent [] = none)
    && decide (queueOf (put r) 0 = [q]) && eligible (put r) q && !q.aged && decide (tenant0.qage ≠ 0)
    && decide (s.host.bootFail = none) && decide ((funcOf s 0).tenant = some 0) && !tearingDown s 0
    && decide ((graphReg s 0 63).bound0 + (graphReg s 0 63).bound1 = 0)
    && (let t := { s with sched := { s.sched with graph := [(graphKey 0 5, { GraphReg.reset with bound0 := 1 })] } }
      decide ((graphReg t 0 5).bound0 + (graphReg t 0 5).bound1 ≠ 0))) = true := by decide +kernel

/-! Vector instructions: v2 is the destination, v3 and v4 the sources. -/

def vop : VOp := ⟨false, 2, 3, 4, false, false, 0⟩
def vun : VUn := ⟨false, 2, 4, true, false⟩
def vred : VRed := ⟨false, 2, 3, 4, true, false⟩
def vmem : VMem := ⟨false, 2, 1, 3, true, false⟩
/-- Band scale 1 and recorded saturation. -/
def scaledVec (code w : Nat) : State :=
  withHart (vec code w) fun h => { h with vbscale := 0x3F80, vsat := [(0, true), (1, false), (2, false), (3, true)] }
/-- A request passes its checks. -/
def clear (s : State) (q : VReq) : Bool := decide (checkVector s q = none)

/-- Each of the six answers, at the boundary of its clause: a register number equal to the count, a type wider than
MAXSEW, a class already in the convoy. -/
theorem witness_VectorChecksComeInOrder :
    (let s := vec 0x03 32
    let q := vopReq (.vadd vop) .alu vop acceptInt
    let a : VReq := { q with array := true }
    let high : VReq := { q with groupReads := [8] }
    decide ((checkVector user q).map (·.cause) = some 3) && decide ((checkVector s a).map (·.cause) = some 10)
    && decide ((checkVector s high).map (·.cause) = some 0)
    && decide ((checkVector (withHart s fun h => { h with vtype := 0x04 }) q).map (·.cause) = some 2)
    && decide ((checkVector (withHart s fun h => { h with convoy := some ⟨[.alu], [], []⟩ }) q).map (·.cause) = some 1)
    && clear s q && clear (withHart s fun h => { h with convoy := some ⟨[.alu], [], []⟩ }) { q with c := true }
    && clear s { q with groupReads := [7] }
    && decide (user.hart.mode = .user)
    && vectorLoads.all (fun r => (checkVector user (r.2.1 user vmem)).isSome)
    && vectorStores.all (fun r => (checkVector user (r.2.1 user vmem)).isSome)) = true := by decide +kernel

/-- A whole run, and one that an interrupt cuts at index 32 of 64. -/
theorem witness_IntegerVectorsComplete :
    NoStop (vec 3 32)
    ∧ ((integerResults.all fun r => clear (vec 3 32) (vopReq (r.1 vop) r.2.1 vop acceptInt))
      && active (vec 3 32) true 0 && !active (vec 3 32) true 1 && decide (regOf (vec 3 32) 2 3 < 32)
      && decide (elem? (vec 3 32) 3 32 3 = some 4)
      && (let s := withHart (vec 3 32) fun h => { h with tstatus := 0x3010, vl := 64, stopAt := some 32 }
        interruptDue s.hart && !s.hart.stepping && !compacted s false false && decide (32 % groupElems s (sew s) = 0)
        && decide (s.hart.vstart.toNat < 32) && decide (32 < tileSize s)
        && integerResults.all fun r => clear s (vopReq (r.1 vop) r.2.1 vop acceptInt))) = true := by
  unfold NoStop NoneBad; decide +kernel

theorem witness_SaturationsMergesAndComparisons :
    NoStop (vec 3 32) ∧ NoStop (vec 0x13 32)
    ∧ (let s := vec 3 32; let f := vec 0x13 32
      clear s (vopReq (.vsadd vop) .alu vop acceptInt) && clear s (vopReq (.vssub vop) .alu vop acceptInt)
      && decide (etype? s.hart = some (.int 32)) && clear s (vopReq (.vmerge vop) .alu vop acceptInt)
      && decide (maskBit? s 0 1 = some false)
      && compareResults.all (fun c => clear s (cmpReq s (.vcmp vop c.1) .alu vop acceptInt))
      && clear f (cmpReq f (.vfcmp vop 2) .fma vop acceptFloat8)
        && decide (elem? f 3 (fmtD f).width 0 = some 1)) = true := by
  unfold NoStop NoneBad; decide +kernel

theorem witness_FloatVectorsComplete :
    NoStop (vec 0x13 32)
    ∧ (floatResults.all (fun r => clear (vec 0x13 32) (r.2.1 vop))
      && unaryResults.all (fun r => clear (vec 0x13 32) (vunReq (r.1 vun) .fma vun r.2.1))) = true := by
  unfold NoStop NoneBad; decide +kernel

/-- Unscaled and scaled conversions; a scale of 0xFF in block 0; a quantisation to E2M1 and one to int8. -/
theorem witness_ConversionsAndQuantisation :
    NoStop (scaledVec 0x13 32) ∧ NoStop (scaledVec 0x10 32)
    ∧ (let f := scaledVec 0x13 32; let e := scaledVec 0x10 32; let i8 := scaledVec 0x01 32
      let bad := withHart e fun h => { h with v := h.v.set 1 (elemsOf 8 [255, 127]) }
      clear f (cvtReq f (.vcvt vun 3) vun (srcType 3) false false (fun _ => true))
      && clear e (cvtReq e (.vcvt vun 0x13) vun (srcType 0x13) true true (fun _ => true))
      && clear f (cvtReq f (.vdeq vun 1) vun (srcType 1) true true acceptFloat)
      && (elemRange 0 4).all (fun j => (scaleTrap e j).isNone) && (scaleTrap bad 0).isSome
      && clear bad (cvtReq bad (.vcvt vun 0x13) vun (srcType 0x13) true true (fun _ => true))
        && decide (bad.hart.mode = .user)
      && clear f { vreq (wordOf (.vrand false 2 true false)) .alu false with
        groupWrites := [2], masked := true, accept := some acceptRand }
      && clear e { cvtReq e (.vquant vun 0x13) vun (srcType 0x13) true false acceptQuant with writesScales := true }
      && clear i8 { cvtReq i8 (.vquant vun 0x13) vun (srcType 0x13) true false acceptQuant with writesScales := true }
      && !(drawsNow f && drawsUndefined f) && !(drawsNow e && drawsUndefined e) && !drawsUndefined f
      && bandScaleOk e.hart.vbscale.toNat
      && (match quantElem i8 (etypeD i8) (blockCode i8 vun (srcType 0x13) (etypeD i8) 0) 0 (Machine.quantSource i8 vun (srcType 0x13) 0) with
        | .write _ _ (some _) => true
        | _ => false)) = true := by
  unfold NoStop NoneBad; decide +kernel

theorem witness_MaskInstructionsComplete :
    (let s := scaledVec 3 32
    let s := withHart s fun h => { h with v := (h.v.set 5 (maskOf [true, true, false, true])).set 6 (maskOf [false, true, true, true]) }
    clear s (vmlogReq s false 7 5 6 2)
    && decide (maskBit? s 5 2 = some false) && decide (maskBit? s 6 0 = some false)
    && clear s { maskReq (.vmvsat false 7) .alu false false none with singleWrites := [7] }
    && decide (mapGet? s.hart.vsat 3 = some true)
    && clear s (maskScalarReq s (.vmpopc false 9 5 true) false 5 true)
    && clear s (maskScalarReq s (.vmfirst false 9 5 true) false 5 true)
    && clear s (viotaReq s false 2 5 true)
    && clear s (vcompressReq s false 2 4) && clear s (vexpandReq s false 2 4)
    && decide ((List.range (tileSize s)).filter (fun e => maskBit s 0 0 e) = [0, 2, 3])) = true := by decide +kernel

theorem witness_ReductionsAndPermutationsComplete :
    NoStop (vec 3 32)
    ∧ (let s := vec 3 32; let f := vec 0x13 32
      reductionResults.all (fun r => clear s (redReq s (r.1 vred) vred acceptInt))
      && decide ((redRows s vred).map (·.1) = [0]) && decide (elem s 2 4 32 3 < 2 ^ 32)
      && clear f (redReq f (.vfredsum vred) vred acceptFloat) && clear f (redReq f (.vfredmin vred) vred acceptFloat8)
      && clear f (redReq f (.vfredmax vred) vred acceptFloat8)
      && clear s (slidednReq s false 2 1 4 true 2) && clear s (slideupReq s false 2 1 4 true 1)
      && clear s (vgathervReq s false 2 3 4 true) && clear s (vbcastReq s false 2 1 true 1)
      && clear s { maskReq (.vmv false 2 4 true) .alu false true (some acceptAll) with groupReads := [4], groupWrites := [2] }
      && clear s (vmvxsReq false 9 4)
      && clear s { maskReq (.vmvsx false 2 9) .perm false false (some acceptAll) with groupWrites := [2], needs := some [] }
      && decide (elem? s 4 32 0 = some 1)) = true := by
  unfold NoStop NoneBad; decide +kernel

/-- A vector access of one element at 0x1000: strides and indices of 4. -/
def accessVec (code w : Nat) : State :=
  withHart (withG (vec code w) [(1, 0x1000), (5, 4), (6, 4)]) fun h => { h with vl := 1, v := h.v.set 5 (elemsOf w [0, 4, 8, 12]) }
def vacc : VMem := ⟨false, 2, 1, 5, true, false⟩
/-- The same from a misaligned base. -/
def oddVec : State := withG (accessVec 3 32) [(1, 0x1001)]
/-- The page's sector is poisoned. -/
def sick : State := { user with ms := { user.ms with poison := [0x131000 / 128] } }

/-- Every load, from a mapped and from a misaligned base; an element of each answer. -/
theorem witness_VectorLoadsComplete :
    NoStop (accessVec 3 32) ∧ NoStop oddVec
    ∧ (vectorLoads.all (fun r => clear (accessVec 3 32) (r.2.1 (accessVec 3 32) vacc)
        && (loadRun (r.2.2 (accessVec 3 32) vacc) true 32 (accessVec 3 32) (elemRange 0 1)).trap.isNone
        && clear oddVec (r.2.1 oddVec vacc)
        && decide ((loadRun (r.2.2 oddVec vacc) true 32 oddVec (elemRange 0 1)).trap = some (0, ⟨4, 0x1001, 0⟩)))
      && decide (oddVec.hart.mode = .user) && decide ((sew (accessVec 3 32)) = 32)
      && errAnd (resolveKind user 0x20000 .load kindMemory) (fun _ => true)
      && okAnd (resolveKind user 0x1000 .load kindMemory) (fun p => !readPoison user p.pa 4
        && (remoteFault user p 0x1000 .load).isNone)
      && (let lost := withLeaf (portState ⟨false, 8, 0, true⟩) (leafOf 4 0x130000 + 7 * 65536)
        okAnd (resolveKind lost 8 .load kindMemory) fun p => (remoteFault lost p 8 .load).isSome)
      && (vectorLoads.all fun r => decide ((loadPoints (r.2.2 (accessVec 3 32) vacc) true 32 (accessVec 3 32) (elemRange 0 1)).length = 1))
      && okAnd (resolveKind sick 0x1000 .load kindMemory) (fun p => readPoison sick p.pa 4)) = true := by
  unfold NoStop NoneBad; decide +kernel

/-- Every store, and a scatter. -/
theorem witness_VectorStoresComplete :
    NoStop (accessVec 3 32)
    ∧ (vectorStores.all (fun r => clear (accessVec 3 32) (r.2.1 (accessVec 3 32) vacc)
        && (storeRun (r.2.2 (accessVec 3 32) vacc) true 2 32 (accessVec 3 32) (elemRange 0 1)).2.isNone
        && (let places := storePlaces (r.2.2 (accessVec 3 32) vacc) true 2 32 (accessVec 3 32) (elemRange 0 1)
          decide (places.map (·.2.pa) = [0x131000]) && places.all (fun p => decide (p.2.slot < 0x131000)
            && !pteOrdered p.2.pte)))
      && (let s := accessVec 3 32
        let addr := fun e => readG s 1 + BitVec.ofNat 64 (elem s 4 5 32 e)
        clear s (memReq s (.vscatadd vacc) vacc false true acceptScatter) && (scatterRun addr true 2 32 1 1 0 s).2.isNone
        && decide (tileSize s = 1) && active s true 0 && decide (etypeD s = .int 32)
        && decide ((scatterPlaces addr true 2 32 1 1 0 s).map (fun q => (q.1, q.2.pa)) = [(0, 0x131000)])
        && (scatterPlaces addr true 2 32 1 1 0 s).all (fun q => decide (q.2.slot < 0x131000))
        && okAnd (resolveElem s (addr 0) 4 .atomic kindShared) (fun p => !atomicPoison s p.pa 4
          && decide (p.slot < p.pa)))) = true := by
  unfold NoStop NoneBad; decide +kernel

/-- A range in one page, by the leaf of the page. -/
theorem resolve_one (s : State) (a : Word) (n : Nat) (acc : Access) (ok : Nat → Bool) (p : Phys)
    (h1 : pagesOf a n = [(a, n)]) (h2 : resolveKind s a acc ok = .ok p) (h3 : remoteFault s p a acc = none) :
    resolveRange s a n acc ok = .ok [⟨a, p, n⟩] := by
  unfold resolveRange
  rw [h1]
  simp [resolvePages, h2, h3]

/-- Cached translations that agree with the tables decide nothing. -/
theorem leafFor_agrees (s : State) (a : Word) (e : TlbEntry) (u : UpperEntry) (frame : Nat) (block : Bool)
    (h1 : tlbFind s (a.toNat / 65536) = some e) (h2 : upperFind s 2 (a.toNat / 65536) = some u)
    (h3 : e.frameOf (a.toNat / 65536) = frame ∧ e.block = block)
    (h4 : walk s s.hart.ptbase a = .leaf e.entry e.slot frame block)
    (h5 : walkThree s u.entry a = .leaf e.entry e.slot frame block) : leafFor s a = .leaf e.entry e.slot frame block := by
  unfold leafFor walkHere heldOr
  simp [h1, h2, h3.1, h3.2, h4, h5]

theorem leafFor_walks (s : State) (a : Word) (u : UpperEntry) (l : Walk) (h1 : tlbFind s (a.toNat / 65536) = none)
    (h2 : upperFind s 2 (a.toNat / 65536) = some u) (h3 : walk s s.hart.ptbase a = l) (h4 : walkThree s u.entry a = l) :
    leafFor s a = l := by
  unfold leafFor walkHere heldOr
  simp [h1, h2, h3, h4]

theorem resolveKind_leaf (s : State) (a : Word) (acc : Access) (ok : Nat →
  Bool) (pte : Word) (slot frame : Nat) (block : Bool)
    (h : leafFor s a = .leaf pte slot frame block) (hc : canonical a = true)
    (hl : checkLeaf s (s.hart.mode == .user) pte (physOf pte frame a) acc = none) (hk : ok (pteKind pte) = true) :
    resolveKind s a acc ok = .ok ⟨physOf pte frame a, pte, slot, a.toNat / 65536, frame, block⟩ := by
  unfold resolveKind resolve
  simp [h, hc, hl, hk]

/-- A tile of four elements whose images stand at the end of a page, the header in one page and the blocks in the next. -/
def imageVec : State := withG (setBytes (vec 3 32) 0x120008 (bytesOfNat 8 (leafOf 0 0x140000))) [(1, 0xFF80), (2, 0x1000)]

/-- The image of v4 in memory; the state after its header is read. -/
def imageFull : State := setBytes imageVec 0x13FF80 (imageOf imageVec 4)
def imagePs : List Span :=
  match resolveRange imageFull 0xFF80 128 .load kindLocal with
  | .ok ps => ps
  | .error _ => []
def imageU : State := fillSpans (touchSpans imageFull imagePs false) imagePs
def imageO : UpperEntry := (upperFind imageU 2 1).getD ⟨0, 0, 0, 0⟩
def imageP : Phys := ⟨0x140000, BitVec.ofNat 64 (leafOf 0 0x140000), 0x120008, 1, 0x14, false⟩

theorem image_facts :
    (tlbFind imageU ((0x10000 : Word).toNat / 65536) = none
      ∧ upperFind imageU 2 ((0x10000 : Word).toNat / 65536) = some imageO
      ∧ walk imageU imageU.hart.ptbase 0x10000 = .leaf imageP.pte 0x120008 0x14 false
      ∧ walkThree imageU imageO.entry 0x10000 = .leaf imageP.pte 0x120008 0x14 false ∧ canonical 0x10000 = true
      ∧ checkLeaf imageU (imageU.hart.mode == .user) imageP.pte (physOf imageP.pte 0x14 0x10000) .load = none
      ∧ kindLocal (pteKind imageP.pte) = true ∧ pagesOf 0x10000 128 = [(0x10000, 128)]
      ∧ remoteFault imageU imageP 0x10000 .load = none)
    ∧ resolveRange imageFull 0xFF80 128 .load kindLocal = .ok imagePs ∧ spanPoison imageFull imagePs = none
    ∧ headerFault imageFull (spanBytes imageFull imagePs) = none ∧ field (spanBytes imageFull imagePs) 12 4 = 1
    ∧ spanPoison imageU [⟨0x10000, imageP, 128⟩] = none ∧ readG imageFull 1 + 128 = 0x10000 := by decide +kernel

/-- The blocks of the image translate, whether or not the walkers still hold the pointer to their table. -/
theorem image_blocks_resolve : resolveRange imageU 0x10000 128 .load kindLocal = .ok [⟨0x10000, imageP, 128⟩] :=
  have ⟨h1, h2, h3, h4, h5, h6, h7, h8, h9⟩ := image_facts.1
  resolve_one imageU 0x10000 128 .load kindLocal imageP h8
    (resolveKind_leaf imageU 0x10000 .load kindLocal imageP.pte 0x120008 0x14 false
      (leafFor_walks imageU 0x10000 imageO _ h1 h2 h3 h4) h5 h6 h7) h9

/-- An empty tile; the image of v4 stored and in memory (with `image_facts`); a header of zeros. -/
theorem witness_RegisterImagesMoveAndRestore :
    (let s := imageVec
    let empty := withHart s fun h => { h with vl := 0 }
    let img := imageOf s 4
    let full := imageFull
    let ld : VReq := { vreq (wordOf (.vldwr false 2 1 9)) .load false with singleWrites := [2], accept := none }
    clear empty (vstwrReq empty false 4 2 9) && clear empty ld && decide (tileSize empty = 0) && clear s (vstwrReq s false 4 2 9) && clear s ld
    && okAnd (resolveRange s 0x1000 img.length .store kindLocal) (fun ps => decide (ps.map (·.len) = [img.length]))
    && clear full ld && decide (tileSize full ≠ 0) && decide ((readG full 1).toNat % 64 = 0)
    && okAnd (resolveRange s 0xFF80 128 .load kindLocal) (fun ps => (spanPoison s ps).isNone
      && decide (headerFault s (spanBytes s ps) = some 4))
    && decide (s.hart.mode = .user) && decide ((s.hart.v.getD 4 VReg.reset).tag = .elems 32)
    && !(s.hart.v.getD 4 VReg.reset).mark && decide (tileShare s 4 * s.hart.maxsew ≤ 524288) && decide (3 < tileShare s 4)
    && decide (mapGet? (s.hart.v.getD 4 VReg.reset).data 3 = some 4)) = true := by decide +kernel

/-- A strip of 64 bytes on channel n (0: none) at the hart's own vault, which page 0 maps; its channel holds a command that
has written `wp` bytes. -/
def stripVec (n wp : Nat) : State :=
  let s := withG (withLeaf (vec 3 32) (leafOf 2 vaultBase)) [(1, 0), (2, 64)]
  let cmd : CopyCmd := ⟨0, 0, 64, false, true, false, 0, 0x100000, 0, true, true, 0, wp⟩
  let s := { s with core := setChan s.core 0 { chanOf s.core 0 with queue := if n = 0 then [] else [cmd], wp := BitVec.ofNat 64 wp } }
  withHart s fun h => { h with strip := h.strip.set 0 ⟨BitVec.ofNat 48 vaultBase, 64, 0, BitVec.ofNat 2 n, 0, 0⟩ }
/-- The same where the command takes bytes from the strip and has taken `rp`, and the hart has stored `made`. -/
def stripOut (rp made : Nat) : State :=
  let s := stripVec 1 0
  let cmd : CopyCmd := ⟨0, 0, 64, false, false, true, 0, 0x100000, 0, true, true, 0, rp⟩
  let s := { s with core := setChan s.core 0 { chanOf s.core 0 with queue := [cmd], rp := BitVec.ofNat 64 rp } }
  withHart s fun h => { h with strip := h.strip.set 0 ⟨BitVec.ofNat 48 vaultBase, 64, 0, 1, 0, BitVec.ofNat 64 made⟩ }

theorem witness_StripsAreBoundAndUsed :
    NoStop (stripVec 0 0) ∧ NoStop (stripVec 1 16) ∧ NoStop (stripVec 1 15) ∧ NoStop (stripOut 0 48)
      ∧ NoStop (stripOut 0 49)
    ∧ NoStop (focus (waitsAt (stripVec 1 16) (.sld false 2 0)) 0)
    ∧ (let s := stripVec 0 0
      let ld : VReq := { vreq (wordOf (.sld false 2 0)) .load false with groupWrites := [2], accept := some acceptBytes }
      let st : VReq := { vreq (wordOf (.sst false 2 0)) .store false with groupReads := [2], accept := some acceptBytes }
      let w := focus (waitsAt (stripVec 1 16) (.sld false 2 0)) 0
      decide (s.hart.vstate ≠ 0) && decide (readG s 0 = 0) && decide (readG s 2 = 64)
      && okAnd (stripPages s none (pagesOf 0 64)) (fun ps => decide (ps.length = 1)) && !boundElsewhere s 0 1
      && decide ((chanOf s.core 0).queue = [])
      && [stripVec 0 0, stripVec 1 16, stripVec 1 15, w].all (fun s => clear s ld && (stripOf s 0).len != 0
        && decide (s.hart.vstart.toNat < tileSize s) && decide (tileSize s * 4 ≤ (stripOf s 0).len.toNat))
      && [stripVec 0 0, stripOut 0 48, stripOut 0 49].all (fun s => clear s st && (stripOf s 0).len != 0)
      && decide (flowOf s (stripOf s 0) true 16 = .go) && decide (flowOf s (stripOf s 0) false 16 = .go)
      && decide (flowOf (stripVec 1 16) (stripOf (stripVec 1 16) 0) true 16 = .go)
      && decide (flowOf (stripVec 1 15) (stripOf (stripVec 1 15) 0) true 16 = .hold)
      && decide (flowOf (stripOut 0 48) (stripOf (stripOut 0 48) 0) false 16 = .go)
      && decide (flowOf (stripOut 0 49) (stripOf (stripOut 0 49) 0) false 16 = .hold)
      && decide (flowOf w (stripOf w 0) true (tileSize w * 4) = .go)
      && (List.range 4).all (fun e => !readPoison s (vaultBase + e * 4) 4 && !readPoison w (vaultBase + e * 4) 4)
      && decide ((getHart (waitsAt (stripVec 1 16) (.sld false 2 0)) 0).wait = some (.sld false 2 0))
      && !(getHart (waitsAt (stripVec 1 16) (.sld false 2 0)) 0).stepping) = true := by
  unfold NoStop NoneBad; decide +kernel
/-! Matrix and trellis mode: a tile of one row, K = 4, N = 1, on the core of hart 0. -/

/-- Matrix mode on; g1 is an address, g2 a length. -/
def mat (code w : Nat) : State :=
  withHart (withG (vec code w) [(1, 0x1000), (2, 16)]) fun h => { h with
    mstateen := true, tilem := 1, tilen := 1, tilek := 4, vbscale := 0x3F80 }
def matSup : State := withHart (mat 0x1A 16) fun h => { h with mode := .supervisor }
/-- An INT8 band of eight rows of one column, and a BF16 band of four. -/
def int8Band : List Byte := bytesOfNat 8 (2 ^ 8 + 8 * 2 ^ 17) ++ [1, 2, 3, 4, 5, 6, 7, 8]
def bf16Band : List Byte := bytesOfNat 8 (4 + 2 ^ 8 + 4 * 2 ^ 17) ++ [0x80, 0x3F, 0, 0x40, 0x80, 0x3F, 0, 0x40]
def fed (s : State) (bs : List Byte) : State := withHart s fun h => { h with fifo := [⟨0x1000, bs.length, bs, 0, 0, false, false⟩] }
/-- The band in memory; the hart of core 1 of the set has g groups. -/
def banded (g : Bool) : State :=
  let s := setBytes (mat 0x01 8) 0x131000 int8Band
  let s := withHart s fun h => { h with tileset := 2 * 4 + 2 ^ 24 }
  if g then modCore s 1 fun c => { c with owner := c.owner.set 0 (some 0) } else s

theorem witness_EmptyTilesDoNothing :
    (let s := withHart (mat 0x1A 16) fun h => { h with vl := 0 }
    let p := withHart s fun h => { h with mode := .supervisor }
    let eng := fun i => arrayReq i .eng false (some acceptLegal)
    let plain := fun i => arrayReq i .mtx false (some acceptLegal)
    decide (tileSize s = 0) && clear s (eng (.wbld false 1 2 true)) && clear s (plain (.wbdrop false))
      && clear s (plain (.accz false))
    && clear s (mmaReq false 4 s)
    && clear s (scaledReq s { arrayReq (.acci false 1 4) .mtx false (some acceptAcc) with groupReads := [4] })
    && clear s (accxReq s false 2 1 true true)
    && clear s { plain (.knotset false 7 1 2) with clash := decide (rowCount s ≤ 7) }
    && clear s { plain (.knotrd false 9 7 1) with clash := decide (rowCount s ≤ 7) } && clear s (plain (.splld false 1))
    && clear s (plain (.splst false 1)) && clear s (plain (.splgx false 1 true))
    && clear s (splReq s false 4) && clear s (splbwdReq s false 3 4) && clear s (splgradReq s false 3 4)
    && clear s (splrefReq s false 2 1 4 1)
    && decide (p.hart.mode = .supervisor) && decide (tileSize p = 0) && clear p (contextReq (.mrest false 1) false)
    && clear p (contextReq (.msave false 9 1) false)) = true := by decide +kernel

/-- A stream that fits one FIFO, two, and not the second; products of INT8 and of BF16; rows that are missing. -/
theorem witness_WeightsFeedMatrixProducts :
    (let targets := fun (s : State) => (List.range (tsSize s.hart.tileset)).map fun k => 4 * tsMember s.hart.tileset k + s.idx
    let i := mat 0x01 8; let b := mat 0x1A 16
    let rowsOf := fun (s : State) => okAnd (retryFifo s 4 s.hart.fifo) fun f => okAnd (nextRows 0 4 f) fun rows =>
      !rows.isEmpty && (mmaTrap s (wordOf (.mma false 4)) 4 rows).isNone
    let mma := mmaReq false 4
    [true, false].all (fun m => [banded true, banded false].all fun s => clear s (arrayReq (.wbld false 1 2 m) .eng false (some acceptLegal)))
    && [banded true, banded false].all (fun s => decide (tileSize s ≠ 0) && decide (tsRank s.hart.tileset = 0)
      && decide (2 ≤ tsSize s.hart.tileset) && decide ((readG s 1).toNat % 8 = 0) && decide ((readG s 2).toNat = 16)
      && decide (16 ≤ 65536 * (heldGroups s.core s.idx).length)
      && okAnd (resolveRange s 0x1000 16 .load kindShared) fun ps => (spanPoison s ps).isNone
        && okAnd (bandsOf (spanBytes s ps) 0) fun _ => true)
    && decide (targets (banded true) = [0, 4]) && (targets (banded true)).all (fifoRoom (banded true) 16)
    && !(targets (banded false)).all (fifoRoom (banded false) 16)
    && (let w := waitsAt (banded true) (.wbld false 1 2 false)
      decide ((getHart w 0).wait = some (.wbld false 1 2 false)) && !(getHart w 0).stepping && fifoRoom (focus w 0) 16 0
      && clear (focus w 0) (arrayReq (.wbld false 1 2 false) .eng false (some acceptLegal)))
    && clear i (arrayReq (.wbdrop false) .mtx false (some acceptLegal))
    && [fed i int8Band, fed b bf16Band].all (fun s => clear s (mma s) && rowsOf s && decide (localRows s ≤ s.hart.vr)
      && decide (s.hart.tilek ≤ s.hart.vl) && decide (s.hart.tilenoff + s.hart.tilen ≤ 384)
      && (firstScaleTrap s ((tileWords (localRows s) 4).map (fun p => p.1 * s.hart.vl + p.2))).isNone)
    && decide (etypeD i = .int 8) && decide (etypeD b ≠ .int 8)
    && clear i (mma i) && okAnd (retryFifo i 4 i.hart.fifo) (fun f => okAnd (nextRows 0 4 f) fun rows =>
      (mmaTrap i (wordOf (.mma false 4)) 4 rows).isSome) && decide (i.hart.mode = .user)) = true := by decide +kernel

theorem witness_AccumulatorsAreClearedWrittenAndRead :
    (let i := mat 0x03 32; let e := mat 0x10 32
    let acci := fun s => scaledReq s { arrayReq (.acci false 0 4) .mtx false (some acceptAcc) with groupReads := [4] }
    let accx := fun s => accxReq s false 2 0 true true
    clear i (arrayReq (.accz false) .mtx false (some acceptLegal)) && decide (i.hart.tilenoff + 0 < 384)
    && [i, mat 0x0B 32, mat 0x13 32, e].all (fun s => clear s (acci s) && clear s (accx s)
      && decide (s.hart.vr ≤ rowCount s)
      && decide ((readG s 0).toNat + s.hart.vl ≤ 384) && (firstScaleTrap s (List.range (tileSize s))).isNone
      && decide (s.hart.vstart.toNat < tileSize s) && !(groupRegs s 2).contains 1 && active s true 0)
    && (elemRange 0 4).all (fun j => (scaleTrap e j).isNone) && isScaled (etypeD e)) = true := by decide +kernel

theorem witness_KnotsAndCellsAreSetAndMoved :
    (let s := mat 0x1A 16; let a := withG s [(3, 0x3F80000000000000), (4, 0x11)]
    let plain := fun i => arrayReq i .mtx false (some acceptLegal)
    let k := (readG a 3).extractLsb' 32 32; let b := readG a 4
    [(.knotset false 7 3 4), (.knotrd false 9 7 1)].all (fun (i : Instr) => clear a { plain i with clash := decide (rowCount a ≤ 7) })
    && normalPos k && finite32 ((readG a 3).extractLsb' 0 32) && decide (1 ≤ (b.extractLsb' 0 4).toNat)
    && decide (1 ≤ (b.extractLsb' 4 2).toNat) && decide ((b.extractLsb' 0 4).toNat + (b.extractLsb' 4 2).toNat ≤ 16)
    && decide ((b.extractLsb' 6 2).toNat ≤ 2) && decide (b >>> 9 = 0)
    && [(.splld false 1), (.splst false 1), (.splgx false 1 true)].all (fun (i : Instr) => clear s (plain i))
    && decide (s.hart.tilek ≤ rowCount s) && decide ((readG s 1).toNat % 64 = 0) && s.hart.coef.isNone
    && okAnd (resolveRange s 0x1000 128 .load kindShared) (fun ps => (spanPoison s ps).isNone)
    && okAnd (resolveRange s 0x1000 128 .store kindShared) (fun ps => decide (ps.map (fun p => (p.va, p.len)) = [(0x1000, 128)]))
    && okAnd (resolveRange s 0x1000 256 .store kindShared) (fun ps => decide (ps.map (fun p => (p.va, p.len)) = [(0x1000, 256)]))
    && decide (((tileCells 4 1).flatMap (fun q => (coefsOf s q.1 q.2).flatMap (fun w => bytesOfNat 2 w.toNat))).length = 128)) = true := by
  decide +kernel

theorem witness_SplinesAreEvaluated :
    (let s := withG (mat 0x1A 16) [(3, 1)]
    clear s (splReq s false 4) && clear s (splbwdReq s false 3 4) && clear s (splgradReq s false 3 4)
    && clear s (splrefReq s false 2 3 4 1)
    && decide (s.hart.tilek ≤ rowCount s) && decide (localRows s ≤ s.hart.vr) && s.hart.coef.isNone
    && decide (max s.hart.tilek s.hart.tilen ≤ s.hart.vl) && decide (s.hart.tilenoff + 4 ≤ 384)
    && (List.range 4).all (fun j => gridOk (knotOf s j).g (knotOf s j).d (knotOf s j).clamp)
    && decide ((readG s 3).toNat = 1) && !groupClash s 2 4) = true := by decide +kernel

/-- An image of a context of eight rows in memory, written out by 10 R223: version 1, one group, 768 bytes; knots of
step 1, G = 1, D = 1. -/
def restS : State :=
  (List.range 8).foldl (fun s j => setBytes s (0x131000 + 624 + 16 * j + 6) [0x80, 0x3F, 0, 0, 0, 0, 0x11])
    (setBytes (setBytes matSup 0x131020 [4]) 0x131000 [1, 1, 0, 0, 0, 3])
def restPs : List Span :=
  match resolveRange restS 0x1000 64 .load kindShared with
  | .ok ps => ps
  | .error _ => []
def restU : State := fillSpans (touchSpans restS restPs false) restPs
def restE : TlbEntry := (tlbFind restU 0).getD ⟨0, 0, 0, 0, 0, 0, 1, false⟩
def restO : UpperEntry := (upperFind restU 2 0).getD ⟨0, 0, 0, 0⟩
def restN : Nat := field (spanBytes restS restPs) 4 4
def restP : Phys := ⟨physOf restE.entry restE.frame 0x1000, restE.entry, restE.slot, (0x1000 : Word).toNat / 65536, restE.frame, false⟩

theorem rest_facts :
    (tlbFind restU ((0x1000 : Word).toNat / 65536) = some restE
      ∧ upperFind restU 2 ((0x1000 : Word).toNat / 65536) = some restO
      ∧ (restE.frameOf ((0x1000 : Word).toNat / 65536) = restE.frame ∧ restE.block = false)
      ∧ walk restU restU.hart.ptbase 0x1000 = .leaf restE.entry restE.slot restE.frame false
      ∧ walkThree restU restO.entry 0x1000 = .leaf restE.entry restE.slot restE.frame false ∧ canonical 0x1000 = true
      ∧ checkLeaf restU (restU.hart.mode == .user) restE.entry (physOf restE.entry restE.frame 0x1000) .load = none
      ∧ kindShared (pteKind restE.entry) = true ∧ pagesOf 0x1000 restN = [(0x1000, restN)]
      ∧ remoteFault restU restP 0x1000 .load = none)
    ∧ restS.hart.mode = .supervisor ∧ checkVector restS (contextReq (.mrest false 1) false) = none ∧ tileSize restS ≠ 0
    ∧ readG restS 1 = 0x1000 ∧ resolveRange restS 0x1000 64 .load kindShared = .ok restPs ∧ spanPoison restS restPs = none
    ∧ contextHeadFault restU (spanBytes restS restPs) = none ∧ spanPoison restU [⟨0x1000, restP, restN⟩] = none
    ∧ contextFault (fillSpans (touchSpans restU [⟨0x1000, restP, restN⟩] false) [⟨0x1000, restP, restN⟩])
      (spanBytes restU [⟨0x1000, restP, restN⟩]) = none := by decide +kernel

/-- The second read of MREST translates, whether or not the caches still hold the page. -/
theorem rest_resolves : resolveRange restU 0x1000 restN .load kindShared = .ok [⟨0x1000, restP, restN⟩] :=
  have ⟨h1, h2, h3, h4, h5, h6, h7, h8, h9, h10⟩ := rest_facts.1
  resolve_one restU 0x1000 restN .load kindShared restP h9
    (resolveKind_leaf restU 0x1000 .load kindShared restE.entry restE.slot restE.frame false
      (leafFor_agrees restU 0x1000 restE restO restE.frame false h1 h2 h3 h4 h5) h6 h7 h8) h10

theorem witness_MatrixContextsAreSavedAndRestored :
    (decide (matSup.hart.mode = .supervisor) && clear matSup (contextReq (.msave false 9 1) false)
      && decide (tileSize matSup ≠ 0) && decide ((readG matSup 1).toNat % 64 = 0)
      && (let img := contextImage matSup
        okAnd (resolveRange matSup 0x1000 img.length .store kindShared) fun ps => ps.map (fun p => (p.va, p.len)) == [(0x1000, img.length)])
      && decide (matSup.hart.fifo.length ≤ 16)
      && (List.range (rowCount matSup)).all (fun j => gridOk (knotOf matSup j).g (knotOf matSup j).d (knotOf matSup j).clamp
        && normalPos (knotOf matSup j).h && finite32 (knotOf matSup j).lo)
          && decide ((mat 0x1A 16).hart.mode = .user)) = true
    ∧ (restS.hart.mode = .supervisor ∧ checkVector restS (contextReq (.mrest false 1) false) = none ∧ tileSize restS ≠ 0
      ∧ readG restS 1 = 0x1000 ∧ resolveRange restS 0x1000 64 .load kindShared = .ok restPs
        ∧ spanPoison restS restPs = none
      ∧ contextHeadFault restU (spanBytes restS restPs) = none
      ∧ resolveRange restU 0x1000 restN .load kindShared = .ok [⟨0x1000, restP, restN⟩]
      ∧ spanPoison restU [⟨0x1000, restP, restN⟩] = none
      ∧ contextFault (fillSpans (touchSpans restU [⟨0x1000, restP, restN⟩] false) [⟨0x1000, restP, restN⟩])
        (spanBytes restU [⟨0x1000, restP, restN⟩]) = none) := by
  have ⟨_, a, b, c, d, e, f, g, h, k⟩ := rest_facts
  exact ⟨by decide +kernel, a, b, c, d, e, f, g, rest_resolves, h, k⟩

/-! Batches and mailboxes. -/

/-- v4 holds one record; slot 0 and mailbox 0 are the tenant's. -/
def recordVec (words : List Nat) : State :=
  withHart (owned (vec 0x04 64)) fun h => { h with maxsew := 64, vl := 8, v := h.v.set 4 (elemsOf 64 words) }
def copyVec : State := recordVec [0x1000, 0x2000, 64 + 2 ^ 32, 0, 0, 0, 0, 0]
def fillVec : State := recordVec [1 + 2 ^ 32, 0, 0, 0, 0, 128, 0, 0]
/-- The queues are full. -/
def copyFull : State :=
  { copyVec with core := setChan copyVec.core 0 { chanOf copyVec.core 0 with
    queue := List.replicate 32 ⟨0, 0, 64, false, false, false, 0, 0x100000, 0, true, true, 0, 0⟩ } }
def fillFull : State :=
  { fillVec with eng := { fillVec.eng with cmd := List.replicate 128 ⟨0, inPlaceFields [], 0, 0, false, false, [], 0, 0⟩ } }

theorem witness_BatchesSweepsAndCounts :
    NoStop copyVec ∧ NoStop fillVec ∧ NoStop copyFull ∧ NoStop fillFull
    ∧ NoStop (focus (waitsAt copyVec (.copyb false 9 4 false)) 0)
      ∧ NoStop (focus (waitsAt fillVec (.bankb false 9 4 false)) 0)
    ∧ (let ready := fun (i : Instr) s => clear s (batchReq s i false 4 false)
        && decide (s.hart.vstart.toNat < tileSize s) && decide (s.hart.vl % 8 = 0) && decide (tileSize s ≤ 512)
          && !releaseWaits s 1
      let cw := waitsAt copyVec (.copyb false 9 4 false); let bw := waitsAt fillVec (.bankb false 9 4 false)
      let s := copyVec
      let empty := withHart s fun h => { h with vl := 0 }
      [copyVec, copyFull, focus cw 0].all (fun s => ready (.copyb false 9 4 false) s
        && decide ((batchCommands s false 4 (parseCopy s)).map (·.2.1) = [0]))
      && [fillVec, fillFull, focus bw 0].all (fun s => ready (.bankb false 9 4 false) s
        && decide ((batchCommands s false 4 parseInPlace).length = 1))
      && decide ((chanOf copyVec.core 0).queue.length = 0) && decide (32 ≤ (chanOf copyFull.core 0).queue.length)
      && fillVec.eng.cmd.isEmpty && decide (128 ≤ (fillFull.eng.cmd.filter (fun x => x.hart / 4 == fillFull.col)).length)
      && decide ((getHart cw 0).wait = some (.copyb false 9 4 false))
        && decide ((getHart bw 0).wait = some (.bankb false 9 4 false))
      && !(getHart cw 0).stepping && !(getHart bw 0).stepping
      && decide (tileSize empty = 0)
      && clear empty (batchReq empty (.bankb false 9 4 true) false 4 true)
      && [0, 0x100, 0x201].all (fun n => (readG (withG s [(1, n)]) 1 &&& ~~~(0x301 : Word)) == 0)
        && decide (s.hart.mode = .user)
      && slotAssigned s 0 0 && !slotAssigned s 1 0 && decide ((slotOf s 0).size = 4096)
      && clear s { vreq (wordOf (.settle false 1 2 3)) .eng false with accept := none, needsVector := false }
      && clear user { vreq (wordOf (.renew false 1 2 3)) .eng false with accept := none, needsVector := false }) = true := by
  unfold NoStop NoneBad; decide +kernel

/-- An open mailbox with n records down and those given up. -/
def boxed (st : EState) (n : Nat) (up : List MailRecord) : State :=
  let s := owned (vec 3 32)
  setBox s 0 { boxOf s 0 with estate := st, up := up, dn := List.replicate n ⟨0, 0, 0, 1, 0, 0, 0, []⟩ }

theorem witness_MailboxesArePostedTakenAndPolled :
    (let r : MailRecord := ⟨0, 0, 0, 1, 0, 16, 0, (List.range 16).map (BitVec.ofNat 8)⟩
    let pw := waitsAt (boxed .opened 7 []) (.mbpost false 4 1 9); let tw := waitsAt (boxed .opened 0 [r]) (.mbtake false 2 1 9)
    let s := boxed .opened 7 []
    let post := fun s => boxReq s (.mbpost false 4 1 9) false [4] []
    let take := fun s => boxReq s (.mbtake false 2 1 9) false [] [2]
    [boxed .opened 7 [], boxed .opened 8 [], boxed .free 0 [], boxed .opened 0 [r], focus pw 0, focus tw 0].all (fun s => clear s (post s)
      && clear s (take s) && decide (s.hart.vstart.toNat < tileSize s)
        && decide (boxOwner s (readG s 1).toNat = some s.hart.asid)
      && decide (payloadLength s ≤ 480) && !releaseWaits s 1)
    && decide ((boxOf s 0).estate = .opened) && !(boxOf s 0).xpend
      && decide ((boxOf s 0).genfloor.toNat ≤ s.hart.pgen.toNat)
    && decide ((boxOf s 0).dn.length < 8) && decide (8 ≤ (boxOf (boxed .opened 8 []) 0).dn.length)
    && decide ((boxOf (boxed .free 0 []) 0).estate ≠ .opened)
    && decide ((getHart pw 0).wait = some (.mbpost false 4 1 9)) && !(getHart pw 0).stepping
    && decide ((getHart tw 0).wait = some (.mbtake false 2 1 9)) && !(getHart tw 0).stepping
    && decide ((boxOf (focus tw 0) 0).up = [r]) && (boxOf s 0).up.isEmpty
    && decide (boxOwner s (readG (withG s [(1, 1)]) 1).toNat ≠ some s.hart.asid) && decide (s.hart.mode = .user)
    && (let other := withG s [(1, 1)]
      clear other (post other) && clear other (take other) && decide (other.hart.vstart.toNat < tileSize other))
    && (let long := withHart s fun h => { h with vl := 121 }
      clear long (post long) && decide (long.hart.vstart.toNat < tileSize long)
        && decide (480 < payloadLength long))) = true := by
  decide +kernel
/-! Caches, banks, engines, the Greenhouse, the host and management. -/

def sec0 : Nat := 0x131000 / 128
/-- A dirty byte of the hart's own sector in its store buffer, one in the L1, a dirty sector at home. -/
def buffered : State := withHart user fun h => { h with sb := [(sec0, some 7 :: List.replicate 127 none)] }
def inL1 : State := { user with core := { user.core with l1 := [(sec0, ⟨.dirty 7 :: List.replicate 127 .absent, false⟩)] } }
def atHome (dirty : Bool) : State :=
  { user with ms := { user.ms with l2 := [(sec0, ⟨if dirty then List.replicate 128 7 else settledSector user sec0, dirty, false⟩)] } }

/-- The same, dirty, its bank in a state of use. -/
def heldHome (y : Bank) : State := { atHome true with eng := { user.eng with bank := [(bankOf (sec0 * 128), y)] } }

theorem witness_CachesAndTranslations :
    (mapGet? (getHart buffered 0).sb sec0 = some (some 7 :: List.replicate 127 none)
      ∧ ((mapGet? (getCore inL1 0).l1 sec0).map fun x => x.bytes.getD 0 .absent) = some (.dirty 7))
    ∧ ([true, false].all (fun d => ((mapGet? (atHome d).ms.l2 sec0).map fun x => decide (x.bytes.length = 128)
        && (d || x.bytes == settledSector (atHome d) sec0)).getD false && isCached (sec0 * 128))
      && decide ((getHart sup 0).run = .running) && decide ((getHart sup 0).mode = .supervisor)
      && bankFree (atHome true) (bankOf (sec0 * 128))
        && !bankFree (heldHome ⟨true, some 3, none, false, [], 0⟩) (bankOf (sec0 * 128))
      && decide ((late user).ms.tlbi[0]? = some ⟨0, 0, 0, 0⟩) && !stillUsed (late user) ⟨0, 0, 0, 0⟩
      && stillUsed (withHart (late user) fun h => { h with request := some ⟨0, 0, 8, physAt (hostBase + 8), 8, none, none⟩ }) ⟨0, 0, 0, 0⟩
      && (let e : TlbEntry := ⟨0, 5, 0, 0, 0, 5, 1, false⟩
        named ⟨0, 2, 0, 5⟩ e && !named ⟨0, 1, 1, 0⟩ e && !named ⟨0, 2, 1, 5⟩ e)) = true := by decide +kernel

/-- Sizes of a slot at 0, 4 KiB and 2^40 and one that is not whole; windows of 63, 64, 4096 and 4097. -/
theorem witness_SlotsAndBanks :
    (let x := slotOf (owned user) 0
    let busy := setSlot (owned user) 0 { x with inflight := 1 }
    let legal := fun (v : Word) => decide (v.toNat % 4096 = 0) && decide (v.toNat ≤ 2 ^ 40)
      && (decide (v.toNat = 0) || decide (x.base + v.toNat ≤ dramSize))
    let win := fun (v : Word) => decide (v &&& 0xFFFF0000FFE0E000 = 0) && decide (64 ≤ (v.extractLsb' 0 13).toNat)
      && decide ((v.extractLsb' 0 13).toNat ≤ 4096) && decide ((v.extractLsb' 16 5).toNat ≠ 0)
    let b := bankOf (sec0 * 128)
    let ref := heldHome ⟨false, none, none, true, [(.fill sec0, 4)], 0⟩
    let stepping := fun (y : Bank) => { heldHome y with eng := { (heldHome y).eng with
      cmd := [⟨0, inPlaceFields [], 0, 0, false, true, [⟨b, 128, [.first 0 0x131000, .writeBack 0x131000], [], false, []⟩], 0, 0⟩] } }
    let due := stepping ⟨true, some 0, none, false, [(.write sec0, 4), (.fill (sec0 + 1), 2)], 1⟩
    let frozen := stepping ⟨true, some 0, none, true, [(.write sec0, 4)], 0⟩
    decide (x.inflight = 0) && legal 0 && legal 0x1000 && legal (BitVec.ofNat 64 0x80000000) && !legal 100
      && decide ((slotOf busy 0).inflight ≠ 0)
    && win 0x10040 && win 0x11000 && !win 0x1003F && !win 0x11001 && !win 0x40 && isCached (sec0 * 128)
    && bankFree user b && bankFree (atHome true) b && ((mapGet? (atHome true).ms.l2 sec0).map fun y => y.dirty
      && decide (y.bytes.length = 128)).getD false
    && !bankFree (heldHome ⟨true, some 3, none, false, [], 0⟩) b
    && (bankState ref b).refreshing && decide ((bankState ref b).expired < (bankState ref b).waiting.length)
    && !inUse (bankState ref b) && decide (b < 4160)
    && ((findCommand due 0).map fun c => c.started && ((c.pieces[0]?).map fun p => mayAct due c 0 p
      && (stepFault due p 0x131000).isNone && !(MicroOp.first 0 0x131000).away p
        && decide (p.bank = b)).getD false).getD false
    && decide (0 < (bankState due b).expired) && !(bankState due b).waiting.isEmpty
    && ((findCommand frozen 0).map fun c => c.started && decide ((c.pieces[0]?).map (·.bank) = some b)).getD false
    && (bankState frozen b).refreshing && decide ((frozen.eng.cmd.map (·.id)).Nodup)) = true := by decide +kernel

/-- One in-place command with one piece of a sector. -/
def engined (started : Bool) (status : Nat) (ops : List MicroOp) (acc : List (BitVec 32)) : State :=
  let s := owned user
  { s with eng := { s.eng with cmd := [⟨0, inPlaceFields [], 0, 0, true, started, [⟨bankOf 0x131000, 128, ops, acc, false, []⟩], status, 0⟩] } }
/-- Its source is poisoned. -/
def sickEngine : State :=
  let s := engined true 0 [.first 0 0x131000] []
  { s with ms := { s.ms with poison := [sec0] } }
def swept (renew : Bool) : State :=
  let s := setSlot (atHome true) 0 { Slot.reset with valid := true, size := 4096, base := 0x131000, inflight := 1 }
  { s with eng := { s.eng with sweep := [⟨5, 0, renew, 0x131000, 4096, if renew then [] else [sec0]⟩] } }

theorem witness_EnginesActPieceByPiece :
    (let at_ := fun (s : State) => ((findCommand s 0).map fun c => c.started && ((c.pieces[0]?).map fun p => mayAct s c 0 p
      && (p.ops.head?.map fun op => sourceReady s c 0 p op && queueGoes s c 0 p op
        && (bankState s (bankOf op.addr)).waiting.isEmpty).getD false
      && p.got.isEmpty && (bankState s p.bank).waiting.isEmpty).getD false).getD false
    let fault := fun (s : State) => ((findCommand s 0).bind fun c => (c.pieces[0]?).bind fun p => stepFault s p 0x131000).isSome
    let acc := List.replicate 32 (0x3F800000 : BitVec 32)
    at_ (engined true 0 [.first 0 0x131000] []) && at_ (engined true 0 [.step 0 0x131000] acc)
    && at_ (engined true 0 [.writeBack 0x131000] acc) && at_ sickEngine
    && (pieceFault (engined true 0 [] []) 0x131000 128 false).isNone
      && (pieceFault (engined true 0 [] []) 0x131000 128 true).isNone
    && fault sickEngine && !fault (engined true 0 [.first 0 0x131000] []) && sickEngine.eng.bank.isEmpty
    && decide ((acc.flatMap fun x => bytesOfNat 4 (backElem fp32 x)).length = 128)
      && decide (fmtOfRecord (inPlaceFields []) = fp32)
    && !isCap 0x131000
    && ((findCommand (engined false 0 [] []) 0).map (fun c => !c.started)).getD false
    && ((findCommand (engined true 0 [] []) 0).map (fun c => c.owned && decide (c.status = 0)
      && c.pieces.all (·.ops.isEmpty))).getD false
    && ((findCommand (engined true 3 [] []) 0).map (fun c => decide (c.status ≠ 0))).getD false
    && [true, false].all (fun r => ((swept r).eng.sweep.find? (fun x => x.id == 5)).isSome
      && ((swept r).eng.sweep.all fun w => !(sweepLeft (swept r) w).isEmpty
        && (sweepLeft (swept r) w).all (fun n => needsWrite (swept r) n
          && bankFree (swept r) (bankOf (n * 128)))))) = true := by decide +kernel

/-- A command on channel 0: bytes from page 0 to 0x1000, or a pattern; `m` bytes are moved. The page is of a kind. -/
def copying (leaf : Nat) (fill : Bool) (len dst m : Nat) : State :=
  let s := withLeaf user leaf
  let s := { s with ms := { s.ms with granule := [(0, 1)] } }
  { s with core := setChan s.core 0 { chanOf s.core 0 with
    queue := [⟨0x55, BitVec.ofNat 64 dst, len, fill, false, false, 0, 0x100000, 0, true, true, 0, m⟩] } }

theorem witness_CopyCommandsMoveAndComplete :
    (let look := fun (s : State) (p : CopyCmd → Channel → Strip → Bool) => match (chanOf (getCore s 0) 0).queue with
      | c :: _ => p c (chanOf (getCore s 0) 0) ((boundStrip s 0 0).getD Strip.reset)
      | [] => false
    let bytes := copying (leafOf 0 0x130000) false 64 0x1000 0
    let fill := copying (leafOf 0 0x130000) true 64 0x1000 0
    let whole := copying (leafOf 1 capBase) true 4096 0x1000 0
    let outside := copying (leafOf 0 0x130000) true 64 0x20000 0
    let peer := fun x => setPort { copying (leafOf 4 0x130000 + 7 * 65536) true 64 0x1000 0 with
      host := { user.host with routes := [(7, 0)] } } 0 x
    let retrains := peer ⟨false, 8, 0, false⟩
    let broken := peer ⟨false, 8, 0, true⟩
    let free := fun s c n plan => !planWaits s plan && (planError s plan).isNone
      && (busyFills s (moveBytes s c n plan)).isEmpty
    look bytes (fun c ch st => decide (0 < moveLength bytes ch st c) && !heldBack bytes c
      && okAnd (unitsOk bytes ch st c (moveLength bytes ch st c)) (free bytes c (moveLength bytes ch st c))
      && okAnd (unitsOk bytes ch st c (moveLength bytes ch st c)) fun p => decide (p.srcParts = [(0x130055, 64)])
        && decide (p.dstParts = [(0x131000, 64)]) && decide (moveLength bytes ch st c = 64)
        && ((p.src ++ p.dst).map (·.phys.slot)).all (fun x => decide (x < 0x130055)))
    && look fill (fun c ch st => !elides fill c 0 && okAnd (unitsOk fill ch st c (moveLength fill ch st c)) fun p =>
      decide (p.dstParts = [(0x131000, 64)]) && free fill c (moveLength fill ch st c) p)
    && look whole (fun c ch st => elides whole c 0 && okAnd (unitsOk whole ch st c (moveLength whole ch st c)) fun p =>
      !p.dstParts.isEmpty && free whole c (moveLength whole ch st c) p)
    && look retrains (fun c ch st => decide (0 < moveLength retrains ch st c) && !heldBack retrains c
      && okAnd (unitsOk retrains ch st c (moveLength retrains ch st c)) (planWaits retrains))
    && look broken (fun c ch st => decide (c.moved ≠ c.len) && !heldBack broken c
      && okAnd (unitsOk broken ch st c (moveLength broken ch st c)) fun p => (planError broken p).isSome)
    && look (copying (leafOf 0 0x130000) true 64 0x1000 64) (fun c _ _ => decide (c.moved = c.len))
    && look outside (fun c ch st => decide (c.moved ≠ c.len) && !heldBack outside c
      && errAnd (unitsOk outside ch st c (moveLength outside ch st c)) fun _ => true)) = true := by decide +kernel

/-- Core 0 of the Greenhouse with the plot of mailbox 0 installed. -/
def plotted (st : EState) (xpend : Bool) (n : Nat) (stage : List (Nat × Byte)) (dn : List MailRecord) : State :=
  let s := owned user
  let s := setBox s 0 { boxOf s 0 with
    estate := st, xpend := xpend, up := List.replicate n ⟨0, 0, 0, 1, 0, 0, 0, []⟩, upstage := stage, dn := dn }
  setGCore s 0 { gcoreOf s 0 with installed := true, plot := 0, run := true, plimit := 100 }

theorem witness_GreenhouseCoresAccess :
    (let acc := fun k a u => (⟨0, a, 8, k, 1, u, 5, 4⟩ : CoreAccess)
    let s := owned user
    let open_ := setGCore s 0 { gcoreOf s 0 with machine := false, pmp := (gcoreOf s 0).pmp.set 0 (0x1F, BitVec.ofNat 64 (2 ^ 54 - 1)) }
    let struck := setGCore s 0 { gcoreOf s 0 with bad := [0] }
    let c := gcoreOf s 0
    let ill := { s with ms := { s.ms with poison := [sec0] } }
    c.inService && decide (verdict s c (acc .load 0 false) = .allowed)
      && decide (placeOf s c (acc .load 0x131000 false) = .memory)
    && decide (verdict s c (acc .lr 0x131000 false) = .fault) && accessDue c (acc .load 0 false)
    && accessDue (gcoreOf open_ 0) (acc .load sramBase true)
    && decide (verdict open_ (gcoreOf open_ 0) (acc .load sramBase true) = .violation)
    && decide (verdict open_ (gcoreOf open_ 0) (acc .load 0x131000 true) = .allowed)
    && !sramBad c 0 8 && sramBad (gcoreOf struck 0) 0 8
    && [AccessKind.load, .lr, .fetch].all (fun k => decide (verdict struck (gcoreOf struck 0) (acc k sramBase false) = .allowed))
    && [AccessKind.load, .store, .lr, .sc, .fetch].all (fun k => decide (verdict s c (acc k sramBase false) = .allowed)
      && decide (placeOf s c (acc k sramBase false) = .sram))
    && [AccessKind.load, .store].all (fun k => decide (verdict s c (acc k 0x131000 false) = .allowed)
      && (poisonAt s 0x131000 8).isNone)
    && decide (verdict ill (gcoreOf ill 0) (acc .load 0x131000 false) = .allowed)
      && (poisonAt ill 0x131000 8).isSome) = true := by
  decide +kernel

/-- A mailbox in every state that a POST, a TAKE and the monitor distinguish; a core that ran past its limit. -/
theorem witness_PlotsAreUsedAndManaged :
    (let act : MailRecord := ⟨0, 0, 0, 1, 0, 0, 0, []⟩
    let both := fun (s : State) => (gcoreOf s 0).installed && (gcoreOf s 0).inService && !(gcoreOf s 0).asleep
      && decide (installedOn s 0 = some 0)
    let s := plotted .opened false 0 [] []
    let x := boxOf (owned user) 0
    [plotted .done false 0 [] [], plotted .opened true 0 [] [], s, plotted .opened false 8 [] [], plotted .opened false 0 [(12, 1)] [],
      plotted .opened false 0 [(12, 3)] [act, { act with kind := 2 }]].all both
    && decide ((boxOf s 0).estate = .opened) && decide ((boxOf (plotted .opened false 8 [] []) 0).up.length = 8)
    && decide (field ((List.range 512).map (fun i => mapGet (boxOf s 0).upstage i 0)) 14 2 ≤ 480)
    && decide (field ((List.range 512).map (fun i => mapGet (boxOf (plotted .opened false 0 [(12, 1)] []) 0).upstage i 0)) 12 1 = 1)
    && decide (x.estate ≠ .opened) && x.up.isEmpty && windowOk 0 && !windowOk 1
    && (coreTenant { owned user with sched := { user.sched with tenant := [(0, ⟨{ spec0 with blocks := [0] }, 100, 0, 0, some 0, none, false⟩)] } } 0).isSome
    && (gcoreOf user 0).inService && !(gcoreOf user 0).run && (gcoreOf s 0).run
      && decide ((gcoreOf s 0).plimit = 100)) = true := by
  decide +kernel

theorem witness_OutsideAccessesAndRings :
    (let s := owned user
    let gone := { s with sched := { s.sched with tenant := [(0, { tenant0 with tearing := true })] } }
    let dead := { s with host := { s.host with bootFail := some 1 } }
    let win := fun r w => { s with host := { s.host with window := [(0, ⟨3, 0x130000, 0x10000, r, w, 0⟩)] } }
    let page := fun (off : Nat) => barPages s tenant0 true (pagesOf (BitVec.ofNat 64 off) 8)
    let ans := modFunc s 0 (fun x => { x with answers := [1, 2] })
    let ring := fun (tail : Word) => modFunc s 0 fun x => { x with rsize := 0x8000000000000000, rtail := tail }
    let p0 := portOf s 0
    let asked := setPort { withHart s (fun h => { h with request := some ⟨0, 0, 0, physAt (4103 * 2 ^ 48), 8, none, none⟩ }) with
      host := { s.host with routes := [(7, 0)] } } 0 { p0 with up := false }
    decide (s.host.bootFail = none) && decide ((funcOf s 0).tenant = some 0) && decide (tenantOf s 0 = some tenant0)
      && !tenant0.tearing
    && decide ((tenantOf gone 0).map (·.tearing) = some true) && decide (dead.host.bootFail ≠ none)
      && decide ((funcOf user 0).tenant = none)
    && (page 0x20000).isNone && ((page 0x1000).map fun ps => decide (ps.map (fun p => (p.va, p.len)) = [(0x1000, 8)])
      && ps.all (fun p => decide (p.phys.slot < p.phys.pa) && (List.range 8).all (fun i => isCached (p.phys.pa + i))
        && (poisonAt (touchPages s ps false) p.phys.pa 8).isNone)).getD false
    && ((win true true).host.window.map (·.2)).any (fun w => windowHolds w 3 0x131000 8) && (poisonAt s 0x131000 8).isNone
    && ((win false false).host.window.map (·.2)).any (fun w => windowHolds w 3 0x131000 8)
    && s.host.window.isEmpty && decide (memoryTenant s 0x131000 = some 0) && decide (memoryTenant user 0x131000 = none)
    && !tearingDown s 0 && decide ((funcOf ans 0).answers = [1, 2]) && (funcOf s 0).answers.isEmpty
    && ringEnabled (funcOf (ring 14) 0) && !ringFull (funcOf (ring 14) 0) && ringFull (funcOf (ring 15) 0)
      && !ringEnabled (funcOf s 0)
    && isPeer (peerKey 7 0x130000) && decide (portFor asked (peerKey 7 0x130000) = some 0)
    && p0.up && !(portOf asked 0).up && decide (((getHart asked 0).request).map (·.addr) = some (4103 * 2 ^ 48))
    && !isHost (4103 * 2 ^ 48) && decide (portFor asked (4103 * 2 ^ 48) = some 0)
      && (knownHarts asked).contains 0) = true := by decide +kernel

theorem witness_TenantsAndFailuresAreContained :
    (let good := { spec0 with quota := 64 }
    let gone := { owned user with sched := { user.sched with tenant := [(0, { tenant0 with tearing := true })] } }
    let other := modHart user 4 fun h => { h with run := .running, mode := .user }
    !tearingDown user 0 && specOk user good && !specOk user spec0 && !specOk (owned user) good && tearingDown gone 0
    && decide ((mapGet? (owned user).sched.tenant 0).map (·.tearing) = some false)
    && decide ((mapGet? gone.sched.tenant 0).map (·.tearing) = some true) && isDram 0x131000 && isVault vaultBase
    && spec0.columns.contains (columnOf 0x131000)
    && [user, other].all (fun s => decide ((getHart s 0).run = .running) && decide ((getHart s 0).mode = .user))
    && [FailedUnit.column 0, .column 127, .bank 127 31, .package 31, .link 1 true, .lane 15 4, .gcore 255].all (fun u => unitExists u
      && !user.host.retired.contains u)
    && isCap capBase && spec0.granules.contains ((capBase - capBase) / 2 ^ 30)
    && (let struck := withHart (vec 0x03 32) fun h => { h with v := h.v.set 4 { h.v.getD 4 VReg.reset with bad := [0] } }
      let sound := { struck with hart := { struck.hart with v := struck.hart.v.map (fun y => { y with bad := [] }) } }
      clear sound (vopReq (.vadd vop) .alu vop acceptInt) && decide (struck.hart.vstart.toNat < tileSize struck)
      && decide (0 < groupOf struck.hart) && active struck vop.m 0 && badElem struck vop.vs2.toNat 0
        && decide (struck.hart.mode = .user))
    && decide ((fed (mat 0x01 8) int8Band).hart.fifo.length = 1) && (elidedOf user sec0).isNone
    && [FailedUnit.link 1 true, .link 0 false, .lane 15 4].all (fun u => !failsOnce u)
    && [FailedUnit.column 0, .bank 127 31, .package 31, .gcore 255].all failsOnce
      && decide (0 < user.host.link.toList.length)
    && (gcoreOf (plotted .opened false 0 [] []) 0).installed) = true := by decide +kernel

theorem witness_ManagementBootAndAttestation :
    (let s := owned user
    let w : PeerWindow := ⟨1, 0x10000, 0x10000, true, false, 0⟩
    !tearingDown s 0 && peerRange w.base w.size && peerRange 0 0 && !peerRange 0x10000 0x8000
    && decide ((mapGet? s.sched.tenant 0).map (·.tearing) = some false) && (getCore s 1).inService
    && !(s.sched.tenant.any (fun p => p.2.spec.columns.contains 1))
      && s.sched.tenant.any (fun p => p.2.spec.columns.contains 0)
    && s.host.bootFail.isNone && !tearingDown s 1
      && decide (({ s with host := { s.host with bootFail := some 2 } } : State).host.bootFail ≠ none)
    && decide (s.host.minVersion.getD 0 0 ≤ 0) && s.host.staged.isEmpty
      && decide (s.host.spdm = .idle)) = true := by decide +kernel
/-! ## Witnesses of further clauses -/

/-- The bank of the page's table entry is held: the fetch that sets A there waits; with A set, or the bank free, it does
not. -/
def unmarked : State := withHart (withLeaf user (0x13 * 2 ^ 28 + 0x3F)) fun h => { h with stopAt := none }
def heldBank (s : State) (b : Nat) : State := { s with eng := { s.eng with bank := [(b, ⟨true, some 3, none, false, [], 0⟩)] } }
theorem witness_fills_wait_at_their_banks :
    (let held := heldBank unmarked (bankOf 0x120000)
    let fetched := fun (s : State) (p : State → Bool) => okAnd (fetchCheck s) fun ph => p (touch s ph false)
    fetched held (fun t => busyFills held t != []) && fetched unmarked (fun t => busyFills unmarked t == [])
    && bankEvent (.refreshEnd 3) && !bankEvent (.l1Eviction 0 sec0)
    && (let s := heldBank inL1 (bankOf (sec0 * 128))
      nextAnd (exec (.l1Eviction 0 sec0) s) (fun t => busyFills s t == [sec0])
        && nextAnd (exec (.storeBufferDrain 0 sec0) s) (fun t => busyFills s t == []))) = true := by decide +kernel

/-- A number that no register has, a register that is read-only, vector state off. -/
theorem witness_SystemRegistersRefuse :
    (0x0FF : BitVec 12).toNat ∉ listedRegisters ∧ (0x028 : BitVec 12).toNat ∈ readOnlyRegisters
    ∧ user.hart.mode = .user ∧ user.hart.vstate = 0 ∧ 0x008 ∈ vectorRegisters ∧ 0x008 ∉ readOnlyRegisters
    ∧ sup.hart.mode = .supervisor ∧ gangOf (inGang sup gang0) 0 = some gang0 := by decide +kernel

/-- A supervisor hart with two groups and reservations of 0, 1 and 2; registers whose elements move with a shrink. -/
theorem witness_ReservationsShrinkAndGrow :
    (let two := { vec 3 32 with core := { (vec 3 32).core with owner := ((vec 3 32).core.owner.set 1 (some 0)) } }
    let resv := fun (n : Nat) => withHart two fun h => { h with mode := .supervisor, tstatus := BitVec.ofNat 64 (0x3000 + n * 2 ^ 20) }
    [0, 1, 2].all (fun n => resvOf (resv n).hart == n && decide ((heldGroups (resv n).core 0).length = 2))
    && (let s := withHart (vec 3 32) fun h => { h with contending := true }
      let u := afterArbiter s; let n := groupOf s.hart
      n == 1 && decide (5 + n ≤ s.hart.count) && decide (3 < n * min (vlmax s) (vlmax u)) && isLive s.hart 5
      && !(s.hart.v.getD 5 VReg.reset).mark && (s.hart.v.getD 5 VReg.reset).rest.isEmpty)) = true := by decide +kernel

/-- A partner that waits with another set, a wait that is asked again, and a waiter that this value fails. -/
theorem witness_TilesClash :
    (let pair : Word := 0 + 2 * 4 + 1 * 2 ^ 24
    let other : Word := 1 + 2 * 4 + 1 * 2 ^ 24 + 1 * 2 ^ 16
    let clash : Word := 1 + 3 * 4 + 1 * 2 ^ 24 + 2 * 2 ^ 32
    let s := withG (inGang (withHart (vec 3 32) fun h => { h with mstateen := true }) { gang0 with members := [0, 4] }) [(1, pair)]
    let met := fun (w : Word) => modHart s 4 fun h => { h with run := .running, wait := some (.tilebind 2 1), g := h.g.set 1 w }
    tileRequestOk 0 pair && s.hart.fifo.isEmpty && decide (partners s pair = [4])
    && [met clash, met other].all (fun s => ((bindValue s 4).map fun w => !sameSet pair w).getD false)
    && ((bindValue (met clash) 4).map fun w => namesColumn w 0 && !sameSet w pair).getD false
    && decide (s.hart.wait ≠ some (.tilebind 3 1)) && tileRequestOk 0 pair && !tileRequestOk 0 0xFFFF
    && (let lone := inGang s { gang0 with members := [0] }
      decide (partners lone pair = [4]) && (gangOf lone 4).isNone)
    && decide ((waitsAt s (.tilebind 3 1)).hart.wait = some (.tilebind 3 1)) && decide ((getHart (met clash) 4).wait = some (.tilebind 2 1))
    && decide (4 % 4 = s.idx)) = true := by decide +kernel

/-- A VQUANT that stopped at element 2 with its code kept, and one that did not. -/
theorem witness_BlocksAreKept :
    (let s := scaledVec 0x10 32
    let part := withHart s fun h => { h with vstart := 2, partRuns := [⟨h.pc, 2, false, false, some (130, [])⟩] }
    keptBlock s 0 == none && keptBlock part 3 == some (130, [])) = true := by decide +kernel

/-- A walk that meets an uncorrectable error ends a copy command; a strip that is used up lets it move nothing. -/
theorem witness_CopyCommandsStopAndStay :
    (let s := copying (leafOf 0 0x130000) true 64 0x1000 0
    let sick := { s with ms := { s.ms with poison := [0x120000 / 128], l2 := [] } }
    let still := stripVec 1 0
    let used := { still with core := setChan still.core 0 { chanOf still.core 0 with wp := 64 } }
    let ch := chanOf sick.core 0
    (match ch.queue with
      | c :: _ => decide (c.moved ≠ c.len) && !heldBack sick c && decide (0 < moveLength sick ch Strip.reset c)
        && errAnd (unitsOk sick ch Strip.reset c (moveLength sick ch Strip.reset c)) (fun e => e.1 == statusWalk)
      | [] => false)
    && (match (chanOf used.core 0).queue with
      | c :: _ => decide (c.moved ≠ c.len)
        && decide (moveLength used (chanOf used.core 0) ((boundStrip used 0 0).getD Strip.reset) c = 0)
      | [] => false)) = true := by decide +kernel

/-- Accesses of a core to its SRAM, its context page and the mailbox page of its plot; atomics, one off its boundary. -/
theorem witness_GreenhouseCoresReachTheirPages :
    (let acc := fun k a n => (⟨0, a, n, k, 0x123456789, false, 5, 4⟩ : CoreAccess)
    let s := plotted .opened false 0 [] []
    let s := { s with sched := { s.sched with tenant := [(0, { tenant0 with spec := { spec0 with blocks := [0] } })] } }
    let c := gcoreOf s 0
    let page := mailPages + c.plot * 0x10000
    let goes := fun (a : CoreAccess) (v : Verdict) (p : Place) =>
      accessDue c a && decide (verdict s c a = v) && decide (placeOf s c a = p)
    !pruneDue c && goes (acc (.amo 2) (sramBase + 8) 8) .allowed .sram && goes (acc (.amo 2) 0x131008 8) .allowed .memory
    && decide (verdict s c (acc (.amo 2) 0x131004 8) = .misaligned) && decide (verdict s c (acc .lr (sramBase + 4) 8) = .misaligned)
    && !granuleHit c.ibad sramBase 4 && goes (acc .fetch sramBase 4) .allowed .sram && goes (acc .fetch 0x131000 4) .allowed .memory
    && [0x00, 0x08, 0x10, 0x18, 0x20].all (fun o => [AccessKind.load, .store].all fun k =>
      goes (acc k (contextPage + o) 8) .allowed (.context o))
    && [0, 0x200, 0x400, 0x408, 0x410, 0x418, 0x420, 0x428, 0x430].all (fun o => goes (acc .load (page + o) 8) .allowed (.page o))
    && [0, 0x430].all (fun o => goes (acc .store (page + o) 8) .allowed (.page o))
    && (coreTenant s 0).isSome && decide (coreTenant s 0 = boxOwner s c.plot) && !(installedOn s 0).any (· != 0)
    && decide (coreTenant (plotted .opened false 0 [] []) 0 ≠ boxOwner (plotted .opened false 0 [] []) 0)) = true := by
  decide +kernel

/-- A core whose count stands past its limit. -/
theorem witness_PrunesAreDue :
    (let s := plotted .opened false 0 [] []
    let late := setGCore s 0 { gcoreOf s 0 with pcount := 101 }
    pruneDue (gcoreOf late 0) && !pruneDue (gcoreOf s 0) && (gcoreOf late 0).installed && (gcoreOf late 0).inService
    && !(gcoreOf late 0).asleep) = true := by decide +kernel

/-- The table of a tenant is poisoned: a host access meets it. A mailbox of a tenant's list that another owns no more. -/
theorem witness_WalksAndTeardowns :
    (let s := owned user
    let sick := { s with ms := { s.ms with poison := [0x120000 / 128] } }
    let gone := setBox { s with sched := { s.sched with tenant := [(0, { tenant0 with tearing := true })] } } 0 Mailbox.reset
    walkPoisoned sick 0 0x1000 && (barPages sick tenant0 true (pagesOf 0x1000 8)).isNone && !walkPoisoned s 0 0x1000
    && mapRising gone.green.box && !(boxOf gone 0).ownerV && decide ((mapGet? gone.sched.tenant 0).map (·.tearing) = some true)
    && ((findCommand (engined true 0 [.writeBack 0x131000] []) 0).bind fun c => (c.pieces[0]?).map fun p =>
      sourceFree (engined true 0 [.writeBack 0x131000] []) c 0 p (.writeBack 0x131000)).getD false) = true := by decide +kernel

/-- Words of a Greenhouse core, put together from the formats of the RISC-V standard: ADDI −1, LW, SD, BEQ back by 4, JAL,
MULW, SH2ADD, CZERO.NEZ, AMOADD.D, CSRRW of mepc, FADD.D, and the parcels C.ADDI, C.LWSP, C.J, C.EBREAK and all zeros. -/
theorem test_greenhouse_words_decode :
    decodeRv 0xFFF10093 = some (.op .add .full 1 2 (.imm (-1))) ∧ decodeRv 0x00812283 = some (.load 4 true 5 2 8)
    ∧ decodeRv 0x00513423 = some (.store 8 5 2 8) ∧ decodeRv 0xFE208EE3 = some (.branch .eq 1 2 (-4))
    ∧ decodeRv 0x010000EF = some (.jal 1 16) ∧ decodeRv 0x0220813B = some (.op .mul .word 2 1 (.reg 2))
    ∧ decodeRv 0x2020C1B3 = some (.op (.shadd 2) .full 3 1 (.reg 2)) ∧ decodeRv 0x0E20F1B3 = some (.op .czeroNez .full 3 1 (.reg 2))
    ∧ decodeRv 0x0020B1AF = some (.amo 2 8 3 1 2) ∧ decodeRv 0x34129173 = some (.csr .write 2 0x341 (.reg 5))
    ∧ decodeRv 0x022080D3 = some (.fp (.arith .add true 1 1 2 0)) ∧ decodeRv 0x10FD = some (.op .add .full 1 1 (.imm (-1)))
    ∧ decodeRv 0x4522 = some (.load 4 true 10 2 8) ∧ decodeRv 0xA001 = some (.jal 0 0) ∧ decodeRv 0x9002 = some .ebreak
    ∧ decodeRv 0 = none := by decide +kernel

/-- RISC-V standard: MULW keeps the low 32 bits of the product, sign-extended; ECALL of machine mode is cause 11. -/
theorem test_greenhouse_core_computes :
    (let s := setGCore (owned user) 0 { gcoreOf user 0 with x := ((gcoreOf user 0).x.set 1 0x7FFFFFFF).set 2 2 }
    let t := rvExec s 0 0x0220813B 4 (.op .mul .word 2 1 (.reg 2))
    let e := rvExec s 0 0x73 4 .ecall
    xReg (gcoreOf t 0) 2 == 0xFFFFFFFFFFFFFFFE && (gcoreOf t 0).pc == (gcoreOf s 0).pc + 4
    && (gcoreOf e 0).mcause == 11 && (gcoreOf e 0).mepc == (gcoreOf s 0).pc) = true := by decide +kernel
/-- A core runs ADDI x1, x0, 5 from its SRAM. -/
theorem test_greenhouse_core_runs :
    (let c := gcoreOf user 0
    let s := setGCore (owned user) 0 { c with pc := BitVec.ofNat 64 sramBase, sram := (bytesOfNat 4 0x00500093).zipIdx.map fun p => (p.2, p.1) }
    let t := coreRun s 0
    xReg (gcoreOf t 0) 1 == 5 && (gcoreOf t 0).pc == BitVec.ofNat 64 sramBase + 4) = true := by decide +kernel

/-! ## Worked examples of the specification: each expected value stands in it -/

/-- The next state, looked at. -/
def ran (i : Instr) (s : State) (p : State → Bool) : Bool := nextAnd (exec i s) p

/-- 05 R101: −7 and 2. -/
theorem test_division_truncates :
    (let s := withG user [(6, -7), (7, 2)]
    ran (.div 5 6 7) s (fun t => readG t 5 == -3) && ran (.rem 5 6 7) s (fun t => readG t 5 == -1)
    && ran (.divu 5 6 7) s (fun t => readG t 5 == 0x7FFFFFFFFFFFFFFC)) = true := by decide +kernel

/-- 05 R104. -/
theorem test_lui_extends_the_sign :
    (ran (.lui 5 0x13) user (fun t => readG t 5 == 0x13000)
      && ran (.lui 5 0x80000) user (fun t => readG t 5 == 0xFFFFFFFF80000000)) = true := by
  decide +kernel

/-- 05 R102: SLTIU with 1 tests for zero, XORI with −1 complements. -/
theorem test_immediates_are_sign_extended :
    (let s := withG user [(6, 0x0F)]
    ran (.sltiu 5 0 1) s (fun t => readG t 5 == 1) && ran (.sltiu 5 6 1) s (fun t => readG t 5 == 0)
    && ran (.xori 5 6 (-1)) s (fun t => readG t 5 == 0xFFFFFFFFFFFFFFF0)) = true := by decide +kernel

/-- 03 R57: element (1, 17) of a tile of 2 rows of 20 takes scale 5 of v1; 3.0 × 0.625 × 2.0 = 3.75. -/
theorem test_scaled_element :
    (let s := withHart (vec 0x10 4) fun h => { h with
      vr := 2, vl := 20, vbscale := 0x4000, v := h.v.set 1 (elemsOf 8 [0, 0, 0, 0, 0, 0x48]) }
    decide (scaleIndex s 37 = 5) && decide (fcmp (operandValue s (.fp e2m1) false 0x5 37) (.fin false 15 (-2)) = 0)) = true := by
  decide +kernel

/-- 03 R61: under RNE 5.0 is written 0x6 in E2M1, and 0.25 as 0x0. -/
theorem test_e2m1_ties_go_to_even :
    (roundTo e2m1 .rne false (.fin false 5 0)).bits = 0x6 ∧ (roundTo e2m1 .rne false (.fin false 1 (-2))).bits = 0x0 := by
  decide +kernel

/-- 03 R62: 0x3F802000 to BF16 under SR with two draws. -/
theorem test_stochastic_rounding :
    (roundTo bf16 (.sr 0x1234F00A) false (val32 0x3F802000)).bits = 0x3F81
    ∧ (roundTo bf16 (.sr 0x00001000) false (val32 0x3F802000)).bits = 0x3F80 := by decide +kernel

/-- 03 R55: the ends and the middle of the block scales. -/
theorem test_block_scales :
    fcmp (e3m5 0xFE) (.fin false 31 0) = 0 ∧ fcmp (e3m5 0x01) (.fin false 1 (-7)) = 0
      ∧ fcmp (e3m5 0x20) (.fin false 1 (-2)) = 0
    ∧ fcmp (e3m5 0x1F) (.fin false 31 (-7)) = 0 := by decide +kernel

/-- 07 R133: INT8 100 + 50 clamps to 127; UINT8 3 − 5 to 0. -/
theorem test_saturation_clamps :
    (let pair := fun (code : Nat) (a b : Nat) => withHart (vec code 8) fun h => { h with
      v := (h.v.set 3 (elemsOf 8 [a])).set 4 (elemsOf 8 [b]), vl := 1 }
    ran (.vsadd vop) (pair 0x01 100 50) (fun t => elem? t 2 8 0 == some 127 && mapGet? t.hart.vsat 0 == some true)
    && ran (.vssub vop) (pair 0x09 3 5) (fun t => elem? t 2 8 0 == some 0
      && mapGet? t.hart.vsat 0 == some true)) = true := by
  decide +kernel

/-- 07 R142: 2^3.0 and log2 0.5 are exact. -/
theorem test_exact_special_functions :
    (specialTo fp32 .exp2 0x40400000).bits = 0x41000000 ∧ (specialTo fp32 .exp2 0x40400000).flags = 0
    ∧ (specialTo fp32 .log2 0x3F000000).bits = 0xBF800000
      ∧ (specialTo fp32 .log2 0x3F000000).flags = 0 := by decide +kernel

/-- 08 R163: two rows of three, summed by rows and by the tree of the tile. -/
theorem test_sum_trees :
    (let s := withHart (vec 0x13 32) fun h => { h with
      vr := 2, vl := 3
      v := (h.v.set 3 (elemsOf 32 [0, 0])).set 4
        (elemsOf 32 [0x3F800000, 0x33800000, 0x33800000, 0x40800000, 0x3F000000, 0x3E800000]) }
    ran (.vfredsum ⟨false, 2, 3, 4, false, false⟩) s (fun t => elem? t 2 32 0 == some 0x3F800000
      && elem? t 2 32 1 == some 0x40980000)
    && ran (.vfredsum ⟨false, 2, 3, 4, false, true⟩) s (fun t => elem? t 2 32 0 == some 0x40B80000)) = true := by decide +kernel

/-- 01 R18: a hart that holds groups 2 and 5 has physical rows 16 to 23 and 40 to 47. -/
theorem test_rows_of_groups :
    (let s := { vec 3 32 with core := { user.core with owner := (user.core.owner.set 2 (some 0)).set 5 (some 0) } }
    (List.range 16).map (physRow s) == [16, 17, 18, 19, 20, 21, 22, 23, 40, 41, 42, 43, 44, 45, 46, 47]) = true := by decide +kernel

/-- 17 R340: the targets of the worked grant sequence at steps 2, 5 and 9. -/
theorem test_lane_targets :
    (let hart := fun (f c : Nat) => { gang0 with id := f, rcd := { gang0.rcd with floors := [f], ceils := [c] } }
    let s := { user with core := { user.core with lpart := 0x0000880182018802 }, sched := { user.sched with gang := [hart 2 8] } }
    let at_ := fun (l : List Nat) => l.foldl (fun s h => modHart s h fun x => { x with contending := true }) s
    let ts := fun l => (List.range 3).map (laneTarget (at_ l))
    ts [0, 1] == [6, 2, 0] && ts [0, 1, 2] == [4, 2, 2] && ts [0, 2] == [5, 0, 3]) = true := by decide +kernel

/-- 10 R215: lo = −1.0, h = 0.5, G = 4, d = 1, EXTEND, c(2) = 2.0, c(3) = −4.0. -/
theorem test_spline_cell :
    (let k : Knot := ⟨0xBF800000, 0x3F000000, BitVec.ofNat 32 (inverse32 0x3F000000).bits, 4, 1, 1, 0⟩
    let c : List (BitVec 16) := [0, 0, 0x4000, 0xC080]
    let b := basisOf k false 0x3EC00000; let d := basisOf k true 0x3EC00000; let o := basisOf k false 0x3FC00000
    decide (k.invh = 0x40000000) && decide (b.i = 2) && !b.outside && decide ((phiOf b c).1 = 0xC0200000)
    && decide ((slopeOf k d c).1 = 0xC1400000) && o.outside && decide (o.i = 3)) = true := by decide +kernel

/-- 10 R212: the words of KNOTSET in that example give that knot. -/
theorem test_knotset_fields :
    (ran (.knotset false 3 6 7) (withG (mat 0x1A 16) [(6, 0x3F000000BF800000), (7, 0x54)]) (fun t =>
      knotOf t 3 == ⟨0xBF800000, 0x3F000000, 0x40000000, 4, 1, 1, 0⟩)) = true := by decide +kernel

/-- 13 R292: the worked walk of 0x0000_0400_2003_4A40, whose leaf takes A and D at a store. -/
theorem test_worked_walk :
    (let s := withHart State.reset fun h => { h with mode := .user, ptbase := 0x200000 }
    let point := fun (n : Nat) => bytesOfNat 8 (n / 65536 * 2 ^ 28 + 1)
    let s := setBytes (setBytes s 0x200008 (point 0x210000)) 0x210008 (point 0x220000)
    let s := setBytes s 0x220018 (bytesOfNat 8 0x00002D123000002F)
    okAnd (resolve s 0x0000040020034A40 .store) fun p => decide (p.pa = 0x2D1234A40) && decide (columnOf p.pa = 5)
      && decide (natOfBytes (homeBytes (touch s p true) 0x220018 8) = 0x00002D12300000EF)) = true := by decide +kernel

/-- 09 R184: elements 0 to 63 of 512 nonzero give an image of 384 bytes with blocks 0 and 1. -/
theorem test_image_of_two_blocks :
    (let s := withHart (vec 0x13 32) fun h => { h with
      count := 32, vl := 512
      v := h.v.set 4 ⟨.elems 32, false, (List.range 512).map fun e => (e, if e < 64 then 1 else 0), [], []⟩ }
    let s := { s with core := { s.core with owner := s.core.owner.set 1 (some 0) } }
    let img := imageOf s 4
    decide (img.length = 384) && decide (field img 0 4 = 512) && decide (field img 8 4 = 16) && decide (field img 12 4 = 2)
    && decide (field img 64 1 = 3)) = true := by decide +kernel

/-- 10, worked product: the words of accumulators, the row of K = 2 consumed, the words written back as BF16. -/
theorem test_worked_product :
    (let s := withHart (mat 0x1A 16) fun h => { h with
      tilem := 2, tilen := 2, tilek := 2, vr := 2, vl := 2
      v := h.v.set 4 (elemsOf 16 [0x4040, 0x4080, 0x3F80, 0x3E80])
      fifo := [⟨0x1000, 16, bytesOfNat 8 0x40204 ++ [0x80, 0x3F, 0, 0x40, 0, 0x3F, 0x80, 0xBF], 0, 0, false, false⟩] }
    ran (.mma false 4) s fun t => accWord t 0 0 == 0x40A00000 && accWord t 0 1 == 0x40000000 && accWord t 1 0 == 0x3F900000
      && accWord t 1 1 == 0x3FE00000 && accLive t == 3 && t.hart.fflags == 0
      && ran (.accx true 6 0 false true) t fun u => (List.range 4).map (elem? u 6 16) == [some 0x40A0, some 0x4000, some 0x3F90, some 0x3FE0]
        && accLive u == 0) = true := by decide +kernel

/-- 19 R352: RETT is ILLEGAL in user mode, and the trap is taken. -/
theorem test_privileged_in_user_mode :
    (ran (.rett) user (fun t => t.hart.tcause == 0 && t.hart.mode == .supervisor
      && t.hart.pc == user.hart.tvec)) = true := by
  decide +kernel

/-- 05 R98: g0 stays 0 and the PC goes on by 4. -/
theorem test_g0_discards :
    (ran (.addi 0 0 5) user (fun t => readG t 0 == 0 && t.hart.pc == user.hart.pc + 4)) = true := by decide +kernel

/-- 09 R180: four additions into one word in one window keep 1.0. -/
theorem test_scatter_window :
    (let s := withHart (withG (vec 0x13 32) [(1, 0x1000)]) fun h => { h with
      v := (h.v.set 2 (elemsOf 32 [0x3F800000, 0x33800000, 0x33800000, 0x33800000])).set 5 (elemsOf 32 [0, 0, 0, 0]) }
    ran (.vscatadd ⟨false, 2, 1, 5, false, false⟩) s (fun t => natOfBytes (liveBytes t 0x131000 4) == 0x3F800000)) = true := by
  decide +kernel
end Sys2Proof.Tests
end

/-! ## Scalar instructions: the fields of a scalar word, and what the decoder refuses (04 R76 to R89) -/
section
namespace Sys2Proof.Machine

/-- A field of bits 14:0 is a field of the word (R76). -/
theorem extractLsb'_wordI (w : IWord) {start len : Nat} (h : start + len ≤ 15) :
    (wordI w).extractLsb' start len = w.extractLsb' start len := BitVec.extractLsb'_extractLsb'_of_le h

theorem fieldX_wordI (w : IWord) : fieldX (wordI w) = w.extractLsb' 10 5 := extractLsb'_wordI w (by decide)

theorem field10_wordI (w : IWord) : field10 (wordI w) = w.extractLsb' 0 10 := extractLsb'_wordI w (by decide)

theorem field3_wordI (w : IWord) : field3 (wordI w) = w.extractLsb' 12 3 := extractLsb'_wordI w (by decide)

/-- Bits 31:25 of a scalar word: C is 0, and the rest is the opcode (R76). -/
theorem decodeWord_scalar {w : IWord} {op : BitVec 6} (h : w.extractLsb' 25 7 = op.setWidth 7) :
    decodeWord w = decodeFields false op (wordA w) (wordB w) (wordI w) := by
  have hop : wordOp w = op := by
    have : wordOp w = (w.extractLsb' 25 7).setWidth 6 := (BitVec.setWidth_extractLsb'_of_le (by decide)).symm
    rw [this, h, BitVec.setWidth_setWidth_of_le _ (by decide), BitVec.setWidth_eq]
  have hc : wordC w = false := by
    have : wordC w = (w.extractLsb' 25 7).getLsbD 6 := by simp [wordC]
    rw [this, h]
    simp
  unfold decodeWord
  rw [hc, hop]

/-! The opcodes whose decoder may refuse a word of this chapter. -/

theorem decodeWord_alu {w : IWord} (h : w.extractLsb' 25 7 = 0x01) :
    decodeWord w = decodeAlu (wordA w) (wordB w) (wordI w) := decodeWord_scalar (op := 0x01) h

theorem decodeWord_shift {w : IWord} (h : w.extractLsb' 25 7 = 0x08) :
    decodeWord w = decodeShift (wordA w) (wordB w) (wordI w) := decodeWord_scalar (op := 0x08) h

theorem decodeWord_branch {w : IWord} (h : w.extractLsb' 25 7 = 0x0E) :
    decodeWord w = Sys2Proof.decodeBranch (wordA w) (wordB w) (wordI w) := decodeWord_scalar (op := 0x0E) h

/-- SEXT and ZEXT take the width codes 1 to 3 (R80). -/
theorem decodeAlu_width_refused (a b : Reg) {i : BitVec 15} (hf : field10 i = 0x01C ∨ field10 i = 0x01D)
    (hx : fieldX i = 0 ∨ 4 ≤ (fieldX i).toNat) : decodeAlu a b i = .error .reservedField := by
  have code_ne (c : Reg) (h0 : c ≠ 0) (h4 : c.toNat < 4) : fieldX i ≠ c := by
    rintro rfl
    rcases hx with h | h
    · exact h0 h
    · omega
  have h1 : fieldX i ≠ 1#5 := code_ne 1 (by decide) (by decide)
  have h2 : fieldX i ≠ 2#5 := code_ne 2 (by decide) (by decide)
  have h3 : fieldX i ≠ 3#5 := code_ne 3 (by decide) (by decide)
  unfold decodeAlu need
  rcases hf with h | h <;> simp [h, h1, h2, h3]

/-- A shift word has bits 11:6 zero and one of the three rows in bits 14:12 (R81). -/
theorem decodeShift_refused (a b : Reg) {i : BitVec 15} (h : i.extractLsb' 6 6 ≠ 0 ∨ 2 < (field3 i).toNat) :
    ∃ e, decodeShift a b i = .error e := by
  unfold decodeShift need
  dsimp only
  split
  · rename_i h6
    have h3 : 2 < (field3 i).toNat := h.resolve_left (not_not_intro (by simpa using h6))
    split
    iterate 3 omega
    exact ⟨_, rfl⟩
  · exact ⟨_, rfl⟩

/-- The funct3 of a branch is at most 5 (R82). -/
theorem decodeBranch_refused (a b : Reg) {i : BitVec 15} (h : 6 ≤ (field3 i).toNat) :
    Sys2Proof.decodeBranch a b i = .error .reservedFunct := by
  unfold Sys2Proof.decodeBranch
  dsimp only
  split
  iterate 6 omega
  rfl

end Sys2Proof.Machine
end

/-! ## A trap taken in user mode (19 R352 to R354) -/
section
namespace Sys2Proof.Machine

/-- The bits of a word with a field replaced. -/
theorem getLsbD_putField (w : Word) (lo n v : Nat) {i : Nat} (hi : i < 64) :
    (putField w lo n v).getLsbD i = if lo ≤ i ∧ i < lo + n then v.testBit (i - lo) else w.getLsbD i := by
  have hsub : i - lo < 64 := by omega
  simp only [putField, BitVec.getLsbD_or, BitVec.getLsbD_and, BitVec.getLsbD_not, BitVec.getLsbD_shiftLeft,
    BitVec.getLsbD_ofNat, Nat.testBit_two_pow_sub_one, Nat.testBit_mod_two_pow, hi, hsub, decide_true, Bool.true_and]
  by_cases hlo : lo ≤ i
  · have hin : i - lo < n ↔ i < lo + n := by omega
    by_cases hn : i < lo + n <;> simp [hlo, hn, hin, Nat.not_lt.2 hlo]
  · simp [hlo, Nat.lt_of_not_le hlo]

/-- TSTATUS after trap entry, bit by bit: STEP and YIELD are 0, ACC is the access, PEND says whether a response is
outstanding, INT whether an interrupt was taken. -/
theorem getLsbD_enterTrap_tstatus (b : Bool) (t : TrapInfo) (h : Hart) {i : Nat} (hi : i < 64) :
    (enterTrap b t h).tstatus.getLsbD i =
      if i = 14 then h.request.isSome || h.held.isSome
      else if i < 2 then false
      else if i = 12 ∨ i = 13 then t.acc.testBit (i - 12)
      else if i = 15 then b
      else h.tstatus.getLsbD i := by
  have hpend : (if h.request.isSome then h.request else h.held).isSome = (h.request.isSome || h.held.isSome) := by
    cases h.request <;> rfl
  have bit0 (p : Bool) : (if p then 1 else 0 : Nat).testBit 0 = p := by cases p <;> rfl
  show (putField (putField (putField (putField h.tstatus 15 1 (if b then 1 else 0)) 12 2 t.acc) 0 2 0) 14 1
    (if (if h.request.isSome then h.request else h.held).isSome then 1 else 0)).getLsbD i = _
  simp only [getLsbD_putField _ _ _ _ hi, hpend]
  by_cases h14 : i = 14
  · subst h14; simp only [Nat.sub_self, bit0]; rfl
  by_cases h2 : i < 2
  · simp [h14, h2, show ¬14 ≤ i by omega]
  by_cases h12 : i = 12 ∨ i = 13
  · simp [h14, h2, h12, show 12 ≤ i ∧ i < 14 by omega, show ¬(14 ≤ i ∧ i < 15) by omega]
  by_cases h15 : i = 15
  · subst h15; simp only [Nat.sub_self, bit0]; rfl
  · simp [h14, h2, h12, h15, show ¬(14 ≤ i ∧ i < 15) by omega, show ¬(12 ≤ i ∧ i < 14) by omega,
      show ¬(15 ≤ i ∧ i < 16) by omega]

/-- ACC after trap entry is the access of the trap. -/
theorem acc_enterTrap (b : Bool) (t : TrapInfo) (h : Hart) (ha : t.acc < 4) :
    ((enterTrap b t h).tstatus.extractLsb' 12 2).toNat = t.acc := by
  refine Nat.eq_of_testBit_eq fun i => ?_
  rw [BitVec.testBit_toNat, BitVec.getLsbD_extractLsb']
  by_cases hi : i < 2
  · rw [getLsbD_enterTrap_tstatus b t h (by omega), if_neg (by omega), if_neg (by omega), if_pos (by omega)]
    simp [hi]
  · have : t.acc < 2 ^ i := Nat.lt_of_lt_of_le ha (Nat.pow_le_pow_right (n := 2) (by decide) (Nat.le_of_not_lt hi))
    simp [hi, Nat.testBit_lt_two_pow this]

/-- A trap of R353 other than ACCESS, in user mode, is taken as the statements speak of it. -/
theorem trapTaken_takeTrap (s : State) (t : TrapInfo) (hm : s.hart.mode = .user) (hc : t.cause < 64)
    (ha : t.cause ≠ causeAccess) (hacc : t.acc < 4) :
    TrapTaken s (takeTrap s t) t.cause t.tval t.acc false [] := by
  rw [takeTrap_user s t hm hc ha]
  obtain ⟨hcause, htval, htpc, hpc, hmode, -⟩ := enterTrap_fields false t s.hart
  have bit {i : Nat} (hi : i < 64) := getLsbD_enterTrap_tstatus false t s.hart hi
  refine ⟨hcause, htval, htpc, hmode, hpc, acc_enterTrap false t s.hart hacc, bit (by decide), bit (by decide),
    bit (by decide), bit (by decide), fun i hi hni => ?_, by simp, rfl⟩
  simp only [List.append_nil, List.mem_cons, List.not_mem_nil, or_false, not_or] at hni
  obtain ⟨h0, h1, h12, h13, h14, h15⟩ := hni
  show (enterTrap false t s.hart).tstatus.getLsbD i = _
  rw [bit hi]
  simp [h12, h13, h14, h15, show ¬i < 2 by omega]

/-- A word that the decoder refuses raises ILLEGAL (04 R89). -/
theorem raisesIllegal_of_decodeWord {w : IWord} {e : DecodeError} (h : decodeWord w = .error e) : RaisesIllegal w := by
  have hi : instrOf w = .illegalWord w := by unfold instrOf; rw [h]
  refine ⟨hi, fun s hm => ⟨takeTrap s (illegal w), by rw [hi]; rfl, ?_⟩⟩
  exact trapTaken_takeTrap s (illegal w) hm (Nat.zero_lt_succ _) (Nat.zero_ne_add_one _) (Nat.lt_succ_self 3)

end Sys2Proof.Machine
end

/-! ## The values of the rows (05 R100 to R104, R108) -/
section
namespace Sys2Proof.Machine

theorem shiftOf_eq_shiftBits (b : Word) : shiftOf b = shiftBits b := by
  simp [shiftOf, shiftBits]

/-- The upper half of a 128-bit word made of an integer is the integer's quotient by 2^64, rounded down. -/
theorem extractLsb'_ofInt_high (x : Int) :
    (BitVec.ofInt 128 x).extractLsb' 64 64 = BitVec.ofInt 64 (x / 2 ^ 64) := by
  refine BitVec.eq_of_toNat_eq ?_
  rw [BitVec.extractLsb'_toNat, BitVec.toNat_ofInt, BitVec.toNat_ofInt, Nat.shiftRight_eq_div_pow]
  omega

theorem mulhWord_eq (a b : Word) :
    mulhWord a b = (a.signExtend 128 * b.signExtend 128).extractLsb' 64 64 := by
  have hprod : a.signExtend 128 * b.signExtend 128 = BitVec.ofInt 128 (a.toInt * b.toInt) :=
    (BitVec.ofInt_mul _ _).symm
  rw [hprod, extractLsb'_ofInt_high]
  rfl

theorem mulhuWord_eq (a b : Word) : mulhuWord a b = (a.setWidth 128 * b.setWidth 128).extractLsb' 64 64 := by
  refine BitVec.eq_of_toNat_eq ?_
  simp only [mulhuWord, BitVec.toNat_ofNat, BitVec.extractLsb'_toNat, BitVec.toNat_mul, BitVec.toNat_setWidth,
    Nat.shiftRight_eq_div_pow, ← Nat.mul_mod]
  omega

theorem remWord_eq (a b : Word) :
    remWord a b = if b = 0 then a else BitVec.ofInt 64 (a.toInt - b.toInt * a.toInt.tdiv b.toInt) := by
  rw [remWord, Int.tmod_def]

/-- The remainder by a divisor that is not 0, as an integer. -/
theorem toInt_remWord (a : Word) {b : Word} (hb : b ≠ 0) : (remWord a b).toInt = a.toInt.tmod b.toInt := by
  rw [remWord, if_neg hb, ← BitVec.toInt_srem, BitVec.ofInt_toInt]

/-- A remainder is 0 or has the sign of the dividend (R101). -/
theorem remWord_sign (a : Word) {b : Word} (hb : b ≠ 0) :
    (remWord a b).toInt = 0 ∨ ((remWord a b).toInt < 0 ↔ a.toInt < 0) := by
  rw [toInt_remWord a hb, ← Int.sign_eq_zero_iff_zero, ← Int.sign_eq_neg_one_iff_neg, ← Int.sign_eq_neg_one_iff_neg,
    Int.sign_tmod]
  split
  · exact .inl rfl
  · exact .inr Iff.rfl

/-! The corners of R101: −2^63 by −1, and −7 by 2. -/

theorem divWord_overflow : divWord (BitVec.ofInt 64 (-2 ^ 63)) (BitVec.ofInt 64 (-1)) = BitVec.ofInt 64 (-2 ^ 63) := by
  decide

theorem remWord_overflow : remWord (BitVec.ofInt 64 (-2 ^ 63)) (BitVec.ofInt 64 (-1)) = 0 := by decide

theorem divWord_truncates : divWord (BitVec.ofInt 64 (-7)) 2 = BitVec.ofInt 64 (-3) := by decide

theorem remWord_truncates : remWord (BitVec.ofInt 64 (-7)) 2 = BitVec.ofInt 64 (-1) := by decide

theorem divuWord_unsigned : divuWord (BitVec.ofInt 64 (-7)) 2 = 0x7FFFFFFFFFFFFFFC := by decide

theorem clzWord_spec (a : Word) : ∃ n, LeadingZeros a n ∧ clzWord a = BitVec.ofNat 64 n := by
  unfold clzWord
  split
  · rename_i h
    subst h
    exact ⟨64, ⟨by decide, by simp, by simp⟩, rfl⟩
  · rename_i h
    have h0 : a.toNat ≠ 0 := fun e => h (BitVec.eq_of_toNat_eq e)
    have hlog : Nat.log2 a.toNat < 64 := (Nat.log2_lt h0).2 a.isLt
    refine ⟨63 - Nat.log2 a.toNat, ⟨by omega, fun i hi => ?_, fun _ => ?_⟩, rfl⟩
    · rw [← BitVec.testBit_toNat]
      exact Nat.testBit_lt_two_pow ((Nat.log2_lt h0).1 (by omega))
    · rw [← BitVec.testBit_toNat, show 63 - (63 - Nat.log2 a.toNat) = Nat.log2 a.toNat by omega]
      exact Nat.testBit_log2 h0

theorem ctzWord_spec (a : Word) : ∃ n, TrailingZeros a n ∧ ctzWord a = BitVec.ofNat 64 n := by
  refine ⟨((List.range 64).find? fun i => a.getLsbD i).getD 64, ?_, rfl⟩
  cases hf : (List.range 64).find? fun i => a.getLsbD i with
  | none => exact ⟨Nat.le_refl _, by simpa using List.find?_range_eq_none.1 hf, by simp⟩
  | some n =>
    obtain ⟨hbit, hmem, hlow⟩ := List.find?_range_eq_some.1 hf
    exact ⟨(List.mem_range.1 hmem).le, by simpa using hlow, fun _ => hbit⟩

theorem popcWord_eq (a : Word) : popcWord a = BitVec.ofNat 64 (oneBits a) := by
  unfold popcWord oneBits
  rw [← Nat.count_eq_card_filter_range]
  simp [Nat.count]

/-- The immediate of LUI and AUIPC, as the rule writes it (04 R77). -/
theorem imm20_eq (i : BitVec 20) : imm20 i = (i.setWidth 32 <<< 12).signExtend 64 := by
  have hshift : i ++ (0 : BitVec 12) = i.setWidth 32 <<< 12 := by
    refine BitVec.eq_of_toNat_eq ((BitVec.toNat_append i 0).trans ?_)
    simp [Nat.shiftLeft_eq]
    omega
  rw [imm20, hshift]

/-! The worked immediates of R104. -/

theorem imm20_small : imm20 0x13 = 0x13000 := by decide

theorem imm20_negative : imm20 0x80000 = 0xFFFFFFFF80000000 := by decide

/-- An unsigned comparison with 1 tests for zero (R102). -/
theorem sltuWord_one_iff (a : Word) : sltuWord a 1 = 1 ↔ a = 0 := by
  have hlt : a.ult 1 = true ↔ a = 0 := by
    rw [BitVec.ult_iff_lt, BitVec.lt_def, BitVec.toNat_eq]
    exact Nat.lt_one_iff
  unfold sltuWord boolWord
  split <;> simp_all

end Sys2Proof.Machine
end

/-! ## What each row executes, and its completion (05 R98 to R113) -/
section
namespace Sys2Proof.Machine

/-- A register other than g0 that was written holds the value. -/
theorem GWritten.read {s t : State} {gd : Reg} {x : Word} (h : GWritten s t gd x) (hgd : gd ≠ 0) : readG t gd = x := by
  rw [h.1, if_neg hgd]

/-- What is read of the destination after an instruction that reads two registers and writes one. -/
theorem alu_value (f : Word → Word → Word) {gd : Reg} (hgd : gd ≠ 0) (a b : Reg) (s : State) :
    ∃ t, alu f gd a b s = .next t ∧ readG t gd = f (readG s a) (readG s b) := by
  obtain ⟨t, ht, hw, -⟩ := done_writeG s gd (f (readG s a) (readG s b))
  exact ⟨t, ht, hw.read hgd⟩

theorem alu_congr {f g : Word → Word → Word} (h : ∀ x y, f x y = g x y) (gd a b : Reg) (s : State) :
    alu f gd a b s = alu g gd a b s := by
  unfold alu; rw [h]

/-- Every row of R100 reads both sources, then writes the value of the row. -/
theorem exec_registerResults :
    ∀ p ∈ registerResults, ∀ gd a b s, exec (p.1 gd a b) s = alu p.2 gd a b s := by
  simp only [registerResults, List.forall_mem_cons, List.not_mem_nil, false_implies, implies_true, and_true]
  refine ⟨?add, ?sub, ?and, ?or, ?xor, ?andn, ?sll, ?srl, ?sra, ?slt, ?sltu, ?min, ?max, ?minu, ?maxu, ?mul, ?mulh,
    ?mulhu⟩
  case sll => simp only [← shiftOf_eq_shiftBits]; intros; rfl
  case srl => simp only [← shiftOf_eq_shiftBits]; intros; rfl
  case sra => simp only [← shiftOf_eq_shiftBits]; intros; rfl
  case min => exact alu_congr fun x y => by simp only [minWord, BitVec.slt_iff_toInt_lt]
  case max => exact alu_congr fun x y => by simp only [maxWord, BitVec.slt_iff_toInt_lt]
  case minu => exact alu_congr fun x y => by simp only [minuWord, BitVec.ult_iff_toNat_lt]
  case maxu => exact alu_congr fun x y => by simp only [maxuWord, BitVec.ult_iff_toNat_lt]
  case mul => exact alu_congr fun x y => BitVec.mul_def
  case mulh => exact alu_congr mulhWord_eq
  case mulhu => exact alu_congr mulhuWord_eq
  all_goals intros; rfl

/-- Every row of R101. -/
theorem exec_divisionResults :
    ∀ p ∈ divisionResults, ∀ gd a b s, exec (p.1 gd a b) s = alu p.2 gd a b s := by
  simp only [divisionResults, List.forall_mem_cons, List.not_mem_nil, false_implies, implies_true, and_true]
  refine ⟨?div, ?rem, ?divu, ?remu⟩
  case rem => exact alu_congr remWord_eq
  all_goals intros; rfl

/-- Every row of R102 takes a = g[gs1] and i = sext(imm15). -/
theorem exec_immediateResults :
    ∀ p ∈ immediateResults, ∀ gd a i s, exec (p.1 gd a i) s = alu1 (fun x => p.2 x (i.signExtend 64)) gd a s := by
  simp only [immediateResults, List.forall_mem_cons, List.not_mem_nil, false_implies, implies_true, and_true]
  refine ⟨?addi, ?andi, ?ori, ?xori, ?slti, ?sltiu⟩
  all_goals intros; rfl

/-- Every row of R103 takes its six-bit amount. -/
theorem exec_shiftResults :
    ∀ p ∈ shiftResults, ∀ gd a (sh : BitVec 6) s, exec (p.1 gd a sh) s = alu1 (fun x => p.2 x sh.toNat) gd a s := by
  simp only [shiftResults, List.forall_mem_cons, List.not_mem_nil, false_implies, implies_true, and_true]
  refine ⟨?slli, ?srli, ?srai⟩
  all_goals intros; rfl

theorem branch_congr {p q : Word → Word → Bool} (h : ∀ x y, p x y = q x y) (a b : Reg) (off : BitVec 12) (s : State) :
    branch p a b off s = branch q a b off s := by
  unfold branch; rw [h]

/-- Every row of R108 branches under its condition. -/
theorem exec_branchConditions :
    ∀ p ∈ branchConditions, ∀ a b off s, exec (p.1 a b off) s = branch p.2 a b off s := by
  simp only [branchConditions, List.forall_mem_cons, List.not_mem_nil, false_implies, implies_true, and_true]
  refine ⟨?beq, ?bne, ?blt, ?bge, ?bltu, ?bgeu⟩
  case beq => exact branch_congr (p := (· == ·)) beq_eq_decide
  case bne => exact branch_congr (p := (· != ·)) fun x y => Bool.eq_iff_iff.2 (by simp)
  case bge => exact branch_congr (p := fun x y => !x.slt y) fun x y => BitVec.sle_eq_not_slt.symm
  case bgeu => exact branch_congr (p := fun x y => !x.ult y) fun x y => (BitVec.ule_eq_not_ult y x).symm
  all_goals intros; rfl

/-- A branch completes either way, and writes no register. -/
theorem branch_completes (p : Word → Word → Bool) (a b : Reg) (off : BitVec 12) (s : State) :
    ∃ t, branch p a b off s = .next t
      ∧ (if p (readG s a) (readG s b) then JumpedTo s t (s.hart.pc + off.signExtend 64 * 4) else InSequence s t)
      ∧ GKept s t ∧ ScalarFrame s t ∧ SameMemory s t := by
  unfold branch
  split
  · exact ⟨_, rfl, jumpTo_jumped s _, readG_jumpTo s _, rfl, readByte_jumpTo s _⟩
  · exact ⟨_, rfl, complete_inSequence s, readG_complete s, rfl, readByte_complete s⟩

/-! The loop-end action (R112), by the field it writes. -/

theorem loopEnd_lc1 (a : Word) (h : Hart) :
    (loopEnd a h).lc1 = if h.lc1 ≠ 0 ∧ h.le1 = a then h.lc1 - 1 else h.lc1 := by
  simp [loopEnd]

/-- What `loopEnd` tests of a level with count n and end e: whether it ends at the instruction. -/
theorem endsHere_iff (n e a : Word) : (n != 0 && e == a) = true ↔ n ≠ 0 ∧ e = a := by simp

/-- What `loopEnd` tests of a level before it goes back: it ends at the instruction, and its count, gone down by one, is
not spent. -/
theorem goesBack_iff (n e a : Word) :
    (n != 0 && e == a && (if n != 0 && e == a then n - 1 else n) != 0) = true ↔ (n ≠ 0 ∧ e = a) ∧ n ≠ 1 := by
  rw [Bool.and_eq_true, ← endsHere_iff]
  refine and_congr_right fun he => ?_
  rw [if_pos he, bne_iff_ne]
  exact sub_ne_zero

/-- Level 1 goes back: level 0 has no turn. -/
theorem loopEnd_back {a : Word} {h : Hart} (hb : (h.lc1 ≠ 0 ∧ h.le1 = a) ∧ h.lc1 ≠ 1) :
    (loopEnd a h).pc = h.lb1 ∧ (loopEnd a h).lc0 = h.lc0 := by
  have hback := (goesBack_iff h.lc1 h.le1 a).2 hb
  simp only [loopEnd, hback]
  exact ⟨rfl, rfl⟩

/-- Level 1 does not go back: level 0 counts down where it ends here, and goes back where its count is not spent. -/
theorem loopEnd_not_back {a : Word} {h : Hart} (hb : ¬((h.lc1 ≠ 0 ∧ h.le1 = a) ∧ h.lc1 ≠ 1)) :
    (loopEnd a h).lc0 = (if h.lc0 ≠ 0 ∧ h.le0 = a then h.lc0 - 1 else h.lc0)
    ∧ (loopEnd a h).pc = if (h.lc0 ≠ 0 ∧ h.le0 = a) ∧ h.lc0 ≠ 1 then h.lb0 else a + 4 := by
  have hback := Bool.eq_false_iff.2 (mt (goesBack_iff h.lc1 h.le1 a).1 hb)
  simp only [loopEnd, hback, Bool.not_false, Bool.true_and, Bool.false_eq_true, if_false]
  exact ⟨if_congr (endsHere_iff h.lc0 h.le0 a) rfl rfl, if_congr (goesBack_iff h.lc0 h.le0 a) rfl rfl⟩

/-- It writes nothing else. -/
theorem loopEnd_frame (a : Word) (h : Hart) :
    loopEnd a h = { h with pc := (loopEnd a h).pc, lc0 := (loopEnd a h).lc0, lc1 := (loopEnd a h).lc1 } := rfl

/-! LOOP writes the registers of its level, then acts on the count (R111). -/

/-- A count of 0 jumps past the body. -/
theorem exec_loop_zero {lvl : Bool} {a : Reg} {i : BitVec 15} {s : State} (h : readG s a = 0) :
    exec (.loop lvl a i) s = .next (jumpTo
      { s with hart := setLoop lvl (readG s a) (s.hart.pc + 4) (s.hart.pc + i.setWidth 64 * 4) s.hart }
      (s.hart.pc + i.setWidth 64 * 4 + 4)) := if_pos h

/-- Another count goes on in sequence, under the registers just written. -/
theorem exec_loop_nonzero {lvl : Bool} {a : Reg} {i : BitVec 15} {s : State} (h : readG s a ≠ 0) :
    exec (.loop lvl a i) s = .next (complete
      { s with hart := setLoop lvl (readG s a) (s.hart.pc + 4) (s.hart.pc + i.setWidth 64 * 4) s.hart }) := if_neg h

end Sys2Proof.Machine
end

/-! ## The statements about scalar instructions (chapter 05) -/
section
namespace Sys2Proof.Machine

/-- Settles O8: each row reads its sources, writes one register and goes on in sequence; the counts of bits meet what the
rule says of them. -/
theorem registerArithmeticCompletes : Obligations.RegisterArithmeticCompletes := by
  unfold Obligations.RegisterArithmeticCompletes
  refine ⟨fun p hp gd gs1 gs2 s => ?rows, fun gd gs1 s => ?clz, fun gd gs1 s => ?ctz, fun gd gs1 s => ?popc,
    fun c hc gd gs1 s => ?widths, fun w hop hf hx => ?refused⟩
  case rows => rw [exec_registerResults p hp]; exact done_writeG s gd _
  case clz =>
    obtain ⟨n, hn, he⟩ := clzWord_spec (readG s gs1)
    exact ⟨n, hn, he ▸ done_writeG s gd _⟩
  case ctz =>
    obtain ⟨n, hn, he⟩ := ctzWord_spec (readG s gs1)
    exact ⟨n, hn, he ▸ done_writeG s gd _⟩
  case popc => rw [← popcWord_eq]; exact done_writeG s gd _
  case widths =>
    simp only [List.mem_cons, List.not_mem_nil, or_false] at hc
    rcases hc with rfl | rfl | rfl <;> exact ⟨done_writeG s gd _, done_writeG s gd _⟩
  case refused =>
    refine raisesIllegal_of_decodeWord (e := .reservedField) ?_
    rw [decodeWord_alu hop]
    rw [← field10_wordI] at hf
    rw [← fieldX_wordI] at hx
    exact decodeAlu_width_refused _ _ hf hx

/-- Settles O9: the rows complete for all operands; the corners are the values of the rows there. -/
theorem divisionNeverTraps : Obligations.DivisionNeverTraps := by
  unfold Obligations.DivisionNeverTraps
  refine ⟨fun p hp gd gs1 gs2 s => ?rows, fun gd gs1 gs2 s hgd h1 h2 => ?overflow, fun gd gs1 gs2 s hgd hb => ?sign,
    fun gd gs1 gs2 s hgd h1 h2 => ?seven⟩
  case rows => rw [exec_divisionResults p hp]; exact done_writeG s gd _
  case overflow =>
    have hdiv := alu_value divWord hgd gs1 gs2 s
    have hrem := alu_value remWord hgd gs1 gs2 s
    rw [h1, h2, divWord_overflow] at hdiv
    rw [h1, h2, remWord_overflow] at hrem
    exact ⟨hdiv, hrem⟩
  case sign =>
    obtain ⟨t, ht, hr⟩ := alu_value remWord hgd gs1 gs2 s
    exact ⟨t, ht, hr ▸ remWord_sign _ hb⟩
  case seven =>
    have hdiv := alu_value divWord hgd gs1 gs2 s
    have hrem := alu_value remWord hgd gs1 gs2 s
    have hdivu := alu_value divuWord hgd gs1 gs2 s
    rw [h1, h2, divWord_truncates] at hdiv
    rw [h1, h2, remWord_truncates] at hrem
    rw [h1, h2, divuWord_unsigned] at hdivu
    exact ⟨hdiv, hrem, hdivu⟩

/-- Settles O10: the rows complete with sext(imm15) or the six-bit amount; the decoder refuses the other words of opcode
0x08. -/
theorem immediateArithmeticCompletes : Obligations.ImmediateArithmeticCompletes := by
  unfold Obligations.ImmediateArithmeticCompletes
  refine ⟨fun p hp gd gs1 imm s => ?rows, fun gd gs1 s hgd => ⟨?sltiu, ?xori⟩, fun imm => ?range,
    fun p hp gd gs1 sh s => ?shifts, fun w hop h => ?refused, by decide⟩
  case rows => rw [exec_immediateResults p hp]; exact done_writeG s gd _
  case sltiu =>
    obtain ⟨t, ht, hw, -⟩ := done_writeG s gd (sltuWord (readG s gs1) (imm15 1))
    exact ⟨t, ht, by rw [hw.read hgd]; exact sltuWord_one_iff _⟩
  case xori =>
    obtain ⟨t, ht, hw, -⟩ := done_writeG s gd (readG s gs1 ^^^ imm15 (BitVec.allOnes 15))
    have hones : imm15 (BitVec.allOnes 15) = BitVec.allOnes 64 := by decide
    exact ⟨t, ht, by rw [hw.read hgd, hones, BitVec.xor_allOnes]⟩
  case range =>
    rw [BitVec.toInt_signExtend_of_le (by decide)]
    exact ⟨BitVec.le_toInt imm, Int.le_of_lt_add_one BitVec.toInt_lt⟩
  case shifts => rw [exec_shiftResults p hp]; exact done_writeG s gd _
  case refused =>
    rw [← field3_wordI, ← extractLsb'_wordI w (by decide)] at h
    obtain ⟨e, he⟩ := decodeShift_refused (wordA w) (wordB w) h
    exact raisesIllegal_of_decodeWord ((decodeWord_shift hop).trans he)

/-- Settles O11: both write their immediate, AUIPC beside the PC that the instruction stands at. -/
theorem upperImmediatesComplete : Obligations.UpperImmediatesComplete := by
  unfold Obligations.UpperImmediatesComplete
  have value (imm : BitVec 20) (s : State) : ∃ t, exec (.lui 5 imm) s = .next t ∧ readG t 5 = imm20 imm := by
    obtain ⟨t, ht, hw, -⟩ := done_writeG s 5 (imm20 imm)
    exact ⟨t, ht, hw.read (by decide)⟩
  refine ⟨fun gd imm s => ?_, by decide, fun s =>
    ⟨imm20_small ▸ value 0x13 s, imm20_negative ▸ value 0x80000 s⟩⟩
  rw [← imm20_eq]
  exact ⟨done_writeG s gd _, done_writeG s gd _⟩

/-- Settles O12: each row branches under its condition; the decoder refuses funct3 6 and 7. -/
theorem branchesComplete : Obligations.BranchesComplete := by
  unfold Obligations.BranchesComplete
  refine ⟨fun p hp gs1 gs2 off s => ?rows, fun w hop h => ?refused, by decide⟩
  case rows => rw [exec_branchConditions p hp]; exact branch_completes p.2 gs1 gs2 off s
  case refused =>
    rw [← field3_wordI] at h
    exact raisesIllegal_of_decodeWord ((decodeWord_branch hop).trans (decodeBranch_refused _ _ h))

/-- Settles O14: by whether the count is 0, for each level. -/
theorem loopOpensItsLevel : Obligations.LoopOpensItsLevel := by
  unfold Obligations.LoopOpensItsLevel
  refine ⟨fun lvl gs1 imm => by simp [Instr.wf], fun gs1 imm s => ?_⟩
  by_cases hn : readG s gs1 = 0
  · constructor
    all_goals exact ⟨_, exec_loop_zero hn, rfl, rfl, rfl, rfl, fun _ => rfl, fun _ => rfl, fun _ => ⟨rfl, hn, rfl⟩,
      fun h => absurd hn h, rfl⟩
  · constructor
    all_goals exact ⟨_, exec_loop_nonzero hn, rfl, rfl, rfl, rfl, fun _ => rfl, fun _ => rfl, fun h => absurd h hn,
      fun _ => complete_inSequence _, rfl⟩

/-- Settles O15: by what the loop-end action gives for each of the three fields it writes. -/
theorem loopEndAction : Obligations.LoopEndAction := by
  unfold Obligations.LoopEndAction
  intro a h
  dsimp only
  refine ⟨fun he => by rw [loopEnd_lc1, if_pos he], fun he => by rw [loopEnd_lc1, if_neg he], ?down0, ?stay0, ?back1,
    ?back0, ?next, loopEnd_frame a h⟩
  case down0 => rintro ⟨hb, he⟩; rw [(loopEnd_not_back hb).1, if_pos he]
  case stay0 =>
    intro hn
    by_cases hb : (h.lc1 ≠ 0 ∧ h.le1 = a) ∧ h.lc1 ≠ 1
    · exact (loopEnd_back hb).2
    · rw [(loopEnd_not_back hb).1, if_neg fun he => hn ⟨hb, he⟩]
  case back1 => exact fun hb => (loopEnd_back hb).1
  case back0 => rintro hb ⟨⟨-, he⟩, hc⟩; rw [(loopEnd_not_back hb).2, if_pos ⟨he, hc⟩]
  case next => intro hb hn; rw [(loopEnd_not_back hb).2, if_neg fun ⟨he, hc⟩ => hn ⟨⟨hb, he⟩, hc⟩]

end Sys2Proof.Machine
end
